-- ==== Sys2Proof/Word.lean ====
section
/-! DEFINITION. The word types of the Zesukel and their plainest arithmetic (spec 00_scope R4, R6; 03_numbers R47). -/
namespace Sys2Proof

/-- Eight bits, the unit of memory. -/
abbrev Byte := BitVec 8
/-- Thirty-two bits, one register of one lane. -/
abbrev Word := BitVec 32
/-- Sixty-four bits: addresses, PCs and register pairs. -/
abbrev Dword := BitVec 64
/-- One bit per lane position of a group (R148). -/
abbrev LaneMask := BitVec 32

/-- Bits [hi:lo] of a natural number, both ends included (R4). -/
def bits (w hi lo : Nat) : Nat := (w / 2 ^ lo) % 2 ^ (hi + 1 - lo)

/-- Bit i of a natural number. -/
def bit (w i : Nat) : Bool := (w / 2 ^ i) % 2 = 1

/-- The two's-complement reading of the low n bits. -/
def sextNat (n w : Nat) : Int :=
  let v := w % 2 ^ n
  if v < 2 ^ (n - 1) then (v : Int) else (v : Int) - (2 ^ n : Nat)

/-- An integer taken modulo 2 to the n, as a natural number. -/
def wrapNat (n : Nat) (i : Int) : Nat := (i % ((2 ^ n : Nat) : Int)).toNat

/-- The lane positions of a group, in ascending order. -/
def lanes : List Nat := List.range 32

/-- The lanes of a mask, in ascending order. -/
def maskLanes (m : LaneMask) : List Nat := lanes.filter (fun l => m.getLsbD l)

/-- The mask of the lanes that a test selects. -/
def maskOf (p : Nat → Bool) : LaneMask :=
  BitVec.ofNat 32 (lanes.foldl (fun a l => if p l then a + 2 ^ l else a) 0)

/-- The lowest lane of a mask; 0 when it is empty. -/
def lowestLane (m : LaneMask) : Nat := ((maskLanes m).head?).getD 0

/-- Little-endian bytes of a number (R6). -/
def leBytes : Nat → Nat → List Byte
  | 0, _ => []
  | n + 1, w => BitVec.ofNat 8 w :: leBytes n (w / 256)

/-- The number that little-endian bytes hold (R6). -/
def leNat : List Byte → Nat
  | [] => 0
  | b :: bs => b.toNat + 256 * leNat bs

/-- Counts wrap modulo 2 to the 32 and are compared between values less than 2 to the 31 apart (09_step R182). -/
def countGe (a b : Word) : Bool := (a - b).toNat < 2 ^ 31

end Sys2Proof
end

