-- ==== Sys2Proof/Machine/Sha.lean ====
section
/-! DEFINITION. SHA-384, which the defect-map signature and the attestation report use (spec 23_platform R385, R387). -/
namespace Sys2Proof.Machine

/-- The largest number whose n-th power is at most a bound, by its bits from the k-th down. -/
def rootBits (n bound : Nat) : Nat → Nat → Nat
  | 0, acc => acc
  | k + 1, acc => rootBits n bound k (if (acc + 2 ^ k) ^ n ≤ bound then acc + 2 ^ k else acc)

/-- The first 80 primes. -/
def primes80 : List Nat :=
  ((List.range 410).filter (fun n => decide (n ≥ 2) && (List.range 21).all (fun d => decide (d < 2) || decide (n = d) || decide (n % d ≠ 0)))).take 80

/-- The round constants: the first 64 bits of the fractional parts of the cube roots of the first 80 primes. -/
def shaK : List (BitVec 64) := primes80.map (fun p => BitVec.ofNat 64 (rootBits 3 (p * 2 ^ 192) 68 0))

/-- The initial hash value: the first 64 bits of the fractional parts of the square roots of the 9th to 16th primes. -/
def shaInit : List (BitVec 64) := ((primes80.drop 8).take 8).map (fun p => BitVec.ofNat 64 (rootBits 2 (p * 2 ^ 128) 68 0))

/-- A big-endian number of n bytes as bytes. -/
def beBytes (n x : Nat) : List Byte := (leBytes n x).reverse
/-- Bytes as a big-endian number. -/
def beNat (bs : List Byte) : Nat := leNat bs.reverse

/-- The padded message. -/
def shaPad (msg : List Byte) : List Byte :=
  msg ++ [0x80#8] ++ List.replicate ((239 - msg.length % 128) % 128) 0 ++ beBytes 16 (8 * msg.length)

/-- The message schedule grown by n words. -/
def shaSchedule : Nat → List (BitVec 64) → List (BitVec 64)
  | 0, w => w
  | n + 1, w =>
    let at_ (i : Nat) : BitVec 64 := w.getD (w.length - i) 0
    let s0 := (at_ 15).rotateRight 1 ^^^ (at_ 15).rotateRight 8 ^^^ ((at_ 15) >>> 7)
    let s1 := (at_ 2).rotateRight 19 ^^^ (at_ 2).rotateRight 61 ^^^ ((at_ 2) >>> 6)
    shaSchedule n (w ++ [at_ 16 + s0 + at_ 7 + s1])

/-- One round on the eight working variables. -/
def shaRound (h : List (BitVec 64)) (kw : BitVec 64) : List (BitVec 64) :=
  match h with
  | [a, b, c, d, e, f, g, x] =>
    let s1 := e.rotateRight 14 ^^^ e.rotateRight 18 ^^^ e.rotateRight 41
    let t1 := x + s1 + ((e &&& f) ^^^ (~~~e &&& g)) + kw
    let s0 := a.rotateRight 28 ^^^ a.rotateRight 34 ^^^ a.rotateRight 39
    let t2 := s0 + ((a &&& b) ^^^ (a &&& c) ^^^ (b &&& c))
    [t1 + t2, a, b, c, d + t1, e, f, g]
  | _ => h

/-- One block of 128 bytes. -/
def shaBlock (h : List (BitVec 64)) (blk : List Byte) : List (BitVec 64) :=
  let w := shaSchedule 64 ((List.range 16).map (fun i => BitVec.ofNat 64 (beNat ((blk.drop (8 * i)).take 8))))
  let r := (shaK.zip w).foldl (fun x kw => shaRound x (kw.1 + kw.2)) h
  (h.zip r).map (fun x => x.1 + x.2)

/-- Blocks from a padded message, n at most. -/
def shaBlocks : Nat → List Byte → List (BitVec 64) → List (BitVec 64)
  | 0, _, h => h
  | n + 1, msg, h => if msg = [] then h else shaBlocks n (msg.drop 128) (shaBlock h (msg.take 128))

/-- The 48-byte SHA-384 digest of a message. -/
def sha384 (msg : List Byte) : List Byte :=
  (((shaBlocks (msg.length / 128 + 2) (shaPad msg) shaInit).take 6).flatMap (fun w => beBytes 8 w.toNat))

end Sys2Proof.Machine
end

