-- ==== Sys2Proof/Machine/Crypto.lean ====
section
/-! DEFINITION. The standard algorithms that the spec names: AES-256 with XTS, key wrap and GCM, HMAC and HKDF with SHA-384,
SHA-256 with LM-OTS and LMS, and the curve P-384 with ECDH and ECDSA (spec 12_page R273, 13_link R290, 23_platform
R384-R386, R392). The spec names them and gives their parameters; their text is that of the standards (PRESUMED, log 7). -/
namespace Sys2Proof.Machine

/-! AES-256 (FIPS 197). -/

/-- Twice a field element of GF(2^8). -/
def xtime (a : Nat) : Nat := if a < 128 then 2 * a else (2 * a) % 256 ^^^ 0x1B

/-- The product of two field elements, over the low n bits of the second. -/
def gfMul : Nat → Nat → Nat → Nat
  | 0, _, _ => 0
  | n + 1, a, b => (if b % 2 = 1 then a else 0) ^^^ gfMul n (xtime a) (b / 2)

/-- A power of a field element. -/
def gfPow (a : Nat) : Nat → Nat
  | 0 => 1
  | n + 1 => gfMul 8 a (gfPow a n)

/-- The substitution of one byte: the inverse, then the affine map. -/
def subByte (x : Nat) : Nat :=
  let b := gfPow x 254
  let rot (k : Nat) : Nat := (b * 2 ^ k) % 256 + b / 2 ^ (8 - k)
  b ^^^ rot 1 ^^^ rot 2 ^^^ rot 3 ^^^ rot 4 ^^^ 0x63

/-- The substitution table. -/
def sbox : List Nat := (List.range 256).map subByte

/-- The inverse substitution table. -/
def sboxInv : List Nat := (List.range 256).map (fun y => (sbox.findIdx? (fun x => decide (x = y))).getD 0)

/-- Numbers combined by exclusive or, place by place. -/
def xorL (a b : List Nat) : List Nat := (a.zip b).map (fun x => x.1 ^^^ x.2)

/-- Words of the key schedule added, n of them; each word is four bytes. -/
def aesSchedule : Nat → Nat → List (List Nat) → List (List Nat)
  | 0, _, w => w
  | n + 1, rcon, w =>
    let i := w.length
    let t := w.getD (i - 1) []
    let t1 := if i % 8 = 0 then xorL ((t.drop 1 ++ t.take 1).map (fun x => sbox.getD x 0)) [rcon, 0, 0, 0]
      else if i % 8 = 4 then t.map (fun x => sbox.getD x 0)
      else t
    aesSchedule n (if i % 8 = 0 then xtime rcon else rcon) (w ++ [xorL (w.getD (i - 8) []) t1])

/-- The 15 round keys of a 32-byte key. -/
def aesKeys (key : List Nat) : List (List Nat) :=
  let w := aesSchedule 52 1 ((List.range 8).map (fun i => (key.drop (4 * i)).take 4))
  (List.range 15).map (fun r => ((w.drop (4 * r)).take 4).flatten)

/-- Rows shifted: byte r of column c comes from column c + k r. -/
def aesShift (k : Nat) (st : List Nat) : List Nat :=
  (List.range 16).map (fun i => st.getD (4 * ((i / 4 + k * (i % 4)) % 4) + i % 4) 0)

/-- Columns multiplied by a circulant matrix. -/
def aesMix (m : List Nat) (st : List Nat) : List Nat :=
  (List.range 16).map (fun i => (List.range 4).foldl (fun acc j =>
    acc ^^^ gfMul 8 (st.getD (4 * (i / 4) + j) 0) (m.getD ((j + 4 - i % 4) % 4) 0)) 0)

/-- One block enciphered under round keys. -/
def aesEncWith (ks : List (List Nat)) (blk : List Nat) : List Nat :=
  let r0 := xorL blk (ks.getD 0 [])
  let r13 := (List.range 13).foldl (fun st r =>
    xorL (aesMix [2, 3, 1, 1] (aesShift 1 (st.map (fun x => sbox.getD x 0)))) (ks.getD (r + 1) [])) r0
  xorL (aesShift 1 (r13.map (fun x => sbox.getD x 0))) (ks.getD 14 [])

/-- One block deciphered under round keys. -/
def aesDecWith (ks : List (List Nat)) (blk : List Nat) : List Nat :=
  let un (st : List Nat) : List Nat := (aesShift 3 st).map (fun x => sboxInv.getD x 0)
  let r0 := xorL blk (ks.getD 14 [])
  let r13 := (List.range 13).foldl (fun st r => aesMix [14, 11, 13, 9] (xorL (un st) (ks.getD (13 - r) []))) r0
  xorL (un r13) (ks.getD 0 [])

/-- Bytes of a big-endian number, as numbers. -/
def beNats (n x : Nat) : List Nat := (List.range n).map (fun i => x / 256 ^ (n - 1 - i) % 256)
/-- The big-endian number of some bytes. -/
def natOf (bs : List Nat) : Nat := bs.foldl (fun a b => 256 * a + b) 0
/-- Bytes as numbers. -/
def nats (bs : List Byte) : List Nat := bs.map BitVec.toNat
/-- Numbers as bytes. -/
def bytesOf (ns : List Nat) : List Byte := ns.map (BitVec.ofNat 8)

/-! XTS (IEEE 1619), over the 64-byte data unit of R273. -/

/-- A tweak times the field's primitive element, the bytes low first. -/
def xtsNext (t : List Nat) : List Nat :=
  let n := natOf t.reverse
  (beNats 16 (if n < 2 ^ 127 then 2 * n else (2 * n) % 2 ^ 128 ^^^ 0x87)).reverse

/-- The blocks of a data unit, each with its tweak, put through a block function. -/
def xtsBlocks (f : List Nat → List Nat) : Nat → List Nat → List Nat → List Nat
  | 0, _, _ => []
  | n + 1, t, bs => xorL (f (xorL (bs.take 16) t)) t ++ xtsBlocks f n (xtsNext t) (bs.drop 16)

/-- A 64-byte line enciphered, or deciphered, under a 64-byte key: the data key, then the tweak key; the tweak is the line's
device address (R273, R392). -/
def xtsLine (dec : Bool) (key : List Nat) (dpa : Nat) (line : List Nat) : List Nat :=
  let ks := aesKeys (key.take 32)
  let t := aesEncWith (aesKeys ((key.drop 32).take 32)) (beNats 16 dpa).reverse
  xtsBlocks (if dec then aesDecWith ks else aesEncWith ks) 4 t line

/-! Key wrap (RFC 3394). -/

/-- The unwrapping steps, t counting down: A and the registers. -/
def kwSteps (ks : List (List Nat)) : Nat → Nat → List (List Nat) → Nat × List (List Nat)
  | 0, a, r => (a, r)
  | t + 1, a, r =>
    let i := t % r.length
    let b := aesDecWith ks (beNats 8 (a ^^^ (t + 1)) ++ r.getD i [])
    kwSteps ks t (natOf (b.take 8)) (r.set i (b.drop 8))

/-- AES-256-KW unwrapping under a 32-byte key: none where the integrity check fails. -/
def kwUnwrap (key wrapped : List Nat) : Option (List Nat) :=
  let n := wrapped.length / 8 - 1
  let r := (List.range n).map (fun i => (wrapped.drop (8 * (i + 1))).take 8)
  let x := kwSteps (aesKeys key) (6 * n) (natOf (wrapped.take 8)) r
  if x.1 = 0xA6A6A6A6A6A6A6A6 then some x.2.flatten else none

/-! GCM (SP 800-38D). -/

/-- The product in GF(2^128), over the bits of x from the highest down. -/
def gcmMul (x : Nat) : Nat → Nat → Nat → Nat
  | 0, _, z => z
  | k + 1, v, z => gcmMul x k (if v % 2 = 1 then v / 2 ^^^ 0xE1 * 2 ^ 120 else v / 2) (if x / 2 ^ k % 2 = 1 then z ^^^ v else z)

/-- Bytes filled with zeros to whole blocks of 16. -/
def pad16 (bs : List Nat) : List Nat := bs ++ List.replicate ((16 - bs.length % 16) % 16) 0

/-- GHASH of whole blocks, n at most. -/
def ghash (h : Nat) : Nat → List Nat → Nat → Nat
  | 0, _, y => y
  | n + 1, bs, y => if bs = [] then y else ghash h n (bs.drop 16) (gcmMul (y ^^^ natOf (bs.take 16)) 128 h 0)

/-- Blocks put through counter mode, n at most. -/
def gcmCtr (ks : List (List Nat)) (nonce : List Nat) : Nat → Nat → List Nat → List Nat
  | 0, _, _ => []
  | n + 1, c, bs => if bs = [] then [] else
      xorL (bs.take 16) (aesEncWith ks (nonce ++ beNats 4 c)) ++ gcmCtr ks nonce n (c + 1) (bs.drop 16)

/-- The tag of a ciphertext with its associated data. -/
def gcmTag (key nonce aad cipher : List Nat) : List Nat :=
  let ks := aesKeys key
  let h := natOf (aesEncWith ks (List.replicate 16 0))
  let msg := pad16 aad ++ pad16 cipher ++ beNats 8 (8 * aad.length) ++ beNats 8 (8 * cipher.length)
  xorL (beNats 16 (ghash h (msg.length / 16 + 1) msg 0)) (aesEncWith ks (nonce ++ [0, 0, 0, 1]))

/-- A text put through GCM's counter mode, which enciphers and deciphers. -/
def gcmText (key nonce text : List Nat) : List Nat := gcmCtr (aesKeys key) nonce (text.length / 16 + 1) 2 text

/-! HMAC and HKDF with SHA-384 (RFC 2104, RFC 5869). -/

/-- HMAC-SHA-384 under a key of at most 128 bytes. -/
def hmac384 (key msg : List Byte) : List Byte :=
  let k := key ++ List.replicate (128 - key.length) 0
  sha384 (k.map (· ^^^ 0x5C#8) ++ sha384 (k.map (· ^^^ 0x36#8) ++ msg))

/-- The 14 ASCII bytes `zesukel-wrap-1` (R392). -/
def wrapInfo : List Byte := [0x7A, 0x65, 0x73, 0x75, 0x6B, 0x65, 0x6C, 0x2D, 0x77, 0x72, 0x61, 0x70, 0x2D, 0x31]

/-- HKDF-SHA-384 to 32 bytes. -/
def hkdf384 (salt ikm info : List Byte) : List Byte := (hmac384 (hmac384 salt ikm) (info ++ [0x01#8])).take 32

/-! P-384 (FIPS 186, SEC 1): ECDH and ECDSA. -/

/-- The field's prime. -/
def p384 : Nat := 2 ^ 384 - 2 ^ 128 - 2 ^ 96 + 2 ^ 32 - 1
/-- The curve's b; a is -3. -/
def p384B : Nat := 0xb3312fa7e23ee7e4988e056be3f82d19181d9c6efe8141120314088f5013875ac656398d8a2ed19d2a85c8edd3ec2aef
/-- The order of the base point. -/
def p384N : Nat := 0xffffffffffffffffffffffffffffffffffffffffffffffffc7634d81f4372ddf581a0db248b0a77aecec196accc52973
/-- The base point. -/
def p384G : Nat × Nat :=
  (0xaa87ca22be8b05378eb1c71ef320ad746e1d3b628ba79b9859f741e082542a385502f25dbf55296c3a545e3872760ab7,
   0x3617de4a96262c6f5d9e98bf9292dc29f8f41dbd289a147ce9da3113b5f0b8c00a60b1ce1d7e819d7a431d7c90ea0e5f)

/-- A power modulo m, over the low n bits of the exponent. -/
def powMod (m : Nat) : Nat → Nat → Nat → Nat
  | 0, _, _ => 1
  | n + 1, a, e => (if e % 2 = 1 then a else 1) * powMod m n (a * a % m) (e / 2) % m

/-- The inverse modulo a prime of 384 bits. -/
def invMod (m a : Nat) : Nat := powMod m 384 (a % m) (m - 2)

/-- A point, or none for the point at infinity. -/
abbrev EcPoint := Option (Nat × Nat)

/-- Is a pair a point of the curve. -/
def onCurve (q : Nat × Nat) : Bool :=
  decide (q.1 < p384) && decide (q.2 < p384) &&
  decide (q.2 * q.2 % p384 = (q.1 * q.1 * q.1 + (p384 - 3) * q.1 + p384B) % p384)

/-- The sum of two points. -/
def ecAdd (a b : EcPoint) : EcPoint :=
  match a, b with
  | none, q => q
  | q, none => q
  | some (x1, y1), some (x2, y2) =>
    if x1 = x2 ∧ (y1 + y2) % p384 = 0 then none
    else
      let s := if x1 = x2 then (3 * x1 * x1 + (p384 - 3)) * invMod p384 (2 * y1) % p384
        else (y2 + p384 - y1) * invMod p384 (x2 + p384 - x1) % p384
      let x3 := (s * s + 2 * p384 - x1 - x2) % p384
      some (x3, (s * (x1 + p384 - x3) + p384 - y1) % p384)

/-- A multiple of a point, over the low n bits of the factor. -/
def ecMul : Nat → Nat → EcPoint → EcPoint
  | 0, _, _ => none
  | n + 1, k, q => ecAdd (if k % 2 = 1 then q else none) (ecMul n (k / 2) (ecAdd q q))

/-- A point as bytes: X then Y, big-endian. -/
def ecBytes (q : EcPoint) : List Byte :=
  match q with
  | some (x, y) => beBytes 48 x ++ beBytes 48 y
  | none => List.replicate 96 0

/-- The pair that 96 bytes name. -/
def ecOf (bs : List Byte) : Nat × Nat := (beNat (bs.take 48), beNat ((bs.drop 48).take 48))

/-- An ECDSA signature of a digest, r then s, by a private key with a secret number. -/
def ecdsaSign (d k : Nat) (digest : List Byte) : List Byte :=
  let r := ((ecMul 384 k (some p384G)).map (·.1)).getD 0 % p384N
  beBytes 48 r ++ beBytes 48 (invMod p384N k * (beNat digest + r * d) % p384N)

/-- Does an ECDSA signature, r then s, of a digest verify under a public key. -/
def ecdsaOk (key : Nat × Nat) (digest sig : List Byte) : Bool :=
  let r := (ecOf sig).1
  let s := (ecOf sig).2
  let w := invMod p384N s
  decide (0 < r) && decide (r < p384N) && decide (0 < s) && decide (s < p384N) && onCurve key &&
  (match ecAdd (ecMul 384 (beNat digest * w % p384N) (some p384G)) (ecMul 384 (r * w % p384N) (some key)) with
    | some (x, _) => decide (x % p384N = r)
    | none => false)

/-! SHA-256 (FIPS 180-4), LM-OTS and LMS (RFC 8554). -/

/-- The round constants of SHA-256. -/
def sha2K : List (BitVec 32) := (primes80.take 64).map (fun p => BitVec.ofNat 32 (rootBits 3 (p * 2 ^ 96) 36 0))

/-- The initial hash value of SHA-256. -/
def sha2Init : List (BitVec 32) := (primes80.take 8).map (fun p => BitVec.ofNat 32 (rootBits 2 (p * 2 ^ 64) 36 0))

/-- The message schedule of SHA-256 grown by n words. -/
def sha2Schedule : Nat → List (BitVec 32) → List (BitVec 32)
  | 0, w => w
  | n + 1, w =>
    let at_ (i : Nat) : BitVec 32 := w.getD (w.length - i) 0
    let s0 := (at_ 15).rotateRight 7 ^^^ (at_ 15).rotateRight 18 ^^^ ((at_ 15) >>> 3)
    let s1 := (at_ 2).rotateRight 17 ^^^ (at_ 2).rotateRight 19 ^^^ ((at_ 2) >>> 10)
    sha2Schedule n (w ++ [at_ 16 + s0 + at_ 7 + s1])

/-- One round of SHA-256. -/
def sha2Round (h : List (BitVec 32)) (kw : BitVec 32) : List (BitVec 32) :=
  match h with
  | [a, b, c, d, e, f, g, x] =>
    let s1 := e.rotateRight 6 ^^^ e.rotateRight 11 ^^^ e.rotateRight 25
    let t1 := x + s1 + ((e &&& f) ^^^ (~~~e &&& g)) + kw
    let s0 := a.rotateRight 2 ^^^ a.rotateRight 13 ^^^ a.rotateRight 22
    [t1 + (s0 + ((a &&& b) ^^^ (a &&& c) ^^^ (b &&& c))), a, b, c, d + t1, e, f, g]
  | _ => h

/-- Blocks of 64 bytes from a padded message, n at most. -/
def sha2Blocks : Nat → List Byte → List (BitVec 32) → List (BitVec 32)
  | 0, _, h => h
  | n + 1, msg, h =>
    if msg = [] then h
    else
      let w := sha2Schedule 48 ((List.range 16).map (fun i => BitVec.ofNat 32 (beNat ((msg.drop (4 * i)).take 4))))
      let r := (sha2K.zip w).foldl (fun x kw => sha2Round x (kw.1 + kw.2)) h
      sha2Blocks n (msg.drop 64) ((h.zip r).map (fun x => x.1 + x.2))

/-- The 32-byte SHA-256 digest of a message. -/
def sha256 (msg : List Byte) : List Byte :=
  let padded := msg ++ [0x80#8] ++ List.replicate ((119 - msg.length % 64) % 64) 0 ++ beBytes 8 (8 * msg.length)
  (sha2Blocks (msg.length / 64 + 2) padded sha2Init).flatMap (fun w => beBytes 4 w.toNat)

/-- Steps of a Winternitz chain, from step j on, n of them. -/
def otsChain (pre : List Byte) : Nat → Nat → List Byte → List Byte
  | 0, _, x => x
  | n + 1, j, x => otsChain pre n (j + 1) (sha256 (pre ++ beBytes 1 j ++ x))

/-- The 67 four-bit digits that LM-OTS signs: the digest's, then its checksum's. -/
def otsDigits (q : List Byte) : List Nat :=
  let ds := (nats q).flatMap (fun b => [b / 16, b % 16])
  let sum := ((ds.map (fun d => 15 - d)).sum) * 16
  ds ++ [sum / 4096 % 16, sum / 256 % 16, sum / 16 % 16]

/-- The LM-OTS public key candidate of a signature with w = 4 (RFC 8554, algorithm 4b). -/
def otsCandidate (id : List Byte) (q : Nat) (msg sig : List Byte) : List Byte :=
  let pre := id ++ beBytes 4 q
  let digits := otsDigits (sha256 (pre ++ beBytes 2 0x8181 ++ (sig.drop 4).take 32 ++ msg))
  let z := (List.range 67).flatMap (fun i =>
    otsChain (pre ++ beBytes 2 i) (15 - digits.getD i 0) (digits.getD i 0) ((sig.drop (36 + 32 * i)).take 32))
  sha256 (pre ++ beBytes 2 0x8080 ++ z)

/-- The path of a leaf to the root of the tree. -/
def lmsRoot (id : List Byte) : Nat → Nat → List Byte → List Byte → List Byte
  | 0, _, _, x => x
  | n + 1, node, path, x =>
    let y := path.take 32
    lmsRoot id n (node / 2) (path.drop 32)
      (sha256 (id ++ beBytes 4 (node / 2) ++ beBytes 2 0x8383 ++ (if node % 2 = 1 then y ++ x else x ++ y)))

/-- The length of an LMS signature of the parameter sets of R384. -/
def lmsLen : Nat := 4 + (4 + 32 + 67 * 32) + 4 + 20 * 32

/-- Does an LMS signature (LMS_SHA256_M32_H20 with LMOTS_SHA256_N32_W4) of a message verify under a public key: its
identifier of 16 bytes and its root of 32 (R384). -/
def lmsOk (key msg sig : List Byte) : Bool :=
  let id := key.take 16
  let q := beNat (sig.take 4)
  let kc := otsCandidate id q msg (sig.drop 4)
  let leaf := sha256 (id ++ beBytes 4 (2 ^ 20 + q) ++ beBytes 2 0x8282 ++ kc)
  decide (sig.length = lmsLen) && decide (q < 2 ^ 20) && decide (beNat ((sig.drop 4).take 4) = 3) &&
  decide (beNat ((sig.drop 2184).take 4) = 8) &&
  decide (lmsRoot id 20 (2 ^ 20 + q) (sig.drop 2188) leaf = (key.drop 16).take 32)

end Sys2Proof.Machine
end

