-- ==== Sys2Proof/Config.lean ====
section
/-! DEFINITION. What the spec leaves open: free values, as constants without a body, so that nothing proved of the model
can rest on one value of them. Each is named by a row of the assumption log. -/
namespace Sys2Proof.Config

/-- A choice among n possibilities that the spec leaves open: the n-th fresh value of a run (03_numbers R65,
09_step R196). -/
opaque freeChoice (n : Nat) : Nat

/-- The 64 bytes of the firmware key that the n-th device reset generates (23_platform R386). -/
opaque firmwareKey (n : Nat) : Nat

/-- The firmware image that a device is shipped with: header, body and signatures (23_platform R384). -/
opaque shippedImage : List Byte

/-- The public ECDSA key under which images are signed (23_platform R384). -/
opaque imageKey : Nat × Nat

/-- The public LMS key under which images are signed: its identifier, 16 bytes, and its root, 32 (23_platform R384). -/
opaque imageLms : List Byte

/-- The device's private identity key (23_platform R385). -/
opaque identityKey : Nat

/-- The device's certificate with its LMS signature (23_platform R392). -/
opaque certificate : List Byte

/-- The private ephemeral key that the device draws as its n-th secret (23_platform R385). -/
opaque ephemeralKey (n : Nat) : Nat

/-- The secret number of the report's signature, drawn as the n-th secret (23_platform R392). -/
opaque signatureSecret (n : Nat) : Nat

/-- The 16 header bytes of a pre-copy record that hold IPA page number, snapshot number and record sequence: the spec gives
no places for the three (13_link R290). -/
opaque recordHeader (page snap seq : Nat) : List Byte

end Sys2Proof.Config
end

