-- ==== Sys2Proof/Machine/Sparse.lean ====
section
/-! DEFINITION. Keyed lists in one canonical form: keys strictly rising. `FMap` has absent keys; `Sparse` reads a
default at an unlisted key and never lists that default, so that equal contents are equal data. -/
namespace Sys2Proof

/-- A finite map from natural keys, keys strictly rising. -/
abbrev FMap (α : Type) := List (Nat × α)

/-- The value at a key, if the key is listed. -/
def fget {α : Type} : FMap α → Nat → Option α
  | [], _ => none
  | (j, v) :: m, k => if j = k then some v else fget m k

/-- The map with a key set, keys kept rising. -/
def fset {α : Type} : FMap α → Nat → α → FMap α
  | [], k, v => [(k, v)]
  | (j, w) :: m, k, v =>
    if k < j then (k, v) :: (j, w) :: m
    else if j = k then (k, v) :: m
    else (j, w) :: fset m k v

/-- The map with a key removed. -/
def fdel {α : Type} : FMap α → Nat → FMap α
  | [], _ => []
  | (j, w) :: m, k => if j = k then fdel m k else (j, w) :: fdel m k

/-- Keys strictly rising, from a bound on. -/
def fwfFrom {α : Type} : Nat → FMap α → Bool
  | _, [] => true
  | lo, (j, _) :: m => decide (lo ≤ j) && fwfFrom (j + 1) m

/-- The canonical form of a finite map. -/
def fwf {α : Type} (m : FMap α) : Bool := fwfFrom 0 m

/-- The value at a key of a map with a default. -/
def sget {α : Type} (d : α) (m : FMap α) (k : Nat) : α := (fget m k).getD d

/-- Setting a key of a map with a default: the default itself is never listed. -/
def sset {α : Type} [DecidableEq α] (d : α) (m : FMap α) (k : Nat) (v : α) : FMap α :=
  if v = d then fdel m k else fset m k v

/-- The canonical form with a default: keys rising and no listed default. -/
def swf {α : Type} [DecidableEq α] (d : α) (m : FMap α) : Bool := fwf m && m.all (fun e => decide (e.2 ≠ d))

/-- The entries whose keys lie in a half-open range. -/
def frange {α : Type} (m : FMap α) (lo hi : Nat) : FMap α := m.filter (fun e => decide (lo ≤ e.1) && decide (e.1 < hi))

/-- The map without the entries of a half-open range of keys. -/
def fdelRange {α : Type} (m : FMap α) (lo hi : Nat) : FMap α :=
  m.filter (fun e => !(decide (lo ≤ e.1) && decide (e.1 < hi)))

/-- Every entry changed in place, keys kept. -/
def fmapV {α : Type} (f : Nat → α → α) (m : FMap α) : FMap α := m.map (fun e => (e.1, f e.1 e.2))

/-- The members of a list without repeats, first appearances kept. -/
def distinct {α : Type} [DecidableEq α] (xs : List α) : List α :=
  xs.foldl (fun acc x => if acc.contains x then acc else acc ++ [x]) []

end Sys2Proof
end

