-- ==== Sys2Proof/Syntax.lean ====
section
/-! DEFINITION. The instructions of the Zesukel and the steps of its other agents, as data: one constructor of `Instr`
for each row of the opcode table (spec 04_encoding, 95_what_each_step_holds). Register, tile, handle and counter numbers
are natural numbers; `WellFormed` says which of them an encoding admits. -/
namespace Sys2Proof

/-- Guard modes (R32, R75). -/
inductive GMode where
  | always | nz | z
  deriving DecidableEq, Repr

/-- The common header of a slot, its opcode apart (R75). sflag is 0-11, or 15 for none. -/
structure Hdr where
  gmode : GMode
  guard : Nat
  sflag : Nat
  deriving DecidableEq, Repr

/-- Element types of one whole register, pair or part of a register (R47, R86). -/
inductive ElemTy where
  | i8 | i16 | i32 | i64 | n8 | n16 | n32 | n64 | b32 | b64 | f16 | bf16 | f32 | f64 | f16x2 | bf16x2
  deriving DecidableEq, Repr

/-- One side of a conversion: an element type, or `.q` with its record from an immediate or a register (R78). -/
inductive ConvTy where
  | el (t : ElemTy)
  | qImm (record : Nat)
  | qReg (reg : Nat)
  deriving DecidableEq, Repr

/-- Rounding modes (R50, R78). -/
inductive Rnd where
  | rne | rtz | rup | rdn
  deriving DecidableEq, Repr

/-- Step scopes (R80, R182). -/
inductive Scope where
  | t | d | g
  deriving DecidableEq, Repr

/-- Write rules with their types, in code order (R81). -/
inductive Rule where
  | fault | low | any | or | and | sumI | sumF | cap | maxI | maxN | maxF | minI | minN | minF
  deriving DecidableEq, Repr

/-- Access widths of F-M (R80). -/
inductive Width where
  | b8 | b16 | b32 | b64 | b128
  deriving DecidableEq, Repr

/-- Cache hints (R80, R327). -/
inductive Hint where
  | near | keep | strm | last
  deriving DecidableEq, Repr

/-- Lane conditions of F-B (R82, R167). -/
inductive Cond where
  | nz | z | neg | nneg
  deriving DecidableEq, Repr

/-- Integer comparisons (R87). -/
inductive CmpOp where
  | eq | ne | lt | le | gt | ge
  deriving DecidableEq, Repr

/-- Float comparison conditions; each is quiet or signalling (R87). -/
inductive FCond where
  | eq | ne | lt | le | gt | ge | ord | uno
  deriving DecidableEq, Repr

/-- Reductions (R87, R314). -/
inductive ReduOp where
  | sum | min | max | and | or | xor
  deriving DecidableEq, Repr

/-- Votes (R87, R313). -/
inductive VoteOp where
  | any | all | ballot | uni
  deriving DecidableEq, Repr

/-- Kinds of `tlbinv` (R268). -/
inductive TlbKind where
  | all | va | ipa | ctx
  deriving DecidableEq, Repr

/-- A code target of F-B: signed line offset and slot (R82). -/
structure Target where
  off : Int
  slot : Nat
  deriving DecidableEq, Repr

/-- The field an increment names (R84). -/
inductive IncField where
  | f24 | f33 | f42 | f51 | disp | acc
  deriving DecidableEq, Repr

/-- One increment of a loop: body position, field and signed step (R84). -/
structure Inc where
  slot : Nat
  field : IncField
  delta : Int
  deriving DecidableEq, Repr

/-- The F-M fields, the header and opcode apart (R80). -/
structure FM where
  hint : Hint
  scale : Nat
  v : Bool
  scope : Scope
  rule : Rule
  width : Width
  disp : Int
  aux : Nat
  base : Nat
  data : Nat
  deriving DecidableEq, Repr

/-- Accumulator types (R85). -/
inductive AccTy where
  | f32 | i32
  deriving DecidableEq, Repr

/-- Privileged registers by name (R98). -/
inductive PReg where
  | kuDet | kuFnver | kuTime
  | ksStatus | ksCause | ksEpc | ksTval | ksLmask | ksAmask | ksTvec | ksPvec | ksPtbase | ksScring | ksScsize | ksPhys
  | khCtl | khCsel | khPdesc | khSarea | khSalen | khQos | khVf | khPtbase2 | khMemkey | khHvec | khFwver
  deriving DecidableEq, Repr

/-- A step domain that forms boundaries: a team, a die slice of a grid, a grid (R184). -/
inductive Domain where
  | team (tid : Nat)
  | die (grid : Nat) (die : Nat)
  | grid (grid : Nat)
  deriving DecidableEq, Repr

/-- A home that applies write rules (R193): a crusher by slice, the combine unit of a team's home core, a memory die for
the peer path, the FE die for the host path. -/
inductive Home where
  | slice (n : Nat)
  | core (n : Nat)
  | memDie (n : Nat)
  | fe
  deriving DecidableEq, Repr

/-- The function through whose BAR0 window a host access comes (R99). -/
inductive HostFn where
  | pf (ctx : Nat)
  | vf (fn : Nat)
  deriving DecidableEq, Repr

/-- Device registers written by the host that have no row of their own (R114, R277, R289, R390). -/
inductive DevReg where
  | peerEntry (ctx : Nat) (peer : Nat)
  | hostWindow (w : Nat)
  | precopyCtl (ctx : Nat)
  | precopySess (ctx : Nat)
  | precopySent (ctx : Nat)
  | qtStat (ctx : Nat)
  | mgStat | mgCmd | mgPwr | mgTemp | mgErr
  | mailbox (off : Nat)
  deriving DecidableEq, Repr

/-- Where an uncorrectable error is found (R389). -/
inductive ErrSite where
  | laneRegister (gid : Nat) (lane : Nat) (reg : Nat)
  | laneRead (gid : Nat) (lane : Nat) (addr : Nat)
  | landing (dom : Domain) (cell : Nat)
  | engineSource (tid : Nat) (rec : Nat)
  | engineDest (tid : Nat) (rec : Nat) (cell : Nat)
  | contextState (ctx : Nat)
  | deviceState
  deriving DecidableEq, Repr

/-- One byte of a write from outside with its enable (R282). -/
abbrev WriteBytes := List (Nat × Byte)

/-- The instructions of rows 0-137 and the device steps of rows 138-213 of the opcode table, in table order. An
instruction carries its header and operand fields; a device step carries what it acts on and what the world outside
supplies to it. -/
inductive Instr where
  | nop (h : Hdr)
  | bra (h : Hdr) (l : Target)
  | bany (h : Hdr) (k : Cond) (r : Nat) (l : Target)
  | ball (h : Hdr) (k : Cond) (r : Nat) (l : Target)
  | bnone (h : Hdr) (k : Cond) (r : Nat) (l : Target)
  | bdiv (h : Hdr) (k : Cond) (r : Nat) (l j : Target)
  | switch (h : Hdr) (r : Nat) (ks : List Int)
  | join (h : Hdr) (j : Target)
  | call (h : Hdr) (l : Target)
  | callr (h : Hdr) (d a : Nat)
  | ret (h : Hdr)
  | retl (h : Hdr) (a : Nat)
  | loop (h : Hdr) (n len : Nat) (inc0 inc1 inc2 : Option Inc)
  | loopr (h : Hdr) (r len : Nat) (inc0 inc1 inc2 : Option Inc)
  | exit (h : Hdr)
  | brk (h : Hdr) (imm : Nat)
  | ids (h : Hdr) (d sel : Nat)
  | wflag (h : Hdr) (mask : Nat)
  | step (h : Hdr) (x : Scope)
  | yieldc (h : Hdr) (x : Scope) (a ctr mask : Nat)
  | stepn (h : Hdr) (x : Scope) (n : Nat)
  | stepto (h : Hdr) (x : Scope) (a : Nat)
  | fbp (h : Hdr) (base : Nat) (stub : Target) (map : Nat)
  | sysc (h : Hdr) (imm : Nat)
  | trap (h : Hdr) (imm : Nat)
  | hcall (h : Hdr) (imm : Nat)
  | tret (h : Hdr) (a : Nat)
  | mfk (h : Hdr) (d : Nat) (k : PReg)
  | mtk (h : Hdr) (s : Nat) (k : PReg)
  | tlbinv (h : Hdr) (k : TlbKind) (a : Nat)
  | idle (h : Hdr)
  | add (h : Hdr) (ty : ElemTy) (d a b : Nat)
  | sub (h : Hdr) (ty : ElemTy) (d a b : Nat)
  | mul (h : Hdr) (ty : ElemTy) (d a b : Nat)
  | mulh (h : Hdr) (ty : ElemTy) (d a b : Nat)
  | mad (h : Hdr) (ty : ElemTy) (d a b c : Nat)
  | div (h : Hdr) (ty : ElemTy) (d a b : Nat)
  | rem (h : Hdr) (ty : ElemTy) (d a b : Nat)
  | abs (h : Hdr) (ty : ElemTy) (d a : Nat)
  | neg (h : Hdr) (ty : ElemTy) (d a : Nat)
  | min (h : Hdr) (ty : ElemTy) (d a b : Nat)
  | max (h : Hdr) (ty : ElemTy) (d a b : Nat)
  | clamp (h : Hdr) (ty : ElemTy) (d a b c : Nat)
  | addsat (h : Hdr) (ty : ElemTy) (d a b : Nat)
  | subsat (h : Hdr) (ty : ElemTy) (d a b : Nat)
  | and (h : Hdr) (ty : ElemTy) (d a b : Nat)
  | or (h : Hdr) (ty : ElemTy) (d a b : Nat)
  | xor (h : Hdr) (ty : ElemTy) (d a b : Nat)
  | not (h : Hdr) (ty : ElemTy) (d a : Nat)
  | andn (h : Hdr) (ty : ElemTy) (d a b : Nat)
  | shl (h : Hdr) (ty : ElemTy) (d a b : Nat)
  | shr (h : Hdr) (ty : ElemTy) (d a b : Nat)
  | sar (h : Hdr) (ty : ElemTy) (d a b : Nat)
  | rol (h : Hdr) (ty : ElemTy) (d a b : Nat)
  | bfx (h : Hdr) (ty : ElemTy) (d a b : Nat)
  | bfi (h : Hdr) (ty : ElemTy) (d a b c : Nat)
  | pop (h : Hdr) (ty : ElemTy) (d a : Nat)
  | clz (h : Hdr) (ty : ElemTy) (d a : Nat)
  | ctz (h : Hdr) (ty : ElemTy) (d a : Nat)
  | brev (h : Hdr) (ty : ElemTy) (d a : Nat)
  | sel (h : Hdr) (ty : ElemTy) (d a b c : Nat)
  | cmp (h : Hdr) (ty : ElemTy) (op : CmpOp) (d a b : Nat)
  | lea (h : Hdr) (ty : ElemTy) (d a b : Nat)
  | mov (h : Hdr) (ty : ElemTy) (d a : Nat)
  | movi (h : Hdr) (ty : ElemTy) (d imm : Nat)
  | fadd (h : Hdr) (ty : ElemTy) (rm : Rnd) (d a b : Nat)
  | fsub (h : Hdr) (ty : ElemTy) (rm : Rnd) (d a b : Nat)
  | fmul (h : Hdr) (ty : ElemTy) (rm : Rnd) (d a b : Nat)
  | fma (h : Hdr) (ty : ElemTy) (rm : Rnd) (d a b c : Nat)
  | fdiv (h : Hdr) (ty : ElemTy) (rm : Rnd) (d a b : Nat)
  | fsqrt (h : Hdr) (ty : ElemTy) (rm : Rnd) (d a : Nat)
  | fmin (h : Hdr) (ty : ElemTy) (d a b : Nat)
  | fmax (h : Hdr) (ty : ElemTy) (d a b : Nat)
  | fabs (h : Hdr) (ty : ElemTy) (d a : Nat)
  | fneg (h : Hdr) (ty : ElemTy) (d a : Nat)
  | fcopysign (h : Hdr) (ty : ElemTy) (d a b : Nat)
  | fcmp (h : Hdr) (ty : ElemTy) (sig : Bool) (op : FCond) (d a b : Nat)
  | fclamp (h : Hdr) (ty : ElemTy) (d a b c : Nat)
  | frnd (h : Hdr) (ty : ElemTy) (rm : Rnd) (d a : Nat)
  | fscale (h : Hdr) (ty : ElemTy) (rm : Rnd) (d a b : Nat)
  | fexp (h : Hdr) (ty : ElemTy) (d a : Nat)
  | fmant (h : Hdr) (ty : ElemTy) (d a : Nat)
  | fclass (h : Hdr) (ty : ElemTy) (d a : Nat)
  | cvt (h : Hdr) (dt st : ConvTy) (rm : Rnd) (sat : Bool) (d a : Nat)
  | pack (h : Hdr) (dt st : ConvTy) (rm : Rnd) (sat : Bool) (d a : Nat)
  | unpack (h : Hdr) (dt st : ConvTy) (rm : Rnd) (sat : Bool) (d a : Nat)
  | shuf (h : Hdr) (ty : ElemTy) (d a b : Nat)
  | shufup (h : Hdr) (ty : ElemTy) (d a b : Nat)
  | shufdn (h : Hdr) (ty : ElemTy) (d a b : Nat)
  | shufx (h : Hdr) (ty : ElemTy) (d a b : Nat)
  | gsel (h : Hdr) (ty : ElemTy) (n d a b : Nat)
  | bcast (h : Hdr) (ty : ElemTy) (d a b : Nat)
  | vote (h : Hdr) (op : VoteOp) (d a : Nat)
  | redu (h : Hdr) (ty : ElemTy) (op : ReduOp) (d a : Nat)
  | scan (h : Hdr) (ty : ElemTy) (op : ReduOp) (d a : Nat)
  | frcp (h : Hdr) (d a : Nat)
  | frsq (h : Hdr) (d a : Nat)
  | fexp2 (h : Hdr) (d a : Nat)
  | flog2 (h : Hdr) (d a : Nat)
  | fsinpi (h : Hdr) (d a : Nat)
  | fcospi (h : Hdr) (d a : Nat)
  | ftanh (h : Hdr) (d a : Nat)
  | fflg (h : Hdr) (d : Nat)
  | fclr (h : Hdr) (a : Nat)
  | ld (h : Hdr) (m : FM)
  | ldl (h : Hdr) (m : FM)
  | ldt (h : Hdr) (m : FM)
  | sst (h : Hdr) (m : FM)
  | sstl (h : Hdr) (m : FM)
  | sstt (h : Hdr) (m : FM)
  | pst (h : Hdr) (m : FM)
  | prf (h : Hdr) (m : FM)
  | cpy (h : Hdr) (m : FM)
  | cpy2d (h : Hdr) (m : FM)
  | cpyq (h : Hdr) (d : Nat)
  | cpyre (h : Hdr) (a b : Nat)
  | gth (h : Hdr) (m : FM)
  | sct (h : Hdr) (m : FM)
  | ctr (h : Hdr) (d k : Nat)
  | ctrset (h : Hdr) (k a : Nat)
  | zfill (h : Hdr) (m : FM)
  | tagq (h : Hdr) (d a : Nat)
  | tagset (h : Hdr) (a b : Nat)
  | tagclr (h : Hdr) (a : Nat)
  | thld (h : Hdr) (m : FM)
  | thst (h : Hdr) (m : FM)
  | thset (h : Hdr) (th w s : Nat)
  | thget (h : Hdr) (d th w : Nat)
  | thinv (h : Hdr) (th : Nat)
  | plnz (h : Hdr) (thA thB : Nat)
  | unpln (h : Hdr) (thA thB : Nat)
  | mma (h : Hdr) (ty : AccTy) (zero scaled dirA dirB : Bool) (acc thA thB k : Nat)
  | mmz (h : Hdr) (ty : AccTy) (acc : Nat)
  | mmld (h : Hdr) (ty : AccTy) (acc thC : Nat)
  | mmst (h : Hdr) (acc thC : Nat)
  | mmrd (h : Hdr) (d a acc : Nat)
  | mmwr (h : Hdr) (acc a b : Nat)
  | mmfl (h : Hdr) (acc : Nat)
  | deferredTrap
  | asynchronousTeamFault
  | longLatencyComplete (gid pid : Nat)
  | splitSwap (gid : Nat)
  | boundaryForm (dom : Domain)
  | boundaryLanded (dom : Domain)
  | mergeBufferPart (dom : Domain) (part : Nat)
  | drainEndMark (dom : Domain) (home : Home) (tid : Nat)
  | crusherPart (dom : Domain) (part : Nat)
  | orderedReplay (dom : Domain) (home : Home)
  | engineComplete (tid rec : Nat) (reply : Option (List Byte))
  | bind (ctx : Nat)
  | run (ctx : Nat)
  | preempt (ctx : Nat)
  | preemptionFreeze (gid : Nat)
  | preemptionTimeout (gid : Nat)
  | fullSave (gid : Nat)
  | teamSave (tid : Nat)
  | resume (ctx : Nat)
  | migrateOut (ctx : Nat)
  | migrateIn (ctx : Nat)
  | unbind (ctx : Nat)
  | disable (ctx : Nat)
  | cancel (ctx : Nat)
  | scrubDone (ctx : Nat)
  | vfEnableClear
  | functionLevelReset (fn : Nat)
  | qtBaseWrite (ctx : Nat) (v : Dword)
  | qtCountWrite (ctx : Nat) (v : Dword)
  | doorbell (ctx queue : Nat)
  | queuePoll (slot : Nat)
  | queueSweep (ctx : Nat)
  | queueLoad (ctx queue slot : Nat)
  | sliceExpiry (slot : Nat)
  | queueUnload (slot : Nat)
  | recordFetch (slot : Nat)
  | launch (slot : Nat)
  | teamPlacement (ctx : Nat)
  | compaction (ctx : Nat)
  | teamEnd (tid : Nat)
  | gridEnd (grid : Nat)
  | mstatPoll (ctx : Nat)
  | pageMoveCut (ctx : Nat)
  | pageMoveDone (ctx : Nat)
  | scrubLine (ctx : Nat)
  | round (ctx : Nat)
  | abort (ctx sent early : Nat)
  | precopyRoundEnd (ctx stat sent early : Nat)
  | precopyRecord (ctx page snap seq : Nat) (body tag : List Byte) (last : Bool)
  | peerStoreArrival (dev remoteCtx ctx va : Nat) (bytes : WriteBytes) (msg : Nat)
  | peerWriteApply (ctx : Nat)
  | peerAck (msg : Nat) (accepted : Bool)
  | peerLoadRequest (dev remoteCtx ctx va len msg : Nat)
  | peerLoadReply (gid pid lane : Nat) (reply : Option (List Byte))
  | prolenFlitRetry (port : Nat) (ok : Bool)
  | prolenLaneLoss (port : Nat)
  | prolenPortDown (port : Nat)
  | dieLinkFailure (die dlc : Nat)
  | hostMemAccess (write : Bool) (off : Nat) (data : List Byte)
  | hostWindowWrite (fn : HostFn) (reg : PReg) (v : Dword)
  | linkErrorClear (ctx : Nat) (v : Dword)
  | registerWrite (reg : DevReg) (v : Dword)
  | attest
  | loadkey
  | clearkey
  | loadsess
  | stagefw
  | reset
  | clearlog
  | deviceReset
  | clockStateChange (draw tj : Nat)
  | thermalTrip
  | correctableError
  | uncorrectableError (site : ErrSite)
  | compactionComplete (ctx : Nat)
  | hostPathResponse (write : Option Nat) (gid pid lane : Nat) (reply : Option (List Byte))
  deriving DecidableEq, Repr

end Sys2Proof
end

