-- ==== Sys2Proof/Machine/CoreTypes.lean ====
section
/-! DEFINITION. The state of splits, groups, teams, grids and of the drain, as plain data (spec 07_kernel, 08_group,
09_step, 10_memory, 11_traps, 15_isa_memory, 16_isa_matrix). -/
namespace Sys2Proof.Machine

/-- Privilege modes, lowest first (05_context R93). -/
inductive Mode where
  | user | sup | hyp
  deriving DecidableEq, Repr

/-- All ones: no rejoin PC (R148). -/
def pcNone : Dword := 0xFFFFFFFFFFFFFFFF#64

/-- One stack entry: PC, join mask and the kind byte, 0 return and 1 rejoin (R154). -/
structure StackEntry where
  pc : Dword
  jmask : LaneMask
  kind : Nat
  deriving DecidableEq, Repr

/-- An active loop (R148, R175). `len` is the loop's own field, kept so that the body is known without a fetch. -/
structure LoopSt where
  pc : Dword
  remaining : Word
  pass : Word
  len : Nat
  inc0 : Option Inc
  inc1 : Option Inc
  inc2 : Option Inc
  deriving DecidableEq, Repr

/-- The states of a split (R146). `flags m` waits until every flag of the mask is clear; `own` waits for the split's own
results marked with no flag (R75), `drain` for every result of its own (R243, R252). A split at a boundary waits on a scope
and every narrower one (R187, R188); a parked one holds its count of that scope as it parked, which names the boundary that
closes its own interval (R211). -/
inductive SplitState where
  | ready
  | flags (m : Nat)
  | own
  | drain
  | boundary (x : Scope)
  | join
  | parked (x : Scope) (n : Nat) (t : Word) (m : Nat) (c : Word)
  deriving DecidableEq, Repr

/-- Where a split is held: a table entry, the overflow stack, or the ninth entry of R251. -/
inductive Place where
  | resident (n : Nat)
  | dormant
  | ninth
  deriving DecidableEq, Repr

/-- An open rewind window (R247): the `fbp` or stub it belongs to, its base register, map and stub PC, the loop state
at its retirement and the group's issue number from which instructions are discarded (R250). -/
structure Window where
  pc : Dword
  base : Nat
  map : Word
  stub : Dword
  loop : Option LoopSt
  since : Nat
  deriving DecidableEq, Repr

/-- The lanes of a split that have left a wait in which they arrived by a blank step, for each scope, at the boundary after
their count: a lane that has arrived never stops being arrived (R186). -/
structure Arrivals where
  t : LaneMask
  d : LaneMask
  g : LaneMask
  deriving DecidableEq, Repr

/-- No arrival beyond the counts. -/
def Arrivals.none : Arrivals := ⟨0, 0, 0⟩

/-- A flashback point of a stopped split (R249-R254). -/
structure FlashPt where
  pc : Dword
  base : Nat
  map : Word
  stub : Dword
  deriving DecidableEq, Repr

/-- One split (R148). `sid` is the model's own name of it; `age` is its age key, which a returned split shares with the
split it left (R243). `held` are the newest stack entries, newest first, and `depth` counts all entries above `sbase`.
`entered` says that the line was entered and its wait not yet made (R163); `lv` is its trap level. `opps` and `cycles` count the
issues of its group, and those of its quadrant since its group's last, that it has stood by for while it stays ready (R161). -/
structure Split where
  sid : Nat
  mask : LaneMask
  pc : Dword
  mode : Mode
  tdepth : Nat
  rejoin : Dword
  jmask : LaneMask
  held : List StackEntry
  depth : Nat
  sbase : Nat
  loop : Option LoopSt
  ct : Word
  cd : Word
  cg : Word
  blank : Arrivals
  age : Nat
  st : SplitState
  place : Place
  entered : Bool
  popDue : Bool
  lv : Option Nat
  window : Option Window
  flash : Option FlashPt
  frozen : Bool
  mustIssue : Bool
  lastIssue : Nat
  opps : Nat
  cycles : Nat
  deriving DecidableEq, Repr

/-- A trap level (R236-R240). `saved` holds the v0-v15 of a first-level entry only through the group's save area and of
deeper ones only in private memory, so it is not here. `ret` is absent for causes 0x40 and 0x51. -/
structure TrapLevel where
  lid : Nat
  ret : Option Split
  cause : Nat
  sub : Nat
  from_ : Mode
  epc : Dword
  resume : Dword
  tval : FMap Dword
  lmask : Word
  amask : Word
  hflags : Word
  idled : Bool
  deriving DecidableEq, Repr

/-- What a byte is stored in: device memory, a team's scratchpad storage, a peer device, host memory. -/
inductive Loc where
  | dram (dpa : Nat)
  | spad (tid : Nat) (off : Nat)
  | peer (addr : Nat)
  | host (addr : Nat)
  deriving DecidableEq, Repr

/-- One lane's part of a spoil entry (R194, R213): its address, the IPA page it translated to (R269), its data bytes with
the storage of each, and its capacity under `.cap`. -/
structure SLane where
  lane : Nat
  ea : Dword
  ipn : Nat
  bytes : List (Loc × Byte)
  cap : Word
  deriving DecidableEq, Repr

/-- A spoil entry (R193, R194). `seq` is its place in the group's program order, which names it. -/
structure Spoil where
  seq : Nat
  sid : Nat
  pc : Dword
  scope : Scope
  count : Word
  rule : Rule
  width : Width
  v : Bool
  sflag : Nat
  vreg : Nat
  lanes : List SLane
  deriving DecidableEq, Repr

/-- A trap owed to a lane: deferred (R200) or a late drain error (R245), in the order in which it is taken. `below` is
the trap depth it waits below: the next of several is taken after the `tret` of the one before it. -/
structure Owed where
  lane : Nat
  code : Nat
  sub : Nat
  lmask : Word
  amask : Word
  tval : Dword
  below : Nat
  deriving DecidableEq, Repr

/-- The registers a pending result writes: lane, register, value (R162). -/
abbrev RegWrites := List (Nat × Nat × Word)

/-- What a pending result waits for: the completion of its unit, a verdict at a landing, the replies of a peer or host load,
of which the listed lanes are still out, or the answers to the far cells of a handler's step store by the listed lanes (R201,
R282). -/
inductive PendKind where
  | unit
  | verdict
  | remote (lanes : List Nat)
  | sent (lanes : List Nat)
  deriving DecidableEq, Repr

/-- A pending result of a long-latency instruction (R162): the flag it marks (15 for none), the registers that are
pending, what will be written, a handle that `thld` writes, and the sticky flags that enter with it (R62) with the
trap level of a handler issuer. `pc` is the instruction's PC. -/
structure Pending where
  pid : Nat
  seq : Nat
  sid : Nat
  pc : Dword
  flag : Nat
  kind : PendKind
  regs : List (Nat × Nat)
  writes : RegWrites
  handle : Option (Nat × Bool × FMap Word)
  mx : Bool
  tiles : List Nat
  handles : List Nat
  flags : BitVec 7
  lid : Option Nat
  deriving DecidableEq, Repr

/-- A read beyond the device that a tensor instruction of a split waits for before it can issue to its end (R329, R350, R358):
lane, address, bytes, and the value once the reply is in. `pid` is the pending result that waits. -/
structure FarRead where
  pid : Nat
  sid : Nat
  lane : Nat
  ea : Dword
  n : Nat
  value : Option Nat
  deriving DecidableEq, Repr

/-- One change of the sticky flag word, kept while a rewind window is open (R63, R250). -/
structure StickyEvent where
  sid : Nat
  seq : Nat
  set : Bool
  mask : Word
  deriving DecidableEq, Repr

/-- Sticky flags of a completed result that wait for their completion flag to clear (R62). -/
structure HeldFlags where
  flag : Nat
  lid : Option Nat
  event : StickyEvent
  deriving DecidableEq, Repr

/-- The step counts of a lane as it exited (R177, R182). -/
structure ExitCounts where
  t : Word
  d : Word
  g : Word
  deriving DecidableEq, Repr

/-- The tag of an accumulator tile (R353). -/
inductive TileTag where
  | f32 | i32
  deriving DecidableEq, Repr

/-- An accumulator tile: 32 × 32 words, its tag and validity (R353). -/
structure Tile where
  valid : Bool
  tag : TileTag
  vals : FMap Word
  deriving DecidableEq, Repr

/-- A tensor handle: validity and its descriptor words (R347). -/
structure Handle where
  valid : Bool
  words : FMap Word
  deriving DecidableEq, Repr

/-- What a pre-emption has done with a group (R249-R255). -/
inductive SaveMark where
  | none
  | stopping (whole : Bool)
  | handler
  | idled
  | savedWhole
  deriving DecidableEq, Repr

/-- A group (R137, R142, R145-R162). `regs` is keyed 32 · register + lane. `waited` is the model's own: how many issues of
other quadrants the default schedule has made while this group was ready (log 2). -/
structure Group where
  tid : Nat
  idx : Nat
  quad : Nat
  slot : Nat
  block : Nat
  nregs : Nat
  ntiles : Nat
  regs : FMap Word
  live : LaneMask
  sticky : Word
  stickyBase : Word
  stickyLog : List StickyEvent
  heldSticky : List HeldFlags
  exits : FMap ExitCounts
  pend : List Pending
  far : List FarRead
  tiles : FMap Tile
  spoil : List Spoil
  owed : List Owed
  save1 : FMap Word
  levels : FMap TrapLevel
  splits : FMap Split
  nextId : Nat
  nextAge : Nat
  seq : Nat
  birth : Nat
  waited : Nat
  mark : SaveMark
  deriving DecidableEq, Repr

/-- Kinds of engine operation (R345). -/
inductive EngKind where
  | cpy | cpy2d | gth | sct | zfill
  deriving DecidableEq, Repr

/-- States of a command record (R334). -/
inductive CmdState where
  | running | completed | landing | cancelled
  deriving DecidableEq, Repr

/-- One rule unit of an engine operation (R337): the IPA page of its destination, its destination bytes in address order
and the source byte of each; a fill has no sources. -/
structure EngUnit where
  ipn : Nat
  dest : List Loc
  src : List Loc
  deriving DecidableEq, Repr

/-- A command record that is not free (R334, R345). `addrs` are the per-lane addresses of `gth` and `sct`; `writes` are
the contributions formed at completion, in element order: for each rule unit its IPA page and bytes. -/
structure Cmd where
  st : CmdState
  kind : EngKind
  ctr : Nat
  rule : Rule
  width : Width
  hint : Hint
  lane : Nat
  group : Nat
  pc : Dword
  order : Nat
  count : Nat
  dst : Dword
  src : Dword
  n : Nat
  rows : Nat
  dstride : Int
  sstride : Int
  mask : LaneMask
  addrs : FMap Dword
  units : List EngUnit
  writes : List (Nat × List (Loc × Byte))
  err : Bool
  deriving DecidableEq, Repr

/-- Pending updates of tag entries and counters (R226, R343). -/
inductive UpdKind where
  | tagset | tagclr | ctrset
  deriving DecidableEq, Repr

/-- A pending update with its writer key: group, lane and issue order (R226, R343, R345). -/
structure Upd where
  kind : UpdKind
  index : Nat
  count : Word
  value : Dword
  group : Nat
  lane : Nat
  ord : Nat
  deriving DecidableEq, Repr

/-- A team (R137, R138, R221, R225, R333, R334, R347). `spad` is keyed by storage offset within the allocation. -/
structure Team where
  grid : Nat
  slice : Nat
  idx : Nat
  flat : Nat
  die : Nat
  core : Nat
  a0 : Nat
  hstore : Nat
  spad : FMap Byte
  tags : FMap Dword
  ctrs : FMap (BitVec 34)
  cmds : FMap Cmd
  order : Nat
  upds : List Upd
  handles : FMap Handle
  landed : Word
  ended : Bool
  saved : Bool
  deriving DecidableEq, Repr

/-- One late drain error kept for the grid's completion record (R123, R245). -/
structure LateError where
  info : Nat
  count : Nat
  team : Nat
  group : Nat
  lane : Nat
  scope : Nat
  deriving DecidableEq, Repr

/-- A grid (07_kernel R132-R144, 06_queue R119, R128). `image` and `kernel` name its declaration; `nextTeam` and
`lastCore` say for each die slice which team is placed next and on which core the last one was. `exitG` is the largest `.g` count
with which a lane has exited, once one has (R123, R182). -/
structure Grid where
  ctx : Nat
  queue : Nat
  seqNo : Nat
  image : Nat
  kernel : Nat
  dies : Nat
  teams : Nat
  residency : Nat
  gang : Nat
  groups : Nat
  prod : Nat
  pregs : Nat
  cregs : Nat
  ptiles : Nat
  ctiles : Nat
  nhandles : Nat
  order : List Nat
  spad : Nat
  entry : Dword
  rodata : Dword
  args : Dword
  crec : Dword
  det : Bool
  fnver : Nat
  irq : Bool
  vector : Nat
  nextTeam : FMap Nat
  lastCore : FMap Nat
  landedD : FMap Word
  landedG : Word
  exitG : Option Word
  late : Option LateError
  deriving DecidableEq, Repr

/-- Where a part of a landing stands on its way (R202-R205): in its core, in a merge buffer, on the way from there to its
home, or held, refused or applied there. -/
inductive Stage where
  | core | buffered | passing | held | refused | applied
  deriving DecidableEq, Repr

/-- A writer of a contribution: a lane by group index and position, or an engine operation of its team by order number
(R195). -/
inductive Writer where
  | lane (group lane : Nat)
  | engine (order : Nat)
  deriving DecidableEq, Repr

/-- One contribution (R193-R195): its bytes in address order, its writer, its program order, and whether it asks for a
verdict. `gid` and `eseq` name the spoil entry; an engine's contributions hold 0 and the command record. -/
structure Contrib where
  tid : Nat
  flat : Nat
  writer : Writer
  ord : Nat
  rule : Rule
  width : Width
  bytes : List (Loc × Byte)
  cap : Word
  v : Bool
  vreg : Nat
  gid : Nat
  eseq : Nat
  ea : Dword
  ipn : Nat
  deriving DecidableEq, Repr

/-- A part of a landing: one group's, or one team's engines', contributions to one cell under one rule (R202), and the die
whose cores it comes from. -/
structure Part where
  tid : Nat
  group : Nat
  die : Nat
  home : Home
  cell : Loc
  rule : Rule
  ordered : Bool
  stage : Stage
  deriving DecidableEq, Repr

/-- A boundary that has formed and not landed (R187, R202-R205). `base` is where its free choices begin; peer writes that
arrived under a number below `peers` are applied with it (R282). `done` are the cells updated already, or sent out to a peer or the
host, and `verdicts` are the contributions whose verdict those updates have settled, which is written when the boundary has
landed (R198, R199). -/
structure Landing where
  dom : Domain
  b : Word
  base : Nat
  contribs : List Contrib
  parts : FMap Part
  marks : List (Home × Nat)
  teams : List (Nat × Nat)
  replay : List Home
  done : List Loc
  verdicts : List (Contrib × Nat)
  late : List (Loc × Nat)
  engines : List (Nat × Nat)
  peers : Nat
  deriving DecidableEq, Repr

end Sys2Proof.Machine
end

