-- ==== Sys2Proof/Machine/DevTypes.lean ====
section
/-! DEFINITION. The state of contexts, queues, links and the platform, as plain data (spec 05_context, 06_queue, 12_page,
13_link, 23_platform). -/
namespace Sys2Proof.Machine

/-- Context states, in code order (R106). -/
inductive CtxState where
  | free | scrubbing | bound | running | preempted | migOut | migIn | disabled
  deriving DecidableEq, Repr

/-- What a memory line was enciphered under (R273): a slot with the key material it held, or the firmware key of one reset. -/
inductive Key where
  | mem (slot material : Nat)
  | fw (gen : Nat)
  deriving DecidableEq, Repr

/-- Queue states (R122). -/
inductive QState where
  | disabled | empty | waiting | mapped | blocked | error
  deriving DecidableEq, Repr

/-- A user queue as the scheduler keeps it (R116, R117, R122). `complete` are the sequence numbers whose completion is
written and which `done` has not passed; `head` is the record in fetch and not yet launched. -/
structure Queue where
  st : QState
  rbase : Nat
  rsize : Nat
  ctl : Word
  widx : Word
  ridx : Word
  done : Word
  qerr : Nat
  eseq : Word
  since : Nat
  rung : Bool
  head : Option (List Byte)
  complete : List Nat
  deriving DecidableEq, Repr

/-- States of a hardware slot that is not free (R122). -/
inductive SlotState where
  | loading | active | unloading
  deriving DecidableEq, Repr

/-- A hardware queue slot in use (R120, R122). `taker` names the waiting queue, by context and number, that it unloads for. -/
structure Slot where
  ctx : Nat
  queue : Nat
  st : SlotState
  start : Nat
  expired : Bool
  taker : Option (Nat × Nat)
  deriving DecidableEq, Repr

/-- A save-area record kept for the next save (R110): an unknown type whole, or the tail of a newer minor, with the grid, the
team and the group, by number on the device, flat index and index, that its record is of. -/
structure KeptRec where
  type : Nat
  major : Nat
  minor : Nat
  owner : Nat × Nat × Nat
  bytes : List Byte
  deriving DecidableEq, Repr

/-- A pre-copy round in progress (R290, R291): its snapshot, the pages it sends, in order, whether it is the last round of a
final stop, how many pages have gone, and how many of them before the pool filled. -/
structure Round where
  snap : Nat
  pages : List Nat
  final : Bool
  sent : Nat
  early : Nat
  deriving DecidableEq, Repr

/-- The receiving side of a migration (R290): the snapshot number kept of each page, the sequences of the records that have
landed, and, once the save area has landed, the sequences of the last round: from one up to another. -/
structure Incoming where
  pages : FMap Nat
  got : List Nat
  tail : Option (Nat × Nat)
  deriving DecidableEq, Repr

/-- A page move under way (R276): leaf address, old and new frame, whether the cut is done, and the accesses translated before it
that the redirect entry is kept for: engine operations by team, command record and order number, and the peer writes that had
arrived under a number below `upTo`. -/
structure Move where
  leaf : Nat
  old : Nat
  new : Nat
  cut : Bool
  waits : List (Nat × Nat × Nat)
  upTo : Nat
  deriving DecidableEq, Repr

/-- The stage control fields the device holds (R265, R269-R271). -/
structure Stage2 where
  map0 : Nat
  map1 : Nat
  mlen : Nat
  track : Bool
  active : Bool
  oor : Bool
  full : Bool
  pool : Nat
  pent : Nat
  pused : Nat
  snap : Nat
  deriving DecidableEq, Repr

/-- A request under which no boundary of the context forms (R189). -/
inductive Stop where
  | none | preempt
  deriving DecidableEq, Repr

/-- One context (R98, R106, R107, R114, R129, R264, R288, R289). -/
structure Ctx where
  st : CtxState
  busy : Bool
  err : Nat
  cmd : Option Nat
  cutShort : Bool
  migRan : Bool
  quads : List Nat
  pdet : Bool
  pver : Nat
  swip : Bool
  tvec : Dword
  pvec : Dword
  ptbase : Dword
  scring : Dword
  scsize : Word
  pdesc : Dword
  sarea : Dword
  salen : Word
  qos : Word
  vf : Word
  ptbase2 : Dword
  memkey : Word
  hvec : Dword
  sig : Dword
  qtBase : Dword
  qtCount : Nat
  qtErr : Nat
  queues : FMap Queue
  sweepAt : Nat
  stop : Stop
  reqTime : Nat
  scrub : List (Nat × Nat)
  stage : Stage2
  kept : List KeptRec
  round : Option Round
  roundDue : Bool
  incoming : Option Incoming
  pcBusy : Bool
  pcStat : Nat
  pcPorts : Nat
  pcSess : Nat
  pcSent : Nat
  pcSeq : Nat
  linkErr : Dword
  peers : FMap Dword
  move : Option Move
  deriving DecidableEq, Repr

/-- A session slot (R386, R392). -/
structure Session where
  key : Nat
  salt : Nat
  receiver : Bool
  endpoint : Nat
  port : Nat
  deriving DecidableEq, Repr

/-- A Prolen port (R284). -/
structure PlPort where
  up : Bool
  lanes : Nat
  retries : Nat
  deriving DecidableEq, Repr

/-- A cached translation of one 4 KiB page of a context (R266, R267): guest permission bits as in R260, the IPA page,
the hypervisor permission bits and the DPA page. -/
structure TlbEntry where
  ctx : Nat
  vpn : Nat
  gperm : Nat
  ipn : Nat
  hperm : Nat
  dpn : Nat
  deriving DecidableEq, Repr

/-- A peer write that has arrived and is not yet applied (R282): the receiving context, its bytes with IPA page and device
address, the time of arrival, and its number among arrivals. -/
structure PeerWrite where
  ctx : Nat
  bytes : List (Nat × Nat × Byte)
  arrived : Nat
  id : Nat
  deriving DecidableEq, Repr

/-- Who waits for the answer to a store that was sent: a boundary's landing, or a step store of a handler split as a pending
result of its group, with the lanes that wrote the cell (R201, R282). -/
inductive SentBy where
  | boundary (d : Domain) (b : Word)
  | handler (gid pid : Nat) (lanes : List Nat)
  deriving DecidableEq, Repr

/-- A store sent on path 110 or 111 whose acknowledgement its landing waits for (R282, R286). -/
structure SentWrite where
  msg : Nat
  src : SentBy
  cell : Loc
  reply : Option Bool
  deriving DecidableEq, Repr

/-- What the device has sent to the world outside, newest last: MSI-X vectors, peer traffic, replies, pre-copy records,
host-path writes, and answers to host reads (none is poisoned data). -/
inductive OutMsg where
  | msix (fn vector : Nat)
  | peerStore (port dev rctx : Nat) (addr : Nat) (bytes : WriteBytes) (msg : Nat)
  | peerLoad (port dev rctx : Nat) (addr len : Nat) (gid pid lane : Nat)
  | peerAck (dev msg : Nat) (accepted : Bool)
  | peerReply (dev msg : Nat) (data : Option (List Byte))
  | hostStore (addr : Nat) (bytes : WriteBytes) (msg : Nat)
  | hostLoad (addr len : Nat) (gid pid lane : Nat)
  | hostRead (data : Option (List Byte))
  | peerFetch (port dev rctx : Nat) (addr len : Nat) (tid rec order : Nat)
  | hostFetch (addr len : Nat) (tid rec order : Nat)
  | pageRecord (ctx page snap seq : Nat) (body tag : List Byte)
  | saveArea (ctx count snap seq : Nat) (body tag : List Byte)
  deriving DecidableEq, Repr

/-- A defect-map entry (R387). -/
structure Defect where
  kind : Nat
  index : Nat
  unit : Nat
  spare : Nat
  deriving DecidableEq, Repr

/-- The management block and what it keeps (R383-R392). -/
structure Mgmt where
  busy : Bool
  err : Nat
  pstate : Nat
  state : Nat
  devnum : Nat
  cap : Nat
  draw : Nat
  tj : Nat
  corr : Nat
  ctxv : Bool
  ctx : Nat
  mailbox : FMap Byte
  args : FMap Byte
  cmd : Option (Nat × Nat)
  partialImg : Option (List Byte)
  staged : Option (List Byte)
  running : List Byte
  rollback : Nat
  secver : Nat
  fwgen : Nat
  keys : FMap Nat
  sessions : FMap Session
  wrap : Option Nat
  lastChange : Nat
  lastHot : Nat
  deriving DecidableEq, Repr

/-- One decision of which agent moves next: a split issues, a device step runs, the reference clock advances. -/
inductive Turn where
  | issue (gid sid : Nat)
  | event (i : Instr)
  | tick (ns : Nat)
  deriving DecidableEq, Repr

/-- A compaction under way in one context: the groups and teams that move (R143). -/
structure Compact where
  core : Nat
  gids : List Nat
  tids : List Nat
  deriving DecidableEq, Repr

end Sys2Proof.Machine
end

