-- ==== Sys2Proof/Machine/State.lean ====
section
/-! DEFINITION. The state of the whole device, why a step may stop, and the state after a device reset (spec 23_platform
R383 and the Reset columns of every register map). -/
namespace Sys2Proof.Machine

/-- Why a step stops with a fault. -/
inductive Fault where
  /-- Raised by the meaning of a slot instruction when no split is issuing: only a caller that is not `step` meets it,
  because `step` names the issuing split first. Safe: the hardware never executes an instruction without a split. -/
  | noIssuer
  deriving DecidableEq, Repr

/-- Why an instruction has no meaning. -/
inductive Refusal where
  /-- Raised by an arm of `exec` whose instruction is not modelled yet, under its mnemonic. Safe. -/
  | notModelled (mnemonic : String)
  deriving DecidableEq, Repr

/-- The device. Memory is keyed by device physical address (12_page R259); an unlisted byte reads 0 (log 1). `ktag` names
the key each written 64-byte line is enciphered under (R273). `priv` lists the private bytes that lanes have written since
their birth (10_memory R220). `cache` lists the 64-byte lines that the memory-side cache slices hold (01_device R9, R273),
`dieMem` the bytes of memory that each memory die serves (R18), and `dlcDown` the die link controllers that have failed, by
shader die and link (R10, R278). A context that is not listed stands at its reset state.
`agenda`, `cur` and `fresh` are the model's own: which agents move next, the split whose issue this is, and the counter
that free values are applied to (logs 2 and 3). -/
structure State where
  time : Nat
  csel : Nat
  fwver : Word
  dieMem : List Nat
  mem : List Host.Cell
  ktag : FMap Key
  priv : FMap Bool
  cache : FMap Bool
  dlcDown : List (Nat × Nat)
  mgmt : Mgmt
  defects : List Defect
  ports : List PlPort
  hwin : FMap Dword
  slots : FMap Slot
  ctxs : FMap Ctx
  tlb : List TlbEntry
  grids : FMap Grid
  teams : FMap Team
  groups : FMap Group
  nextGrid : Nat
  nextTeam : Nat
  nextGroup : Nat
  landings : List Landing
  compacts : FMap Compact
  inbox : List PeerWrite
  sentw : List SentWrite
  nextMsg : Nat
  out : List OutMsg
  agenda : List Turn
  cur : Option (Nat × Nat)
  fresh : Nat
  deriving DecidableEq, Repr

/-- The stage control fields before any BIND. -/
def Stage2.reset : Stage2 :=
  { map0 := 0, map1 := 0, mlen := 0, track := false, active := false, oor := false, full := false, pool := 0, pent := 0,
    pused := 0, snap := 0 }

/-- A context at device reset: free, every register at its Reset value (R98-R106, R114, R129, R239, R264, R279, R289). -/
def Ctx.reset : Ctx :=
  { st := .free, busy := false, err := 0, cmd := none, cutShort := false, migRan := false, quads := [],
    pdet := true, pver := 1, swip := false, tvec := 0, pvec := 0, ptbase := 0, scring := 0, scsize := 0,
    pdesc := 0, sarea := 0, salen := 0, qos := 0x00071010#32, vf := 0x40#32, ptbase2 := 0, memkey := 0, hvec := 0,
    sig := 0, qtBase := 0, qtCount := 0, qtErr := 0, queues := [], sweepAt := 0, stop := .none, reqTime := 0,
    scrub := [], stage := Stage2.reset, kept := [], round := none, roundDue := false, incoming := none, pcBusy := false, pcStat := 0,
    pcPorts := 0, pcSess := 0, pcSent := 0, pcSeq := 0, linkErr := 0, peers := [], move := none }

/-- A Prolen port after training (R284, R383). -/
def PlPort.reset : PlPort := { up := true, lanes := 8, retries := 0 }

/-- The management block after the first device reset: ready, cap 3600 W, no key, no session, nothing staged, the shipped image
running, with the rollback counter at its security version (R383, R384, R390). The device number has no reset value: it comes
from the carrier's strap (R383); the model starts it at 0 and keeps it over a device reset (DESIGN CHOICE, log 5). -/
def Mgmt.reset : Mgmt :=
  { busy := false, err := 0, pstate := 0, state := 1, devnum := 0, cap := 3600, draw := 0, tj := 0, corr := 0,
    ctxv := false, ctx := 0, mailbox := [], args := [], cmd := none, partialImg := none, staged := none,
    running := Config.shippedImage, rollback := leNat ((Config.shippedImage.drop 4).take 4),
    secver := leNat ((Config.shippedImage.drop 4).take 4), fwgen := 0, keys := [], sessions := [], wrap := none, lastChange := 0, lastHot := 0 }

/-- The device right after a device reset (R383), with the values of logs 1, 4 and 5 where the spec gives none. -/
def State.reset : State :=
  { time := 0, csel := 0, fwver := BitVec.ofNat 32 (leNat (Config.shippedImage.take 4)), dieMem := List.replicate 4 (2 ^ 42),
    mem := [], ktag := [], priv := [], cache := [], dlcDown := [], mgmt := Mgmt.reset, defects := [], ports := List.replicate 16 PlPort.reset,
    hwin := [], slots := [], ctxs := [], tlb := [], grids := [], teams := [], groups := [], nextGrid := 0,
    nextTeam := 0, nextGroup := 0, landings := [], compacts := [], inbox := [], sentw := [], nextMsg := 0, out := [],
    agenda := [], cur := none, fresh := 0 }

end Sys2Proof.Machine
end

