-- ==== Sys2Proof/Machine/Memory.lean ====
section
/-! DEFINITION. Memory: enciphered device memory, demand scrub, the dirty map and snapshots, the two-stage translation,
the paths and their checks (spec 10_memory R216-R224, 12_page R259-R274, 13_link R280). -/
namespace Sys2Proof.Machine

/-! Accessors. -/

/-- A context. -/
def State.ctx (s : State) (c : Nat) : Ctx := sget Ctx.reset s.ctxs c
/-- A context replaced. -/
def State.setCtx (s : State) (c : Nat) (x : Ctx) : State := { s with ctxs := sset Ctx.reset s.ctxs c x }
/-- A team replaced. -/
def State.setTeam (s : State) (t : Nat) (x : Team) : State := { s with teams := fset s.teams t x }
/-- A group replaced. -/
def State.setGroup (s : State) (g : Nat) (x : Group) : State := { s with groups := fset s.groups g x }
/-- A grid replaced. -/
def State.setGrid (s : State) (g : Nat) (x : Grid) : State := { s with grids := fset s.grids g x }
/-- Does the host port answer more than the management block: not when no image verified at reset (R383). -/
def State.answers (s : State) : Bool := decide (s.mgmt.state ≠ 0)

/-- A message to the world outside. -/
def State.send (s : State) (m : OutMsg) : State := { s with out := s.out ++ [m] }

/-! Enciphered memory. -/

/-- Memory in its canonical form: addresses strictly rising, and no listed byte that an unlisted one reads as (log 1). -/
def Memory.wf (m : List Host.Cell) : Bool := swf (0 : Byte) m

/-- The 64 bytes of a key: data key, then tweak key (R386, R392). -/
def Key.bytes : Key → List Nat
  | .mem _ m => nats (leBytes 64 m)
  | .fw g => nats (leBytes 64 (Config.firmwareKey g))

/-- The slot that tags a cached line: that of a context's key, or 64 for the firmware key (R273). -/
def Key.slot : Key → Nat
  | .mem n _ => n
  | .fw _ => 64

/-- The key of a context: that of the slot `kh_memkey` names (R264, R273). -/
def State.keyOf (s : State) (c : Nat) : Key :=
  let n := (s.ctx c).memkey.toNat % 64
  .mem n (sget 0 s.mgmt.keys n)
/-- The firmware key (R273, R386). -/
def State.fwKey (s : State) : Key := .fw s.mgmt.fwgen

/-- The home slice of a device address (R275). -/
def sliceOf (a : Nat) : Nat := 16 * bits a 43 42 + bits a 15 12

/-- Is a range of device addresses installed. Each memory die serves the lowest addresses of its 4 TiB, as many as its modules
hold: DESIGN CHOICE, for no rule says which addresses of a die are missing where its modules are smaller (R18; log 5). -/
def State.installed (s : State) (a n : Nat) : Bool :=
  decide (a + n ≤ 2 ^ 44) && (List.range 4).all (fun d =>
    decide (min (a + n) ((d + 1) * 2 ^ 42) ≤ max a (d * 2 ^ 42)) || decide (min (a + n) ((d + 1) * 2 ^ 42) ≤ d * 2 ^ 42 + s.dieMem.getD d 0))

/-- Is the line that holds an address still to be scrubbed in some context (R274). -/
def State.scrubPending (s : State) (a : Nat) : Bool :=
  s.ctxs.any (fun e => e.2.scrub.any (fun r => decide (r.1 ≤ a) && decide (a < r.2)))

/-- The 64 bytes of a line as they were written. -/
def State.lineContent (s : State) (line : Nat) : List Nat :=
  (List.range 64).map (fun i => (sget 0 s.mem (64 * line + i)).toNat)

/-- A line that was enciphered under one key, read under another: the decipherment under the reader's key (R273). -/
def recipher (written reader : Key) (line : Nat) (content : List Nat) : List Nat :=
  xtsLine true reader.bytes (64 * line) (xtsLine false written.bytes (64 * line) content)

/-- The byte a reader with a key sees at a device address: zero while the line is to be scrubbed; the byte written, under the
key it was written under, or from the cache under a key of the same slot; the decipherment under any other (R273, R274). -/
def State.readByte (s : State) (k : Key) (a : Nat) : Byte :=
  if s.scrubPending a then 0
  else match fget s.ktag (a / 64) with
    | none => sget 0 s.mem a
    | some w =>
      if w = k ∨ (w.slot = k.slot ∧ sget false s.cache (a / 64) = true) then sget 0 s.mem a
      else BitVec.ofNat 8 ((recipher w k (a / 64) (s.lineContent (a / 64))).getD (a % 64) 0)

/-- n bytes read as one little-endian number. -/
def State.readN (s : State) (k : Key) (a n : Nat) : Nat := leNat ((List.range n).map (fun i => s.readByte k (a + i)))

/-- The address of the stage control page of a context (R264, R265). -/
def State.stagePage (s : State) (c : Nat) : Nat := bits (s.ctx c).ptbase2.toNat 51 13 * 2 ^ 13 + 4096

/-- Bytes put into memory whose lines are the key's from then on, whatever else they held. -/
def State.putRaw (s : State) (k : Key) (a : Nat) (bs : List Byte) : State :=
  { s with
    mem := (List.range bs.length).foldl (fun m i => sset 0 m (a + i) (bs.getD i 0)) s.mem
    ktag := (List.range ((a + bs.length - 1) / 64 + 1 - a / 64)).foldl (fun m i => fset m (a / 64 + i) k) s.ktag }

/-- A range of addresses less another. -/
def lessRange (q r : Nat × Nat) : List (Nat × Nat) :=
  (if r.1 < min r.2 q.1 then [(r.1, min r.2 q.1)] else []) ++ (if max r.1 q.2 < r.2 then [(max r.1 q.2, r.2)] else [])

/-- Lines still to scrub (R265 sleft). -/
def Ctx.sleft (x : Ctx) : Nat := (x.scrub.map (fun r => (r.2 - r.1) / 64)).sum

/-- Is a line pending in a context's list (R274). -/
def Ctx.pendingAt (x : Ctx) (line : Nat) : Bool := x.scrub.any (fun r => decide (r.1 ≤ 64 * line) && decide (64 * line < r.2))

/-- How many lines a memory-side cache slice holds: 16 MiB of 64 bytes (R9). -/
def sliceLines : Nat := 2 ^ 18

/-- The cached lines with one that is written. A full slice gives up a line, which one is a free value (log 49). -/
def State.cachedWith (s : State) (line : Nat) : FMap Bool :=
  if sget false s.cache line then s.cache
  else
    let mine := s.cache.filter (fun e => decide (sliceOf (64 * e.1) = sliceOf (64 * line)))
    fset (if mine.length < sliceLines then s.cache
      else fdel s.cache (((mine[Config.freeChoice s.fresh % mine.length]?).map (·.1)).getD line)) line true

/-- A written line is in its home slice, in plaintext, tagged by its slot (R9, R273). -/
def State.cacheLine (s : State) (line : Nat) : State := { s with cache := s.cachedWith line }

/-- A line that is not pending made ready for a write under a key, and cached: it is re-read under the writer's key if it was
written under another (R273). -/
def State.rekey (s : State) (k : Key) (line : Nat) : State :=
  (if fget s.ktag line = some k then s
  else s.putRaw k (64 * line) ((List.range 64).map (fun i => s.readByte k (64 * line + i)))).cacheLine line

/-- Bytes put under a key into a line that is not pending. -/
def State.putBytes (s : State) (k : Key) (a : Nat) (bs : List Byte) : State :=
  let t := s.rekey k (a / 64)
  { t with mem := (List.range bs.length).foldl (fun m i => sset 0 m (a + i) (bs.getD i 0)) t.mem }

/-- The line of the `sleft` cell of a context (R265). -/
def State.sleftLine (s : State) (c : Nat) : Nat := (s.stagePage c + 52) / 64

/-- Lines with those of the `sleft` cells that are written when they cease to be pending, n steps at most. -/
def State.scrubWith (s : State) : Nat → List Nat → List Nat
  | 0, ls => ls
  | n + 1, ls => s.scrubWith n (distinct (ls ++ (s.ctxs.filter (fun e => ls.any e.2.pendingAt)).map (fun e => s.sleftLine e.1)))

/-- A pending line is zero under a key and pending no more in any context that lists it (R274). -/
def State.zeroLine (s : State) (k : Key) (line : Nat) : State :=
  let t := s.ctxs.foldl (fun (t : State) e =>
    if e.2.pendingAt line then t.setCtx e.1 { e.2 with scrub := e.2.scrub.flatMap (lessRange (64 * line, 64 * line + 64)) } else t) s
  ({ t with mem := fdelRange t.mem (64 * line) (64 * line + 64), ktag := fset t.ktag line k } : State).cacheLine line

/-- A pending line is written to zero under a key, and `sleft` is written back in every context that listed it; the line of such
a cell, where it is pending itself, is zeroed before (R265, R274). -/
def State.unscrub (s : State) (k : Key) (line : Nat) : State :=
  let ls := s.scrubWith s.ctxs.length [line]
  let hit := s.ctxs.filter (fun e => ls.any e.2.pendingAt)
  let s1 := ls.foldl (fun (t : State) l => if t.scrubPending (64 * l) then t.zeroLine (if l = line then k else t.fwKey) l else t) s
  hit.foldl (fun (t : State) e => t.putBytes t.fwKey (t.stagePage e.1 + 52) (leBytes 4 (t.ctx e.1).sleft)) s1

/-- A line made ready for a write under a key, and cached: zeroed if it was to be scrubbed, re-read under the writer's key if
it was written under another (R273, R274). -/
def State.prepLine (s : State) (k : Key) (line : Nat) : State :=
  if s.scrubPending (64 * line) then s.unscrub k line else s.rekey k line

/-- A line is read: if it is still to be scrubbed it is written to zero and ceases to be pending (R274). -/
def State.readLine (s : State) (k : Key) (line : Nat) : State :=
  if s.scrubPending (64 * line) then s.prepLine k line else s

/-- One byte written under a key. -/
def State.writeByte (s : State) (k : Key) (a : Nat) (b : Byte) : State :=
  let t := s.prepLine k (a / 64)
  { t with mem := sset 0 t.mem a b }

/-- Bytes written under a key from an address up. -/
def State.writeBytes (s : State) (k : Key) (a : Nat) : List Byte → State
  | [] => s
  | b :: bs => (s.writeByte k a b).writeBytes k (a + 1) bs

/-- The page size of a leaf at a level (R259). -/
def pageSize (level : Nat) : Nat := 2 ^ (12 + 9 * (3 - level))

/-- What a table entry says at its level: a failed walk, a next table, or a leaf with permissions and frame. -/
inductive Ent where
  | bad
  | table (a : Nat)
  | leaf (perm frame : Nat)
  deriving DecidableEq, Repr

/-- The checks of R261 on one entry by itself. -/
def readEnt (level e : Nat) : Ent :=
  if !bit e 0 || decide (bits e 63 60 ≠ 0) || decide (bits e 11 9 ≠ 0) || decide (bits e 3 2 ≠ 0) ||
      (bit e 8 && decide (level ≠ 3)) then .bad
  else
    let a := bits e 51 12 * 4096
    if bit e 1 then
      if level = 0 ∨ a % pageSize level ≠ 0 then .bad else .leaf (bits e 7 4) a
    else if level = 3 then .bad
    else .table a

/-! Pages of the firmware (R264, R265, R271, R273). -/

/-- The entries of a table that are not zero all over: those with a listed byte (log 1). -/
def State.entriesH (s : State) (table : Nat) : List Nat :=
  (((s.mem.filter (fun e => decide (table ≤ e.1) && decide (e.1 < table + 4096))).map (fun e => (e.1 - table) / 8))).eraseDups

/-- The hypervisor tables below a table, n levels above the last: those that its valid entries name. -/
def State.tablesH (s : State) : Nat → Nat → List Nat
  | 0, _ => []
  | n + 1, table =>
    (s.entriesH table).flatMap (fun i => match readEnt (2 - n) (s.readN s.fwKey (table + 8 * i) 8) with
      | .table a => a :: s.tablesH n a
      | _ => [])

/-- Does a context's firmware hold an address: its stage block, its hypervisor tables, its snapshot pool or its save area
(R273). -/
def State.fwHolds (s : State) (x : Ctx) (a : Nat) : Bool :=
  let root := bits x.ptbase2.toNat 51 13 * 2 ^ 13
  let g := x.stage
  (x.st ≠ .free ∨ root ≠ 0) &&
    ((decide (root ≤ a) && decide (a < root + 8192)) ||
     (decide (0 < g.pent) && decide (g.pool ≤ a) && decide (a < g.pool + (8 * g.pent + 4095) / 4096 * 4096 + 4096 * g.pent)) ||
     (decide (x.sarea.toNat ≤ a) && decide (a < x.sarea.toNat + x.salen.toNat)) ||
     (s.tablesH 3 root).contains (a / 4096 * 4096))

/-- The key under which an access of a context moves the line of an address: the firmware key for the tables, stage blocks,
pools and save areas, and otherwise the context's (R273). -/
def State.keyAt (s : State) (c a : Nat) : Key :=
  if s.ctxs.any (fun e => s.fwHolds e.2 a) then s.fwKey else s.keyOf c

/-- The lines of some addresses are read for a context: they are pending no more (R274). -/
def State.seen (s : State) (c : Nat) (as : List Nat) : State := as.foldl (fun t a => t.readLine (t.keyAt c a) (a / 64)) s

/-- An address in each line that a range of addresses meets. -/
def linesOf (a n : Nat) : List Nat := (List.range ((a + n + 63) / 64 - a / 64)).map (fun i => 64 * (a / 64 + i))

/-! The dirty map and snapshots. -/

/-- dctl as the device writes it (R265). -/
def Stage2.dctl (t : Stage2) : Nat := b01 t.track + 2 * b01 t.active + 4 * b01 t.oor + 8 * b01 t.full
where
  b01 (b : Bool) : Nat := if b then 1 else 0

/-- The device's cells of the stage control page written back: dctl and pused (R265). -/
def State.syncStage (s : State) (c : Nat) : State :=
  (s.writeBytes s.fwKey (s.stagePage c + 20) (leBytes 4 (s.ctx c).stage.dctl)).writeBytes s.fwKey (s.stagePage c + 36)
    (leBytes 4 (s.ctx c).stage.pused)

/-- Has a page its copy in the snapshot pool (R271). -/
def State.hasCopy (s : State) (c ipn : Nat) : Bool :=
  let g := (s.ctx c).stage
  (List.range g.pused).any (fun j => decide (s.readN s.fwKey (g.pool + 8 * j) 8 = ipn + 2 ^ 63))

/-- The old 4 KiB of a page copied into the snapshot pool, or the pool found full (R271). -/
def State.savePage (s : State) (c ipn dpa : Nat) : State :=
  let x := s.ctx c
  let g := x.stage
  if g.pused ≥ g.pent then (s.setCtx c { x with stage := { g with full := true } }).syncStage c
  else
    let dst := g.pool + (8 * g.pent + 4095) / 4096 * 4096 + 4096 * g.pused
    let old := (List.range 4096).map (fun i => s.readByte (s.keyAt c dpa) (dpa / 4096 * 4096 + i))
    let s1 := ((s.seen c (linesOf (dpa / 4096 * 4096) 4096)).writeBytes s.fwKey dst old).writeBytes s.fwKey (g.pool + 8 * g.pused) (leBytes 8 (ipn + 2 ^ 63))
    (s1.setCtx c { s1.ctx c with stage := { g with pused := g.pused + 1 } }).syncStage c

/-- The address of the byte of a dirty map that holds a page's bit. The map is not among what R273 enciphers under the firmware
key, so its lines move under the context's. -/
def Stage2.mapByte (g : Stage2) (ipn : Nat) : Nat := (if g.active then g.map1 else g.map0) + ipn / 8

/-- A landing is about to change a page: the page's copy after a snapshot, while its active bit is clear and no copy stands
in the pool, and, while tracked, its dirty bit (R269, R271). -/
def State.markDirty (s : State) (c ipn dpa : Nat) : State :=
  let x := s.ctx c
  let g := x.stage
  if ipn ≥ 8 * g.mlen then
    if !g.track || g.oor then s else (s.setCtx c { x with stage := { g with oor := true } }).syncStage c
  else
    let b := s.readByte (s.keyAt c (g.mapByte ipn)) (g.mapByte ipn)
    let s0 := s.seen c [g.mapByte ipn]
    if b.getLsbD (ipn % 8) then s0
    else
      let s1 := if g.snap > 0 ∧ !s0.hasCopy c ipn then s0.savePage c ipn dpa else s0
      if g.track then s1.writeByte (s1.keyAt c (g.mapByte ipn)) (g.mapByte ipn) (b ||| BitVec.ofNat 8 (2 ^ (ipn % 8))) else s1

/-! Locations. -/

/-- The byte at a location, as a reader of a context sees it. Peer and host bytes are not here: they come with the reply. -/
def State.readLoc (s : State) (c : Nat) : Loc → Byte
  | .dram a => s.readByte (s.keyAt c a) a
  | .spad t a => match fget s.teams t with
    | some tm => sget 0 tm.spad a
    | none => 0
  | .peer _ => 0
  | .host _ => 0

/-- Bytes of this device are read: their lines are pending no more (R274). -/
def State.readLocs (s : State) (c : Nat) (ls : List Loc) : State :=
  s.seen c (ls.filterMap (fun l => match l with
    | .dram a => some a
    | _ => none))

/-- A landing of one byte at its home: dirty bit and key for device memory (R269, R273). Peer and host bytes have left
the device as messages already (R282, R286). -/
def State.writeLoc (s : State) (c ipn : Nat) (l : Loc) (b : Byte) : State :=
  match l with
  | .dram a => let s1 := s.markDirty c ipn a; s1.writeByte (s1.keyAt c a) a b
  | .spad t a => match fget s.teams t with
    | some tm => s.setTeam t { tm with spad := sset 0 tm.spad a b }
    | none => s
  | .peer _ => s
  | .host _ => s

/-- Bytes landed at their homes, in order. -/
def State.writeLocs (s : State) (c ipn : Nat) : List (Loc × Byte) → State
  | [] => s
  | (l, b) :: rest => (s.writeLoc c ipn l b).writeLocs c ipn rest

/-! Translation. -/

/-- A trap a lane meets: its cause code, `ks_tval` and sub-cause (R234, R240). -/
structure TrapInfo where
  code : Nat
  tval : Dword
  deriving DecidableEq, Repr

/-- Permissions an access needs (R260). -/
inductive Acc where
  | r | w | x
  deriving DecidableEq, Repr

/-- Does a leaf's permission field, bits [7:4] of the entry, allow an access (R260). -/
def permOk (p : Nat) : Acc → Bool
  | .r => bit p 1
  | .w => bit p 2
  | .x => bit p 3

/-- The check of the aligned group of sixteen entries of a 64 KiB page (R261). -/
def groupOk (es : List Nat) : Bool :=
  match es with
  | [] => false
  | e0 :: _ =>
    es.all (fun e => decide (readEnt 3 e ≠ .bad) && bit e 1 && bit e 8 && decide (bits e 7 4 = bits e0 7 4)) &&
    (List.range es.length).all (fun i => decide (bits (es.getD i 0) 51 12 = bits e0 51 12 + i)) &&
    decide (bits e0 51 12 % 16 = 0)

/-- The hypervisor walk from a table at a level, n levels above the last: permissions and device address, or none where
R261 fails it. A table beyond installed memory fails too. -/
def State.walkH (s : State) (ipa : Nat) : Nat → Nat → Option (Nat × Nat)
  | 0, table =>
    let i := ipa / 2 ^ 12 % 512
    let e := s.readN s.fwKey (table + 8 * i) 8
    match readEnt 3 e with
    | .leaf p f =>
      if bit e 8 && !groupOk ((List.range 16).map (fun j => s.readN s.fwKey (table + 8 * (i / 16 * 16 + j)) 8)) then none
      else if !s.installed f 4096 then none
      else some (p, f + ipa % 4096)
    | _ => none
  | n + 1, table =>
    let e := s.readN s.fwKey (table + 8 * (ipa / 2 ^ (12 + 9 * (n + 1)) % 512)) 8
    match readEnt (2 - n) e with
    | .leaf p f =>
      let a := f + ipa % pageSize (2 - n)
      if !s.installed (a / 4096 * 4096) 4096 then none else some (p, a)
    | .table a => if !s.installed a 4096 then none else s.walkH ipa n a
    | .bad => none

/-- The hypervisor stage of a context for one IPA (R259, R261, R263). -/
def State.hyp (s : State) (c ipa : Nat) : Except TrapInfo (Nat × Nat) :=
  match s.walkH ipa 3 (bits (s.ctx c).ptbase2.toNat 51 13 * 2 ^ 13) with
  | some r => .ok r
  | none => .error ⟨0x2A, BitVec.ofNat 64 ipa⟩

/-- A guest table entry read through the hypervisor stage, which must grant r (R259, R261). -/
def State.guestEntry (s : State) (c ipa : Nat) : Except TrapInfo Nat :=
  match s.hyp c ipa with
  | .ok (p, a) => if permOk p .r then .ok (s.readN (s.keyAt c a) a 8) else .error ⟨0x2B, BitVec.ofNat 64 ipa⟩
  | .error t => .error t

/-- The sixteen entries of an aligned group, each read as a guest table entry. -/
def State.guestGroup (s : State) (c table i : Nat) : List Nat → Except TrapInfo (List Nat)
  | [] => .ok []
  | j :: js => match s.guestEntry c (table + 8 * (i / 16 * 16 + j)) with
    | .ok e => match s.guestGroup c table i js with
      | .ok es => .ok (e :: es)
      | .error t => .error t
    | .error t => .error t

/-- The guest walk from a table, n levels above the last: permissions and IPA (R259, R261). -/
def State.walkG (s : State) (c : Nat) (ea : Dword) (va : Nat) : Nat → Nat → Except TrapInfo (Nat × Nat)
  | 0, table =>
    let i := va / 2 ^ 12 % 512
    match s.guestEntry c (table + 8 * i) with
    | .error t => .error t
    | .ok e => match readEnt 3 e with
      | .leaf p f =>
        if f ≥ 2 ^ 48 then .error ⟨0x28, ea⟩
        else if bit e 8 then
          match s.guestGroup c table i (List.range 16) with
          | .error t => .error t
          | .ok es => if groupOk es then .ok (p, f + va % 4096) else .error ⟨0x28, ea⟩
        else .ok (p, f + va % 4096)
      | _ => .error ⟨0x28, ea⟩
  | n + 1, table =>
    let i := if n = 2 then va / 2 ^ 39 else va / 2 ^ (12 + 9 * (n + 1)) % 512
    match s.guestEntry c (table + 8 * i) with
    | .error t => .error t
    | .ok e => match readEnt (2 - n) e with
      | .leaf p f => if f ≥ 2 ^ 48 then .error ⟨0x28, ea⟩ else .ok (p, f + va % pageSize (2 - n))
      | .table a => if a ≥ 2 ^ 48 then .error ⟨0x28, ea⟩ else s.walkG c ea va n a
      | .bad => .error ⟨0x28, ea⟩

/-- The guest stage: off, the VA is the IPA (R264). -/
def State.guest (s : State) (c : Nat) (ea : Dword) (va : Nat) : Except TrapInfo (Nat × Nat) :=
  let p := (s.ctx c).ptbase
  if p.getLsbD 0 then s.walkG c ea va 3 (bits p.toNat 51 21 * 2 ^ 21)
  else if va ≥ 2 ^ 48 then .error ⟨0x28, ea⟩
  else .ok (15, va)

/-! The entries that a walk reads (R261, R267): those of lines that are pending read zero, and end the walk (R274). -/

/-- The address of a table entry and, for a last level, those of the two lines of its aligned group. -/
def entryCells (last : Bool) (table i : Nat) : List Nat :=
  if last then [table + 8 * (i / 16 * 16), table + 8 * i, table + 8 * (i / 16 * 16) + 64] else [table + 8 * i]

/-- The addresses of the entries that a hypervisor walk reads, from a table n levels above the last. -/
def State.hypCells (s : State) (ipa : Nat) : Nat → Nat → List Nat
  | 0, table => entryCells true table (ipa / 2 ^ 12 % 512)
  | n + 1, table =>
    let at_ := table + 8 * (ipa / 2 ^ (12 + 9 * (n + 1)) % 512)
    at_ :: (match readEnt (2 - n) (s.readN s.fwKey at_ 8) with
      | .table a => if s.installed a 4096 then s.hypCells ipa n a else []
      | _ => [])

/-- The same of the walk for an IPA of a context, and the place that it leads to. -/
def State.ipaCells (s : State) (c ipa : Nat) : List Nat :=
  s.hypCells ipa 3 (bits (s.ctx c).ptbase2.toNat 51 13 * 2 ^ 13) ++ (match s.hyp c ipa with
    | .ok (_, a) => [a]
    | .error _ => [])

/-- The addresses of the entries that a guest walk reads, in both stages. -/
def State.guestCells (s : State) (c va : Nat) : Nat → Nat → List Nat
  | 0, table => (entryCells true table (va / 2 ^ 12 % 512)).flatMap (s.ipaCells c)
  | n + 1, table =>
    let ipa := table + 8 * (if n = 2 then va / 2 ^ 39 else va / 2 ^ (12 + 9 * (n + 1)) % 512)
    s.ipaCells c ipa ++ (match s.guestEntry c ipa with
      | .ok e => match readEnt (2 - n) e with
        | .table a => if a < 2 ^ 48 then s.guestCells c va n a else []
        | _ => []
      | .error _ => [])

/-- The walk that failed with a translation cause has read its entries: that of a VA under cause 0x28, of an IPA under 0x2A. -/
def State.walked (s : State) (c code va ipa : Nat) : State :=
  if code = 0x28 ∧ (s.ctx c).ptbase.getLsbD 0 then s.seen c (s.guestCells c va 3 (bits (s.ctx c).ptbase.toNat 51 21 * 2 ^ 21))
  else if code = 0x2A then s.seen c (s.hypCells ipa 3 (bits (s.ctx c).ptbase2.toNat 51 13 * 2 ^ 13))
  else s

/-- Guest permissions (R261, R262): the access bit, u for a user lane, and the private region through path 101 only. -/
def guestPerm (user priv : Bool) (acc : Acc) (va gperm : Nat) : Bool :=
  permOk gperm acc && (!user || bit gperm 0) && (priv || decide (va < 2 ^ 56))

/-- A translation of one VA for an access: the cached entry if there is one, otherwise both walks (R261, R263, R267). -/
def State.xlate (s : State) (c : Nat) (user priv : Bool) (acc : Acc) (ea : Dword) (va : Nat) :
    Except TrapInfo TlbEntry :=
  let g : Except TrapInfo (Nat × Nat × Option TlbEntry) := match s.tlb.find? (fun e => decide (e.ctx = c) && decide (e.vpn = va / 4096)) with
    | some e => .ok (e.gperm, e.ipn * 4096 + va % 4096, some e)
    | none => match s.guest c ea va with
      | .ok (p, ipa) => .ok (p, ipa, none)
      | .error t => .error t
  match g with
  | .error t => .error t
  | .ok (gp, ipa, hit) =>
    if !guestPerm user priv acc va gp then .error ⟨0x29, ea⟩
    else
      let h : Except TrapInfo (Nat × Nat) := match hit with
        | some e => .ok (e.hperm, e.dpn * 4096 + va % 4096)
        | none => s.hyp c ipa
      match h with
      | .error t => .error t
      | .ok (hp, dpa) =>
        if permOk hp acc then .ok ⟨c, va / 4096, gp, ipa / 4096, hp, dpa / 4096⟩
        else .error ⟨0x2B, BitVec.ofNat 64 ipa⟩

/-- A translation put into the translation caches (R267). -/
def State.fill (s : State) (e : TlbEntry) : State :=
  if s.tlb.any (fun f => decide (f.ctx = e.ctx) && decide (f.vpn = e.vpn)) then s else { s with tlb := s.tlb ++ [e] }

/-- Several translations cached. -/
def State.fills (s : State) (es : List TlbEntry) : State := es.foldl State.fill s

/-! Paths. -/

/-- Who makes an access: context, mode, team, and the lane's global index (R7). -/
structure Who where
  c : Nat
  user : Bool
  tid : Nat
  grid : Nat
  slice : Nat
  teams : Nat
  spad : Nat
  wide : Bool
  grd : Bool
  lane : Nat
  deriving DecidableEq, Repr

/-- What an access is for (R217, R227). `line` are the loads of every instruction but `ld`, which alone reaches path 101. -/
inductive Use where
  | load
  | line
  | step (x : Scope) (r : Rule)
  | pst
  | engSrc
  | engDst
  deriving DecidableEq, Repr

/-- The path code of an address (R216). -/
def pathOf (ea : Dword) : Nat := bits ea.toNat 63 61

/-- The bits that R217 shows as zero are zero. -/
def formOk (ea : Dword) : Bool :=
  let n := ea.toNat
  match pathOf ea with
  | 2 => decide (bits n 60 23 = 0)
  | 3 => decide (bits n 60 57 = 0) && decide (bits n 31 23 = 0)
  | 5 => decide (bits n 60 24 = 0)
  | _ => decide (bits n 60 57 = 0)

/-- The storage offset of a scratchpad offset in its view (R221). -/
def viewOff (diag : Bool) (o : Nat) : Nat :=
  if diag then o / 128 * 128 + ((o / 4 + o / 128) % 32) * 4 + o % 4 else o

/-- Does the path accept the access (R193, R217, R227, R330, R331). -/
def pathOk (p : Nat) : Use → Bool
  | .load => true
  | .line => decide (p ≠ 5)
  | .step x r => match p with
    | 0 | 1 | 2 => true
    | 3 => decide (x ≠ .t)
    | 6 | 7 => decide (x = .g) && (decide (r = .low) || decide (r = .any) || decide (r = .fault))
    | _ => false
  | .pst => decide (p = 5)
  | .engSrc => decide (p ≠ 5)
  | .engDst => decide (p ≤ 2)

/-- The trap of a path that does not accept the access: load-path or store-path (R218). -/
def pathTrap : Use → Nat
  | .load | .line | .engSrc => 0x23
  | _ => 0x24

/-- Is an access one of an engine operation. -/
def Use.engine : Use → Bool
  | .engSrc | .engDst => true
  | _ => false

/-- The permission an access needs of its leaves (R260). -/
def Use.acc : Use → Acc
  | .load | .line | .engSrc => .r
  | _ => .w

/-- The private VA of a lane's offset (R262). -/
def privVa (lane o : Nat) : Nat := 0x0100000000000000 + 2 ^ 24 * (lane % 2 ^ 32) + o

/-- The key of a private byte: context, lane and offset (R220, R262). -/
def privKey (c lane o : Nat) : Nat := (c * 2 ^ 32 + lane % 2 ^ 32) * 2 ^ 24 + o

/-- n private bytes of a lane noted as written. -/
def State.markPriv (s : State) (key n : Nat) : State :=
  { s with priv := (List.range n).foldl (fun m i => sset false m (key + i) true) s.priv }

/-- What a checked access reaches: its bytes in address order, the IPA page of translated ones, the translation, and for a
private access the key of its first byte in `State.priv`. -/
structure Reach where
  locs : List Loc
  ipn : Nat
  hit : Option TlbEntry
  priv : Option Nat
  deriving DecidableEq, Repr

/-- The function that owns a context: 0 the physical function, f virtual function f (R103). -/
def Ctx.fn (x : Ctx) : Nat := if x.vf.getLsbD 6 then 0 else bits x.vf.toNat 5 0 + 1

/-- The team of a die slice by its number in the slice (R224). -/
def State.sliceTeam (s : State) (grid slice t : Nat) : Option Nat :=
  (s.teams.find? (fun e => decide (e.2.grid = grid) && decide (e.2.slice = slice) && decide (e.2.idx = t))).map (·.1)

/-- The checks of R218 on one access of n bytes aligned to n, in their order, then R237 and R280; with what it reaches. The
value of a trap is the failing address where R240 or, for an engine operation, R346 gives it, and 0 otherwise. -/
def State.reach (s : State) (w : Who) (use : Use) (ea : Dword) (n align : Nat) : Except TrapInfo Reach :=
  let a := ea.toNat
  let p := pathOf ea
  if !formOk ea then .error ⟨0x20, ea⟩
  else if a % align ≠ 0 then .error ⟨0x21, ea⟩
  else if (p = 2 ∨ p = 3) ∧ bits a 21 0 + n > w.spad then .error ⟨0x22, ea⟩
  else if p = 3 ∧ bits a 56 32 ≥ w.teams then .error ⟨0x22, ea⟩
  else if !pathOk p use then .error ⟨pathTrap use, ea⟩
  else if p = 3 ∧ !w.wide then .error ⟨0x18, if use.engine then ea else 0⟩
  else match p with
    | 2 => .ok ⟨(List.range n).map (fun i => .spad w.tid (viewOff (bit a 22) (bits a 21 0 + i))), 0, none, none⟩
    | 3 => match s.sliceTeam w.grid w.slice (bits a 56 32) with
      | some t => .ok ⟨(List.range n).map (fun i => .spad t (viewOff (bit a 22) (bits a 21 0 + i))), 0, none, none⟩
      | none => .error ⟨0x22, ea⟩
    | 5 => match s.xlate w.c w.user true use.acc ea (privVa w.lane (bits a 23 0)) with
      | .error t => .error t
      | .ok e =>
        if w.user ∧ bits a 23 0 / 128 = 8 then .error ⟨0x03, 0⟩
        else .ok ⟨(List.range n).map (fun i => .dram (e.dpn * 4096 + a % 4096 + i)), e.ipn, some e, some (privKey w.c w.lane (bits a 23 0))⟩
    | 6 =>
      let dev := bits a 56 47
      let pe := (sget 0 (s.ctx w.c).peers dev).toNat
      if dev = s.mgmt.devnum ∨ !bit pe 63 then .error ⟨pathTrap use, ea⟩
      else .ok ⟨(List.range n).map (fun i => .peer (bits pe 5 0 * 2 ^ 57 + bits a 56 0 + i)), 0, none, none⟩
    | 7 => .ok ⟨(List.range n).map (fun i => .host ((s.ctx w.c).fn * 2 ^ 57 + bits a 56 0 + i)), 0, none, none⟩
    | _ => match s.xlate w.c w.user false use.acc ea (bits a 56 0) with
      | .error t => .error t
      | .ok e => .ok ⟨(List.range n).map (fun i => .dram (e.dpn * 4096 + a % 4096 + i)), e.ipn, some e, none⟩

/-- The bytes that a checked read reaches, as one number; a private byte that its lane has not written since its birth is
zero (R220). -/
def State.readReach (s : State) (c : Nat) (r : Reach) : Nat :=
  leNat ((List.range r.locs.length).map (fun i =>
    let b := ((r.locs[i]?).map (s.readLoc c)).getD 0
    match r.priv with
    | some k => if sget false s.priv (k + i) then b else 0
    | none => b))

/-- A fetch, or a line read for a check, of a code address: path 000, bits [63:57] zero (R263). A fault of the hypervisor stage
gives the IPA of the line: DESIGN CHOICE, for R72 and R263 leave open whether it is that of the line or of the PC (log 45). -/
def State.fetchLine (s : State) (c : Nat) (user : Bool) (pc : Dword) : Except TrapInfo (Nat × TlbEntry) :=
  let line := pc.toNat / 64 * 64
  if pc.toNat ≥ 2 ^ 57 then .error ⟨0x20, pc⟩
  else match s.xlate c user false .x pc line with
    | .error t => .error t
    | .ok e => .ok (s.readN (s.keyAt c (e.dpn * 4096)) (e.dpn * 4096 + line % 4096) 64, e)

end Sys2Proof.Machine
end

