-- ==== Sys2Proof/WellFormed.lean ====
section
/-! DEFINITION. Which instruction terms an encoding admits: the checks of spec 04_encoding R75-R90 that make a slot an
illegal instruction, stated on the syntax (cause 0x01). What is checked at issue against the group's allocation is not
here (R76). -/
namespace Sys2Proof

/-- The header is legal: guard field zero without a guard, a register number otherwise, sflag 0-11 or 15 (R75, R90). -/
def Hdr.ok (h : Hdr) : Bool :=
  (match h.gmode with
   | .always => decide (h.guard = 0)
   | _ => decide (h.guard ≤ 384)) && (decide (h.sflag ≤ 11) || decide (h.sflag = 15))

/-- gmode 00. -/
def Hdr.noGuard (h : Hdr) : Bool := decide (h.gmode = .always)
/-- sflag 15. -/
def Hdr.noFlag (h : Hdr) : Bool := decide (h.sflag = 15)

/-- A register field holds v0-v383 or vz (R76). -/
def regOk (r : Nat) : Bool := decide (r ≤ 384)

/-- A code target fits its fields (R82). -/
def Target.ok (t : Target) : Bool := decide (-(2 ^ 23) ≤ t.off) && decide (t.off < 2 ^ 23) && decide (t.slot ≤ 4)

/-- Set I of R294. -/
def ElemTy.inI : ElemTy → Bool
  | .i8 | .i16 | .i32 | .i64 | .n8 | .n16 | .n32 | .n64 => true
  | _ => false
/-- Set W of R294. -/
def ElemTy.inW : ElemTy → Bool
  | .i32 | .i64 | .n32 | .n64 => true
  | _ => false
/-- Set S of R294. -/
def ElemTy.inS : ElemTy → Bool
  | .i8 | .i16 | .i32 | .i64 => true
  | _ => false
/-- Set B of R294. -/
def ElemTy.inB : ElemTy → Bool
  | .i32 | .n32 | .b32 | .i64 | .n64 | .b64 => true
  | _ => false
/-- Set X of R294. -/
def ElemTy.inX : ElemTy → Bool
  | .i32 | .n32 | .b32 | .f32 | .f16x2 | .bf16x2 | .i64 | .n64 | .b64 | .f64 => true
  | _ => false
/-- Set F of R294. -/
def ElemTy.inF : ElemTy → Bool
  | .f16 | .bf16 | .f32 | .f64 => true
  | _ => false
/-- Set Fp of R294. -/
def ElemTy.inFp : ElemTy → Bool
  | .f16 | .bf16 | .f32 | .f64 | .f16x2 | .bf16x2 => true
  | _ => false
/-- The types of `movi` (R297). -/
def ElemTy.inMovi (t : ElemTy) : Bool := t.inI || decide (t = .b32) || decide (t = .b64) || decide (t = .f32)

/-- Types and op accepted by `redu` and `scan` (R314). -/
def reduOk (ty : ElemTy) : ReduOp → Bool
  | .sum | .min | .max => ty.inW || decide (ty = .f32) || decide (ty = .f64)
  | .and | .or | .xor => ty.inB

/-- One side of a conversion fits its field: a 16-bit record or a register number (R78). -/
def ConvTy.ok : ConvTy → Bool
  | .el _ => true
  | .qImm r => decide (r < 2 ^ 16)
  | .qReg r => regOk r

/-- The pairs `cvt` accepts (R308). -/
def cvtOk : ConvTy → ConvTy → Bool
  | .el d, .el s => (d.inI || d.inF) && (s.inI || s.inF)
  | .el d, _ => d.inF || decide (d = .i32) || decide (d = .n32)
  | _, .el s => s.inF || decide (s = .i32) || decide (s = .n32)
  | _, _ => false

/-- The packed and unpacked types of R309. -/
def packPair : ConvTy → ConvTy → Bool
  | .el .f16x2, .el .f32 | .el .bf16x2, .el .f32 | .el .i16, .el .i32 | .el .n16, .el .n32
  | .el .i8, .el .i32 | .el .n8, .el .n32 => true
  | .qImm _, .el .f32 | .qImm _, .el .i32 | .qReg _, .el .f32 | .qReg _, .el .i32 => true
  | _, _ => false

/-- The widths each rule permits (R81). -/
def ruleWidthOk : Rule → Width → Bool
  | .fault, _ | .low, _ | .any, _ | .or, _ | .and, _ => true
  | .cap, w => decide (w = .b32)
  | _, w => decide (w = .b32) || decide (w = .b64)

/-- The F-M fields fit and agree: register numbers, scale, displacement, no index with a verdict, rule against width
(R80, R81, R90). -/
def FM.ok (m : FM) : Bool :=
  decide (m.scale ≤ 3) && decide (-(2 ^ 23) ≤ m.disp) && decide (m.disp < 2 ^ 23) && regOk m.aux && regOk m.base &&
  regOk m.data && (!m.v || decide (m.scale = 0)) && ruleWidthOk m.rule m.width

/-- Rule 0000, scope 00 and no verdict (R81). -/
def FM.plain (m : FM) : Bool := decide (m.rule = .fault) && decide (m.scope = .t) && !m.v

/-- The line form: no index, width `.b32` (R214, R328, R356). -/
def FM.lineForm (m : FM) : Bool := decide (m.aux = 384) && decide (m.scale = 0) && decide (m.width = .b32) && !m.v

/-- The engine form of R81 and R335: counter number in the displacement, no scope, verdict or scale, any rule but cap. -/
def FM.engineForm (m : FM) : Bool :=
  decide (0 ≤ m.disp) && decide (m.disp < 32) && decide (m.scope = .t) && !m.v && decide (m.scale = 0) &&
  decide (m.rule ≠ .cap)

/-- An increment fits its field and its body (R84). -/
def Inc.ok (len : Nat) (i : Inc) : Bool := decide (i.slot < len) && decide (-64 ≤ i.delta) && decide (i.delta ≤ 63)

/-- Every increment present is legal. -/
def incsOk (len : Nat) (is : List (Option Inc)) : Bool :=
  is.all (fun o => match o with
    | none => true
    | some i => i.ok len)

/-- A two-source integer form. -/
def fa3 (h : Hdr) (tyOk : Bool) (d a b : Nat) : Bool := h.ok && h.noFlag && tyOk && regOk d && regOk a && regOk b
/-- A one-source form. -/
def fa2 (h : Hdr) (tyOk : Bool) (d a : Nat) : Bool := h.ok && h.noFlag && tyOk && regOk d && regOk a
/-- A three-source form. -/
def fa4 (h : Hdr) (tyOk : Bool) (d a b c : Nat) : Bool := fa3 h tyOk d a b && regOk c

/-- The instruction is one that an encoding admits. Device steps carry only numbers of existing units. `tlbinv.all` and `.ctx` hold
`vz` in a: DEDUCED from the verbose form of R268 (log 66). -/
def Instr.wf : Instr → Bool
  | .nop h | .exit h => h.ok && h.noFlag
  | .bra h l | .call h l | .join h l => h.ok && h.noGuard && h.noFlag && l.ok
  | .bany h _ r l | .ball h _ r l | .bnone h _ r l => h.ok && h.noGuard && h.noFlag && regOk r && l.ok
  | .bdiv h _ r l j => h.ok && h.noGuard && h.noFlag && regOk r && l.ok && j.ok
  | .switch h r ks =>
    h.ok && h.noGuard && h.noFlag && regOk r && decide (1 ≤ ks.length) && decide (ks.length ≤ 8) &&
    ks.all (fun k => decide (-64 ≤ k) && decide (k ≤ 63))
  | .callr h d a => h.ok && h.noGuard && h.noFlag && regOk d && regOk a
  | .ret h => h.ok && h.noGuard && h.noFlag
  | .retl h a => h.ok && h.noGuard && h.noFlag && regOk a
  | .loop h n len i0 i1 i2 =>
    h.ok && h.noGuard && h.noFlag && decide (n < 2 ^ 16) && decide (1 ≤ len) && decide (len ≤ 10) && incsOk len [i0, i1, i2]
  | .loopr h r len i0 i1 i2 =>
    h.ok && h.noGuard && h.noFlag && regOk r && decide (1 ≤ len) && decide (len ≤ 10) && incsOk len [i0, i1, i2]
  | .brk h imm | .sysc h imm | .trap h imm | .hcall h imm => h.ok && h.noFlag && decide (imm < 2 ^ 32)
  | .ids h d n => h.ok && h.noFlag && regOk d && decide (n ≤ 11)
  | .wflag h m => h.ok && h.noGuard && h.noFlag && decide (m < 2 ^ 12)
  | .step h _ => h.ok && h.noGuard && h.noFlag
  | .yieldc h _ a c m => h.ok && h.noGuard && h.noFlag && regOk a && decide (c < 32) && decide (m < 2 ^ 12)
  | .stepn h _ n => h.ok && h.noGuard && h.noFlag && decide (n < 2 ^ 32)
  | .stepto h _ a => h.ok && h.noGuard && h.noFlag && regOk a
  | .fbp h b t m =>
    h.ok && h.noGuard && h.noFlag && regOk b && decide (-256 ≤ t.off) && decide (t.off ≤ 255) && decide (t.slot ≤ 4) &&
    decide (m < 2 ^ 32) && (decide (b ≠ 384) || decide (m = 0))
  | .tret h a => h.ok && h.noGuard && h.noFlag && regOk a
  | .mfk h d _ => h.ok && h.noFlag && regOk d
  | .mtk h s _ => h.ok && h.noFlag && regOk s
  | .tlbinv h k a => h.ok && h.noGuard && h.noFlag && (match k with
    | .va | .ipa => regOk a
    | .all | .ctx => decide (a = 384))
  | .idle h => h.ok && h.noGuard && h.noFlag
  | .add h ty d a b | .sub h ty d a b | .mul h ty d a b | .min h ty d a b | .max h ty d a b | .addsat h ty d a b
  | .subsat h ty d a b => fa3 h ty.inI d a b
  | .mulh h ty d a b => fa3 h ty.inW d a b
  | .mad h ty d a b c | .clamp h ty d a b c => fa4 h ty.inI d a b c
  | .div h ty d a b | .rem h ty d a b => h.ok && ty.inW && regOk d && regOk a && regOk b
  | .abs h ty d a => fa2 h ty.inS d a
  | .neg h ty d a => fa2 h ty.inI d a
  | .and h ty d a b | .or h ty d a b | .xor h ty d a b | .andn h ty d a b | .shl h ty d a b | .shr h ty d a b
  | .sar h ty d a b | .rol h ty d a b => fa3 h ty.inB d a b
  | .not h ty d a | .pop h ty d a | .clz h ty d a | .ctz h ty d a | .brev h ty d a => fa2 h ty.inB d a
  | .bfx h ty d a b => fa3 h ty.inW d a b
  | .bfi h ty d a b c => fa4 h ty.inB d a b c
  | .sel h ty d a b c => fa4 h ty.inX d a b c
  | .cmp h ty _ d a b => fa3 h ty.inI d a b
  | .lea h _ d a b => fa3 h true d a b
  | .mov h ty d a => fa2 h ty.inX d a
  | .movi h ty d imm => h.ok && h.noFlag && ty.inMovi && regOk d && decide (imm < 2 ^ 32)
  | .fadd h ty _ d a b | .fsub h ty _ d a b | .fmul h ty _ d a b => fa3 h ty.inFp d a b
  | .fma h ty _ d a b c => fa4 h ty.inFp d a b c
  | .fdiv h ty _ d a b => h.ok && ty.inF && regOk d && regOk a && regOk b
  | .fsqrt h ty _ d a => h.ok && ty.inF && regOk d && regOk a
  | .fmin h ty d a b | .fmax h ty d a b | .fcopysign h ty d a b => fa3 h ty.inFp d a b
  | .fabs h ty d a | .fneg h ty d a => fa2 h ty.inFp d a
  | .fcmp h ty _ _ d a b => fa3 h ty.inF d a b
  | .fclamp h ty d a b c => fa4 h ty.inFp d a b c
  | .frnd h ty _ d a => fa2 h ty.inFp d a
  | .fscale h ty _ d a b => fa3 h ty.inF d a b
  | .fexp h ty d a | .fmant h ty d a | .fclass h ty d a => fa2 h ty.inF d a
  | .cvt h dt st _ _ d a => h.ok && h.noFlag && dt.ok && st.ok && cvtOk dt st && regOk d && regOk a
  | .pack h dt st _ _ d a => h.ok && h.noFlag && dt.ok && st.ok && packPair dt st && regOk d && regOk a
  | .unpack h dt st _ _ d a => h.ok && h.noFlag && dt.ok && st.ok && packPair st dt && regOk d && regOk a
  | .shuf h ty d a b | .shufup h ty d a b | .shufdn h ty d a b | .shufx h ty d a b | .bcast h ty d a b => fa3 h ty.inX d a b
  | .gsel h ty n d a b =>
    fa3 h (decide (ty = .i32) || decide (ty = .n32) || decide (ty = .b32) || decide (ty = .f32)) d a b &&
    decide (1 ≤ n) && decide (n ≤ 8)
  | .vote h _ d a => fa2 h true d a
  | .redu h ty op d a | .scan h ty op d a => fa2 h (reduOk ty op) d a
  | .frcp h d a | .frsq h d a | .fexp2 h d a | .flog2 h d a | .fsinpi h d a | .fcospi h d a | .ftanh h d a =>
    h.ok && regOk d && regOk a
  | .fflg h d => h.ok && h.noFlag && regOk d
  | .fclr h a => h.ok && h.noFlag && regOk a
  | .ld h m => h.ok && m.ok && m.plain
  | .ldl h m => h.ok && m.ok && m.plain && m.lineForm
  | .ldt h m =>
    h.ok && m.ok && m.plain && decide (m.base < 64) && decide (m.disp = 0) && decide (m.scale = 0) &&
    (decide (m.width = .b32) || decide (m.width = .b64))
  | .sst h m => h.ok && m.ok && (if m.v then decide (h.sflag ≤ 11) else h.noFlag)
  | .sstl h m => h.ok && h.noFlag && m.ok && m.lineForm && decide (m.rule ≠ .cap)
  | .sstt h m =>
    h.ok && h.noFlag && m.ok && !m.v && decide (m.base < 64) && decide (m.disp = 0) && decide (m.scale = 0) &&
    decide (m.rule ≠ .cap)
  | .pst h m => h.ok && h.noFlag && m.ok && m.plain
  | .prf h m => h.ok && h.noFlag && m.ok && m.plain && decide (m.data = 0) && decide (m.width = .b32)
  | .cpy h m | .cpy2d h m | .gth h m | .sct h m => h.ok && h.noFlag && m.ok && m.engineForm
  | .zfill h m => h.ok && h.noFlag && m.ok && m.engineForm && decide (m.aux = 0)
  | .cpyq h d => h.ok && regOk d
  | .cpyre h a b => h.ok && h.noFlag && regOk a && regOk b
  | .ctr h d k => h.ok && regOk d && decide (k < 32)
  | .ctrset h k a => h.ok && h.noFlag && regOk a && decide (k < 32)
  | .tagq h d a => h.ok && regOk d && regOk a
  | .tagset h a b => h.ok && h.noFlag && regOk a && regOk b
  | .tagclr h a => h.ok && h.noFlag && regOk a
  | .thld h m => h.ok && m.ok && m.plain && m.lineForm && decide (m.data < 64)
  | .thst h m => h.ok && h.noFlag && m.ok && m.lineForm && decide (m.rule = .low) && decide (m.data < 64)
  | .thset h th w s => h.ok && h.noGuard && h.noFlag && decide (th < 64) && decide (w < 32) && regOk s
  | .thget h d th w => h.ok && h.noFlag && decide (th < 64) && decide (w < 32) && regOk d
  | .thinv h th => h.ok && h.noGuard && h.noFlag && decide (th < 64)
  | .plnz h a b | .unpln h a b => h.ok && h.noGuard && h.noFlag && decide (a < 64) && decide (b < 64)
  | .mma h ty _ sc _ _ acc a b k =>
    h.ok && h.noGuard && decide (acc < 16) && decide (a < 64) && decide (b < 64) && regOk k && !(sc && decide (ty = .i32))
  | .mmz h _ acc | .mmfl h acc => h.ok && h.noGuard && h.noFlag && decide (acc < 16)
  | .mmld h _ acc c => h.ok && h.noGuard && decide (acc < 16) && decide (c < 64)
  | .mmst h acc c => h.ok && h.noGuard && h.noFlag && decide (acc < 16) && decide (c < 64)
  | .mmrd h d a acc => h.ok && regOk d && regOk a && decide (acc < 16)
  | .mmwr h acc a b => h.ok && h.noFlag && regOk a && regOk b && decide (acc < 16)
  | .bind c | .run c | .preempt c | .resume c | .migrateOut c | .migrateIn c | .unbind c | .disable c | .cancel c
  | .scrubDone c | .queueSweep c | .teamPlacement c | .compaction c | .mstatPoll c | .pageMoveCut c | .pageMoveDone c
  | .scrubLine c | .round c | .abort c _ _ | .precopyRoundEnd c _ _ _ | .peerWriteApply c | .compactionComplete c
  | .qtBaseWrite c _ | .qtCountWrite c _ | .linkErrorClear c _ | .precopyRecord c _ _ _ _ _ _ => decide (c < 64)
  | .doorbell c q => decide (c < 64) && decide (q < 65536)
  | .queueLoad c q n => decide (c < 64) && decide (q < 65536) && decide (n < 256)
  | .queuePoll n | .sliceExpiry n | .queueUnload n | .recordFetch n | .launch n => decide (n < 256)
  | .functionLevelReset f => decide (1 ≤ f) && decide (f ≤ 64)
  | .prolenFlitRetry p _ | .prolenLaneLoss p | .prolenPortDown p => decide (p < 16)
  | .dieLinkFailure d n => decide (d < 8) && decide (n < 5)
  | .peerStoreArrival dev _ c _ _ _ => decide (dev < 1024) && decide (c < 64)
  | .peerLoadRequest dev _ c _ _ _ => decide (dev < 1024) && decide (c < 64)
  | .hostWindowWrite (.pf c) _ _ => decide (c < 64)
  | .hostWindowWrite (.vf f) _ _ => decide (1 ≤ f) && decide (f ≤ 64)
  | .deferredTrap | .asynchronousTeamFault | .longLatencyComplete _ _ | .splitSwap _ | .boundaryForm _ | .boundaryLanded _
  | .mergeBufferPart _ _ | .drainEndMark _ _ _ | .crusherPart _ _ | .orderedReplay _ _ | .engineComplete _ _ _
  | .preemptionFreeze _ | .preemptionTimeout _ | .fullSave _ | .teamSave _ | .vfEnableClear | .teamEnd _ | .gridEnd _
  | .peerAck _ _ | .peerLoadReply _ _ _ _ | .hostMemAccess _ _ _ | .registerWrite _ _ | .attest | .loadkey | .clearkey
  | .loadsess | .stagefw | .reset | .clearlog | .deviceReset | .clockStateChange _ _ | .thermalTrip | .correctableError
  | .uncorrectableError _ | .hostPathResponse _ _ _ _ _ => true

end Sys2Proof
end

