-- ==== Sys2Proof/Decode.lean ====
section
/-! DEFINITION. The instruction encoding of spec 04_encoding R70-R90: an encoder written from the formats, and a decoder
that reads the fields and accepts a word only if it is the encoding of the well-formed instruction read, so that every
reserved, zero or unused field is checked (R90). -/
namespace Sys2Proof

/-! Codes. -/

/-- Guard mode codes (R75). -/
def GMode.code : GMode → Nat
  | .always => 0
  | .nz => 1
  | .z => 2
/-- The guard mode of a code; the illegal code 3 is refused by the re-encoding check. -/
def GMode.ofCode : Nat → GMode
  | 0 => .always
  | 1 => .nz
  | _ => .z

/-- Type codes (R86). -/
def ElemTy.code : ElemTy → Nat
  | .i8 => 0x01
  | .i16 => 0x02
  | .i32 => 0x03
  | .i64 => 0x04
  | .n8 => 0x05
  | .n16 => 0x06
  | .n32 => 0x07
  | .n64 => 0x08
  | .b32 => 0x09
  | .b64 => 0x0A
  | .f16 => 0x10
  | .bf16 => 0x11
  | .f32 => 0x12
  | .f64 => 0x13
  | .f16x2 => 0x14
  | .bf16x2 => 0x15
/-- The type of a code (R86). -/
def ElemTy.ofCode : Nat → Option ElemTy
  | 0x01 => some .i8
  | 0x02 => some .i16
  | 0x03 => some .i32
  | 0x04 => some .i64
  | 0x05 => some .n8
  | 0x06 => some .n16
  | 0x07 => some .n32
  | 0x08 => some .n64
  | 0x09 => some .b32
  | 0x0A => some .b64
  | 0x10 => some .f16
  | 0x11 => some .bf16
  | 0x12 => some .f32
  | 0x13 => some .f64
  | 0x14 => some .f16x2
  | 0x15 => some .bf16x2
  | _ => none

/-- Rounding codes (R78). -/
def Rnd.code : Rnd → Nat
  | .rne => 0
  | .rtz => 1
  | .rup => 2
  | .rdn => 3
/-- The rounding mode of a 2-bit code. -/
def Rnd.ofCode : Nat → Rnd
  | 0 => .rne
  | 1 => .rtz
  | 2 => .rup
  | _ => .rdn

/-- Scope codes (R79, R80). -/
def Scope.code : Scope → Nat
  | .t => 0
  | .d => 1
  | .g => 2
/-- The scope of a code; 3 is refused by the re-encoding check. -/
def Scope.ofCode : Nat → Scope
  | 0 => .t
  | 1 => .d
  | _ => .g

/-- Rule codes (R81). -/
def Rule.code : Rule → Nat
  | .fault => 0
  | .low => 1
  | .any => 2
  | .or => 3
  | .and => 4
  | .sumI => 5
  | .sumF => 6
  | .cap => 7
  | .maxI => 8
  | .maxN => 9
  | .maxF => 10
  | .minI => 11
  | .minN => 12
  | .minF => 13
/-- The rule of a code (R81). -/
def Rule.ofCode : Nat → Rule
  | 0 => .fault
  | 1 => .low
  | 2 => .any
  | 3 => .or
  | 4 => .and
  | 5 => .sumI
  | 6 => .sumF
  | 7 => .cap
  | 8 => .maxI
  | 9 => .maxN
  | 10 => .maxF
  | 11 => .minI
  | 12 => .minN
  | _ => .minF

/-- Width codes (R80). -/
def Width.code : Width → Nat
  | .b8 => 0
  | .b16 => 1
  | .b32 => 2
  | .b64 => 3
  | .b128 => 4
/-- The width of a code. -/
def Width.ofCode : Nat → Width
  | 0 => .b8
  | 1 => .b16
  | 2 => .b32
  | 3 => .b64
  | _ => .b128

/-- Hint codes (R80). -/
def Hint.code : Hint → Nat
  | .near => 0
  | .keep => 1
  | .strm => 2
  | .last => 3
/-- The hint of a code. -/
def Hint.ofCode : Nat → Hint
  | 0 => .near
  | 1 => .keep
  | 2 => .strm
  | _ => .last

/-- Lane condition codes (R82). -/
def Cond.code : Cond → Nat
  | .nz => 0
  | .z => 1
  | .neg => 2
  | .nneg => 3
/-- The lane condition of a code. -/
def Cond.ofCode : Nat → Cond
  | 0 => .nz
  | 1 => .z
  | 2 => .neg
  | _ => .nneg

/-- `cmp` codes (R87). -/
def CmpOp.code : CmpOp → Nat
  | .eq => 0
  | .ne => 1
  | .lt => 2
  | .le => 3
  | .gt => 4
  | .ge => 5
/-- The comparison of a code. -/
def CmpOp.ofCode : Nat → CmpOp
  | 0 => .eq
  | 1 => .ne
  | 2 => .lt
  | 3 => .le
  | 4 => .gt
  | _ => .ge

/-- `fcmp` codes, quiet; 8 more when signalling (R87). -/
def FCond.code : FCond → Nat
  | .eq => 0
  | .ne => 1
  | .lt => 2
  | .le => 3
  | .gt => 4
  | .ge => 5
  | .ord => 6
  | .uno => 7
/-- The float condition of a code modulo 8. -/
def FCond.ofCode : Nat → FCond
  | 0 => .eq
  | 1 => .ne
  | 2 => .lt
  | 3 => .le
  | 4 => .gt
  | 5 => .ge
  | 6 => .ord
  | _ => .uno

/-- Reduction codes (R87). -/
def ReduOp.code : ReduOp → Nat
  | .sum => 0
  | .min => 1
  | .max => 2
  | .and => 3
  | .or => 4
  | .xor => 5
/-- The reduction of a code. -/
def ReduOp.ofCode : Nat → ReduOp
  | 0 => .sum
  | 1 => .min
  | 2 => .max
  | 3 => .and
  | 4 => .or
  | _ => .xor

/-- Vote codes (R87). -/
def VoteOp.code : VoteOp → Nat
  | .any => 0
  | .all => 1
  | .ballot => 2
  | .uni => 3
/-- The vote of a code. -/
def VoteOp.ofCode : Nat → VoteOp
  | 0 => .any
  | 1 => .all
  | 2 => .ballot
  | _ => .uni

/-- `tlbinv` kinds (R268). -/
def TlbKind.code : TlbKind → Nat
  | .all => 0
  | .va => 1
  | .ipa => 2
  | .ctx => 3
/-- The kind of a code. -/
def TlbKind.ofCode : Nat → TlbKind
  | 0 => .all
  | 1 => .va
  | 2 => .ipa
  | _ => .ctx

/-- Accumulator type codes (R85). -/
def AccTy.code : AccTy → Nat
  | .f32 => 0x12
  | .i32 => 0x03
/-- The accumulator type of a code. -/
def AccTy.ofCode : Nat → AccTy
  | 0x12 => .f32
  | _ => .i32

/-- Increment field codes; 0 is unused (R84). -/
def IncField.code : IncField → Nat
  | .f24 => 1
  | .f33 => 2
  | .f42 => 3
  | .f51 => 4
  | .disp => 5
  | .acc => 6
/-- The increment field of a code from 1 to 6. -/
def IncField.ofCode : Nat → IncField
  | 1 => .f24
  | 2 => .f33
  | 3 => .f42
  | 4 => .f51
  | 5 => .disp
  | _ => .acc

/-- Privileged register numbers (R98). -/
def PReg.code : PReg → Nat
  | .kuDet => 0x000
  | .kuFnver => 0x001
  | .kuTime => 0x002
  | .ksStatus => 0x100
  | .ksCause => 0x101
  | .ksEpc => 0x102
  | .ksTval => 0x103
  | .ksLmask => 0x104
  | .ksAmask => 0x105
  | .ksTvec => 0x106
  | .ksPvec => 0x107
  | .ksPtbase => 0x110
  | .ksScring => 0x120
  | .ksScsize => 0x121
  | .ksPhys => 0x130
  | .khCtl => 0x400
  | .khCsel => 0x401
  | .khPdesc => 0x402
  | .khSarea => 0x403
  | .khSalen => 0x404
  | .khQos => 0x405
  | .khVf => 0x406
  | .khPtbase2 => 0x410
  | .khMemkey => 0x411
  | .khHvec => 0x420
  | .khFwver => 0x421
/-- The privileged register of a number, where R98 assigns one. -/
def PReg.ofCode : Nat → Option PReg
  | 0x000 => some .kuDet
  | 0x001 => some .kuFnver
  | 0x002 => some .kuTime
  | 0x100 => some .ksStatus
  | 0x101 => some .ksCause
  | 0x102 => some .ksEpc
  | 0x103 => some .ksTval
  | 0x104 => some .ksLmask
  | 0x105 => some .ksAmask
  | 0x106 => some .ksTvec
  | 0x107 => some .ksPvec
  | 0x110 => some .ksPtbase
  | 0x120 => some .ksScring
  | 0x121 => some .ksScsize
  | 0x130 => some .ksPhys
  | 0x400 => some .khCtl
  | 0x401 => some .khCsel
  | 0x402 => some .khPdesc
  | 0x403 => some .khSarea
  | 0x404 => some .khSalen
  | 0x405 => some .khQos
  | 0x406 => some .khVf
  | 0x410 => some .khPtbase2
  | 0x411 => some .khMemkey
  | 0x420 => some .khHvec
  | 0x421 => some .khFwver
  | _ => none

/-! The formats, least significant field first. -/

/-- Fields packed from bit 0 up: width and value. -/
def packF : List (Nat × Nat) → Nat
  | [] => 0
  | (w, v) :: fs => v % 2 ^ w + 2 ^ w * packF fs

/-- A truth value as one bit. -/
def b2n (b : Bool) : Nat := if b then 1 else 0

/-- The common header (R75). -/
def hdrF (op : Nat) (h : Hdr) : List (Nat × Nat) := [(9, op), (4, h.sflag), (9, h.guard), (2, h.gmode.code)]

/-- Format F-A (R77); m is the whole mod field. -/
def encFA (op : Nat) (h : Hdr) (d a b c ty m : Nat) : Nat :=
  packF (hdrF op h ++ [(9, d), (9, a), (9, b), (9, c), (6, ty), (16, m)])

/-- The standard mod layout with rounding and op (R78); the sat bit is 0. -/
def stdMod (rm o : Nat) : Nat := packF [(2, rm), (1, 0), (6, o)]

/-- Format F-I (R79). -/
def encFI (op : Nat) (h : Hdr) (d a imm ty sc : Nat) : Nat :=
  packF (hdrF op h ++ [(9, d), (9, a), (32, imm), (6, ty), (2, sc)])

/-- Format F-M (R80). -/
def encFM (op : Nat) (h : Hdr) (m : FM) : Nat :=
  packF (hdrF op h ++ [(9, m.data), (9, m.base), (9, m.aux), (24, wrapNat 24 m.disp), (3, m.width.code), (4, m.rule.code),
    (2, m.scope.code), (1, b2n m.v), (2, m.scale), (2, m.hint.code)])

/-- Format F-B (R82). -/
def encFB (op : Nat) (h : Hdr) (r : Nat) (t j : Target) (k : Nat) : Nat :=
  packF (hdrF op h ++ [(9, r), (3, t.slot), (24, wrapNat 24 t.off), (3, j.slot), (24, wrapNat 24 j.off), (3, k)])

/-- An unused target. -/
def Target.zero : Target := ⟨0, 0⟩

/-- Compared values of a `switch`, 7 bits each (R83). -/
def ksF : List Int → List (Nat × Nat)
  | [] => []
  | k :: ks => (7, wrapNat 7 k) :: ksF ks

/-- Format F-S (R83). -/
def encFS (op : Nat) (h : Hdr) (r : Nat) (ks : List Int) : Nat :=
  packF (hdrF op h ++ [(9, r), (56, packF (ksF ks)), (3, ks.length - 1)])

/-- One increment field (R84). -/
def encInc : Option Inc → Nat
  | none => 0
  | some i => packF [(7, wrapNat 7 i.delta), (3, i.field.code), (4, i.slot)]

/-- Format F-L (R84). -/
def encFL (op : Nat) (h : Hdr) (count ci len : Nat) (i0 i1 i2 : Option Inc) : Nat :=
  packF (hdrF op h ++ [(9, 0), (16, count), (1, ci), (4, len), (14, encInc i0), (14, encInc i1), (14, encInc i2)])

/-- Format F-X (R85). -/
def encFX (op : Nat) (h : Hdr) (r k imm : Nat) : Nat := packF (hdrF op h ++ [(9, r), (12, k), (32, imm)])

/-- Format F-T (R85). -/
def encFT (op : Nat) (h : Hdr) (acc a b c k : Nat) (dirA dirB : Bool) (mode ty : Nat) : Nat :=
  packF (hdrF op h ++ [(5, acc), (6, a), (6, b), (6, c), (9, k), (1, b2n dirA), (1, b2n dirB), (8, mode), (6, ty)])

/-- The type code of one side of a conversion (R78, R86). -/
def ConvTy.code : ConvTy → Nat
  | .el t => t.code
  | .qImm _ => 0x20
  | .qReg _ => 0x21

/-- The mod field of the conversion layout (R78). -/
def convMod (dt st : ConvTy) : Nat :=
  match dt, st with
  | .qImm r, _ => r
  | .qReg r, _ => r
  | _, .qImm r => r
  | _, .qReg r => r
  | _, _ => 0

/-- The conversion layout (R78). -/
def encConv (op : Nat) (h : Hdr) (dt st : ConvTy) (rm : Rnd) (sat : Bool) (d a : Nat) : Nat :=
  encFA op h d a 0 (packF [(6, st.code), (2, rm.code), (1, b2n sat)]) dt.code (convMod dt st)


/-- The 96-bit word of an instruction, bit 0 least significant (R70, R77-R88). A device step has no encoding. -/
def encode : Instr → Nat
  | .nop h => encFA 0x000 h 0 0 0 0 0 0
  | .bra h l => encFB 0x001 h 0 l .zero 0
  | .bany h k r l => encFB 0x002 h r l .zero k.code
  | .ball h k r l => encFB 0x003 h r l .zero k.code
  | .bnone h k r l => encFB 0x004 h r l .zero k.code
  | .bdiv h k r l j => encFB 0x005 h r l j k.code
  | .switch h r ks => encFS 0x006 h r ks
  | .join h j => encFB 0x007 h 0 j .zero 0
  | .call h l => encFB 0x008 h 0 l .zero 0
  | .callr h d a => encFA 0x009 h d a 0 0 0 0
  | .ret h => encFA 0x00A h 0 0 0 0 0 0
  | .retl h a => encFA 0x00B h 0 a 0 0 0 0
  | .loop h n len i0 i1 i2 => encFL 0x00C h n 1 len i0 i1 i2
  | .loopr h r len i0 i1 i2 => encFL 0x00D h r 0 len i0 i1 i2
  | .exit h => encFA 0x00E h 0 0 0 0 0 0
  | .brk h imm => encFI 0x00F h 0 0 imm 0 0
  | .ids h d n => encFI 0x010 h d 0 n 0 0
  | .wflag h m => encFI 0x01E h 0 0 m 0 0
  | .step h x => encFI 0x011 h 0 0 0 0 x.code
  | .yieldc h x a c m => encFI 0x012 h 0 a (packF [(5, c), (12, m)]) 0 x.code
  | .stepn h x n => encFI 0x013 h 0 0 n 0 x.code
  | .stepto h x a => encFI 0x014 h 0 a 0 0 x.code
  | .fbp h b t m => encFX 0x015 h b (packF [(3, t.slot), (9, wrapNat 9 t.off)]) m
  | .sysc h imm => encFI 0x016 h 0 0 imm 0 0
  | .trap h imm => encFI 0x017 h 0 0 imm 0 0
  | .hcall h imm => encFI 0x019 h 0 0 imm 0 0
  | .tret h a => encFA 0x018 h 0 a 0 0 0 0
  | .mfk h d k => encFX 0x01A h d k.code 0
  | .mtk h s k => encFX 0x01B h s k.code 0
  | .tlbinv h k a => encFA 0x01C h 0 a 0 0 0 (stdMod 0 k.code)
  | .idle h => encFA 0x01D h 0 0 0 0 0 0
  | .add h ty d a b => encFA 0x040 h d a b 0 ty.code 0
  | .sub h ty d a b => encFA 0x041 h d a b 0 ty.code 0
  | .mul h ty d a b => encFA 0x042 h d a b 0 ty.code 0
  | .mulh h ty d a b => encFA 0x043 h d a b 0 ty.code 0
  | .mad h ty d a b c => encFA 0x044 h d a b c ty.code 0
  | .div h ty d a b => encFA 0x045 h d a b 0 ty.code 0
  | .rem h ty d a b => encFA 0x046 h d a b 0 ty.code 0
  | .abs h ty d a => encFA 0x047 h d a 0 0 ty.code 0
  | .neg h ty d a => encFA 0x048 h d a 0 0 ty.code 0
  | .min h ty d a b => encFA 0x049 h d a b 0 ty.code 0
  | .max h ty d a b => encFA 0x04A h d a b 0 ty.code 0
  | .clamp h ty d a b c => encFA 0x04B h d a b c ty.code 0
  | .addsat h ty d a b => encFA 0x04C h d a b 0 ty.code 0
  | .subsat h ty d a b => encFA 0x04D h d a b 0 ty.code 0
  | .and h ty d a b => encFA 0x04E h d a b 0 ty.code 0
  | .or h ty d a b => encFA 0x04F h d a b 0 ty.code 0
  | .xor h ty d a b => encFA 0x050 h d a b 0 ty.code 0
  | .not h ty d a => encFA 0x051 h d a 0 0 ty.code 0
  | .andn h ty d a b => encFA 0x052 h d a b 0 ty.code 0
  | .shl h ty d a b => encFA 0x053 h d a b 0 ty.code 0
  | .shr h ty d a b => encFA 0x054 h d a b 0 ty.code 0
  | .sar h ty d a b => encFA 0x055 h d a b 0 ty.code 0
  | .rol h ty d a b => encFA 0x056 h d a b 0 ty.code 0
  | .bfx h ty d a b => encFA 0x057 h d a b 0 ty.code 0
  | .bfi h ty d a b c => encFA 0x058 h d a b c ty.code 0
  | .pop h ty d a => encFA 0x059 h d a 0 0 ty.code 0
  | .clz h ty d a => encFA 0x05A h d a 0 0 ty.code 0
  | .ctz h ty d a => encFA 0x05B h d a 0 0 ty.code 0
  | .brev h ty d a => encFA 0x05C h d a 0 0 ty.code 0
  | .sel h ty d a b c => encFA 0x05D h d a b c ty.code 0
  | .cmp h ty op d a b => encFA 0x05E h d a b 0 ty.code (stdMod 0 op.code)
  | .lea h ty d a b => encFA 0x05F h d a b 0 ty.code 0
  | .mov h ty d a => encFA 0x060 h d a 0 0 ty.code 0
  | .movi h ty d imm => encFI 0x061 h d 0 imm ty.code 0
  | .fadd h ty rm d a b => encFA 0x080 h d a b 0 ty.code (stdMod rm.code 0)
  | .fsub h ty rm d a b => encFA 0x081 h d a b 0 ty.code (stdMod rm.code 0)
  | .fmul h ty rm d a b => encFA 0x082 h d a b 0 ty.code (stdMod rm.code 0)
  | .fma h ty rm d a b c => encFA 0x083 h d a b c ty.code (stdMod rm.code 0)
  | .fdiv h ty rm d a b => encFA 0x084 h d a b 0 ty.code (stdMod rm.code 0)
  | .fsqrt h ty rm d a => encFA 0x085 h d a 0 0 ty.code (stdMod rm.code 0)
  | .fmin h ty d a b => encFA 0x086 h d a b 0 ty.code 0
  | .fmax h ty d a b => encFA 0x087 h d a b 0 ty.code 0
  | .fabs h ty d a => encFA 0x088 h d a 0 0 ty.code 0
  | .fneg h ty d a => encFA 0x089 h d a 0 0 ty.code 0
  | .fcopysign h ty d a b => encFA 0x08A h d a b 0 ty.code 0
  | .fcmp h ty sg op d a b => encFA 0x08B h d a b 0 ty.code (stdMod 0 (op.code + 8 * b2n sg))
  | .fclamp h ty d a b c => encFA 0x08C h d a b c ty.code 0
  | .frnd h ty rm d a => encFA 0x08D h d a 0 0 ty.code (stdMod rm.code 0)
  | .fscale h ty rm d a b => encFA 0x08E h d a b 0 ty.code (stdMod rm.code 0)
  | .fexp h ty d a => encFA 0x08F h d a 0 0 ty.code 0
  | .fmant h ty d a => encFA 0x090 h d a 0 0 ty.code 0
  | .fclass h ty d a => encFA 0x091 h d a 0 0 ty.code 0
  | .cvt h dt st rm sat d a => encConv 0x0C0 h dt st rm sat d a
  | .pack h dt st rm sat d a => encConv 0x0C1 h dt st rm sat d a
  | .unpack h dt st rm sat d a => encConv 0x0C2 h dt st rm sat d a
  | .shuf h ty d a b => encFA 0x0C3 h d a b 0 ty.code 0
  | .shufup h ty d a b => encFA 0x0C4 h d a b 0 ty.code 0
  | .shufdn h ty d a b => encFA 0x0C5 h d a b 0 ty.code 0
  | .shufx h ty d a b => encFA 0x0C6 h d a b 0 ty.code 0
  | .gsel h ty n d a b => encFA 0x0C7 h d a b 0 ty.code (stdMod 0 (n - 1))
  | .bcast h ty d a b => encFA 0x0C8 h d a b 0 ty.code 0
  | .vote h op d a => encFA 0x0C9 h d a 0 0 0 (stdMod 0 op.code)
  | .redu h ty op d a => encFA 0x0CA h d a 0 0 ty.code (stdMod 0 op.code)
  | .scan h ty op d a => encFA 0x0CB h d a 0 0 ty.code (stdMod 0 op.code)
  | .frcp h d a => encFA 0x0CC h d a 0 0 0x12 0
  | .frsq h d a => encFA 0x0CD h d a 0 0 0x12 0
  | .fexp2 h d a => encFA 0x0CE h d a 0 0 0x12 0
  | .flog2 h d a => encFA 0x0CF h d a 0 0 0x12 0
  | .fsinpi h d a => encFA 0x0D0 h d a 0 0 0x12 0
  | .fcospi h d a => encFA 0x0D1 h d a 0 0 0x12 0
  | .ftanh h d a => encFA 0x0D2 h d a 0 0 0x12 0
  | .fflg h d => encFA 0x0D3 h d 0 0 0 0 0
  | .fclr h a => encFA 0x0D4 h 0 a 0 0 0 0
  | .ld h m => encFM 0x100 h m
  | .ldl h m => encFM 0x101 h m
  | .ldt h m => encFM 0x102 h m
  | .sst h m => encFM 0x103 h m
  | .sstl h m => encFM 0x104 h m
  | .sstt h m => encFM 0x105 h m
  | .pst h m => encFM 0x106 h m
  | .prf h m => encFM 0x107 h m
  | .cpy h m => encFM 0x140 h m
  | .cpy2d h m => encFM 0x141 h m
  | .cpyq h d => encFA 0x142 h d 0 0 0 0 0
  | .cpyre h a b => encFA 0x143 h 0 a b 0 0 0
  | .gth h m => encFM 0x144 h m
  | .sct h m => encFM 0x145 h m
  | .ctr h d k => encFI 0x146 h d 0 k 0 0
  | .ctrset h k a => encFI 0x147 h 0 a k 0 0
  | .zfill h m => encFM 0x148 h m
  | .tagq h d a => encFA 0x149 h d a 0 0 0 0
  | .tagset h a b => encFA 0x14A h 0 a b 0 0 0
  | .tagclr h a => encFA 0x14B h 0 a 0 0 0 0
  | .thld h m => encFM 0x180 h m
  | .thst h m => encFM 0x181 h m
  | .thset h th n s => encFX 0x182 h s (packF [(6, th), (6, n)]) 0
  | .thget h d th n => encFX 0x183 h d (packF [(6, th), (6, n)]) 0
  | .thinv h th => encFT 0x184 h 0 th 0 0 0 false false 0 0
  | .plnz h a b => encFT 0x185 h 0 a b 0 0 false false 0 0
  | .unpln h a b => encFT 0x186 h 0 a b 0 0 false false 0 0
  | .mma h ty z sc dirA dirB acc a b k => encFT 0x187 h acc a b 0 k dirA dirB (b2n z + 2 * b2n sc) ty.code
  | .mmz h ty acc => encFT 0x188 h acc 0 0 0 0 false false 0 ty.code
  | .mmld h ty acc c => encFT 0x189 h acc 0 0 c 0 false false 0 ty.code
  | .mmst h acc c => encFT 0x18A h acc 0 0 c 0 false false 0 0
  | .mmrd h d a acc => encFA 0x18B h d a 0 0 0x09 (stdMod 0 acc)
  | .mmwr h acc a b => encFA 0x18C h 0 a b 0 0x09 (stdMod 0 acc)
  | .mmfl h acc => encFT 0x18D h acc 0 0 0 0 false false 0 0
  | .deferredTrap | .asynchronousTeamFault | .longLatencyComplete _ _ | .splitSwap _ | .boundaryForm _
  | .boundaryLanded _ | .mergeBufferPart _ _ | .drainEndMark _ _ _ | .crusherPart _ _ | .orderedReplay _ _
  | .engineComplete _ _ _ | .bind _ | .run _ | .preempt _ | .preemptionFreeze _ | .preemptionTimeout _
  | .fullSave _ | .teamSave _ | .resume _ | .migrateOut _ | .migrateIn _ | .unbind _ | .disable _ | .cancel _
  | .scrubDone _ | .vfEnableClear | .functionLevelReset _ | .qtBaseWrite _ _ | .qtCountWrite _ _ | .doorbell _ _
  | .queuePoll _ | .queueSweep _ | .queueLoad _ _ _ | .sliceExpiry _ | .queueUnload _ | .recordFetch _
  | .launch _ | .teamPlacement _ | .compaction _ | .teamEnd _ | .gridEnd _ | .mstatPoll _ | .pageMoveCut _
  | .pageMoveDone _ | .scrubLine _ | .round _ | .abort _ _ _ | .precopyRoundEnd _ _ _ _ | .precopyRecord _ _ _ _ _ _ _
  | .peerStoreArrival _ _ _ _ _ _ | .peerWriteApply _ | .peerAck _ _ | .peerLoadRequest _ _ _ _ _ _
  | .peerLoadReply _ _ _ _ | .prolenFlitRetry _ _ | .prolenLaneLoss _ | .prolenPortDown _ | .dieLinkFailure _ _
  | .hostMemAccess _ _ _ | .hostWindowWrite _ _ _ | .linkErrorClear _ _ | .registerWrite _ _ | .attest
  | .loadkey | .clearkey | .loadsess | .stagefw | .reset | .clearlog | .deviceReset | .clockStateChange _ _
  | .thermalTrip | .correctableError | .uncorrectableError _ | .compactionComplete _ | .hostPathResponse _ _ _ _ _ => 0

/-! Field readers. -/

/-- The header of a slot (R75). -/
def hdrOf (w : Nat) : Hdr := ⟨.ofCode (bits w 23 22), bits w 21 13, bits w 12 9⟩
/-- bits [32:24] (R77-R85). -/
def fDst (w : Nat) : Nat := bits w 32 24
/-- bits [41:33]. -/
def fA (w : Nat) : Nat := bits w 41 33
/-- bits [50:42]. -/
def fB (w : Nat) : Nat := bits w 50 42
/-- bits [59:51]. -/
def fC (w : Nat) : Nat := bits w 59 51
/-- The op field of the standard mod layout (R78). -/
def fOp (w : Nat) : Nat := bits w 74 69
/-- imm32 of F-I (R79). -/
def fImm (w : Nat) : Nat := bits w 73 42
/-- acc of F-T (R85). -/
def fAcc (w : Nat) : Nat := bits w 28 24
/-- The type of F-A (R77, R86). -/
def tyOf (w : Nat) : Option ElemTy := ElemTy.ofCode (bits w 65 60)
/-- The rounding of F-A (R78). -/
def rndOf (w : Nat) : Rnd := .ofCode (bits w 67 66)
/-- The scope of F-I (R79). -/
def scopeI (w : Nat) : Scope := .ofCode (bits w 81 80)
/-- The condition of F-B (R82). -/
def condOf (w : Nat) : Cond := .ofCode (bits w 89 87)
/-- The target of F-B (R82). -/
def targetOf (w : Nat) : Target := ⟨sextNat 24 (bits w 59 36), bits w 35 33⟩
/-- The rejoin target of F-B (R82). -/
def rejoinOf (w : Nat) : Target := ⟨sextNat 24 (bits w 86 63), bits w 62 60⟩
/-- n compared values from a packed field (R83). -/
def ksFrom : Nat → Nat → List Int
  | 0, _ => []
  | n + 1, v => sextNat 7 v :: ksFrom n (v / 2 ^ 7)
/-- The compared values of F-S (R83). -/
def ksOf (w : Nat) : List Int := ksFrom (bits w 91 89 + 1) (bits w 88 33)
/-- One increment field; field code 0 is unused (R84). -/
def incOf (v : Nat) : Option Inc :=
  if bits v 9 7 = 0 then none else some ⟨bits v 13 10, .ofCode (bits v 9 7), sextNat 7 v⟩
/-- The F-M fields (R80). -/
def fmOf (w : Nat) : FM :=
  ⟨.ofCode (bits w 88 87), bits w 86 85, bit w 84, .ofCode (bits w 83 82), .ofCode (bits w 81 78), .ofCode (bits w 77 75),
    sextNat 24 (bits w 74 51), fB w, fA w, fDst w⟩
/-- One side of a conversion (R78, R86). -/
def convOf (w c : Nat) : Option ConvTy :=
  if c = 0x20 then some (.qImm (bits w 81 66))
  else if c = 0x21 then some (.qReg (bits w 81 66))
  else (ElemTy.ofCode c).map .el

/-- The fields of the control, step, trap and privilege opcodes 0x000-0x01E (R88), not yet checked. -/
def buildCtl (w : Nat) : Nat → Option Instr
  | 0x000 => some (.nop (hdrOf w))
  | 0x001 => some (.bra (hdrOf w) (targetOf w))
  | 0x002 => some (.bany (hdrOf w) (condOf w) (fDst w) (targetOf w))
  | 0x003 => some (.ball (hdrOf w) (condOf w) (fDst w) (targetOf w))
  | 0x004 => some (.bnone (hdrOf w) (condOf w) (fDst w) (targetOf w))
  | 0x005 => some (.bdiv (hdrOf w) (condOf w) (fDst w) (targetOf w) (rejoinOf w))
  | 0x006 => some (.switch (hdrOf w) (fDst w) (ksOf w))
  | 0x007 => some (.join (hdrOf w) (targetOf w))
  | 0x008 => some (.call (hdrOf w) (targetOf w))
  | 0x009 => some (.callr (hdrOf w) (fDst w) (fA w))
  | 0x00A => some (.ret (hdrOf w))
  | 0x00B => some (.retl (hdrOf w) (fA w))
  | 0x00C => some (.loop (hdrOf w) (bits w 48 33) (bits w 53 50) (incOf (bits w 67 54)) (incOf (bits w 81 68)) (incOf (bits w 95 82)))
  | 0x00D => some (.loopr (hdrOf w) (bits w 48 33) (bits w 53 50) (incOf (bits w 67 54)) (incOf (bits w 81 68)) (incOf (bits w 95 82)))
  | 0x00E => some (.exit (hdrOf w))
  | 0x00F => some (.brk (hdrOf w) (fImm w))
  | 0x010 => some (.ids (hdrOf w) (fDst w) (fImm w))
  | 0x011 => some (.step (hdrOf w) (scopeI w))
  | 0x012 => some (.yieldc (hdrOf w) (scopeI w) (fA w) (bits w 46 42) (bits w 58 47))
  | 0x013 => some (.stepn (hdrOf w) (scopeI w) (fImm w))
  | 0x014 => some (.stepto (hdrOf w) (scopeI w) (fA w))
  | 0x015 => some (.fbp (hdrOf w) (fDst w) ⟨sextNat 9 (bits w 44 36), bits w 35 33⟩ (bits w 76 45))
  | 0x016 => some (.sysc (hdrOf w) (fImm w))
  | 0x017 => some (.trap (hdrOf w) (fImm w))
  | 0x018 => some (.tret (hdrOf w) (fA w))
  | 0x019 => some (.hcall (hdrOf w) (fImm w))
  | 0x01A => (PReg.ofCode (bits w 44 33)).map (fun k => .mfk (hdrOf w) (fDst w) k)
  | 0x01B => (PReg.ofCode (bits w 44 33)).map (fun k => .mtk (hdrOf w) (fDst w) k)
  | 0x01C => some (.tlbinv (hdrOf w) (.ofCode (fOp w)) (fA w))
  | 0x01D => some (.idle (hdrOf w))
  | 0x01E => some (.wflag (hdrOf w) (fImm w))
  | _ => none

/-- The fields of the integer and logic opcodes 0x040-0x061 (R88), not yet checked. -/
def buildInt (w : Nat) : Nat → Option Instr
  | 0x040 => (tyOf w).map (fun ty => .add (hdrOf w) ty (fDst w) (fA w) (fB w))
  | 0x041 => (tyOf w).map (fun ty => .sub (hdrOf w) ty (fDst w) (fA w) (fB w))
  | 0x042 => (tyOf w).map (fun ty => .mul (hdrOf w) ty (fDst w) (fA w) (fB w))
  | 0x043 => (tyOf w).map (fun ty => .mulh (hdrOf w) ty (fDst w) (fA w) (fB w))
  | 0x044 => (tyOf w).map (fun ty => .mad (hdrOf w) ty (fDst w) (fA w) (fB w) (fC w))
  | 0x045 => (tyOf w).map (fun ty => .div (hdrOf w) ty (fDst w) (fA w) (fB w))
  | 0x046 => (tyOf w).map (fun ty => .rem (hdrOf w) ty (fDst w) (fA w) (fB w))
  | 0x047 => (tyOf w).map (fun ty => .abs (hdrOf w) ty (fDst w) (fA w))
  | 0x048 => (tyOf w).map (fun ty => .neg (hdrOf w) ty (fDst w) (fA w))
  | 0x049 => (tyOf w).map (fun ty => .min (hdrOf w) ty (fDst w) (fA w) (fB w))
  | 0x04A => (tyOf w).map (fun ty => .max (hdrOf w) ty (fDst w) (fA w) (fB w))
  | 0x04B => (tyOf w).map (fun ty => .clamp (hdrOf w) ty (fDst w) (fA w) (fB w) (fC w))
  | 0x04C => (tyOf w).map (fun ty => .addsat (hdrOf w) ty (fDst w) (fA w) (fB w))
  | 0x04D => (tyOf w).map (fun ty => .subsat (hdrOf w) ty (fDst w) (fA w) (fB w))
  | 0x04E => (tyOf w).map (fun ty => .and (hdrOf w) ty (fDst w) (fA w) (fB w))
  | 0x04F => (tyOf w).map (fun ty => .or (hdrOf w) ty (fDst w) (fA w) (fB w))
  | 0x050 => (tyOf w).map (fun ty => .xor (hdrOf w) ty (fDst w) (fA w) (fB w))
  | 0x051 => (tyOf w).map (fun ty => .not (hdrOf w) ty (fDst w) (fA w))
  | 0x052 => (tyOf w).map (fun ty => .andn (hdrOf w) ty (fDst w) (fA w) (fB w))
  | 0x053 => (tyOf w).map (fun ty => .shl (hdrOf w) ty (fDst w) (fA w) (fB w))
  | 0x054 => (tyOf w).map (fun ty => .shr (hdrOf w) ty (fDst w) (fA w) (fB w))
  | 0x055 => (tyOf w).map (fun ty => .sar (hdrOf w) ty (fDst w) (fA w) (fB w))
  | 0x056 => (tyOf w).map (fun ty => .rol (hdrOf w) ty (fDst w) (fA w) (fB w))
  | 0x057 => (tyOf w).map (fun ty => .bfx (hdrOf w) ty (fDst w) (fA w) (fB w))
  | 0x058 => (tyOf w).map (fun ty => .bfi (hdrOf w) ty (fDst w) (fA w) (fB w) (fC w))
  | 0x059 => (tyOf w).map (fun ty => .pop (hdrOf w) ty (fDst w) (fA w))
  | 0x05A => (tyOf w).map (fun ty => .clz (hdrOf w) ty (fDst w) (fA w))
  | 0x05B => (tyOf w).map (fun ty => .ctz (hdrOf w) ty (fDst w) (fA w))
  | 0x05C => (tyOf w).map (fun ty => .brev (hdrOf w) ty (fDst w) (fA w))
  | 0x05D => (tyOf w).map (fun ty => .sel (hdrOf w) ty (fDst w) (fA w) (fB w) (fC w))
  | 0x05E => (tyOf w).map (fun ty => .cmp (hdrOf w) ty (.ofCode (fOp w)) (fDst w) (fA w) (fB w))
  | 0x05F => (tyOf w).map (fun ty => .lea (hdrOf w) ty (fDst w) (fA w) (fB w))
  | 0x060 => (tyOf w).map (fun ty => .mov (hdrOf w) ty (fDst w) (fA w))
  | 0x061 => (ElemTy.ofCode (bits w 79 74)).map (fun ty => .movi (hdrOf w) ty (fDst w) (fImm w))
  | _ => none

/-- The fields of the float opcodes 0x080-0x091 (R88), not yet checked. -/
def buildFlt (w : Nat) : Nat → Option Instr
  | 0x080 => (tyOf w).map (fun ty => .fadd (hdrOf w) ty (rndOf w) (fDst w) (fA w) (fB w))
  | 0x081 => (tyOf w).map (fun ty => .fsub (hdrOf w) ty (rndOf w) (fDst w) (fA w) (fB w))
  | 0x082 => (tyOf w).map (fun ty => .fmul (hdrOf w) ty (rndOf w) (fDst w) (fA w) (fB w))
  | 0x083 => (tyOf w).map (fun ty => .fma (hdrOf w) ty (rndOf w) (fDst w) (fA w) (fB w) (fC w))
  | 0x084 => (tyOf w).map (fun ty => .fdiv (hdrOf w) ty (rndOf w) (fDst w) (fA w) (fB w))
  | 0x085 => (tyOf w).map (fun ty => .fsqrt (hdrOf w) ty (rndOf w) (fDst w) (fA w))
  | 0x086 => (tyOf w).map (fun ty => .fmin (hdrOf w) ty (fDst w) (fA w) (fB w))
  | 0x087 => (tyOf w).map (fun ty => .fmax (hdrOf w) ty (fDst w) (fA w) (fB w))
  | 0x088 => (tyOf w).map (fun ty => .fabs (hdrOf w) ty (fDst w) (fA w))
  | 0x089 => (tyOf w).map (fun ty => .fneg (hdrOf w) ty (fDst w) (fA w))
  | 0x08A => (tyOf w).map (fun ty => .fcopysign (hdrOf w) ty (fDst w) (fA w) (fB w))
  | 0x08B => (tyOf w).map (fun ty => .fcmp (hdrOf w) ty (bit w 72) (.ofCode (fOp w % 8)) (fDst w) (fA w) (fB w))
  | 0x08C => (tyOf w).map (fun ty => .fclamp (hdrOf w) ty (fDst w) (fA w) (fB w) (fC w))
  | 0x08D => (tyOf w).map (fun ty => .frnd (hdrOf w) ty (rndOf w) (fDst w) (fA w))
  | 0x08E => (tyOf w).map (fun ty => .fscale (hdrOf w) ty (rndOf w) (fDst w) (fA w) (fB w))
  | 0x08F => (tyOf w).map (fun ty => .fexp (hdrOf w) ty (fDst w) (fA w))
  | 0x090 => (tyOf w).map (fun ty => .fmant (hdrOf w) ty (fDst w) (fA w))
  | 0x091 => (tyOf w).map (fun ty => .fclass (hdrOf w) ty (fDst w) (fA w))
  | _ => none

/-- The fields of the conversion, cross-lane, flag and transcendental opcodes 0x0C0-0x0D4 (R88), not yet checked. -/
def buildCross (w : Nat) : Nat → Option Instr
  | 0x0C0 => (convOf w (bits w 65 60)).bind (fun dt => (convOf w (bits w 56 51)).map (fun st =>
      .cvt (hdrOf w) dt st (.ofCode (bits w 58 57)) (bit w 59) (fDst w) (fA w)))
  | 0x0C1 => (convOf w (bits w 65 60)).bind (fun dt => (convOf w (bits w 56 51)).map (fun st =>
      .pack (hdrOf w) dt st (.ofCode (bits w 58 57)) (bit w 59) (fDst w) (fA w)))
  | 0x0C2 => (convOf w (bits w 65 60)).bind (fun dt => (convOf w (bits w 56 51)).map (fun st =>
      .unpack (hdrOf w) dt st (.ofCode (bits w 58 57)) (bit w 59) (fDst w) (fA w)))
  | 0x0C3 => (tyOf w).map (fun ty => .shuf (hdrOf w) ty (fDst w) (fA w) (fB w))
  | 0x0C4 => (tyOf w).map (fun ty => .shufup (hdrOf w) ty (fDst w) (fA w) (fB w))
  | 0x0C5 => (tyOf w).map (fun ty => .shufdn (hdrOf w) ty (fDst w) (fA w) (fB w))
  | 0x0C6 => (tyOf w).map (fun ty => .shufx (hdrOf w) ty (fDst w) (fA w) (fB w))
  | 0x0C7 => (tyOf w).map (fun ty => .gsel (hdrOf w) ty (fOp w + 1) (fDst w) (fA w) (fB w))
  | 0x0C8 => (tyOf w).map (fun ty => .bcast (hdrOf w) ty (fDst w) (fA w) (fB w))
  | 0x0C9 => some (.vote (hdrOf w) (.ofCode (fOp w)) (fDst w) (fA w))
  | 0x0CA => (tyOf w).map (fun ty => .redu (hdrOf w) ty (.ofCode (fOp w)) (fDst w) (fA w))
  | 0x0CB => (tyOf w).map (fun ty => .scan (hdrOf w) ty (.ofCode (fOp w)) (fDst w) (fA w))
  | 0x0CC => some (.frcp (hdrOf w) (fDst w) (fA w))
  | 0x0CD => some (.frsq (hdrOf w) (fDst w) (fA w))
  | 0x0CE => some (.fexp2 (hdrOf w) (fDst w) (fA w))
  | 0x0CF => some (.flog2 (hdrOf w) (fDst w) (fA w))
  | 0x0D0 => some (.fsinpi (hdrOf w) (fDst w) (fA w))
  | 0x0D1 => some (.fcospi (hdrOf w) (fDst w) (fA w))
  | 0x0D2 => some (.ftanh (hdrOf w) (fDst w) (fA w))
  | 0x0D3 => some (.fflg (hdrOf w) (fDst w))
  | 0x0D4 => some (.fclr (hdrOf w) (fA w))
  | _ => none

/-- The fields of the memory opcodes 0x100-0x107 (R88), not yet checked. -/
def buildMem (w : Nat) : Nat → Option Instr
  | 0x100 => some (.ld (hdrOf w) (fmOf w))
  | 0x101 => some (.ldl (hdrOf w) (fmOf w))
  | 0x102 => some (.ldt (hdrOf w) (fmOf w))
  | 0x103 => some (.sst (hdrOf w) (fmOf w))
  | 0x104 => some (.sstl (hdrOf w) (fmOf w))
  | 0x105 => some (.sstt (hdrOf w) (fmOf w))
  | 0x106 => some (.pst (hdrOf w) (fmOf w))
  | 0x107 => some (.prf (hdrOf w) (fmOf w))
  | _ => none

/-- The fields of the engine, counter and tag opcodes 0x140-0x14B (R88), not yet checked. -/
def buildEng (w : Nat) : Nat → Option Instr
  | 0x140 => some (.cpy (hdrOf w) (fmOf w))
  | 0x141 => some (.cpy2d (hdrOf w) (fmOf w))
  | 0x142 => some (.cpyq (hdrOf w) (fDst w))
  | 0x143 => some (.cpyre (hdrOf w) (fA w) (fB w))
  | 0x144 => some (.gth (hdrOf w) (fmOf w))
  | 0x145 => some (.sct (hdrOf w) (fmOf w))
  | 0x146 => some (.ctr (hdrOf w) (fDst w) (fImm w))
  | 0x147 => some (.ctrset (hdrOf w) (fImm w) (fA w))
  | 0x148 => some (.zfill (hdrOf w) (fmOf w))
  | 0x149 => some (.tagq (hdrOf w) (fDst w) (fA w))
  | 0x14A => some (.tagset (hdrOf w) (fA w) (fB w))
  | 0x14B => some (.tagclr (hdrOf w) (fA w))
  | _ => none

/-- The fields of the tensor and matrix opcodes 0x180-0x18D (R88), not yet checked. -/
def buildMx (w : Nat) : Nat → Option Instr
  | 0x180 => some (.thld (hdrOf w) (fmOf w))
  | 0x181 => some (.thst (hdrOf w) (fmOf w))
  | 0x182 => some (.thset (hdrOf w) (bits w 38 33) (bits w 44 39) (fDst w))
  | 0x183 => some (.thget (hdrOf w) (fDst w) (bits w 38 33) (bits w 44 39))
  | 0x184 => some (.thinv (hdrOf w) (bits w 34 29))
  | 0x185 => some (.plnz (hdrOf w) (bits w 34 29) (bits w 40 35))
  | 0x186 => some (.unpln (hdrOf w) (bits w 34 29) (bits w 40 35))
  | 0x187 => some (.mma (hdrOf w) (.ofCode (bits w 71 66)) (bit w 58) (bit w 59) (bit w 56) (bit w 57) (fAcc w)
      (bits w 34 29) (bits w 40 35) (bits w 55 47))
  | 0x188 => some (.mmz (hdrOf w) (.ofCode (bits w 71 66)) (fAcc w))
  | 0x189 => some (.mmld (hdrOf w) (.ofCode (bits w 71 66)) (fAcc w) (bits w 46 41))
  | 0x18A => some (.mmst (hdrOf w) (fAcc w) (bits w 46 41))
  | 0x18B => some (.mmrd (hdrOf w) (fDst w) (fA w) (fOp w))
  | 0x18C => some (.mmwr (hdrOf w) (fOp w) (fA w) (fB w))
  | 0x18D => some (.mmfl (hdrOf w) (fAcc w))
  | _ => none

/-- The fields of any slot, by the opcode map (R88), not yet checked. -/
def build (w : Nat) : Option Instr :=
  let op := bits w 8 0
  if op < 0x40 then buildCtl w op
  else if op < 0x80 then buildInt w op
  else if op < 0xC0 then buildFlt w op
  else if op < 0x100 then buildCross w op
  else if op < 0x140 then buildMem w op
  else if op < 0x180 then buildEng w op
  else buildMx w op

/-- The instruction of a 96-bit slot; none is the illegal-instruction trap of R90. -/
def decodeSlot (w : Nat) : Option Instr :=
  match build w with
  | some i => if i.wf ∧ encode i = w then some i else none
  | none => none

/-- The decoder on the numbering of the opcode table: a slot is three little-endian words, so its bits are the
table's (R70). -/
def decodeTableWord (nbits w : Nat) : Option Instr := decodeSlot (w % 2 ^ nbits)

/-- Which instructions have a slot format at all: the device steps of the table's later rows do not. -/
def Instr.isSlot (i : Instr) : Bool := decide (encode i ≠ 0)

end Sys2Proof
end

