-- ==== Sys2Proof/Machine/Float.lean ====
section
/-! DEFINITION. Exact arithmetic on float values and its one rounding: the float formats, the narrow formats and the
sticky flags of spec 03_numbers R47-R57, R60. A finite value is a sign, a natural mantissa and a power of two, so that
every operation is computed exactly and rounded once. -/
namespace Sys2Proof

/-- Flags that one element raises, laid out as the sticky flag word (R60). -/
abbrev FFlags := BitVec 7

/-- invalid (R60 bit 0). -/
def fInv : FFlags := 0x01#7
/-- divide by zero (R60 bit 1). -/
def fDvz : FFlags := 0x02#7
/-- overflow (R60 bit 2). -/
def fOvf : FFlags := 0x04#7
/-- underflow (R60 bit 3). -/
def fUnf : FFlags := 0x08#7
/-- inexact (R60 bit 4). -/
def fInx : FFlags := 0x10#7
/-- integer saturation (R60 bit 5). -/
def fIsat : FFlags := 0x20#7
/-- narrow overflow (R60 bit 6). -/
def fNov : FFlags := 0x40#7

/-- A flag when a condition holds. -/
def flagIf (c : Bool) (f : FFlags) : FFlags := if c then f else 0#7

/-- A float value: NaN (signalling or quiet), an infinity, or sign · man · 2^exp; man = 0 is a signed zero. -/
inductive FV where
  | nan (sig : Bool)
  | inf (neg : Bool)
  | fin (neg : Bool) (man : Nat) (exp : Int)
  deriving DecidableEq, Repr

/-- A binary interchange format: exponent bits and mantissa bits (R48). -/
structure Fmt where
  eb : Nat
  mb : Nat
  deriving DecidableEq, Repr

/-- f16 (R48). -/
def Fmt.f16 : Fmt := ⟨5, 10⟩
/-- bf16 (R48). -/
def Fmt.bf16 : Fmt := ⟨8, 7⟩
/-- f32 (R48). -/
def Fmt.f32 : Fmt := ⟨8, 23⟩
/-- f64 (R48). -/
def Fmt.f64 : Fmt := ⟨11, 52⟩

/-- The exponent bias (R48). -/
def Fmt.bias (f : Fmt) : Nat := 2 ^ (f.eb - 1) - 1
/-- The exponent of the smallest normal. -/
def Fmt.emin (f : Fmt) : Int := 1 - (f.bias : Int)
/-- The exponent of the largest binade. -/
def Fmt.emax (f : Fmt) : Int := f.bias
/-- The sign bit of an encoding. -/
def Fmt.signBit (f : Fmt) (neg : Bool) : Nat := if neg then 2 ^ (f.eb + f.mb) else 0
/-- An infinity's encoding. -/
def Fmt.encInf (f : Fmt) (neg : Bool) : Nat := f.signBit neg + (2 ^ f.eb - 1) * 2 ^ f.mb
/-- The largest finite magnitude with a sign (R48). -/
def Fmt.encMax (f : Fmt) (neg : Bool) : Nat := f.signBit neg + (2 ^ f.eb - 1) * 2 ^ f.mb - 1
/-- The positive canonical NaN (R48). -/
def Fmt.encNaN (f : Fmt) : Nat := (2 ^ f.eb - 1) * 2 ^ f.mb + 2 ^ (f.mb - 1)

/-- The value of an encoding (R48). -/
def Fmt.decode (f : Fmt) (n : Nat) : FV :=
  let neg := bit n (f.eb + f.mb)
  let e := (n / 2 ^ f.mb) % 2 ^ f.eb
  let m := n % 2 ^ f.mb
  if e = 2 ^ f.eb - 1 then
    if m = 0 then .inf neg else .nan (decide (m < 2 ^ (f.mb - 1)))
  else if e = 0 then .fin neg m (f.emin - f.mb)
  else .fin neg (2 ^ f.mb + m) ((e : Int) - f.bias - f.mb)

/-- man · 2^(-sh) rounded to an integer, and whether it was inexact (R50). A negative sh shifts left. In a narrow format with
m = 0 the integer has one bit for every normal value: a tie between two binades goes to the larger magnitude, and one between
zero and the smallest normal to zero: DESIGN CHOICE, for there is no mantissa bit to be even (R50, R57; log 54). -/
def roundAt (rm : Rnd) (neg : Bool) (man : Nat) (sh : Int) : Nat × Bool :=
  if sh ≤ 0 then (man * 2 ^ (-sh).toNat, false)
  else
    let k := sh.toNat
    let q := man / 2 ^ k
    let r := man % 2 ^ k
    let up := match rm with
      | .rne => decide (2 * r > 2 ^ k) || (decide (2 * r = 2 ^ k) && decide (q % 2 = 1))
      | .rtz => false
      | .rup => decide (r ≠ 0) && !neg
      | .rdn => decide (r ≠ 0) && neg
    (if up then q + 1 else q, decide (r ≠ 0))

/-- The position of the leading bit of a non-zero man · 2^exp. -/
def leadExp (man : Nat) (exp : Int) : Int := (Nat.log2 man : Int) + exp

/-- Is a non-zero value tiny: below the smallest normal after rounding at precision p with an unbounded exponent (R51). -/
def isTiny (p : Nat) (emin : Int) (rm : Rnd) (neg : Bool) (man : Nat) (exp : Int) : Bool :=
  let q := leadExp man exp + 1 - p
  let r := (roundAt rm neg man (q - exp)).1
  decide (leadExp r q < emin)

/-- What an overflow delivers in each mode (R51). -/
def Fmt.encOverflow (f : Fmt) (rm : Rnd) (sat neg : Bool) : Nat :=
  if sat then f.encMax neg
  else match rm with
    | .rne => f.encInf neg
    | .rtz => f.encMax neg
    | .rup => if neg then f.encMax true else f.encInf false
    | .rdn => if neg then f.encInf true else f.encMax false

/-- One value rounded once into a format, with the flags of R51. A NaN gives the canonical NaN (R52). An infinity stays one and
sets no flag, even in a conversion written with `.sat`: DESIGN CHOICE, for R51 and R53 speak of results that overflow only (log
55). -/
def Fmt.round (f : Fmt) (rm : Rnd) (sat : Bool) : FV → Nat × FFlags
  | .nan _ => (f.encNaN, 0#7)
  | .inf neg => (f.encInf neg, 0#7)
  | .fin neg man exp =>
    if man = 0 then (f.signBit neg, 0#7)
    else
      let p := f.mb + 1
      let q := max (leadExp man exp + 1 - p) (f.emin - f.mb)
      let (r, inx) := roundAt rm neg man (q - exp)
      if r = 0 then (f.signBit neg, fUnf ||| fInx)
      else if leadExp r q > f.emax then (f.encOverflow rm sat neg, fOvf ||| fInx)
      else
        (f.signBit neg + ((q + f.mb + f.bias - 1).toNat * 2 ^ f.mb + r),
          flagIf inx fInx ||| flagIf (inx && isTiny p f.emin rm neg man exp) fUnf)

/-- Is the operand a signalling NaN (R52). -/
def FV.sig : FV → Bool
  | .nan s => s
  | _ => false
/-- Is the operand a NaN. -/
def FV.isNaN : FV → Bool
  | .nan _ => true
  | _ => false
/-- Is the operand an infinity. -/
def FV.isInf : FV → Bool
  | .inf _ => true
  | _ => false
/-- Is the operand a zero of either sign. -/
def FV.isZero : FV → Bool
  | .fin _ m _ => decide (m = 0)
  | _ => false
/-- The sign of a value; a NaN counts as positive. -/
def FV.negative : FV → Bool
  | .nan _ => false
  | .inf n => n
  | .fin n _ _ => n
/-- The value with its sign turned. -/
def FV.neg : FV → FV
  | .nan s => .nan s
  | .inf n => .inf (!n)
  | .fin n m e => .fin (!n) m e
/-- The magnitude. -/
def FV.abs : FV → FV
  | .nan s => .nan s
  | .inf _ => .inf false
  | .fin _ m e => .fin false m e

/-- A finite value from an integer mantissa; an integer zero takes the given sign. -/
def FV.ofInt (zeroNeg : Bool) (i : Int) (e : Int) : FV :=
  if i = 0 then .fin zeroNeg 0 e else .fin (decide (i < 0)) i.natAbs e

/-- The signed mantissa of a finite value scaled to a lower exponent. -/
def scaledMan (neg : Bool) (man : Nat) (e e0 : Int) : Int :=
  let m : Int := (man * 2 ^ (e - e0).toNat : Nat)
  if neg then -m else m

/-- The exact sum, with the zero signs and the invalid case of R52. -/
def FV.add (rm : Rnd) (a b : FV) : FV × FFlags :=
  let sg := flagIf (a.sig || b.sig) fInv
  match a, b with
  | .nan _, _ | _, .nan _ => (.nan false, sg)
  | .inf x, .inf y => if x = y then (.inf x, sg) else (.nan false, fInv)
  | .inf x, .fin _ _ _ => (.inf x, sg)
  | .fin _ _ _, .inf y => (.inf y, sg)
  | .fin na ma ea, .fin nb mb eb =>
    if ma = 0 ∧ mb = 0 then
      (.fin (if na = nb then na else decide (rm = .rdn)) 0 0, sg)
    else
      let e0 := if ma = 0 then eb else if mb = 0 then ea else min ea eb
      let sa := if ma = 0 then 0 else scaledMan na ma ea e0
      let sb := if mb = 0 then 0 else scaledMan nb mb eb e0
      (FV.ofInt (decide (rm = .rdn)) (sa + sb) e0, sg)

/-- The exact difference. -/
def FV.sub (rm : Rnd) (a b : FV) : FV × FFlags := FV.add rm a b.neg

/-- The exact product, with the invalid case of R52. -/
def FV.mul (a b : FV) : FV × FFlags :=
  let sg := flagIf (a.sig || b.sig) fInv
  match a, b with
  | .nan _, _ | _, .nan _ => (.nan false, sg)
  | .inf x, .inf y => (.inf (xor x y), sg)
  | .inf x, .fin y m _ | .fin y m _, .inf x => if m = 0 then (.nan false, fInv) else (.inf (xor x y), sg)
  | .fin na ma ea, .fin nb mb eb => (.fin (xor na nb) (ma * mb) (ea + eb), sg)

/-- The exact a · b + c (R50), invalid for 0 × ∞ whatever c is (R52). -/
def FV.fma (rm : Rnd) (a b c : FV) : FV × FFlags :=
  let sg := flagIf (a.sig || b.sig || c.sig) fInv
  let bad := (a.isZero && b.isInf) || (a.isInf && b.isZero)
  if bad then (.nan false, fInv)
  else if a.isNaN || b.isNaN || c.isNaN then (.nan false, sg)
  else FV.add rm (FV.mul a b).1 c

/-- A quotient with more bits than any format holds and a sticky last bit, so that one rounding of it is exact (R50). -/
def FV.div (a b : FV) : FV × FFlags :=
  let sg := flagIf (a.sig || b.sig) fInv
  match a, b with
  | .nan _, _ | _, .nan _ => (.nan false, sg)
  | .inf _, .inf _ => (.nan false, fInv)
  | .inf x, .fin y _ _ => (.inf (xor x y), sg)
  | .fin x _ _, .inf y => (.fin (xor x y) 0 0, sg)
  | .fin na ma ea, .fin nb mb eb =>
    if mb = 0 then
      if ma = 0 then (.nan false, fInv) else (.inf (xor na nb), fDvz)
    else if ma = 0 then (.fin (xor na nb) 0 0, sg)
    else
      let k := 128 + Nat.log2 mb
      let n := ma * 2 ^ k
      (.fin (xor na nb) (2 * (n / mb) + (if n % mb = 0 then 0 else 1)) (ea - eb - k - 1), sg)

/-- The integer square root, bit by bit from bit n - 1. -/
def isqrtFrom : Nat → Nat → Nat → Nat
  | 0, r, _ => r
  | n + 1, r, v => isqrtFrom n (if (r + 2 ^ n) * (r + 2 ^ n) ≤ v then r + 2 ^ n else r) v

/-- The integer square root. -/
def isqrt (v : Nat) : Nat := isqrtFrom (Nat.log2 v / 2 + 1) 0 v

/-- A square root with more bits than any format holds and a sticky last bit (R50, R52). -/
def FV.sqrt (a : FV) : FV × FFlags :=
  match a with
  | .nan s => (.nan false, flagIf s fInv)
  | .inf n => if n then (.nan false, fInv) else (.inf false, 0#7)
  | .fin n m e =>
    if m = 0 then (.fin n 0 0, 0#7)
    else if n then (.nan false, fInv)
    else
      let k : Nat := 200 + (if (e % 2 = 0) then 0 else 1)
      let v := m * 2 ^ k
      let r := isqrt v
      (.fin false (2 * r + (if r * r = v then 0 else 1)) ((e - k) / 2 - 1), 0#7)

/-- Less than, for values that are not NaN; zeros of both signs are equal. -/
def FV.lt (a b : FV) : Bool :=
  match a, b with
  | .nan _, _ | _, .nan _ => false
  | .inf x, .inf y => x && !y
  | .inf x, .fin _ _ _ => x
  | .fin _ _ _, .inf y => !y
  | .fin na ma ea, .fin nb mb eb =>
    let e0 := min ea eb
    let ea' := if ma = 0 then e0 else ea
    let eb' := if mb = 0 then e0 else eb
    decide (scaledMan na ma ea' e0 < scaledMan nb mb eb' e0)

/-- Equality of values that are not NaN. -/
def FV.eq (a b : FV) : Bool := !a.isNaN && !b.isNaN && !FV.lt a b && !FV.lt b a

/-- minimumNumber with -0 below +0: which operand is delivered, or none for the canonical NaN (R52). -/
def FV.minPick (a b : FV) : Option Bool :=
  if a.isNaN then (if b.isNaN then none else some true)
  else if b.isNaN then some false
  else if FV.lt a b then some false
  else if FV.lt b a then some true
  else some (b.negative && !a.negative)

/-- maximumNumber with -0 below +0. -/
def FV.maxPick (a b : FV) : Option Bool :=
  if a.isNaN then (if b.isNaN then none else some true)
  else if b.isNaN then some false
  else if FV.lt a b then some true
  else if FV.lt b a then some false
  else some (a.negative && !b.negative)

/-- A finite value rounded to an integer, and whether it was inexact. -/
def FV.toIntR (rm : Rnd) (neg : Bool) (man : Nat) (exp : Int) : Int × Bool :=
  let (r, inx) := roundAt rm neg man (-exp)
  (if neg then -(r : Int) else (r : Int), inx)

/-! Element types. -/

/-- Bits of one element (R47). -/
def ElemTy.width : ElemTy → Nat
  | .i8 | .n8 => 8
  | .i16 | .n16 | .f16 | .bf16 => 16
  | .i32 | .n32 | .b32 | .f32 | .f16x2 | .bf16x2 => 32
  | .i64 | .n64 | .b64 | .f64 => 64

/-- Does one value take an even pair of registers (R47). -/
def ElemTy.isPair (t : ElemTy) : Bool := decide (t.width = 64)

/-- Is the type a signed integer. -/
def ElemTy.signed : ElemTy → Bool
  | .i8 | .i16 | .i32 | .i64 => true
  | _ => false

/-- The float format of a scalar float type, or of each half of a packed type; f32 elsewhere. -/
def ElemTy.fmt : ElemTy → Fmt
  | .f16 | .f16x2 => .f16
  | .bf16 | .bf16x2 => .bf16
  | .f64 => .f64
  | _ => .f32

/-- Is the type a packed pair of floats. -/
def ElemTy.packed : ElemTy → Bool
  | .f16x2 | .bf16x2 => true
  | _ => false

/-- Is the type a float type. -/
def ElemTy.isFloat (t : ElemTy) : Bool := t.inFp

/-- The integer an element holds, by its signedness (R47). -/
def ElemTy.toInt (t : ElemTy) (w : Nat) : Int :=
  if t.signed then sextNat t.width w else ((w % 2 ^ t.width : Nat) : Int)

/-- The least value of an integer type (R47). -/
def ElemTy.minInt (t : ElemTy) : Int := if t.signed then -((2 ^ (t.width - 1) : Nat) : Int) else 0
/-- The greatest value of an integer type (R47). -/
def ElemTy.maxInt (t : ElemTy) : Int :=
  if t.signed then ((2 ^ (t.width - 1) : Nat) : Int) - 1 else ((2 ^ t.width : Nat) : Int) - 1

/-- An integer result as the register bits an instruction writes: the upper bits of a register take the sign of an
`.i` result and zeros for the others (R47). -/
def ElemTy.ofInt (t : ElemTy) (i : Int) : Nat :=
  let w := wrapNat t.width i
  if t.width < 32 ∧ t.signed then wrapNat 32 (sextNat t.width w) else w

/-- An integer clamped to the type's range, with the saturation flag when it lay outside (R49). -/
def ElemTy.clampInt (t : ElemTy) (i : Int) : Int × FFlags :=
  if i < t.minInt then (t.minInt, fIsat)
  else if i > t.maxInt then (t.maxInt, fIsat)
  else (i, 0#7)

/-! Narrow formats. -/

/-- The format record's fields (R54). -/
structure QRec where
  mode : Nat
  bias : Int
  s : Nat
  e : Nat
  m : Nat
  deriving DecidableEq, Repr

/-- The fields of a record (R54). -/
def QRec.of (r : Nat) : QRec := ⟨bits r 15 14, sextNat 7 (bits r 13 7), bits r 6 6, bits r 5 3, bits r 2 0⟩

/-- The element's width in bits (R54). -/
def QRec.w (q : QRec) : Nat := q.s + q.e + q.m

/-- Is the record valid (R55). -/
def QRec.valid (q : QRec) : Bool :=
  decide (q.mode ≠ 3) && decide (2 ≤ q.w) && decide (q.w ≤ 8) && (decide (q.e ≠ 0) || decide (q.mode = 0)) &&
  (decide (q.mode ≠ 1) || (decide (2 ≤ q.e) && decide (1 ≤ q.m))) && (decide (q.mode ≠ 2) || decide (1 ≤ q.e))

/-- The value of a narrow element (R56). -/
def QRec.decode (q : QRec) (x : Nat) : FV :=
  if q.e = 0 then
    if q.s = 1 then FV.ofInt false (sextNat q.w x) (-q.bias) else .fin false (x % 2 ^ q.w) (-q.bias)
  else
    let neg := decide (q.s = 1) && bit x (q.w - 1)
    let ex := (x / 2 ^ q.m) % 2 ^ q.e
    let mn := x % 2 ^ q.m
    if q.mode = 1 ∧ ex = 2 ^ q.e - 1 then
      if mn = 0 then .inf neg else .nan (decide (mn < 2 ^ (q.m - 1)))
    else if q.mode = 2 ∧ ex = 2 ^ q.e - 1 ∧ mn = 2 ^ q.m - 1 then .nan false
    else if ex = 0 then .fin neg mn (1 - q.bias - q.m)
    else .fin neg (2 ^ q.m + mn) ((ex : Int) - q.bias - q.m)

/-- The bits of the largest finite magnitude, sign apart (R56). -/
def QRec.maxCode (q : QRec) : Nat :=
  if q.e = 0 then (if q.s = 1 then 2 ^ (q.w - 1) - 1 else 2 ^ q.w - 1)
  else match q.mode with
    | 1 => (2 ^ q.e - 2) * 2 ^ q.m + (2 ^ q.m - 1)
    | 2 => if q.m = 0 then 2 ^ q.e - 2 else (2 ^ q.e - 1) * 2 ^ q.m + (2 ^ q.m - 2)
    | _ => (2 ^ q.e - 1) * 2 ^ q.m + (2 ^ q.m - 1)

/-- The sign bit of a narrow encoding. -/
def QRec.signBit (q : QRec) (neg : Bool) : Nat := if neg ∧ q.s = 1 then 2 ^ (q.w - 1) else 0

/-- The NaN encoding with a sign: quiet in mode 01, all ones in mode 10 (R57). -/
def QRec.encNaN (q : QRec) (neg : Bool) : Nat :=
  if q.mode = 1 then (2 ^ q.e - 1) * 2 ^ q.m + 2 ^ (q.m - 1)
  else q.signBit neg + (2 ^ q.e - 1) * 2 ^ q.m + (2 ^ q.m - 1)

/-- The rounding of a finite non-zero value to the grid of the format: the multiple and its quantum exponent, and
whether inexact. -/
def QRec.roundMan (q : QRec) (rm : Rnd) (neg : Bool) (man : Nat) (exp : Int) : Nat × Int × Bool :=
  let qe := if q.e = 0 then -q.bias else max (leadExp man exp - q.m) (1 - q.bias - q.m)
  let (r, inx) := roundAt rm neg man (qe - exp)
  (r, qe, inx)

/-- Does a magnitude, rounded with an unbounded exponent, exceed the largest finite magnitude of R56 (R57). -/
def QRec.exceeds (q : QRec) (rm : Rnd) (neg : Bool) (man : Nat) (exp : Int) : Bool :=
  if q.e = 0 then
    let r := (q.roundMan rm neg man exp).1
    if q.s = 1 ∧ neg then decide (r > 2 ^ (q.w - 1)) else decide (r > q.maxCode)
  else
    let qe := leadExp man exp - q.m
    match q.decode q.maxCode with
    | .fin _ mm me => FV.lt (.fin false mm me) (.fin false (roundAt rm neg man (qe - exp)).1 qe)
    | _ => false

/-- What an overflow or an infinity delivers (R57). -/
def QRec.encOverflow (q : QRec) (rm : Rnd) (sat neg : Bool) : Nat :=
  let big := if q.e = 0 ∧ q.s = 1 ∧ neg then 2 ^ (q.w - 1) else q.signBit neg + q.maxCode
  if sat then big
  else match q.mode with
    | 1 =>
      let inf := q.signBit neg + (2 ^ q.e - 1) * 2 ^ q.m
      (match rm with
        | .rne => inf
        | .rtz => big
        | .rup => if neg then big else inf
        | .rdn => if neg then inf else big)
    | 2 => q.encNaN (neg && decide (q.s = 1))
    | _ => big

/-- A value rounded into a narrow format, by the first matching row of R57. -/
def QRec.round (q : QRec) (rm : Rnd) (sat : Bool) (v : FV) : Nat × FFlags :=
  match v with
  | .nan sg =>
    if q.e = 0 ∨ q.mode = 0 then (0, fInv) else (q.encNaN false, flagIf sg fInv)
  | .inf neg =>
    if neg ∧ q.s = 0 then (0, fNov) else (q.encOverflow rm sat neg, fNov)
  | .fin neg man exp =>
    if man = 0 then (if q.e = 0 then 0 else q.signBit neg, 0#7)
    else
      let (r, qe, inx) := q.roundMan rm neg man exp
      let tiny := if q.e = 0 then decide (r = 0) else isTiny (q.m + 1) (1 - q.bias) rm neg man exp
      let small := flagIf inx fInx ||| flagIf (inx && tiny) fUnf
      if neg ∧ q.s = 0 then
        if r ≠ 0 then (0, fNov ||| fInx) else (0, small)
      else if q.exceeds rm neg man exp then (q.encOverflow rm sat neg, fNov ||| fInx)
      else if q.e = 0 then (wrapNat q.w (if neg then -(r : Int) else (r : Int)), small)
      else (q.signBit neg + ((qe + q.m + q.bias - 1).toNat * 2 ^ q.m + r), small)

/-- The plane count of a narrow element (R58). -/
def QRec.planes (q : QRec) : Nat := if q.e = 0 then q.w else q.m + 1

/-! Conversions. -/

/-- Float to an integer type (R53). -/
def floatToInt (t : ElemTy) (rm : Rnd) (sat : Bool) (v : FV) : Int × FFlags :=
  let out := fun (i : Int) => (i, if sat then fIsat else fInv)
  match v with
  | .nan _ => (0, fInv)
  | .inf neg => out (if neg then t.minInt else t.maxInt)
  | .fin neg man exp =>
    let (i, inx) := FV.toIntR rm neg man exp
    if i < t.minInt then out t.minInt
    else if i > t.maxInt then out t.maxInt
    else (i, flagIf inx fInx)

/-- Integer to integer of another type (R53). -/
def intToInt (t : ElemTy) (sat : Bool) (i : Int) : Int × FFlags :=
  if sat then t.clampInt i else (i, 0#7)

/-- The value of an integer for a rounding: zero is +0. -/
def FV.fromInt (i : Int) : FV := FV.ofInt false i 0

end Sys2Proof
end

