-- ==== Sys2Proof/Machine/Operands.lean ====
section
/-! DEFINITION. Which registers, tiles and handles an instruction reads or writes, at the widths its forms give, so that
the checks of spec 04_encoding R76 and 08_group R164 are made once for all instructions. -/
namespace Sys2Proof

/-- One operand an instruction names: a register, an even pair, a quad, a run of registers, a tile, a handle (R76). A
register that is only `named` is neither read nor written, and its number is never that of `vz` (R246). -/
inductive OpUse where
  | reg (r : Nat)
  | named (r : Nat)
  | pair (r : Nat)
  | quad (r : Nat)
  | run (r n : Nat)
  | tile (t : Nat)
  | handle (h : Nat)
  deriving DecidableEq, Repr

/-- An operand of an element type (R47). -/
def tyUse (t : ElemTy) (r : Nat) : OpUse := if t.isPair then .pair r else .reg r

/-- An operand of an access width (R328). -/
def widthUse (w : Width) (r : Nat) : OpUse :=
  match w with
  | .b64 => .pair r
  | .b128 => .quad r
  | _ => .reg r

/-- Bytes of an access width (R80). -/
def Width.bytes : Width → Nat
  | .b8 => 1
  | .b16 => 2
  | .b32 => 4
  | .b64 => 8
  | .b128 => 16

/-- The verdict's width (R199). -/
def verdictUse (m : FM) : OpUse :=
  match m.rule with
  | .sumI | .or | .and | .maxI | .maxN | .maxF | .minI | .minN | .minF => widthUse m.width m.aux
  | _ => .reg m.aux

/-- The guard register, when there is a guard (R75). -/
def Hdr.uses (h : Hdr) : List OpUse :=
  match h.gmode with
  | .always => []
  | _ => [.reg h.guard]

/-- The index or coordinate-free address operands of an F-M access (R216). -/
def addrUses (m : FM) : List OpUse := [.pair m.base, .reg m.aux]

/-- The data of a step store (R212). -/
def storeData (m : FM) : OpUse := if m.rule = .cap then .pair m.data else widthUse m.width m.data

/-- Is a privileged register 64 bits wide (R98). -/
def PReg.wide : PReg → Bool
  | .kuTime | .ksEpc | .ksTval | .ksTvec | .ksPvec | .ksPtbase | .ksScring | .khPdesc | .khSarea | .khPtbase2
  | .khHvec => true
  | _ => false

/-- A privileged register's vector operand (R104). -/
def PReg.use (k : PReg) (r : Nat) : OpUse := if k.wide then .pair r else .reg r

/-- Elements in a packed register and their unpacked count (R309). -/
def packCount : ConvTy → Nat
  | .el t => 32 / (if t.packed then 16 else t.width)
  | .qImm r => 32 / (QRec.of r).w
  | .qReg _ => 1

/-- The record register of a conversion, where one is named (R78). -/
def recUse : ConvTy → List OpUse
  | .qReg r => [.reg r]
  | _ => []

/-- One side of `cvt` (R308): a narrow element takes one register. -/
def convUse : ConvTy → Nat → OpUse
  | .el t, r => tyUse t r
  | _, r => .reg r

/-- Two sources and a destination of one type. -/
def uses3 (h : Hdr) (t : ElemTy) (d a b : Nat) : List OpUse := h.uses ++ [tyUse t d, tyUse t a, tyUse t b]
/-- One source and a destination of one type. -/
def uses2 (h : Hdr) (t : ElemTy) (d a : Nat) : List OpUse := h.uses ++ [tyUse t d, tyUse t a]

/-- Everything an instruction reads or writes of the group and team. `rank` gives a handle's number of levels (R357) and
`recW` the element width of the record in a register (R309), both as they stand at issue. -/
def Instr.uses (rank recW : Nat → Nat) : Instr → List OpUse
  | .nop h | .exit h | .brk h _ | .sysc h _ | .trap h _ | .hcall h _ => h.uses
  | .bany h _ r _ | .ball h _ r _ | .bnone h _ r _ | .bdiv h _ r _ _ | .switch h r _ | .loopr h r _ _ _ _ =>
    h.uses ++ [.reg r]
  | .callr h d a => h.uses ++ [.pair d, .pair a]
  | .retl h a => h.uses ++ [.pair a]
  | .ids h d _ => h.uses ++ [.reg d]
  | .yieldc h _ a _ _ | .stepto h _ a | .tret h a => h.uses ++ [.reg a]
  | .fbp h b _ m => h.uses ++ ((List.range 32).filter (fun i => bit m i)).map (fun i => .named (b + i))
  | .mfk h r k | .mtk h r k => h.uses ++ [k.use r]
  | .tlbinv h k a => h.uses ++ (match k with
    | .va | .ipa => [.pair a]
    | _ => [])
  | .add h ty d a b | .sub h ty d a b | .mul h ty d a b | .mulh h ty d a b | .div h ty d a b | .rem h ty d a b
  | .min h ty d a b | .max h ty d a b | .addsat h ty d a b | .subsat h ty d a b | .and h ty d a b | .or h ty d a b
  | .xor h ty d a b | .andn h ty d a b | .fmin h ty d a b | .fmax h ty d a b | .fcopysign h ty d a b
  | .fadd h ty _ d a b | .fsub h ty _ d a b | .fmul h ty _ d a b | .fdiv h ty _ d a b => uses3 h ty d a b
  | .mad h ty d a b c | .clamp h ty d a b c | .fma h ty _ d a b c | .fclamp h ty d a b c => uses3 h ty d a b ++ [tyUse ty c]
  | .abs h ty d a | .neg h ty d a | .not h ty d a | .brev h ty d a | .mov h ty d a | .fsqrt h ty _ d a | .fabs h ty d a
  | .fneg h ty d a | .frnd h ty _ d a | .fmant h ty d a | .redu h ty _ d a | .scan h ty _ d a => uses2 h ty d a
  | .shl h ty d a b | .shr h ty d a b | .sar h ty d a b | .rol h ty d a b | .bfx h ty d a b | .fscale h ty _ d a b
  | .shuf h ty d a b | .shufup h ty d a b | .shufdn h ty d a b | .shufx h ty d a b | .bcast h ty d a b =>
    uses2 h ty d a ++ [.reg b]
  | .bfi h ty d a b c => uses2 h ty d a ++ [.reg b, tyUse ty c]
  | .pop h ty d a | .clz h ty d a | .ctz h ty d a | .fexp h ty d a | .fclass h ty d a => h.uses ++ [.reg d, tyUse ty a]
  | .sel h ty d a b c => uses3 h ty d a b ++ [.reg c]
  | .cmp h ty _ d a b | .fcmp h ty _ _ d a b => h.uses ++ [.reg d, tyUse ty a, tyUse ty b]
  | .lea h _ d a b => h.uses ++ [.pair d, .pair a, .reg b]
  | .movi h ty d _ => h.uses ++ [tyUse ty d]
  | .cvt h dt st _ _ d a => h.uses ++ recUse dt ++ recUse st ++ [convUse dt d, convUse st a]
  | .pack h dt _ _ _ d a => h.uses ++ recUse dt ++ [.reg d, .run a (match dt with
    | .qReg r => 32 / recW r
    | t => packCount t)]
  | .unpack h _ st _ _ d a => h.uses ++ recUse st ++ [.reg a, .run d (match st with
    | .qReg r => 32 / recW r
    | t => packCount t)]
  | .gsel h _ n d a b => h.uses ++ [.reg d, .run a n, .reg b]
  | .vote h _ d a | .frcp h d a | .frsq h d a | .fexp2 h d a | .flog2 h d a | .fsinpi h d a | .fcospi h d a
  | .ftanh h d a => h.uses ++ [.reg d, .reg a]
  | .fflg h d | .cpyq h d => h.uses ++ [.reg d]
  | .fclr h a | .ctrset h _ a | .tagclr h a => h.uses ++ [.reg a]
  | .ld h m | .pst h m => h.uses ++ addrUses m ++ [widthUse m.width m.data]
  | .ldl h m | .sstl h m => h.uses ++ [.pair m.base, .reg m.data]
  | .ldt h m | .sstt h m => h.uses ++ [.handle m.base, .run m.aux (rank m.base), widthUse m.width m.data]
  | .sst h m => h.uses ++ [.pair m.base, (if m.v then verdictUse m else .reg m.aux), storeData m]
  | .prf h m => h.uses ++ addrUses m
  | .cpy h m | .gth h m | .sct h m => h.uses ++ [.pair m.base, .pair m.aux, .reg m.data]
  | .cpy2d h m => h.uses ++ [.pair m.base, .pair m.aux, .quad m.data]
  | .zfill h m => h.uses ++ [.pair m.base, .reg m.data]
  | .cpyre h a b => h.uses ++ [.reg a, .reg b]
  | .ctr h d _ => h.uses ++ [.pair d]
  | .tagq h d a => h.uses ++ [.reg d, .pair a]
  | .tagset h a b => h.uses ++ [.reg a, .pair b]
  | .thld h m | .thst h m => h.uses ++ [.pair m.base, .handle m.data]
  | .thset h th _ r => h.uses ++ [.handle th, .reg r]
  | .thget h d th _ => h.uses ++ [.reg d, .handle th]
  | .thinv h th => h.uses ++ [.handle th]
  | .plnz h a b | .unpln h a b => h.uses ++ [.handle a, .handle b]
  | .mma h _ _ _ _ _ acc a b k => h.uses ++ [.tile acc, .handle a, .handle b, .reg k]
  | .mmz h _ acc | .mmfl h acc => h.uses ++ [.tile acc]
  | .mmld h _ acc c | .mmst h acc c => h.uses ++ [.tile acc, .handle c]
  | .mmrd h d a acc => h.uses ++ [.reg d, .reg a, .tile acc]
  | .mmwr h acc a b => h.uses ++ [.tile acc, .reg a, .reg b]
  | _ => []

/-- The header of an instruction; a device step has none (R75). -/
def Instr.hdr? : Instr → Option Hdr
  | .nop h | .bra h _ | .bany h _ _ _ | .ball h _ _ _ | .bnone h _ _ _ | .bdiv h _ _ _ _ | .switch h _ _ | .join h _
  | .call h _ | .callr h _ _ | .ret h | .retl h _ | .loop h _ _ _ _ _ | .loopr h _ _ _ _ _ | .exit h | .brk h _ | .ids h _ _
  | .wflag h _ | .step h _ | .yieldc h _ _ _ _ | .stepn h _ _ | .stepto h _ _ | .fbp h _ _ _ | .sysc h _ | .trap h _
  | .hcall h _ | .tret h _ | .mfk h _ _ | .mtk h _ _ | .tlbinv h _ _ | .idle h | .add h _ _ _ _ | .sub h _ _ _ _
  | .mul h _ _ _ _ | .mulh h _ _ _ _ | .mad h _ _ _ _ _ | .div h _ _ _ _ | .rem h _ _ _ _ | .abs h _ _ _ | .neg h _ _ _
  | .min h _ _ _ _ | .max h _ _ _ _ | .clamp h _ _ _ _ _ | .addsat h _ _ _ _ | .subsat h _ _ _ _ | .and h _ _ _ _
  | .or h _ _ _ _ | .xor h _ _ _ _ | .not h _ _ _ | .andn h _ _ _ _ | .shl h _ _ _ _ | .shr h _ _ _ _ | .sar h _ _ _ _
  | .rol h _ _ _ _ | .bfx h _ _ _ _ | .bfi h _ _ _ _ _ | .pop h _ _ _ | .clz h _ _ _ | .ctz h _ _ _ | .brev h _ _ _
  | .sel h _ _ _ _ _ | .cmp h _ _ _ _ _ | .lea h _ _ _ _ | .mov h _ _ _ | .movi h _ _ _ | .fadd h _ _ _ _ _
  | .fsub h _ _ _ _ _ | .fmul h _ _ _ _ _ | .fma h _ _ _ _ _ _ | .fdiv h _ _ _ _ _ | .fsqrt h _ _ _ _ | .fmin h _ _ _ _
  | .fmax h _ _ _ _ | .fabs h _ _ _ | .fneg h _ _ _ | .fcopysign h _ _ _ _ | .fcmp h _ _ _ _ _ _ | .fclamp h _ _ _ _ _
  | .frnd h _ _ _ _ | .fscale h _ _ _ _ _ | .fexp h _ _ _ | .fmant h _ _ _ | .fclass h _ _ _ | .cvt h _ _ _ _ _ _
  | .pack h _ _ _ _ _ _ | .unpack h _ _ _ _ _ _ | .shuf h _ _ _ _ | .shufup h _ _ _ _ | .shufdn h _ _ _ _ | .shufx h _ _ _ _
  | .gsel h _ _ _ _ _ | .bcast h _ _ _ _ | .vote h _ _ _ | .redu h _ _ _ _ | .scan h _ _ _ _ | .frcp h _ _ | .frsq h _ _
  | .fexp2 h _ _ | .flog2 h _ _ | .fsinpi h _ _ | .fcospi h _ _ | .ftanh h _ _ | .fflg h _ | .fclr h _ | .ld h _ | .ldl h _
  | .ldt h _ | .sst h _ | .sstl h _ | .sstt h _ | .pst h _ | .prf h _ | .cpy h _ | .cpy2d h _ | .cpyq h _ | .cpyre h _ _
  | .gth h _ | .sct h _ | .ctr h _ _ | .ctrset h _ _ | .zfill h _ | .tagq h _ _ | .tagset h _ _ | .tagclr h _ | .thld h _
  | .thst h _ | .thset h _ _ _ | .thget h _ _ _ | .thinv h _ | .plnz h _ _ | .unpln h _ _ | .mma h _ _ _ _ _ _ _ _ _
  | .mmz h _ _ | .mmld h _ _ _ | .mmst h _ _ | .mmrd h _ _ _ | .mmwr h _ _ _ | .mmfl h _ => some h
  | _ => none

/-- The operands that an instruction writes and does not read. -/
def Instr.writes (recW : Nat → Nat) : Instr → List OpUse
  | .ids _ d _ | .gsel _ _ _ d _ _ | .vote _ _ d _ | .frcp _ d _ | .frsq _ d _ | .fexp2 _ d _ | .flog2 _ d _
  | .fsinpi _ d _ | .fcospi _ d _ | .ftanh _ d _ | .fflg _ d | .cpyq _ d | .tagq _ d _ | .thget _ d _ _ | .mmrd _ d _ _
  | .pack _ _ _ _ _ d _ | .pop _ _ d _ | .clz _ _ d _ | .ctz _ _ d _ | .fexp _ _ d _ | .fclass _ _ d _
  | .cmp _ _ _ d _ _ | .fcmp _ _ _ _ d _ _ => [.reg d]
  | .callr _ d _ | .lea _ _ d _ _ | .ctr _ d _ => [.pair d]
  | .mfk _ r k => [k.use r]
  | .add _ ty d _ _ | .sub _ ty d _ _ | .mul _ ty d _ _ | .mulh _ ty d _ _ | .div _ ty d _ _ | .rem _ ty d _ _
  | .min _ ty d _ _ | .max _ ty d _ _ | .addsat _ ty d _ _ | .subsat _ ty d _ _ | .and _ ty d _ _ | .or _ ty d _ _
  | .xor _ ty d _ _ | .andn _ ty d _ _ | .fmin _ ty d _ _ | .fmax _ ty d _ _ | .fcopysign _ ty d _ _
  | .fadd _ ty _ d _ _ | .fsub _ ty _ d _ _ | .fmul _ ty _ d _ _ | .fdiv _ ty _ d _ _ | .mad _ ty d _ _ _
  | .clamp _ ty d _ _ _ | .fma _ ty _ d _ _ _ | .fclamp _ ty d _ _ _ | .abs _ ty d _ | .neg _ ty d _ | .not _ ty d _
  | .brev _ ty d _ | .mov _ ty d _ | .fsqrt _ ty _ d _ | .fabs _ ty d _ | .fneg _ ty d _ | .frnd _ ty _ d _
  | .fmant _ ty d _ | .redu _ ty _ d _ | .scan _ ty _ d _ | .shl _ ty d _ _ | .shr _ ty d _ _ | .sar _ ty d _ _
  | .rol _ ty d _ _ | .bfx _ ty d _ _ | .fscale _ ty _ d _ _ | .shuf _ ty d _ _ | .shufup _ ty d _ _
  | .shufdn _ ty d _ _ | .shufx _ ty d _ _ | .bcast _ ty d _ _ | .bfi _ ty d _ _ _ | .sel _ ty d _ _ _
  | .movi _ ty d _ => [tyUse ty d]
  | .cvt _ dt _ _ _ d _ => [convUse dt d]
  | .unpack _ _ st _ _ d _ => [.run d (match st with
    | .qReg r => 32 / recW r
    | t => packCount t)]
  | .ld _ m | .ldt _ m => [widthUse m.width m.data]
  | .ldl _ m => [.reg m.data]
  | .sst _ m => if m.v then [verdictUse m] else []
  | _ => []

/-- The operands that an instruction reads in one lane for all: the lowest that takes part (R81, R104, R311, R326). -/
def Instr.uniform : Instr → List OpUse
  | .shufup _ _ _ _ b | .shufdn _ _ _ _ b | .shufx _ _ _ _ b | .bcast _ _ _ _ b => [.reg b]
  | .fclr _ a | .ctrset _ _ a | .thset _ _ _ a | .loopr _ a _ _ _ _ | .yieldc _ _ a _ _ | .stepto _ _ a => [.reg a]
  | .mma _ _ _ _ _ _ _ _ _ k => [.reg k]
  | .mtk _ r k => [k.use r]
  | .ldl _ m | .sstl _ m | .thld _ m | .thst _ m => [.pair m.base]
  | .gth _ m => [.pair m.base, .reg m.data]
  | .sct _ m => [.pair m.aux, .reg m.data]
  | .cpyre _ a b => [.reg a, .reg b]
  | _ => []

/-- The registers an operand reads or writes; vz covers none. -/
def OpUse.regs : OpUse → List Nat
  | .reg r => if r ≥ 384 then [] else [r]
  | .pair r => if r ≥ 384 then [] else [r, r + 1]
  | .quad r => if r ≥ 384 then [] else [r, r + 1, r + 2, r + 3]
  | .run r n => if r ≥ 384 then [] else (List.range n).map (fun i => r + i)
  | .named _ | .tile _ | .handle _ => []

/-- The illegal-operand check of one operand (R76). -/
def OpUse.ok (nregs ntiles nhandles : Nat) (u : OpUse) : Bool :=
  u.regs.all (fun r => decide (r < nregs)) && (match u with
    | .named r => decide (r < nregs)
    | .pair r => decide (r % 2 = 0)
    | .quad r => decide (r % 4 = 0)
    | .tile t => decide (t < ntiles)
    | .handle h => decide (h < nhandles)
    | _ => true)

/-- MX-class instructions (R88, R354). -/
def Instr.isMX : Instr → Bool
  | .thset _ _ _ _ | .thget _ _ _ _ | .thinv _ _ | .plnz _ _ _ | .unpln _ _ _ | .mma _ _ _ _ _ _ _ _ _ _ | .mmz _ _ _
  | .mmld _ _ _ _ | .mmst _ _ _ | .mmrd _ _ _ _ | .mmwr _ _ _ _ | .mmfl _ _ => true
  | _ => false

/-- Instructions whose issue closes the rewind window (R247). -/
def Instr.closes (i : Instr) : Bool :=
  i.isMX || (match i with
    | .step _ _ | .stepn _ _ _ | .stepto _ _ _ | .yieldc _ _ _ _ _ | .sysc _ _ | .trap _ _ | .brk _ _ | .hcall _ _
    | .exit _ | .pst _ _ | .mtk _ _ _ | .call _ _ | .callr _ _ _ | .ret _ | .retl _ _ | .bdiv _ _ _ _ _ | .switch _ _ _
    | .join _ _ | .cpy _ _ | .cpy2d _ _ | .cpyq _ _ | .cpyre _ _ _ | .gth _ _ | .sct _ _ | .zfill _ _ | .ctrset _ _ _
    | .tagset _ _ _ | .tagclr _ _ => true
    | _ => false)

end Sys2Proof

namespace Sys2Proof.Machine

/-! Registers. -/

/-- A register of a lane; vz reads zero (R76). -/
def Group.rd (g : Group) (r l : Nat) : Word := if r ≥ 384 then 0 else sget 0 g.regs (32 * r + l)

/-- A register of a lane written; vz discards (R76). -/
def Group.wr (g : Group) (r l : Nat) (w : Word) : Group :=
  if r ≥ 384 then g else { g with regs := sset 0 g.regs (32 * r + l) w }

/-- n registers read as one number, low word first (R47). -/
def Group.rdN (g : Group) (r n l : Nat) : Nat :=
  (List.range n).foldr (fun i acc => (g.rd (if r ≥ 384 then r else r + i) l).toNat + 2 ^ 32 * acc) 0

/-- A pair read as 64 bits. -/
def Group.rd64 (g : Group) (r l : Nat) : Dword := BitVec.ofNat 64 (g.rdN r 2 l)

/-- An operand of an element type, as the bits of its registers (R47). -/
def Group.rdT (g : Group) (t : ElemTy) (r l : Nat) : Nat := g.rdN r (if t.isPair then 2 else 1) l

/-- The words of a value over n registers, low word first. -/
def wordsOf (n v : Nat) : List Word := (List.range n).map (fun i => BitVec.ofNat 32 (v / 2 ^ (32 * i)))

/-- The writes of a value over n registers of a lane; vz takes none. -/
def writesN (l r n v : Nat) : RegWrites :=
  if r ≥ 384 then [] else (List.range n).map (fun i => (l, r + i, BitVec.ofNat 32 (v / 2 ^ (32 * i))))

/-- The writes of an element-type value (R47). -/
def writesT (t : ElemTy) (l r v : Nat) : RegWrites := writesN l r (if t.isPair then 2 else 1) v

/-- Writes applied to a group. -/
def Group.apply (g : Group) (ws : RegWrites) : Group := ws.foldl (fun h w => h.wr w.2.1 w.1 w.2.2) g

end Sys2Proof.Machine
end

