-- ==== Sys2Proof/Machine/Ops.lean ====
section
/-! DEFINITION. The shared operations of issue: the issuing split's view, program counters, the split stack, splits that
divide, merge and become resident, taking a trap and returning from one, and the checks every issue makes (spec
08_group R148-R157, R162-R165, 11_traps R235-R243, 04_encoding R91). -/
namespace Sys2Proof.Machine

/-! The issuing split. -/

/-- What an instruction sees: the issuing split with its group, team, grid and context. -/
structure View where
  gid : Nat
  sid : Nat
  g : Group
  sp : Split
  tid : Nat
  tm : Team
  gr : Grid
  c : Nat
  deriving DecidableEq, Repr

/-- The view of a split of a group. -/
def State.viewOf (s : State) (gid sid : Nat) : Option View :=
  match fget s.groups gid with
  | none => none
  | some g => match fget g.splits sid, fget s.teams g.tid with
    | some sp, some tm => match fget s.grids tm.grid with
      | some gr => some ⟨gid, sid, g, sp, g.tid, tm, gr, gr.ctx⟩
      | none => none
    | _, _ => none

/-- The view of the split whose issue this is. -/
def State.view? (s : State) : Option View :=
  match s.cur with
  | some (gid, sid) => s.viewOf gid sid
  | none => none

/-- The lanes that pass a guard (R75, R293). -/
def View.part (v : View) (h : Hdr) : LaneMask :=
  match h.gmode with
  | .always => v.sp.mask
  | .nz => maskOf (fun l => v.sp.mask.getLsbD l && decide (v.g.rd h.guard l ≠ 0))
  | .z => maskOf (fun l => v.sp.mask.getLsbD l && decide (v.g.rd h.guard l = 0))

/-- The global lane index of a lane of a group (R7). -/
def globalLane (gr : Grid) (tm : Team) (g : Group) (l : Nat) : Nat := tm.flat * (gr.groups * 32) + g.idx * 32 + l

/-- A lane as the maker of an access, in the mode of a split. -/
def State.who (tm : Team) (tid : Nat) (gr : Grid) (g : Group) (user : Bool) (l : Nat) : Who :=
  { c := gr.ctx, user := user, tid := tid, grid := tm.grid, slice := tm.slice, teams := gr.teams, spad := gr.spad,
    wide := decide (gr.residency ≥ 2), grd := decide (gr.residency = 3), lane := globalLane gr tm g l }

/-- The lane of a view as the maker of an access. -/
def View.who (v : View) (l : Nat) : Who := State.who v.tm v.tid v.gr v.g (decide (v.sp.mode = .user)) l

/-- A split of a group replaced, under its name. -/
def Group.setSplit (g : Group) (sid : Nat) (sp : Split) : Group := { g with splits := fset g.splits sid sp }

/-- A split of a group replaced in the state. -/
def State.setSplit (s : State) (gid sid : Nat) (sp : Split) : State :=
  match fget s.groups gid with
  | some g => s.setGroup gid (g.setSplit sid sp)
  | none => s

/-- A change of one group. -/
def State.modGroup (s : State) (gid : Nat) (f : Group → Group) : State :=
  match fget s.groups gid with
  | some g => s.setGroup gid (f g)
  | none => s

/-- A change of one team. -/
def State.modTeam (s : State) (tid : Nat) (f : Team → Team) : State :=
  match fget s.teams tid with
  | some t => s.setTeam tid (f t)
  | none => s

/-- A change of one split. -/
def State.modSplit (s : State) (gid sid : Nat) (f : Split → Split) : State :=
  s.modGroup gid (fun g => match fget g.splits sid with
    | some sp => g.setSplit sid (f sp)
    | none => g)

/-! Program counters. -/

/-- The next PC in sequence (R72). -/
def nextPc (pc : Dword) : Dword := if pc.toNat % 64 = 48 then pc + 16 else pc + 12

/-- n positions further in sequence. -/
def seqPc : Nat → Dword → Dword
  | 0, pc => pc
  | n + 1, pc => seqPc n (nextPc pc)

/-- The line address of a PC. -/
def lineOf (pc : Dword) : Dword := BitVec.ofNat 64 (pc.toNat / 64 * 64)

/-- The PC of a target of an instruction at a PC (R82). -/
def Target.pcFrom (t : Target) (pc : Dword) : Dword := lineOf pc + BitVec.ofInt 64 (64 * t.off) + BitVec.ofNat 64 (12 * t.slot)

/-- Is a byte offset within a line a slot's. -/
def slotOff (pc : Dword) : Bool := decide (pc.toNat % 64 % 12 = 0) && decide (pc.toNat % 64 ≤ 48)

/-- The line word of a line (R71). -/
def lineWord (line : Nat) : Nat := bits line 511 480
/-- A slot of a line (R70). -/
def lineSlot (line n : Nat) : Nat := bits line (96 * n + 95) (96 * n)
/-- The kind of a line (R71). -/
def lineKind (line : Nat) : Nat := bits (lineWord line) 22 21
/-- The wait mask of a line (R71). -/
def lineWait (line : Nat) : Nat := bits (lineWord line) 11 0

/-- The exclusive or of the low n bits. -/
def parity : Nat → Nat → Bool
  | 0, _ => false
  | n + 1, w => xor (bit w n) (parity n w)

/-- The parity check of a fetched line (R73). -/
def parityOk (line : Nat) : Bool :=
  let w := lineWord line
  (List.range 5).all (fun i => parity 96 (lineSlot line i) == bit w (26 + i)) && (parity 31 w == bit w 31)

/-- A PC checked as the target of a transfer (R72): a fault in reading its line, a parity failure, or the illegal-target
trap; nothing when it is legal. -/
def State.checkPc (s : State) (c : Nat) (user : Bool) (pc : Dword) : Option TrapInfo :=
  if pc.toNat ≥ 2 ^ 57 then some ⟨0x02, pc⟩
  else match s.fetchLine c user pc with
    | .error t => some t
    | .ok (line, _) =>
      if !parityOk line then some ⟨0x50, lineOf pc⟩
      else if lineKind line = 0 ∧ slotOff pc ∧ bit (lineWord line) (12 + pc.toNat % 64 / 12) then none
      else some ⟨0x02, pc⟩

/-- Several PCs checked in order; the first that is bad is reported (DESIGN CHOICE, log 44). -/
def State.checkPcs (s : State) (c : Nat) (user : Bool) : List Dword → Option TrapInfo
  | [] => none
  | pc :: pcs => match s.checkPc c user pc with
    | some t => some t
    | none => s.checkPcs c user pcs

/-- The translations that a line read leaves in the caches. -/
def State.touchPc (s : State) (c : Nat) (user : Bool) (pc : Dword) : State :=
  match s.fetchLine c user pc with
  | .ok (_, e) => s.fill e
  | .error _ => s

/-! The split stack. -/

/-- The 16 bytes of a stack entry (R154). -/
def StackEntry.bytes (e : StackEntry) : List Byte :=
  leBytes 8 e.pc.toNat ++ leBytes 4 e.jmask.toNat ++ leBytes 4 (e.kind % 256)

/-- The stack entry of 16 bytes as one number (R154). -/
def StackEntry.ofNat (n : Nat) : StackEntry :=
  ⟨BitVec.ofNat 64 (n % 2 ^ 64), BitVec.ofNat 32 (n / 2 ^ 64), n / 2 ^ 96 % 256⟩

/-- A private access of one lane by the device, at an offset (R154, R237, R262). -/
def State.privXlate (s : State) (w : Who) (acc : Acc) (o : Nat) : Except TrapInfo TlbEntry :=
  s.xlate w.c w.user true acc (BitVec.ofNat 64 (0xA000000000000000 + o)) (privVa w.lane o)

/-- Bytes written to the private space of lanes: the fault of the lowest lane that meets one, or the state after all. A spill
that faults is reported with that cause and value in every active lane: DESIGN CHOICE, for R154 does not say which lanes trap
where only some lanes' writes fault (log 60). -/
def State.privWrite (s : State) (mk : Nat → Who) (o : Nat) (bs : Nat → List Byte) : List Nat → Except TrapInfo State
  | [] => .ok s
  | l :: ls => match s.privXlate (mk l) .w o with
    | .error t => .error t
    | .ok e =>
      let a := e.dpn * 4096 + o % 4096
      let c := (mk l).c
      let s1 := (((s.markDirty c e.ipn a).writeBytes (s.keyAt c a) a (bs l)).fill e).markPriv (privKey c (mk l).lane o) (bs l).length
      s1.privWrite mk o bs ls

/-- A spilled entry read back from the lowest lane's private memory (R154). -/
def State.refill (s : State) (w : Who) (n : Nat) : Except TrapInfo (StackEntry × TlbEntry) :=
  match s.privXlate w .r (16 * n) with
  | .error t => .error t
  | .ok e => .ok (StackEntry.ofNat (s.readN (s.keyAt w.c (e.dpn * 4096)) (e.dpn * 4096 + 16 * n % 4096) 16), e)

/-- A spilled entry has been read back under a translation: it is cached, and its line is pending no more (R267, R274). -/
def State.refilled (s : State) (c n : Nat) (e : TlbEntry) : State :=
  (s.fill e).readLocs c [.dram (e.dpn * 4096 + 16 * n % 4096)]

/-- How a group's lanes make private accesses in the mode of a split. -/
def View.maker (v : View) (user : Bool) : Nat → Who := State.who v.tm v.tid v.gr v.g user

/-- The push of R154: an overflow, a spill's fault, or the state and split after it. -/
def push (s : State) (v : View) (sp : Split) (e : StackEntry) : Except TrapInfo (State × Split) :=
  if sp.sbase + sp.depth ≥ 64 then .error ⟨0x12, 0⟩
  else if sp.held.length < 8 then .ok (s, { sp with held := e :: sp.held, depth := sp.depth + 1 })
  else
    match sp.held.getLast? with
    | none => .ok (s, { sp with held := [e], depth := sp.depth + 1 })
    | some old =>
      match s.privWrite (v.maker (decide (sp.mode = .user))) (16 * (sp.sbase + sp.depth - 8)) (fun _ => old.bytes)
        (maskLanes sp.mask) with
      | .error t => .error t
      | .ok s1 => .ok (s1, { sp with held := e :: sp.held.dropLast, depth := sp.depth + 1 })

/-- The newest entry of a split, held or read back. -/
def topEntry (s : State) (v : View) (sp : Split) : Except TrapInfo (StackEntry × State) :=
  match sp.held with
  | e :: _ => .ok (e, s)
  | [] => match s.refill (v.maker (decide (sp.mode = .user)) (lowestLane sp.mask)) (sp.sbase + sp.depth - 1) with
    | .ok (e, h) => .ok (e, s.refilled v.c (sp.sbase + sp.depth - 1) h)
    | .error t => .error t

/-- The split less its newest entry, with the refill of R154. -/
def popHeld (s : State) (v : View) (sp : Split) : Except TrapInfo (State × Split) :=
  let held := sp.held.tail
  let depth := sp.depth - 1
  if depth > held.length ∧ held.length < 8 then
    match s.refill (v.maker (decide (sp.mode = .user)) (lowestLane sp.mask)) (sp.sbase + depth - held.length - 1) with
    | .ok (e, h) =>
      .ok (s.refilled v.c (sp.sbase + depth - held.length - 1) h, { sp with held := held ++ [e], depth := depth })
    | .error t => .error t
  else .ok (s, { sp with held := held, depth := depth })

/-- The pop of R154: empty stack, mismatch, a refill's fault, or the entry with the state and split after it. -/
def pop (s : State) (v : View) (sp : Split) (kind : Nat) : Except TrapInfo (StackEntry × State × Split) :=
  if sp.depth = 0 then .error ⟨0x10, 0⟩
  else match topEntry s v sp with
    | .error t => .error t
    | .ok (e, s1) =>
      if e.kind ≠ kind then .error ⟨0x11, 0⟩
      else match popHeld s1 v sp with
        | .error t => .error t
        | .ok (s2, sp2) => .ok (e, s2, sp2)

/-- Every held entry written to private memory, oldest first (R150, R154). -/
def spillAll (s : State) (v : View) (sp : Split) : Nat → List StackEntry → Except TrapInfo State
  | _, [] => .ok s
  | n, e :: es => match s.privWrite (v.maker (decide (sp.mode = .user))) (16 * n) (fun _ => e.bytes) (maskLanes sp.mask) with
    | .error t => .error t
    | .ok s1 => spillAll s1 v sp (n + 1) es

/-- A split's held entries spilled, as it becomes dormant. -/
def State.spill (s : State) (v : View) (sp : Split) : Except TrapInfo State :=
  spillAll s v sp (sp.sbase + sp.depth - sp.held.length) sp.held.reverse

/-- Up to n of the newest entries read back; the first read that fails ends it (R150, R393). -/
def reload (s : State) (v : View) (sp : Split) : Nat → List StackEntry → State × List StackEntry
  | 0, got => (s, got)
  | n + 1, got =>
    if sp.depth ≤ got.length then (s, got)
    else match s.refill (v.maker (decide (sp.mode = .user)) (lowestLane sp.mask)) (sp.sbase + sp.depth - got.length - 1) with
      | .ok (e, h) => reload (s.refilled v.c (sp.sbase + sp.depth - got.length - 1) h) v sp n (got ++ [e])
      | .error _ => (s, got)

/-! The split table. -/

/-- The table entry of a split. -/
def Split.entry? (sp : Split) : Option Nat :=
  match sp.place with
  | .resident n => some n
  | _ => none

/-- The lowest free table entry (R149). -/
def Group.freeEntry (g : Group) : Option Nat :=
  (List.range 8).find? (fun n => g.splits.all (fun e => decide (e.2.place ≠ .resident n)))

/-- Older by age key, then by the model's own name. -/
def Split.older (a b : Split) : Bool := decide (a.age < b.age) || (decide (a.age = b.age) && decide (a.sid < b.sid))

/-- The oldest split of a list. -/
def oldest : List Split → Option Split
  | [] => none
  | sp :: rest => match oldest rest with
    | none => some sp
    | some o => if sp.older o then some sp else some o

/-- The splits of a group that pass a test. -/
def Group.splitsWhere (g : Group) (p : Split → Bool) : List Split := (g.splits.map (·.2)).filter p

/-- The oldest dormant split that is ready. -/
def Group.dormantReady (g : Group) : Option Split :=
  oldest (g.splitsWhere (fun sp => decide (sp.place = .dormant) && decide (sp.st = .ready) && !sp.frozen))

/-- A split made resident in an entry, its newest stack entries reloaded (R150, R393). -/
def State.makeResident (s : State) (gid : Nat) (sp : Split) (n : Nat) : State :=
  match s.viewOf gid sp.sid with
  | some v =>
    let r := reload s v sp (8 - sp.held.length) sp.held
    r.1.setSplit gid sp.sid { sp with place := .resident n, held := r.2, entered := true, mustIssue := true }
  | none => s

/-- A freed entry takes the oldest ready dormant split (R150). -/
def State.promoteOne (s : State) (gid : Nat) : State :=
  match fget s.groups gid with
  | none => s
  | some g => match g.freeEntry, g.dormantReady with
    | some n, some sp => s.makeResident gid sp n
    | _, _ => s

/-- Every freed entry of the table takes a ready dormant split, oldest first (R150). -/
def State.promote (s : State) (gid : Nat) : State := (List.range 8).foldl (fun t _ => t.promoteOne gid) s

/-- The flags pending in a group, as a mask (R162). -/
def Group.pendingFlags (g : Group) : Nat :=
  (List.range 12).foldl (fun m n => if g.pend.any (fun p => decide (p.flag = n)) then m + 2 ^ n else m) 0

/-- Do two flag masks meet. -/
def flagsMeet (a b : Nat) : Bool := (List.range 12).any (fun n => bit a n && bit b n)

/-- Is a result marked by an instruction of a handler pending: of its trap level, whatever name its split has taken since
(R243, R252). -/
def Group.ownPending (g : Group) (lv : Option Nat) : Bool := g.pend.any (fun p => decide (p.lid = lv) && lv.isSome)

/-- Splits whose flags have cleared become ready (R146, R75). -/
def Group.wake (g : Group) : Group :=
  let p := g.pendingFlags
  { g with splits := fmapV (fun _ sp => match sp.st with
      | .flags m => if flagsMeet p m then sp else { sp with st := .ready }
      | .drain => if g.ownPending sp.lv then sp else { sp with st := .ready }
      | .own => if g.pend.any (fun q => decide (q.sid = sp.sid) && decide (q.flag = 15)) then sp else { sp with st := .ready }
      | _ => sp) g.splits }

/-! Merging (R156, R393). -/

/-- The splits that wait at one join in one mode. -/
def Group.joinParts (g : Group) (rejoin : Dword) (jmask : LaneMask) (mode : Mode) : List Split :=
  g.splitsWhere (fun sp => decide (sp.st = .join) && decide (sp.rejoin = rejoin) && decide (sp.jmask = jmask) &&
    decide (sp.mode = mode))

/-- The union of masks. -/
def unionMask (sps : List Split) : LaneMask := sps.foldl (fun m sp => m ||| sp.mask) 0

/-- The larger of two counts, compared modulo 2^32 (R182). -/
def countMax (a b : Word) : Word := if countGe a b then a else b

/-- The split with the lowest lane. -/
def lowestSplit : List Split → Option Split
  | [] => none
  | sp :: rest => match lowestSplit rest with
    | none => some sp
    | some o => if lowestLane sp.mask < lowestLane o.mask then some sp else some o

/-- The arrivals of splits that merge: what each brings, and every scope for the lanes that waited at the join, which those of
the split whose `join` completes the merge have not, nor those of a handler (R186). -/
def arrivalsOf (last : Option Nat) (parts : List Split) : Arrivals :=
  parts.foldl (fun a sp =>
    let w : LaneMask := if sp.tdepth = 0 ∧ last ≠ some sp.sid then sp.mask else 0
    ⟨a.t ||| w ||| (sp.blank.t &&& sp.mask), a.d ||| w ||| (sp.blank.d &&& sp.mask), a.g ||| w ||| (sp.blank.g &&& sp.mask)⟩)
    .none

/-- The merged split before its pop. Frozen splits that merge stay frozen (R251). Its table entry is that of the part with the
lowest lane; where that part is dormant and has none it is that of the first part, by name, which has one: DESIGN CHOICE, for
R156 does not say (log 59). -/
def mergedSplit (base : Split) (parts : List Split) : Split :=
  let eldest := (oldest parts).getD base
  { base with
    mask := unionMask parts, pc := base.rejoin, st := .ready, entered := true, popDue := false, window := none,
    ct := parts.foldl (fun m sp => countMax m sp.ct) base.ct
    cd := parts.foldl (fun m sp => countMax m sp.cd) base.cd
    cg := parts.foldl (fun m sp => countMax m sp.cg) base.cg
    loop := if parts.all (fun sp => decide (sp.loop = base.loop)) then base.loop else none
    age := eldest.age, lv := eldest.lv, frozen := parts.any (·.frozen), mustIssue := false
    flash := ((parts.find? (fun sp => sp.flash.isSome)).bind (·.flash))
    lastIssue := parts.foldl (fun m sp => max m sp.lastIssue) 0, opps := 0, cycles := 0
    place := match base.place with
      | .dormant => ((parts.find? (fun sp => decide (sp.place ≠ .dormant))).map (·.place)).getD .dormant
      | p => p }

/-- The merge's pop: at once when the entry is held, due otherwise (R393). -/
def mergePop (s : State) (v : View) (sp : Split) : State × Split :=
  match sp.held with
  | e :: rest =>
    match popHeld s v sp with
    | .ok (s1, sp1) => (s1, { sp1 with rejoin := e.pc, jmask := e.jmask })
    | .error _ => (s, { sp with held := rest, depth := sp.depth - 1, rejoin := e.pc, jmask := e.jmask })
  | [] => (s, { sp with popDue := true })

/-- The merge of R156 tested at one join; the state is unchanged when it is not complete. -/
def State.mergeAt (s : State) (gid : Nat) (rejoin : Dword) (jmask : LaneMask) (mode : Mode) : State :=
  match fget s.groups gid with
  | none => s
  | some g =>
    let parts := g.joinParts rejoin jmask mode
    match lowestSplit parts with
    | none => s
    | some base =>
      if (jmask &&& g.live) &&& ~~~(unionMask parts) ≠ 0 then s
      else
        let m := { mergedSplit base parts with blank := arrivalsOf (s.cur.map (·.2)) parts }
        let g1 := { g with splits := fset (parts.foldl (fun sps sp => fdel sps sp.sid) g.splits) base.sid m }
        let s1 := s.setGroup gid g1
        match s1.viewOf gid base.sid with
        | none => s1
        | some v =>
          let (s2, m2) := mergePop s1 v m
          (s2.setSplit gid base.sid m2).promote gid

/-- Every merge of a group tested, for each join that a split waits at (R156). -/
def State.retest (s : State) (gid : Nat) : State :=
  match fget s.groups gid with
  | none => s
  | some g => (g.splitsWhere (fun sp => decide (sp.st = .join))).foldl
      (fun t sp => t.mergeAt gid sp.rejoin sp.jmask sp.mode) s

/-! Retirement. -/

/-- The split after its instruction retires without a taken transfer: the next PC, or the loop's replay (R175). -/
def Split.advance (sp : Split) : Split :=
  let n := nextPc sp.pc
  let line := decide (lineOf n ≠ lineOf sp.pc)
  match sp.loop with
  | some lp =>
    if sp.pc = seqPc lp.len lp.pc then
      if lp.remaining.toNat > 1 then
        { sp with pc := nextPc lp.pc, entered := true, loop := some { lp with remaining := lp.remaining - 1, pass := lp.pass + 1 } }
      else { sp with pc := n, entered := sp.entered || line, loop := none }
    else { sp with pc := n, entered := sp.entered || line }
  | none => { sp with pc := n, entered := sp.entered || line }

/-- Is a PC inside the body of a loop. -/
def LoopSt.inBody (lp : LoopSt) (pc : Dword) : Bool := (List.range lp.len).any (fun i => decide (pc = seqPc (i + 1) lp.pc))

/-- The split after a taken transfer, with its effect on an active loop (R176). -/
def Split.transfer (sp : Split) (pc : Dword) : Split :=
  let keep := match sp.loop with
    | some lp => if sp.pc ≠ seqPc lp.len lp.pc ∧ lp.inBody pc then some lp else none
    | none => none
  { sp with pc := pc, entered := true, loop := keep }

/-- The issuing split retires its instruction. -/
def State.retire (s : State) (v : View) : State := s.modSplit v.gid v.sid Split.advance

/-! Taking a trap (R236). -/

/-- A trap to be taken: lanes, cause, sub-cause, resume PC, the value of each lane, and `ks_lmask` and `ks_amask` where
R240 gives others than the lanes and the former mask. -/
structure TrapReq where
  lanes : LaneMask
  code : Nat
  sub : Nat
  resume : Dword
  tval : List (Nat × Dword)
  masks : Option (Word × Word)
  deriving DecidableEq, Repr

/-- The handler's mode (R235). -/
def handlerMode (code : Nat) (from_ : Mode) : Mode :=
  if code = 0x2A ∨ code = 0x2B ∨ code = 0x3B ∨ (0x50 ≤ code ∧ code ≤ 0x52) then .hyp
  else if code = 0x40 then .sup
  else if from_ = .user then .sup else .hyp

/-- The handler's first PC (R235). -/
def handlerPc (x : Ctx) (code : Nat) (from_ : Mode) : Dword :=
  if code = 0x40 then x.pvec
  else if handlerMode code from_ = .hyp then x.hvec else x.tvec

/-- v0-v15 of the lanes saved for a first-level entry (R237). -/
def Group.save1st (g : Group) (ls : List Nat) : Group :=
  { g with save1 := ls.foldl (fun m l => (List.range 16).foldl (fun m i => sset 0 m (32 * i + l) (g.rd i l)) m) g.save1 }

/-- v0-v15 of a lane as bytes, for a deeper entry (R237). -/
def Group.low16 (g : Group) (l : Nat) : List Byte := (List.range 16).flatMap (fun i => leBytes 4 (g.rd i l).toNat)

/-- The save of the lanes' v0-v15 for a depth, or the fault that turns the entry into a nesting machine check (R237, R242). -/
def State.saveLow (s : State) (v : View) (d : Nat) (ls : List Nat) : Except TrapInfo State :=
  if d = 1 then .ok (s.modGroup v.gid (fun g => g.save1st ls))
  else s.privWrite (v.maker false) (0x400 + 64 * (d - 2)) (fun l => v.g.low16 l) ls

/-- Where a handler split is placed: the entry of the split that ended, a free entry, the entry of the oldest resident
split that is no handler and can be spilled, or the overflow stack (R236, R393). -/
def State.placeHandler (s : State) (gid : Nat) (freed : Option Place) : State × Place :=
  match freed with
  | some p => (s, p)
  | none => match fget s.groups gid with
    | none => (s, .dormant)
    | some g => match g.freeEntry with
      | some n => (s, .resident n)
      | none => match oldest (g.splitsWhere (fun sp => sp.entry?.isSome && decide (sp.tdepth = 0))) with
        | none => (s, .dormant)
        | some o => match s.viewOf gid o.sid with
          | none => (s, .dormant)
          | some v => match s.spill v o with
            | .error _ => (s, .dormant)
            | .ok s1 => (s1.setSplit gid o.sid { o with place := .dormant, held := [] }, o.place)

/-- The lanes leave their split; it ends when it has none left. -/
def Group.leave (g : Group) (sid : Nat) (x : LaneMask) : Group × Option Place :=
  match fget g.splits sid with
  | none => (g, none)
  | some sp =>
    let m := sp.mask &&& ~~~x
    if m = 0 then ({ g with splits := fdel g.splits sid }, some sp.place)
    else (g.setSplit sid { sp with mask := m, window := none }, none)

/-- A handler split and its trap level put into a group. -/
def Group.enter (g : Group) (x : Ctx) (from_ : Split) (ret : Option Split) (req : TrapReq) (d : Nat) (code : Nat)
    (epc : Dword) (amask : LaneMask) (pl : Place) : Group :=
  let sid := g.nextId
  let h : Split :=
    { sid := sid, mask := req.lanes, pc := handlerPc x code from_.mode, mode := handlerMode code from_.mode, tdepth := d,
      rejoin := pcNone, jmask := 0, held := [], depth := 0, sbase := from_.sbase + from_.depth, loop := none,
      ct := from_.ct, cd := from_.cd, cg := from_.cg, blank := from_.blank, age := g.nextAge, st := .ready, place := pl, entered := true,
      popDue := false, lv := some (sid + 1), window := none, flash := none, frozen := false, mustIssue := false,
      lastIssue := from_.lastIssue, opps := 0, cycles := 0 }
  let lvl : TrapLevel :=
    { lid := sid + 1, ret := ret, cause := code, sub := req.sub, from_ := from_.mode, epc := epc, resume := epc,
      tval := req.tval.foldl (fun m e => fset m e.1 e.2) [], lmask := (req.masks.map (·.1)).getD req.lanes, amask := (req.masks.map (·.2)).getD amask, hflags := 0, idled := false }
  { g with splits := fset g.splits sid h, levels := fset g.levels (sid + 1) lvl, nextId := sid + 2, nextAge := g.nextAge + 1 }

/-- Trap levels that neither a split nor another level's return state belongs to are gone. -/
def Group.dropLevels (g : Group) : Group :=
  let keep (lv : FMap TrapLevel) : FMap TrapLevel := lv.filter (fun e =>
    g.splits.any (fun x => decide (x.2.lv = some e.1)) ||
    lv.any (fun y => match y.2.ret with
      | some r => decide (r.lv = some e.1)
      | none => false))
  { g with levels := keep (keep (keep g.levels)) }

/-- The line of an illegal target is read for a context; it is pending no more (R274). -/
def State.readPc (s : State) (c : Nat) (user : Bool) (pc : Dword) : State :=
  match s.fetchLine c user pc with
  | .ok (_, e) => s.readLocs c [.dram (e.dpn * 4096 + pc.toNat % 4096)]
  | .error _ => s

/-- The VA of a lane's address. -/
def View.vaOf (v : View) (l : Nat) (ea : Dword) : Nat :=
  if pathOf ea = 5 then privVa (globalLane v.gr v.tm v.g l) (bits ea.toNat 23 0) else bits ea.toNat 56 0

/-- What the checks that end in a trap have read is pending no more: the entries of a walk that failed, the line of an illegal
target (R274). -/
def State.trapReads (s : State) (v : View) (req : TrapReq) : State :=
  if s.ctxs.all (fun e => decide (e.2.scrub = [])) then s
  else req.tval.foldl (fun t x =>
    if req.code = 0x02 then t.readPc v.c (decide (v.sp.mode = .user)) x.2
    else t.walked v.c req.code (v.vaOf x.1 x.2) x.2.toNat) s

/-- The entry of a trap (R236, R242): the lanes leave the split, their v0-v15 are saved, and a handler split is formed with its
trap level. `base` is the split's entry as the trap finds it, from which the return state is made. A nesting machine check
makes none, and the level that its lanes leave is gone with the last of them. -/
def State.enterTrap (s : State) (gid sid : Nat) (base : Split) (req : TrapReq) : State :=
  match s.viewOf gid sid with
  | none => s
  | some v =>
    let d := base.tdepth + 1
    let ls := maskLanes req.lanes
    let sv : Except TrapInfo State := if d ≥ 4 then .error ⟨0x51, 0⟩ else s.saveLow v d ls
    let code := match sv with
      | .ok _ => req.code
      | .error _ => 0x51
    let s1 := match sv with
      | .ok t => t
      | .error t => ls.foldl (fun u l => u.walked v.c t.code (v.vaOf l t.tval) t.tval.toNat) s
    match fget s1.groups gid with
    | none => s1
    | some g =>
      let amask := ((fget g.splits sid).map (·.mask)).getD 0
      let (g1, freed) := g.leave sid req.lanes
      let (s2, pl) := (s1.setGroup gid g1).placeHandler gid freed
      let req' := if code = 0x51 ∧ req.code ≠ 0x51 then
          { req with sub := 0, tval := ls.map (fun l => (l, BitVec.ofNat 64 req.code)), masks := none } else req
      let ret := if code = 0x51 then none
        else some { base with mask := req.lanes, pc := req.resume, window := none, st := .ready, entered := true,
                              mustIssue := false, frozen := false }
      s2.modGroup gid (fun g2 =>
        let g3 := g2.enter (s2.ctx v.c) base ret req' (min d 3) code (if code = 0x51 then v.sp.pc else req.resume) amask pl
        if code = 0x51 then g3.dropLevels else g3)

/-- Taking a trap: what its checks have read is read, and the trap is entered. -/
def State.takeTrap (s : State) (gid sid : Nat) (base : Split) (req : TrapReq) : State :=
  match s.viewOf gid sid with
  | none => s
  | some v => (s.trapReads v req).enterTrap gid sid base req

/-- One trap with one value in every lane of a mask. -/
def trapAll (lanes : LaneMask) (code : Nat) (resume : Dword) (tval : Dword) : TrapReq :=
  ⟨lanes, code, 0, resume, (maskLanes lanes).map (fun l => (l, tval)), none⟩

/-- The instruction traps in some lanes as it stands, with no effect in them. -/
def State.trapNow (s : State) (v : View) (req : TrapReq) : State := s.takeTrap v.gid v.sid v.sp req

/-- The instruction traps in every active lane of its split. -/
def State.trapSplit (s : State) (v : View) (t : TrapInfo) : State :=
  s.trapNow v (trapAll v.sp.mask t.code v.sp.pc t.tval)

/-- Codes of per-lane traps, ascending and without repeats. -/
def codesOf (ts : List (Nat × TrapInfo)) : List Nat :=
  (List.range 256).filter (fun c => ts.any (fun t => decide (t.2.code = c)))

/-- Per-lane traps of one issue, one take_trap for each cause in ascending code (R236). -/
def State.trapLanes (s : State) (v : View) (ts : List (Nat × TrapInfo)) : State :=
  (codesOf ts).foldl (fun t c =>
    let mine := ts.filter (fun e => decide (e.2.code = c))
    t.takeTrap v.gid v.sid v.sp ⟨maskOf (fun l => mine.any (fun e => decide (e.1 = l))), c, 0, v.sp.pc,
      mine.map (fun e => (e.1, e.2.tval)), none⟩) s

/-- Lanes that fail their own checks take their traps; the others go on with what is left of the split (R92, R236). -/
def State.others (s : State) (v : View) (bad : List (Nat × TrapInfo)) (k : State → View → State) : State :=
  let s1 := s.trapLanes v bad
  match s1.viewOf v.gid v.sid with
  | some v1 => k s1 v1
  | none => s1

/-- The lanes of a list of per-lane traps. -/
def trapMask (ts : List (Nat × TrapInfo)) : LaneMask := maskOf (fun l => ts.any (fun e => decide (e.1 = l)))

/-! Results. -/

/-- The trap level a split's flags belong to: that of a handler, or none for the group's word (R63). -/
def View.lid (v : View) : Option Nat := if v.sp.tdepth = 0 then none else v.sp.lv

/-- Is a rewind window open in a group. -/
def Group.anyWindow (g : Group) : Bool := g.splits.any (fun e => e.2.window.isSome)

/-- The sticky word that base and log make. -/
def replaySticky (base : Word) (log : List StickyEvent) : Word :=
  log.foldl (fun w e => if e.set then w ||| e.mask else w &&& ~~~e.mask) base

/-- A change of the sticky flag word by one instruction, recorded while a window is open (R62, R63, R250). -/
def Group.stickyEvent (g : Group) (lid : Option Nat) (e : StickyEvent) : Group :=
  match lid with
  | some n => match fget g.levels n with
    | some lv => { g with levels := fset g.levels n { lv with hflags := replaySticky lv.hflags [e] } }
    | none => g
  | none =>
    if g.anyWindow then { g with sticky := replaySticky g.sticky [e], stickyLog := g.stickyLog ++ [e] }
    else { g with sticky := replaySticky g.sticky [e], stickyBase := replaySticky g.sticky [e], stickyLog := [] }

/-- The flags of completed results enter the word once no result that marked their completion flag is pending (R62). -/
def Group.settle (g : Group) : Group :=
  let p := g.pendingFlags
  let due := g.heldSticky.filter (fun x => !bit p x.flag)
  due.foldl (fun h x => h.stickyEvent x.lid x.event) { g with heldSticky := g.heldSticky.filter (fun x => bit p x.flag) }

/-- Flags set by an instruction that retires (R60, R62). -/
def Group.setFlags (g : Group) (lid : Option Nat) (sid : Nat) (f : FFlags) : Group :=
  if f = 0 then g else g.stickyEvent lid ⟨sid, g.seq, true, BitVec.setWidth 32 f⟩

/-- The effect of an instruction that only writes registers: the writes, the flags and the next PC. -/
def State.finish (s : State) (v : View) (ws : RegWrites) (f : FFlags) : State :=
  (s.modGroup v.gid (fun g => (g.apply ws).setFlags v.lid v.sid f)).retire v

/-- A result written later: the registers are pending under a flag, or the split waits for it (R75, R162). -/
def State.defer (s : State) (v : View) (p : Pending) : State :=
  let q := { p with pid := v.g.nextId, seq := v.g.seq, sid := v.sid, pc := v.sp.pc, lid := v.lid }
  let s1 := (s.modGroup v.gid (fun g => { g with pend := g.pend ++ [q], nextId := v.g.nextId + 1 })).retire v
  if p.flag = 15 then s1.modSplit v.gid v.sid (fun sp => { sp with st := .own }) else s1

/-- A pending result with nothing in it yet. -/
def Pending.blank (flag : Nat) : Pending :=
  { pid := 0, seq := 0, sid := 0, pc := 0, flag := flag, kind := .unit, regs := [], writes := [], handle := none, mx := false,
    tiles := [], handles := [], flags := 0, lid := none }

/-- A long-latency result of register writes and flags (R295). Flags are a result of their own where every written word is
discarded (R62, R76). -/
def State.deferRegs (s : State) (v : View) (flag : Nat) (ws : RegWrites) (f : FFlags) : State :=
  if ws = [] ∧ f = 0 then s.retire v
  else s.defer v { Pending.blank flag with regs := ws.map (fun w => (w.1, w.2.1)), writes := ws, flags := f }

/-! The checks of an issue (R91). -/

/-- May a mode run an instruction at all (R89). The special registers have their own check. -/
def modeOk (m : Mode) : Instr → Bool
  | .tret _ _ | .hcall _ _ | .idle _ => decide (m ≠ .user)
  | .tlbinv _ k _ => match k with
    | .all | .va => decide (m ≠ .user)
    | .ipa | .ctx => decide (m = .hyp)
  | .mfk _ _ k => match k with
    | .kuDet | .kuFnver | .kuTime => true
    | .ksStatus | .ksCause | .ksEpc | .ksTval | .ksLmask | .ksAmask | .ksTvec | .ksPvec | .ksPtbase | .ksScring
    | .ksScsize | .ksPhys => decide (m ≠ .user)
    | _ => decide (m = .hyp)
  | .mtk _ _ k => match k with
    | .kuTime | .ksPhys | .khFwver | .ksCause | .ksTval | .ksLmask | .ksAmask => false
    | .kuDet | .kuFnver | .ksStatus | .ksEpc | .ksTvec | .ksPvec | .ksPtbase | .ksScring | .ksScsize => decide (m ≠ .user)
    | _ => decide (m = .hyp)
  | _ => true

/-- The levels of a handle as its descriptor gives them, for the operand check; none when it is invalid or too many. -/
def Team.rank (t : Team) (h : Nat) : Nat :=
  match fget t.handles h with
  | some x => let n := bits (sget 0 x.words 0).toNat 26 24; if x.valid ∧ n ≤ 5 then n else 0
  | none => 0

/-- The element width of a record in a register, read in the lowest participating lane; 1 element when it is no record.
With no participating lane it is read in lane 0: DESIGN CHOICE, for no rule says which lane's record then gives the length of
the run that R76 checks (log 40). -/
def View.recWidth (v : View) (h : Hdr) (r : Nat) : Nat :=
  let w := (v.g.rd r (lowestLane (v.part h))).toNat
  if (QRec.of w).valid ∧ w < 2 ^ 16 then (QRec.of w).w else 32

/-- The operands of an instruction as they stand at issue. -/
def View.uses (v : View) (i : Instr) : List OpUse := i.uses v.tm.rank (fun r => match i with
  | .pack h _ _ _ _ _ _ | .unpack h _ _ _ _ _ _ => v.recWidth h r
  | _ => 32)

/-- Is an operand one that R164 checks in the active lanes of the split: every operand, but for those of `prf`, which stops
for nothing past the sixth place of R91 (R332), and the window of `gsel`, which is checked in all lanes and traps those that
take part (R312). -/
def syncs (i : Instr) (u : OpUse) : Bool :=
  match i, u with
  | .prf _ _, _ => false
  | .gsel _ _ _ _ _ _, .run _ _ => false
  | _, _ => true

/-- The first of some registers that is pending in one of some lanes. -/
def Group.pendingReg (g : Group) (ls rs : List Nat) : Option Nat :=
  rs.find? (fun r => ls.any (fun l => g.pend.any (fun p => p.regs.contains (l, r))))

/-- The value that names an unsynchronised register, tile or handle (R164). -/
def View.unsync (v : View) (i : Instr) (u : OpUse) : Option Nat :=
  if !syncs i u then none
  else match u with
  | .tile t => if !i.isMX && v.g.pend.any (fun p => p.tiles.contains t) then some (0x1000 + t) else none
  | .handle h =>
    if v.g.pend.any (fun p => p.handles.contains h && !(i.isMX && p.mx)) then some (0x1000 + h) else none
  | _ => v.g.pendingReg (maskLanes v.sp.mask) u.regs

/-- A float `.sum` with a verdict is an illegal operand (R199, R213). -/
def sumVerdict : Instr → Bool
  | .sst _ m => m.v && decide (m.rule = .sumF)
  | _ => false

/-- Causes 3 to 6 of R91 and the check of R164, in their order; all are raised in every active lane (R92). -/
def View.precheck (v : View) (i : Instr) : Option TrapInfo :=
  if !i.wf then some ⟨0x01, 0⟩
  else if !modeOk v.sp.mode i then some ⟨0x03, 0⟩
  else if (v.uses i).any (fun u => !u.ok v.g.nregs v.g.ntiles v.gr.nhandles) || sumVerdict i then some ⟨0x04, 0⟩
  else if i.isMX && decide (v.sp.mask ≠ v.g.live) then some ⟨0x06, 0⟩
  else match (v.uses i).findSome? (v.unsync i) with
    | some n => some ⟨0x07, BitVec.ofNat 64 n⟩
    | none => none

/-- The group and split as an instruction issues: it counts as an issue, and a closing instruction closes the rewind
window, whatever its guard selects (R150, R160, R247). -/
def State.begin (s : State) (v : View) (i : Instr) : State :=
  s.modGroup v.gid (fun g =>
    { g with seq := g.seq + 1 }.setSplit v.sid
      { v.sp with lastIssue := g.seq + 1, mustIssue := false, window := if i.closes then none else v.sp.window })

/-- Issuing an instruction: its checks, and then its own effect (R91). `early` is a check of the second or third place
that a few instructions make of other lines. -/
def issueE (i : Instr) (s : State) (early : State → View → Option TrapInfo) (body : State → View → State) :
    Host.Outcome State Fault Refusal :=
  match s.view? with
  | none => .fault .noIssuer
  | some v =>
    match (match early s v with
      | some t => some t
      | none => v.precheck i) with
    | some t => .next (s.trapSplit v t)
    | none =>
      let s1 := s.begin v i
      match s1.view? with
      | some v1 => .next (body s1 v1)
      | none => .next s1

/-- Issuing an instruction without a check of its own before those of R91's third place. -/
def issue (i : Instr) (s : State) (body : State → View → State) : Host.Outcome State Fault Refusal :=
  issueE i s (fun _ _ => none) body

/-- A device step: it changes the state when it is due and leaves it otherwise. -/
def event (s : State) (body : State → Option State) : Host.Outcome State Fault Refusal := .next ((body s).getD s)

end Sys2Proof.Machine
end

