-- ==== Sys2Proof/Machine/Flags.lean ====
section
/-! DEFINITION. The flag computations and lane-wise shapes that the vector families share: which lanes compute, what an
element's flags are, and how both enter the state (spec 03_numbers R49, R60-R63, 14_isa_vector R293). -/
namespace Sys2Proof.Machine

/-- The writes and flags of the participating lanes, gathered (R293). -/
def gather (p : LaneMask) (f : Nat → RegWrites × FFlags) : RegWrites × FFlags :=
  (maskLanes p).foldr (fun l acc => ((f l).1 ++ acc.1, (f l).2 ||| acc.2)) ([], 0)

/-- A register-only instruction: each participating lane computes from the registers as they stood, then all write. -/
def alu (i : Instr) (h : Hdr) (s : State) (f : Group → Nat → RegWrites × FFlags) :
    Host.Outcome State Fault Refusal :=
  issue i s (fun t v => let r := gather (v.part h) (f v.g); t.finish v r.1 r.2)

/-- A long-latency register-only instruction (R295). -/
def aluLong (i : Instr) (h : Hdr) (s : State) (f : View → Nat → RegWrites × FFlags) :
    Host.Outcome State Fault Refusal :=
  issue i s (fun t v => let r := gather (v.part h) (f v); t.deferRegs v h.sflag r.1 r.2)

/-- An integer operation on two sources of the type, wrapped into the type (R49, R298). -/
def int2 (ty : ElemTy) (d a b : Nat) (op : Int → Int → Int) (g : Group) (l : Nat) : RegWrites × FFlags :=
  (writesT ty l d (ty.ofInt (op (ty.toInt (g.rdT ty a l)) (ty.toInt (g.rdT ty b l)))), 0)

/-- An integer operation on one source of the type. -/
def int1 (ty : ElemTy) (d a : Nat) (op : Int → Int) (g : Group) (l : Nat) : RegWrites × FFlags :=
  (writesT ty l d (ty.ofInt (op (ty.toInt (g.rdT ty a l)))), 0)

/-- A saturating operation on two sources: clamped to the type, isat when the exact result lay outside (R300). -/
def sat2 (ty : ElemTy) (d a b : Nat) (op : Int → Int → Int) (g : Group) (l : Nat) : RegWrites × FFlags :=
  let r := ty.clampInt (op (ty.toInt (g.rdT ty a l)) (ty.toInt (g.rdT ty b l)))
  (writesT ty l d (ty.ofInt r.1), r.2)

/-- An operation on the bits of two sources of the type; the result is taken modulo 2 to the width. -/
def bits2 (ty : ElemTy) (d a b : Nat) (op : Nat → Nat → Nat) (g : Group) (l : Nat) : RegWrites × FFlags :=
  (writesT ty l d (op (g.rdT ty a l) (g.rdT ty b l) % 2 ^ ty.width), 0)

/-- An operation on the bits of one source of the type. -/
def bits1 (ty : ElemTy) (d a : Nat) (op : Nat → Nat) (g : Group) (l : Nat) : RegWrites × FFlags :=
  (writesT ty l d (op (g.rdT ty a l) % 2 ^ ty.width), 0)

/-- An operation on the bits of a source and a 32-bit count. -/
def bitsN (ty : ElemTy) (d a b : Nat) (op : Nat → Nat → Nat) (g : Group) (l : Nat) : RegWrites × FFlags :=
  (writesT ty l d (op (g.rdT ty a l) (g.rd b l).toNat % 2 ^ ty.width), 0)

/-- A count or a test of one source of the type, written as one 32-bit register. -/
def count1 (ty : ElemTy) (d a : Nat) (op : Nat → Nat) (g : Group) (l : Nat) : RegWrites × FFlags :=
  (writesN l d 1 (op (g.rdT ty a l)), 0)

/-! Float shapes. -/

/-- A float operation on the encodings of one element: result bits and flags. -/
abbrev FloatOp := List Nat → Nat × FFlags

/-- An operation applied to a scalar, or to each half of a packed pair with the halves' flags combined (R52). -/
def perHalf (ty : ElemTy) (op : FloatOp) (xs : List Nat) : Nat × FFlags :=
  if ty.packed then
    let lo := op (xs.map (· % 2 ^ 16))
    let hi := op (xs.map (· / 2 ^ 16 % 2 ^ 16))
    (lo.1 + 2 ^ 16 * hi.1, lo.2 ||| hi.2)
  else op (xs.map (· % 2 ^ ty.width))

/-- A float operation on sources of the type. -/
def floatN (ty : ElemTy) (d : Nat) (srcs : List Nat) (op : FloatOp) (g : Group) (l : Nat) : RegWrites × FFlags :=
  let r := perHalf ty op (srcs.map (fun a => g.rdT ty a l))
  (writesT ty l d r.1, r.2)

/-- An exact two-operand operation rounded once (R50, R51). -/
def round2 (f : Fmt) (rm : Rnd) (op : FV → FV → FV × FFlags) : FloatOp := fun xs =>
  let r := op (f.decode (xs.getD 0 0)) (f.decode (xs.getD 1 0))
  let q := f.round rm false r.1
  (q.1, r.2 ||| q.2)

/-- The fused operation rounded once (R50). -/
def round3 (f : Fmt) (rm : Rnd) : FloatOp := fun xs =>
  let r := FV.fma rm (f.decode (xs.getD 0 0)) (f.decode (xs.getD 1 0)) (f.decode (xs.getD 2 0))
  let q := f.round rm false r.1
  (q.1, r.2 ||| q.2)

/-- A picked operand, canonical when it is NaN (R52). -/
def pickF (f : Fmt) (pick : FV → FV → Option Bool) : FloatOp := fun xs =>
  let x := xs.getD 0 0
  let y := xs.getD 1 0
  let a := f.decode x
  let b := f.decode y
  ((match pick a b with
    | none => f.encNaN
    | some false => x
    | some true => y), flagIf (a.sig || b.sig) fInv)

/-- An operation on the sign or bits of one operand; a NaN gives the canonical NaN (R305). -/
def signF (f : Fmt) (op : Nat → Nat) : FloatOp := fun xs =>
  let x := xs.getD 0 0
  let a := f.decode x
  if a.isNaN then (f.encNaN, flagIf a.sig fInv) else (op x, 0)

end Sys2Proof.Machine
end

