-- ==== Sys2Proof/Machine/Convert.lean ====
section
/-! DEFINITION. The conversions `cvt`, `pack` and `unpack`, opcodes 0x0C0-0x0C2 (spec 03_numbers R53-R57, 14_isa_vector
R307-R309). -/
namespace Sys2Proof.Machine

/-- One side of a conversion with its record resolved: an element type or a narrow format. -/
inductive ConvSide where
  | el (t : ElemTy)
  | q (r : QRec)
  deriving DecidableEq, Repr

/-- A record named as an immediate or read from a register in a lane. -/
def recBits (g : Group) (l : Nat) : ConvTy → Option Nat
  | .el _ => none
  | .qImm r => some r
  | .qReg r => some (g.rd r l).toNat

/-- The record of a conversion over its lanes, as each lane reads it (R55). -/
def recsOf (g : Group) (ls : List Nat) (dt st : ConvTy) : List (Nat × Nat) :=
  ls.filterMap (fun l => match recBits g l dt, recBits g l st with
    | some r, _ => some (l, r)
    | none, some r => some (l, r)
    | none, none => none)

/-- Do the lanes' records agree on one valid record with no upper bits (R55). No lane at all is no breach. -/
def recsOk (rs : List (Nat × Nat)) : Bool :=
  rs.all (fun e => decide (e.2 < 2 ^ 16) && (QRec.of e.2).valid && decide (e.2 = (rs.headD (0, 0)).2))

/-- A side with its record resolved. -/
def ConvSide.of (r : Nat) : ConvTy → ConvSide
  | .el t => .el t
  | _ => .q (QRec.of r)

/-- Element width in bits of one side (R47, R54). -/
def ConvSide.width : ConvSide → Nat
  | .el t => t.width
  | .q r => r.w

/-- One element converted: R53 for the types of R47, R57 into and R56 from a narrow format (R308). -/
def convert (dt st : ConvSide) (rm : Rnd) (sat : Bool) (x : Nat) : Nat × FFlags :=
  match dt, st with
  | .el d, .el t =>
    if t.isFloat then
      let v := t.fmt.decode (x % 2 ^ t.width)
      if d.isFloat then
        let r := d.fmt.round rm sat v
        (r.1, flagIf v.sig fInv ||| r.2)
      else
        let r := floatToInt d rm sat v
        (d.ofInt r.1, r.2)
    else if d.isFloat then d.fmt.round rm sat (FV.fromInt (t.toInt x))
    else
      let r := intToInt d sat (t.toInt x)
      (d.ofInt r.1, r.2)
  | .q r, .el t =>
    if t.isFloat then
      let v := t.fmt.decode (x % 2 ^ t.width)
      let q := r.round rm sat v
      (q.1, q.2)
    else r.round rm sat (FV.fromInt (t.toInt x))
  | .el d, .q r =>
    let v := r.decode (x % 2 ^ r.w)
    if d.isFloat then
      let q := d.fmt.round rm sat v
      (q.1, flagIf v.sig fInv ||| q.2)
    else
      let q := floatToInt d rm sat v
      (d.ofInt q.1, q.2)
  | .q _, .q _ => (0, 0)

/-- A conversion instruction: the record check of R55 in every active lane, and then the lanes' conversions (R308). -/
def convIssue (i : Instr) (h : Hdr) (dt st : ConvTy) (s : State)
    (f : ConvSide → ConvSide → Group → Nat → RegWrites × FFlags) : Host.Outcome State Fault Refusal :=
  issue i s (fun t v =>
    let rs := recsOf v.g (maskLanes (v.part h)) dt st
    if recsOk rs then
      let r := (rs.headD (0, 0)).2
      let w := gather (v.part h) (f (.of r dt) (.of r st) v.g)
      t.finish v w.1 w.2
    else t.trapNow v ⟨v.part h, 0x08, 0, v.sp.pc, rs.map (fun e => (e.1, BitVec.ofNat 64 e.2)), none⟩)

/-- Bits and registers of one side as `cvt` reads it: a narrow element takes one register. -/
def Group.rdSide (g : Group) (x : ConvSide) (r l : Nat) : Nat :=
  match x with
  | .el t => g.rdT t r l
  | .q _ => (g.rd r l).toNat

/-- The writes of one side's element. -/
def writesSide (x : ConvSide) (l r v : Nat) : RegWrites :=
  match x with
  | .el t => writesT t l r v
  | .q _ => writesN l r 1 v

/-- `cvt` (R308). -/
def execCvt (h : Hdr) (dt st : ConvTy) (rm : Rnd) (sat : Bool) (d a : Nat) (s : State) :
    Host.Outcome State Fault Refusal :=
  convIssue (.cvt h dt st rm sat d a) h dt st s (fun x y g l =>
    let r := convert x y rm sat (g.rdSide y a l)
    (writesSide x l d r.1, r.2))

/-- The elements of a packed side: width and count (R309). The element type of a packed pair is its half. -/
def ConvSide.packed : ConvSide → ConvSide × Nat × Nat
  | .el .f16x2 => (.el .f16, 16, 2)
  | .el .bf16x2 => (.el .bf16, 16, 2)
  | .el t => (.el t, t.width, 32 / t.width)
  | .q r => (.q r, r.w, 32 / r.w)

/-- `pack` (R309). -/
def execPack (h : Hdr) (dt st : ConvTy) (rm : Rnd) (sat : Bool) (d a : Nat) (s : State) :
    Host.Outcome State Fault Refusal :=
  convIssue (.pack h dt st rm sat d a) h dt st s (fun x y g l =>
    let (e, ew, k) := x.packed
    let rs := (List.range k).map (fun i => convert e y rm sat (g.rd (if a ≥ 384 then a else a + i) l).toNat)
    (writesN l d 1 (rs.foldr (fun r acc => r.1 % 2 ^ ew + 2 ^ ew * acc) 0), rs.foldr (fun r acc => r.2 ||| acc) 0))

/-- `unpack` (R309). -/
def execUnpack (h : Hdr) (dt st : ConvTy) (rm : Rnd) (sat : Bool) (d a : Nat) (s : State) :
    Host.Outcome State Fault Refusal :=
  convIssue (.unpack h dt st rm sat d a) h dt st s (fun x y g l =>
    let (e, ew, k) := y.packed
    let rs := (List.range k).map (fun i => convert x e rm sat ((g.rd a l).toNat / 2 ^ (ew * i) % 2 ^ ew))
    ((List.range k).flatMap (fun i => writesN l (if d ≥ 384 then d else d + i) 1 (rs.getD i (0, 0)).1),
      rs.foldr (fun r acc => r.2 ||| acc) 0))

end Sys2Proof.Machine
end

