-- ==== Sys2Proof/Machine/CrossLane.lean ====
section
/-! DEFINITION. The cross-lane and sticky-flag instructions, opcodes 0x0C3-0x0CB and 0x0D3-0x0D4 (spec 14_isa_vector
R310-R315), and the canonical tree of additions they share with the drain (03_numbers R64, R66). -/
namespace Sys2Proof.Machine

/-! Additions in a type. -/

/-- Addition of two values of a type, as their bits: integers wrap, floats round to nearest (R64). -/
def addT (ty : ElemTy) (x y : Nat) : Nat × FFlags :=
  if ty.isFloat then round2 ty.fmt .rne (FV.add .rne) [x, y] else ((x + y) % 2 ^ ty.width, 0)

/-- add2 of R64: an absent side leaves the other. -/
def add2 (ty : ElemTy) (x y : Option (Nat × FFlags)) : Option (Nat × FFlags) :=
  match x, y with
  | none, _ => y
  | _, none => x
  | some a, some b => let r := addT ty a.1 b.1; some (r.1, a.2 ||| b.2 ||| r.2)

/-- One level of the tree: neighbours combined (R64). -/
def pairUp (op : Option (Nat × FFlags) → Option (Nat × FFlags) → Option (Nat × FFlags)) :
    List (Option (Nat × FFlags)) → List (Option (Nat × FFlags))
  | x :: y :: rest => op x y :: pairUp op rest
  | [x] => [x]
  | [] => []

/-- Five levels over thirty-two positions (R64). -/
def tree32 (ty : ElemTy) (c : List (Option (Nat × FFlags))) : Option (Nat × FFlags) :=
  let p := pairUp (add2 ty)
  ((p (p (p (p (p c))))).headD none)

/-- Lane contributions by position, absent outside a mask. -/
def positions (m : LaneMask) (f : Nat → Nat) : List (Option (Nat × FFlags)) :=
  lanes.map (fun l => if m.getLsbD l then some (f l, 0) else none)

/-- How many lanes a mask has. -/
def maskCount (m : LaneMask) : Nat := (maskLanes m).length

/-- A float result formed from a single value: a NaN is canonical and a signalling one sets invalid (R66). -/
def loneF (ty : ElemTy) (x : Nat) : Nat × FFlags :=
  if ty.isFloat then
    let v := ty.fmt.decode x
    if v.isNaN then (ty.fmt.encNaN, flagIf v.sig fInv) else (x, 0)
  else (x, 0)

/-- One combining step of `redu` and `scan` other than the sum (R314). -/
def redStep (ty : ElemTy) (op : ReduOp) (x y : Nat) : Nat × FFlags :=
  match op with
  | .sum => addT ty x y
  | .min => if ty.isFloat then pickF ty.fmt FV.minPick [x, y] else (if ty.toInt x ≤ ty.toInt y then x else y, 0)
  | .max => if ty.isFloat then pickF ty.fmt FV.maxPick [x, y] else (if ty.toInt x ≤ ty.toInt y then y else x, 0)
  | .and => (x &&& y, 0)
  | .or => (x ||| y, 0)
  | .xor => (x ^^^ y, 0)

/-- The reduction over a mask (R66, R314). -/
def reduce (ty : ElemTy) (op : ReduOp) (m : LaneMask) (f : Nat → Nat) : Nat × FFlags :=
  if maskCount m = 1 then loneF ty (f (lowestLane m))
  else match op with
    | .sum => (tree32 ty (positions m f)).getD (0, 0)
    | _ => match maskLanes m with
      | [] => (0, 0)
      | l :: ls => ls.foldl (fun acc k => let r := redStep ty op acc.1 (f k); (r.1, acc.2 ||| r.2)) (f l, 0)

/-- `redu` (R314). -/
def execRedu (h : Hdr) (ty : ElemTy) (op : ReduOp) (d a : Nat) (s : State) : Host.Outcome State Fault Refusal :=
  issue (.redu h ty op d a) s (fun t v =>
    let p := v.part h
    let r := reduce ty op p (fun l => v.g.rdT ty a l)
    t.finish v ((maskLanes p).flatMap (fun l => writesT ty l d r.1)) (if p = 0 then 0 else r.2))

/-- The lanes of a mask at positions up to l. -/
def maskUpTo (m : LaneMask) (l : Nat) : LaneMask := maskOf (fun k => m.getLsbD k && decide (k ≤ l))

/-- `scan` (R314). -/
def execScan (h : Hdr) (ty : ElemTy) (op : ReduOp) (d a : Nat) (s : State) : Host.Outcome State Fault Refusal :=
  issue (.scan h ty op d a) s (fun t v =>
    let r := gather (v.part h) (fun l =>
      let x := reduce ty op (maskUpTo (v.part h) l) (fun k => v.g.rdT ty a k)
      (writesT ty l d x.1, x.2))
    t.finish v r.1 r.2)

/-- A shuffle: each lane takes the value of a source lane that participates, or keeps its own (R311). -/
def shuffle (i : Instr) (h : Hdr) (ty : ElemTy) (d a : Nat) (s : State) (src : Group → LaneMask → Nat → Int) :
    Host.Outcome State Fault Refusal :=
  issue i s (fun t v =>
    let p := v.part h
    let r := gather p (fun l =>
      let k := src v.g p l
      let j := if 0 ≤ k ∧ k ≤ 31 ∧ p.getLsbD k.toNat then k.toNat else l
      (writesT ty l d (v.g.rdT ty a j), 0))
    t.finish v r.1 r.2)

/-- `shuf` (R311). -/
def execShuf (h : Hdr) (ty : ElemTy) (d a b : Nat) (s : State) : Host.Outcome State Fault Refusal :=
  shuffle (.shuf h ty d a b) h ty d a s (fun g _ l => ((g.rd b l).toNat % 32 : Nat))

/-- `shufup` (R311). -/
def execShufup (h : Hdr) (ty : ElemTy) (d a b : Nat) (s : State) : Host.Outcome State Fault Refusal :=
  shuffle (.shufup h ty d a b) h ty d a s (fun g p l => (l : Int) - ((g.rd b (lowestLane p)).toNat % 64 : Nat))

/-- `shufdn` (R311). -/
def execShufdn (h : Hdr) (ty : ElemTy) (d a b : Nat) (s : State) : Host.Outcome State Fault Refusal :=
  shuffle (.shufdn h ty d a b) h ty d a s (fun g p l => (l : Int) + ((g.rd b (lowestLane p)).toNat % 64 : Nat))

/-- `shufx` (R311). -/
def execShufx (h : Hdr) (ty : ElemTy) (d a b : Nat) (s : State) : Host.Outcome State Fault Refusal :=
  shuffle (.shufx h ty d a b) h ty d a s (fun g p l => ((l ^^^ ((g.rd b (lowestLane p)).toNat % 32) : Nat) : Int))

/-- `bcast` (R311). -/
def execBcast (h : Hdr) (ty : ElemTy) (d a b : Nat) (s : State) : Host.Outcome State Fault Refusal :=
  shuffle (.bcast h ty d a b) h ty d a s (fun g p _ => ((g.rd b (lowestLane p)).toNat % 32 : Nat))

/-- The word that a lane selects from the window of `gsel`, or zero beyond it (R312). -/
def Group.windowWord (g : Group) (n a b l : Nat) : Nat :=
  let j := (g.rd b l).toNat
  if j < 32 * n then (g.rd (if a ≥ 384 then a else a + j / 32) (j % 32)).toNat else 0

/-- `gsel` (R312): a word of the window as the group's registers stand at issue. A register of the window that is pending in
any lane of the group traps the lanes that take part. -/
def execGsel (h : Hdr) (ty : ElemTy) (n d a b : Nat) (s : State) : Host.Outcome State Fault Refusal :=
  issue (.gsel h ty n d a b) s (fun s v =>
    let p := v.part h
    match v.g.pendingReg lanes (OpUse.run a n).regs with
    | some r => if p = 0 then s.retire v else (s.trapNow v (trapAll p 0x07 v.sp.pc (BitVec.ofNat 64 r))).retire v
    | none => s.finish v ((maskLanes p).flatMap (fun l => writesN l d 1 (v.g.windowWord n a b l))) 0)

/-- The result of a vote over a mask (R313). -/
def voteOf (op : VoteOp) (m : LaneMask) (f : Nat → Word) : Nat :=
  match op with
  | .any => b2n ((maskLanes m).any (fun l => decide (f l ≠ 0)))
  | .all => b2n ((maskLanes m).all (fun l => decide (f l ≠ 0)))
  | .ballot => (maskOf (fun l => m.getLsbD l && decide (f l ≠ 0))).toNat
  | .uni => b2n ((maskLanes m).all (fun l => decide (f l = f (lowestLane m))))

/-- `vote` (R313). -/
def execVote (h : Hdr) (op : VoteOp) (d a : Nat) (s : State) : Host.Outcome State Fault Refusal :=
  issue (.vote h op d a) s (fun t v =>
    let r := voteOf op (v.part h) (fun k => v.g.rd a k)
    t.finish v ((maskLanes (v.part h)).flatMap (fun l => writesN l d 1 r)) 0)

/-- The sticky word an instruction of a split reads: the group's, or its trap level's (R63). -/
def View.stickyWord (v : View) : Word :=
  match v.lid with
  | none => v.g.sticky
  | some n => ((fget v.g.levels n).map (·.hflags)).getD 0

/-- `fflg` (R315). -/
def execFflg (h : Hdr) (d : Nat) (s : State) : Host.Outcome State Fault Refusal :=
  issue (.fflg h d) s (fun t v =>
    t.finish v ((maskLanes (v.part h)).flatMap (fun l => writesN l d 1 v.stickyWord.toNat)) 0)

/-- `fclr` (R315). -/
def execFclr (h : Hdr) (a : Nat) (s : State) : Host.Outcome State Fault Refusal :=
  issue (.fclr h a) s (fun t v =>
    if v.part h = 0 then t.retire v
    else (t.modGroup v.gid (fun g => g.stickyEvent v.lid
      ⟨v.sid, g.seq, false, v.g.rd a (lowestLane (v.part h)) &&& 0x7F#32⟩)).retire v)

end Sys2Proof.Machine
end

