-- ==== Sys2Proof/Machine/Resolve.lean ====
section
/-! DEFINITION. What the contributions of one domain interval do to the cells they meet: conflicts, collisions, the write
rules, verdicts, and the traps and late errors that follow (spec 09_step R195-R201, 03_numbers R64, R65,
11_traps R245, 15_isa_memory R338-R340). -/
namespace Sys2Proof

/-- Rules whose unit is the whole aligned span (R197). -/
def Rule.arith : Rule → Bool
  | .sumI | .sumF | .cap | .maxI | .maxN | .maxF | .minI | .minN | .minF => true
  | _ => false

end Sys2Proof

namespace Sys2Proof.Machine

/-! Writers and cells. -/

/-- A writer key as one number: team, lanes before engine operations, then the writer (R7, R195). -/
def Contrib.wkey (c : Contrib) : Nat :=
  c.flat * 2 ^ 72 + (match c.writer with
    | .lane g l => g * 32 + l
    | .engine n => 2 ^ 64 + n)

/-- Before another contribution in writer-key order. -/
def Contrib.before (a b : Contrib) : Bool := decide (a.wkey < b.wkey) || (decide (a.wkey = b.wkey) && decide (a.ord < b.ord))

/-- A contribution put in writer-key order. -/
def insC (c : Contrib) : List Contrib → List Contrib
  | [] => [c]
  | d :: ds => if c.before d then c :: d :: ds else d :: insC c ds

/-- Contributions in writer-key order. -/
def sortC (cs : List Contrib) : List Contrib := cs.foldl (fun acc c => insC c acc) []

/-- Is a contribution an engine operation's. -/
def Contrib.isEngine (c : Contrib) : Bool :=
  match c.writer with
  | .engine _ => true
  | .lane _ _ => false

/-- The 4-byte storage cell that holds a byte (R197). -/
def Loc.cell : Loc → Loc
  | .dram a => .dram (a / 4 * 4)
  | .spad t a => .spad t (a / 4 * 4)
  | .peer a => .peer (a / 4 * 4)
  | .host a => .host (a / 4 * 4)

/-- Is a location beyond the device. -/
def Loc.remote : Loc → Bool
  | .peer _ | .host _ => true
  | _ => false

/-- The bytes of a contribution. -/
def Contrib.locs (c : Contrib) : List Loc := c.bytes.map (·.1)

/-- The cells of a contribution. -/
def Contrib.cells (c : Contrib) : List Loc := distinct (c.locs.map Loc.cell)

/-- The type that an arithmetic rule works in, by width (R81, R196). -/
def ruleTy (r : Rule) (w : Width) : ElemTy :=
  let wide := decide (w = .b64)
  match r with
  | .sumF | .maxF | .minF => if wide then .f64 else .f32
  | .maxI | .minI => if wide then .i64 else .i32
  | _ => if wide then .n64 else .n32

/-- The value of a contribution, its bytes low first. -/
def Contrib.value (c : Contrib) : Nat := leNat (c.bytes.map (·.2))

/-- The byte of a contribution at a location. -/
def Contrib.at (c : Contrib) (l : Loc) : Byte := ((c.bytes.find? (fun e => decide (e.1 = l))).map (·.2)).getD 0

/-- The address, as its writer named it, of the lowest byte of a contribution's cell (R200). -/
def Contrib.cellAddr (c : Contrib) (cell : Loc) : Dword :=
  let o := (c.locs.findIdx? (fun l => decide (l.cell = cell))).getD 0
  BitVec.ofNat 64 ((c.ea.toNat + o) / 4 * 4)

/-- Two mentions of one contribution. -/
def Contrib.same (a b : Contrib) : Bool := decide (a.wkey = b.wkey) && decide (a.ord = b.ord)

/-! Conflicts and collisions (R196, R197). -/

/-- The conflict of the contributions to one cell, if any. -/
def conflictAt (cs : List Contrib) (cell : Loc) : Option Nat :=
  let mine := cs.filter (fun c => c.cells.contains cell)
  match mine with
  | [] => none
  | c0 :: _ =>
    if mine.any (fun c => decide (c.rule ≠ c0.rule)) then some 0x31
    else if c0.rule.arith && mine.any (fun c => decide (c.width ≠ c0.width) || decide (c.cells ≠ c0.cells)) then some 0x32
    else none

/-- Does a byte under `.fault` have two writers. -/
def collides (cs : List Contrib) (l : Loc) : Bool :=
  let mine := cs.filter (fun c => decide (c.rule = .fault) && c.locs.contains l)
  match mine with
  | [] => false
  | c0 :: _ => mine.any (fun c => decide (c.wkey ≠ c0.wkey))

/-- What stops the landing at a cell: a conflict, or a collision in one of its bytes. -/
structure Stopped where
  cell : Loc
  code : Nat
  deriving DecidableEq, Repr

/-- Conflicted cells and cells with a collision, in the order in which cells appear. -/
def stopped (cs : List Contrib) : List Stopped :=
  (distinct (cs.flatMap Contrib.cells)).filterMap (fun cell =>
    match conflictAt cs cell with
    | some k => some ⟨cell, k⟩
    | none =>
      if cs.any (fun c => c.locs.any (fun l => decide (l.cell = cell) && collides cs l)) then some ⟨cell, 0x30⟩ else none)

/-- Is a byte of a contribution dropped: its cell is lost or in conflict, an arithmetic unit overlaps such a cell, or the
byte collides. -/
def droppedAt (st : List Stopped) (lost : List Loc) (cs : List Contrib) (c : Contrib) (l : Loc) : Bool :=
  let dead (cell : Loc) : Bool := lost.contains cell || st.any (fun x => decide (x.cell = cell) && decide (x.code ≠ 0x30))
  (if c.rule.arith then c.cells.any dead else dead l.cell) || (decide (c.rule = .fault) && collides cs l)

/-- Does a contribution keep every byte it covers. -/
def wholeKept (st : List Stopped) (lost : List Loc) (cs : List Contrib) (c : Contrib) : Bool :=
  c.locs.all (fun l => !droppedAt st lost cs c l)

/-! The rules. -/

/-- The contribution of each writer that stands at a byte: its last in program order (R195). -/
def standing : List Contrib → List Contrib
  | [] => []
  | [c] => [c]
  | c :: d :: cs => if c.wkey = d.wkey then standing (d :: cs) else c :: standing (d :: cs)

/-- The contribution that wins a byte under `.low`, `.any` or `.fault` (R196): `pick` is the free choice of `.any`. Any writer may
win, as R371 has it too, though a row of R372 shuts one out there: DEDUCED (log 65). -/
def winner (det : Bool) (pick : Nat) (cs : List Contrib) : Option Contrib :=
  let st := standing cs
  match st with
  | [] => none
  | c :: _ => if !det && decide (c.rule = .any) then st[pick % st.length]? else some c

/-- Two values combined under `.or`, `.and`, `.max` or `.min`. -/
def combine (r : Rule) (w : Width) (x y : Nat) : Nat :=
  let ty := ruleTy r w
  match r with
  | .or => x ||| y
  | .and => x &&& y
  | .maxI | .maxN | .maxF => (redStep ty .max x y).1
  | _ => (redStep ty .min x y).1

/-- The leaf of one lane or one operation: its contributions added in program order (R64, R195). -/
def leaf (ty : ElemTy) (cs : List Contrib) : Option (Nat × FFlags) :=
  cs.foldl (fun acc c => add2 ty acc (some (c.value, 0))) none

/-- The subtotal of one team: its groups' trees folded in group order, then its operations (R64). -/
def teamSum (ty : ElemTy) (cs : List Contrib) : Option (Nat × FFlags) :=
  let gs := distinct (cs.filterMap (fun c => match c.writer with
    | .lane g _ => some g
    | .engine _ => none))
  let es := distinct (cs.filterMap (fun c => match c.writer with
    | .lane _ _ => none
    | .engine n => some n))
  let tree (g : Nat) := tree32 ty (lanes.map (fun l => leaf ty (cs.filter (fun c => decide (c.writer = .lane g l)))))
  let a := gs.foldl (fun acc g => add2 ty acc (tree g)) none
  es.foldl (fun acc n => add2 ty acc (leaf ty (cs.filter (fun c => decide (c.writer = .engine n))))) a

/-- A list in an order drawn by free choices: each in turn from those left (R65). -/
def shuffled {α : Type} (draw : Nat → Nat) : Nat → Nat → List α → List α
  | 0, _, xs => xs
  | n + 1, i, xs =>
    match xs with
    | [] => []
    | x :: _ =>
      let k := draw i % xs.length
      (xs[k]?).getD x :: shuffled draw n (i + 1) (xs.eraseIdx k)

/-- canonical_sum of R64 on one unit, in sorted contributions; `order` puts the teams in their order (R65). -/
def canonicalSum (ty : ElemTy) (order : List Nat → List Nat) (old : Nat) (cs : List Contrib) : Nat :=
  (order (distinct (cs.map (·.flat)))).foldl (fun acc f =>
    match teamSum ty (cs.filter (fun c => decide (c.flat = f))) with
    | some s => (addT ty acc s.1).1
    | none => acc) old

/-- `.cap` (R196): the running value and what each contribution meets: the value before it, or rejection. -/
def capRun : Nat → List Contrib → Nat × List (Contrib × Option Nat)
  | run, [] => (run, [])
  | run, c :: cs =>
    let ok := decide (run + c.value ≤ c.cap.toNat)
    let r := capRun (if ok then run + c.value else run) cs
    (r.1, (c, if ok then some run else none) :: r.2)

/-! A whole landing. -/

/-- What a landing does: bytes to be written with the IPA page of each, verdicts by contribution, and the stopped cells. -/
structure Resolved where
  writes : List (Nat × Loc × Byte)
  verdicts : List (Contrib × Nat)
  stops : List Stopped
  deriving DecidableEq, Repr

/-- Everything a landing is resolved from: determinism, the old bytes of the locations it covers, the first free choice,
the cells that are lost. -/
structure Landscape where
  det : Bool
  olds : List (Loc × Byte)
  base : Nat
  lost : List Loc
  deriving DecidableEq, Repr

/-- The old byte of a location. -/
def Landscape.old (e : Landscape) (l : Loc) : Byte := ((e.olds.find? (fun x => decide (x.1 = l))).map (·.2)).getD 0

/-- The bytes that byte rules write, with the contribution that each write is said to come from. -/
def byteWrites (e : Landscape) (st : List Stopped) (cs : List Contrib) : List (Nat × Loc × Byte × Option Contrib) :=
  let bs := cs.filter (fun c => !c.rule.arith)
  let ls := distinct (bs.flatMap Contrib.locs)
  (List.range ls.length).filterMap (fun i =>
    match ls[i]? with
    | none => none
    | some l =>
      let mine := bs.filter (fun c => c.locs.contains l && !droppedAt st e.lost cs c l)
      match mine with
      | [] => none
      | c0 :: _ =>
        if c0.rule = .or ∨ c0.rule = .and then
          some (c0.ipn, l, BitVec.ofNat 8 (mine.foldl (fun v c => combine c0.rule .b32 v (c.at l).toNat) (e.old l).toNat), none)
        else match winner e.det (Config.freeChoice (e.base + i)) mine with
          | some c => some (c.ipn, l, c.at l, some c)
          | none => none)

/-- The arithmetic units that land: the locations of each with its contributions. -/
def unitsOf (e : Landscape) (st : List Stopped) (cs : List Contrib) : List (List Loc × List Contrib) :=
  let ars := cs.filter (fun c => c.rule.arith && wholeKept st e.lost cs c)
  (distinct (ars.map Contrib.locs)).map (fun u => (u, ars.filter (fun c => decide (c.locs = u))))

/-- The old value of a unit. -/
def Landscape.oldAt (e : Landscape) (u : List Loc) : Nat := leNat (u.map e.old)

/-- The new value of an arithmetic unit (R196). -/
def unitValue (e : Landscape) (u : List Loc) (cs : List Contrib) : Nat :=
  let old := e.oldAt u
  match cs with
  | [] => old
  | c0 :: _ =>
    let ty := ruleTy c0.rule c0.width
    let order (ts : List Nat) : List Nat :=
      if e.det ∨ c0.rule ≠ .sumF ∨ cs.any (fun c => c.v) then ts
      else shuffled (fun i => Config.freeChoice (e.base + i)) ts.length 0 ts
    match c0.rule with
    | .sumI | .sumF => canonicalSum ty order old cs
    | .cap => (capRun old cs).1
    | r => cs.foldl (fun v c => combine r c0.width v c.value) old

/-- Where the free choices of each unit begin: after as many as the units before it have contributions. -/
def unitBases : Nat → List (List Loc × List Contrib) → List (Nat × List Loc × List Contrib)
  | _, [] => []
  | n, u :: us => (n, u) :: unitBases (n + u.2.length) us

/-- The bytes that arithmetic units write. Every unit has free choices of its own, so that units
of one interval may see different arrival orders of their teams (R65). -/
def unitWrites (e : Landscape) (st : List Stopped) (cs : List Contrib) : List (Nat × Loc × Byte) :=
  (unitBases (e.base + (cs.map (fun c => c.bytes.length)).sum) (unitsOf e st cs)).flatMap (fun u =>
    let v := unitValue { e with base := u.1 } u.2.1 u.2.2
    let ipn := ((u.2.2.head?).map (·.ipn)).getD 0
    (List.range u.2.1.length).filterMap (fun i => (u.2.1[i]?).map (fun l => (ipn, l, BitVec.ofNat 8 (v / 256 ^ i)))))

/-- The verdict of one contribution (R199): zero when anything it covers was dropped. -/
def verdictOf (e : Landscape) (st : List Stopped) (cs : List Contrib) (bw : List (Nat × Loc × Byte × Option Contrib))
    (c : Contrib) : Nat :=
  if !wholeKept st e.lost cs c then 0
  else
    let lower := (cs.filter (fun d => d.before c && decide (d.rule = c.rule)))
    let unit := lower.filter (fun d => decide (d.locs = c.locs))
    let old := e.oldAt c.locs
    match c.rule with
    | .fault => 1
    | .low | .any =>
      if c.locs.all (fun l => bw.any (fun w => decide (w.2.1 = l) && (match w.2.2.2 with
        | some d => d.same c
        | none => false))) then 1 else 0
    | .sumI => unit.foldl (fun v d => (addT (ruleTy .sumI c.width) v d.value).1) old
    | .sumF => 0
    | .cap =>
      let run := (capRun old (cs.filter (fun d => decide (d.rule = .cap) && decide (d.locs = c.locs)))).2
      match run.find? (fun r => r.1.same c) with
      | some (_, some v) => v
      | _ => 0xFFFFFFFF
    | .or | .and => leNat (c.locs.map (fun l => BitVec.ofNat 8 ((lower.filter (fun d => d.locs.contains l)).foldl
        (fun v d => combine c.rule .b32 v (d.at l).toNat) (e.old l).toNat)))
    | r => unit.foldl (fun v d => combine r c.width v d.value) old

/-- The landing of the contributions of one domain interval (R196-R199). -/
def resolve (e : Landscape) (contribs : List Contrib) : Resolved :=
  let cs := sortC contribs
  let st := stopped cs
  let bw := byteWrites e st cs
  { writes := bw.map (fun w => (w.1, w.2.1, w.2.2.1)) ++ unitWrites e st cs
    verdicts := (cs.filter (fun c => c.v)).map (fun c => (c, verdictOf e st cs bw c))
    stops := st }

/-- How many free choices the resolution of some contributions may draw: one for each byte, and one for each team of each
unit. -/
def choices (cs : List Contrib) : Nat := (cs.map (fun c => c.bytes.length + 1)).sum

/-! Its effects on the state. -/

/-- Resolved bytes landed at their homes (R198, R269). -/
def State.landWrites (s : State) (c : Nat) (ws : List (Nat × Loc × Byte)) : State :=
  ws.foldl (fun t w => t.writeLoc c w.1 w.2.1 w.2.2) s

/-- The registers a verdict fills (R199). -/
def Contrib.verdictRegs (c : Contrib) : Nat :=
  match c.rule with
  | .low | .any | .fault | .cap => 1
  | _ => match c.width with
    | .b64 => 2
    | .b128 => 4
    | _ => 1

/-- The lane of a contribution within its group. -/
def Contrib.lane? (c : Contrib) : Option Nat :=
  match c.writer with
  | .lane _ l => some l
  | .engine _ => none

/-- Is the writer of a contribution a live lane. -/
def State.writerLive (s : State) (c : Contrib) : Bool :=
  match c.lane?, fget s.groups c.gid with
  | some l, some g => g.live.getLsbD l
  | _, _ => false

/-- The register writes of a verdict; that of an exited lane is discarded (R199). -/
def State.verdictWrites (s : State) (x : Contrib × Nat) : RegWrites :=
  match x.1.lane? with
  | some l => if s.writerLive x.1 then writesN l x.1.vreg x.1.verdictRegs x.2 else []
  | none => []

/-- A pending result completes: its registers and handle are written, its sticky flags enter, and flags clear (R62,
R162). Sticky flags of a handler belong to its own level. -/
def Group.complete (g : Group) (p : Pending) : Group :=
  let g1 := { g.apply p.writes with
    pend := g.pend.filter (fun q => decide (q.pid ≠ p.pid))
    heldSticky := if p.flags = 0 then g.heldSticky
      else g.heldSticky ++ [(⟨p.flag, p.lid, ⟨p.sid, p.seq, true, BitVec.setWidth 32 p.flags⟩⟩ : HeldFlags)] }
  g1.settle.wake

/-- The verdicts of a landing, entry by entry: each pending verdict of the landing's entries completes. -/
def State.landVerdicts (s : State) (vs : List (Contrib × Nat)) : State :=
  let es := distinct (vs.map (fun x => (x.1.gid, x.1.eseq)))
  es.foldl (fun t e =>
    t.modGroup e.1 (fun g => match g.pend.find? (fun p => decide (p.kind = .verdict) && decide (p.seq = e.2)) with
      | some p => g.complete { p with writes := (vs.filter (fun x => decide ((x.1.gid, x.1.eseq) = e))).flatMap t.verdictWrites }
      | none => g)) s

/-- A deferred trap put on a lane's list (R200). -/
def Group.owe (g : Group) (o : Owed) : Group := { g with owed := g.owed ++ [o] }

/-- The contributions that a stopped cell concerns. -/
def stopWriters (cs : List Contrib) (x : Stopped) : List Contrib :=
  cs.filter (fun c => c.cells.contains x.cell &&
    (if x.code = 0x30 then c.locs.any (fun l => decide (l.cell = x.cell) && collides cs l) else true))

/-- One trap for each live writer lane of a stopped cell (R200). -/
def State.owStop (s : State) (cs : List Contrib) (x : Stopped) : State :=
  let ws := (stopWriters cs x).filter (fun c => s.writerLive c)
  let once := ws.foldl (fun acc c => if acc.any (fun d => decide (d.wkey = c.wkey)) then acc else acc ++ [c]) ([] : List Contrib)
  once.foldl (fun t c => t.modGroup c.gid (fun g => g.owe
    ⟨(c.lane?).getD 0, x.code, 0, 0, 0, c.cellAddr x.cell, 4⟩)) s

/-- An address order of cells for what one lane takes of them (R200, R245). -/
def Loc.rank : Loc → Nat
  | .dram a => a
  | .spad _ a => a
  | .peer a => a
  | .host a => a

/-- A late error put in ascending cell address. -/
def insLate (x : Nat × Contrib × Nat) : List (Nat × Contrib × Nat) → List (Nat × Contrib × Nat)
  | [] => [x]
  | y :: ys => if x.1 < y.1 then x :: y :: ys else y :: insLate x ys

/-- A lost cell noted for a contribution: one error for each spoil entry and sub-cause, at its lowest lost cell (R245). -/
def noteLost (acc : List (Nat × Contrib × Nat)) (x : Nat × Contrib × Nat) : List (Nat × Contrib × Nat) :=
  let same (y : Nat × Contrib × Nat) : Bool :=
    decide (y.2.1.gid = x.2.1.gid) && decide (y.2.1.eseq = x.2.1.eseq) && decide (y.2.2 = x.2.2)
  if acc.any same then acc.map (fun y => if same y then (min x.1 y.1, y.2) else y) else acc ++ [x]

/-- The late errors of a landing in ascending cell address: for each spoil entry with lost cells their sub-cause, and for
each stopped cell that only exited lanes wrote, that of R240; with the lane contribution of least writer key. -/
def State.lateErrors (s : State) (cs : List Contrib) (lost : List (Loc × Nat)) (st : List Stopped) : List (Contrib × Nat) :=
  let dead := st.filterMap (fun x =>
    let ws := stopWriters cs x
    if ws.any (fun c => s.writerLive c) then none
    else (ws.find? (fun c => !c.isEngine)).map (fun c => (x.cell.rank, c, x.code - 0x2E)))
  let gone := (cs.filter (fun c => !c.isEngine)).foldl (fun acc c =>
    (lost.filter (fun x => c.cells.contains x.1)).foldl (fun acc x => noteLost acc (x.1.rank, c, x.2)) acc) []
  ((dead ++ gone).foldl (fun acc x => insLate x acc) []).map (·.2)

/-- The lowest live lane of a team, in ascending group index: group and lane (R245). -/
def State.teamLane (s : State) (tid : Nat) : Option (Nat × Nat) :=
  let gs := s.groups.filter (fun e => decide (e.2.tid = tid) && decide (e.2.live ≠ 0))
  let best := gs.foldl (fun (acc : Option (Nat × Group)) e => match acc with
    | some a => if e.2.idx < a.2.idx then some e else acc
    | none => some e) none
  best.map (fun e => (e.1, lowestLane e.2.live))

/-- A late drain error of a spoil entry of a group delivered once, to the first target that exists: the least of the entry's
writers that is live, a live lane of the group, one of the team, or the grid's completion record, which names the team's flat
index (R245). -/
def State.deliver (s : State) (gid : Nat) (g : Group) (writers : LaneMask) (o : Nat → Owed) (late : Nat → LateError) : State :=
  if writers &&& g.live ≠ 0 then s.setGroup gid (g.owe (o (lowestLane (writers &&& g.live))))
  else if g.live ≠ 0 then s.setGroup gid (g.owe (o (lowestLane g.live)))
  else match s.teamLane g.tid with
    | some (gid, l) => s.modGroup gid (fun h => h.owe (o l))
    | none => match fget s.teams g.tid with
      | some t => match fget s.grids t.grid with
        | some gr => if gr.late.isSome then s else s.setGrid t.grid { gr with late := some (late t.flat) }
        | none => s
      | none => s

/-- A late drain error of a landing delivered (R240, R245). -/
def State.deliverLate (s : State) (x : Contrib × Nat) : State :=
  let c := x.1
  match fget s.groups c.gid with
  | none => s
  | some g =>
    let e := g.spoil.find? (fun e => decide (e.seq = c.eseq))
    let pc := (e.map (·.pc)).getD 0
    let count := (e.map (·.count)).getD 0
    let scope := (e.map (fun y => y.scope.code)).getD 0
    let entryLanes := (e.map (fun y => maskOf (fun l => y.lanes.any (fun z => decide (z.lane = l))))).getD 0
    let lane := (c.lane?).getD 0
    let amask : Word := BitVec.ofNat 32 (g.idx * 2 ^ 16 + lane * 2 ^ 8 + scope)
    s.deliver c.gid g entryLanes (fun l => ⟨l, 0x41, x.2, count, amask, pc, 4⟩)
      (fun flat => ⟨pc.toNat, count.toNat, flat, g.idx, lane, scope⟩)

/-- Is an owed trap that of a collision or of a conflict (R200). -/
def Owed.ofCell (o : Owed) : Bool := decide (0x30 ≤ o.code) && decide (o.code ≤ 0x32)

/-- A deferred trap put among what is owed: a lane takes those that it owes in ascending cell address, whatever landing they
come from (R200), but none before an error of the lane that was found earlier (R245). -/
def insOwed (o : Owed) : List Owed → List Owed
  | [] => [o]
  | p :: ps =>
    if decide (p.lane = o.lane) && decide (o.tval.toNat < p.tval.toNat) &&
        (p :: ps).all (fun q => decide (q.lane ≠ o.lane) || q.ofCell) then o :: p :: ps
    else p :: insOwed o ps

/-- The collision and conflict traps of a landing join what the lanes of each group owe already. -/
def State.landStops (s : State) (cs : List Contrib) (st : List Stopped) : State :=
  let t := st.foldl (fun t x => t.owStop cs x) { s with groups := fmapV (fun _ g => { g with owed := [] }) s.groups }
  let before (n : Nat) : List Owed := ((fget s.groups n).map (·.owed)).getD []
  { t with groups := fmapV (fun n g => { g with owed := g.owed.foldl (fun acc o => insOwed o acc) (before n) }) t.groups }

/-- The counters of the engine operations among the writers of stopped cells note the collision (R339). -/
def State.landCol (s : State) (cs : List Contrib) (st : List Stopped) : State :=
  let es := distinct (st.flatMap (fun x => ((stopWriters cs x).filter Contrib.isEngine).map (fun c => (c.tid, c.eseq))))
  es.foldl (fun t e => t.modTeam e.1 (fun tm => match fget tm.cmds e.2 with
    | some cmd => { tm with ctrs := sset 0 tm.ctrs cmd.ctr (sget 0 tm.ctrs cmd.ctr ||| BitVec.ofNat 34 (2 ^ 32)) }
    | none => tm)) s

/-- Contributions resolved over the memory of a context as it stands (R196). -/
def State.resolveNow (s : State) (c : Nat) (det : Bool) (base : Nat) (lost : List (Loc × Nat)) (cs : List Contrib) : Resolved :=
  resolve ⟨det, (distinct (cs.flatMap Contrib.locs)).map (fun l => (l, s.readLoc c l)), base, lost.map (·.1)⟩ cs

/-- A landing finished: the bytes of the cells not done before, verdicts, traps, counters' marks and late errors (R196-R201,
R245). The verdict of a cell sent out before is 0 if the cell was refused or lost since (R199, R282). -/
def State.landRest (s : State) (c : Nat) (det : Bool) (base : Nat) (lost : List (Loc × Nat)) (done : List Loc)
    (verdicts : List (Contrib × Nat)) (contribs : List Contrib) : State :=
  let cs := sortC contribs
  let r := s.resolveNow c det base lost (cs.filter (fun x => !x.cells.any done.contains))
  let stops := stopped cs
  let late := s.lateErrors cs lost stops
  let gone := lost.map (·.1)
  let kept := verdicts.map (fun x => (x.1, if x.1.cells.any gone.contains then 0 else x.2))
  let s1 := (s.landWrites c r.writes).landVerdicts (kept ++ r.verdicts)
  let s2 := (s1.landStops cs stops).landCol cs stops
  late.foldl (fun t x => t.deliverLate x) s2

/-- A landing applied whole (R198, R201). -/
def State.land (s : State) (c : Nat) (det : Bool) (base : Nat) (lost : List (Loc × Nat)) (contribs : List Contrib) : State :=
  s.landRest c det base lost [] [] contribs

/-! What leaves the device (R281, R282, R286). -/

/-- The port that traffic for a peer cell leaves through: the first that is up from its own on (R281). -/
def State.peerPort (s : State) (ea : Nat) : Option Nat :=
  ((List.range 16).map (fun i => (bits ea 15 12 + i) % 16)).find? (fun p => match s.ports[p]? with
    | some x => x.up
    | none => false)

/-- The home of a cell (R193, R275, R281, R286). -/
def State.homeOf (s : State) : Loc → Home
  | .dram a => .slice (sliceOf a)
  | .spad t _ => .core (((fget s.teams t).map (·.core)).getD 0)
  | .peer a => .memDie (bits a 15 12 / 4)
  | .host _ => .fe

/-- Does a host cell hold the head of a context's system-call ring, whose writing is to raise an interrupt (R129, R130). -/
def Ctx.ringsHead (x : Ctx) (a : Nat) : Bool :=
  x.scsize.getLsbD 8 && decide (bits x.scsize.toNat 4 0 ≠ 0) && decide (a % 2 ^ 57 / 4 * 4 = bits x.scring.toNat 56 12 * 4096)

/-- One resolved cell of a context sent to its peer or to the host; without a port that is up it is lost at once (R281-R283,
R286). A write of the ring's head raises MSI-X vector 0 of the owning function where `ks_scsize` asks for it (R129). -/
def State.sendCell (s : State) (c : Nat) (src : SentBy) (cell : Loc) (bytes : WriteBytes) : State :=
  let msg := s.nextMsg
  let rec0 : SentWrite := { msg := msg, src := src, cell := cell, reply := none }
  let s1 := { s with nextMsg := msg + 1 }
  match cell with
  | .peer a => match s.peerPort a with
    | some port => { s1.send (.peerStore port (bits a 56 47) (a / 2 ^ 57) (a % 2 ^ 47) bytes msg) with sentw := s1.sentw ++ [rec0] }
    | none => { s1 with sentw := s1.sentw ++ [{ rec0 with reply := some false }] }
  | .host a =>
    let s2 := { s1.send (.hostStore a bytes msg) with sentw := s1.sentw ++ [rec0] }
    if (s.ctx c).ringsHead a then s2.send (.msix (s.ctx c).fn 0) else s2
  | _ => s

/-- The bytes of a location's cell are named by their place in it. -/
def Loc.inCell : Loc → Nat
  | .dram a => a % 4
  | .spad _ a => a % 4
  | .peer a => a % 4
  | .host a => a % 4

/-- The resolved writes of a context to peer and host cells sent out, each cell for its sender (R282, R286). -/
def State.sendAll (s : State) (c : Nat) (src : Loc → SentBy) (ws : List (Nat × Loc × Byte)) : State :=
  let far := ws.filter (fun w => w.2.1.remote)
  (distinct (far.map (fun w => w.2.1.cell))).foldl (fun t cell =>
    t.sendCell c (src cell) cell ((far.filter (fun w => decide (w.2.1.cell = cell))).map (fun w => (w.2.1.inCell, w.2.2)))) s

/-! Cells that are updated before the boundary has landed (R187, R198). -/

/-- Cells with those that some contribution covers together with one of them. -/
def spread (cs : List Contrib) (cells : List Loc) : List Loc :=
  distinct (cells ++ (cs.filter (fun c => c.cells.any cells.contains)).flatMap Contrib.cells)

/-- The cells that are updated together with one: those reached from it by contributions, n steps at most. -/
def together (cs : List Contrib) : Nat → List Loc → List Loc
  | 0, cells => cells
  | n + 1, cells => together cs n (spread cs cells)

/-- May some cells be updated now: all parts for them are applied, none of them is done, and no engine operation writes one,
whose writes land with its counter as one update (R228). -/
def Landing.whole (l : Landing) (cells : List Loc) : Bool :=
  cells.all (fun x => !l.done.contains x) &&
  l.parts.all (fun q => decide (q.2.stage = .applied) || !cells.contains q.2.cell) &&
  l.contribs.all (fun x => !x.isEngine || !x.cells.any cells.contains)

/-- Where the free choices of the cells updated together begin: each has room of its own, by the place of its first
contribution; those that land last have it after all others. -/
def Landing.baseOf (l : Landing) (k : Nat) : Nat := l.base + k * choices l.contribs

/-- One cell of a landing, with those that go with it, updated at its home once all parts for them are applied: one
indivisible update (R187, R198, R204). A cell of a peer or of the host is resolved there and sent out (R193, R282, R286). -/
def State.landCell (s : State) (c : Nat) (det : Bool) (l : Landing) (cell : Loc) : State × Landing :=
  let cells := together l.contribs l.contribs.length [cell]
  let mine := fun (x : Contrib) => x.cells.any cells.contains
  if l.whole cells then
    let r := s.resolveNow c det (l.baseOf ((l.contribs.findIdx? mine).getD 0)) l.late (l.contribs.filter mine)
    ((s.landWrites c r.writes).sendAll c (fun _ => .boundary l.dom l.b) r.writes,
      { l with done := l.done ++ cells, verdicts := l.verdicts ++ r.verdicts })
  else (s, l)

/-- Every cell of a landing that may be updated now. -/
def State.landCells (s : State) (c : Nat) (det : Bool) (l : Landing) : State × Landing :=
  (distinct (l.parts.map (fun q => q.2.cell))).foldl (fun (x : State × Landing) cell => x.1.landCell c det x.2 cell) (s, l)

end Sys2Proof.Machine
end

