-- ==== Sys2Proof/Machine/StepStore.lean ====
section
/-! DEFINITION. The step and the step stores, opcodes 0x011-0x014, 0x103, 0x104 (spec 09_step R182-R184, R193-R201,
R210-R215). -/
namespace Sys2Proof.Machine

/-! The step class (R210). -/

/-- Does the grid's residency admit a scope (R184). -/
def scopeOk (residency : Nat) : Scope → Bool
  | .t => true
  | .d => decide (residency ≥ 2)
  | .g => decide (residency = 3)

/-- The counts raised by n at a scope and every narrower one (R183); an arrival by a blank step is that of the step now. -/
def Split.raise (sp : Split) (x : Scope) (n : Word) : Split :=
  match x with
  | .t => { sp with ct := sp.ct + n, blank := { sp.blank with t := 0 } }
  | .d => { sp with ct := sp.ct + n, cd := sp.cd + n, blank := { sp.blank with t := 0, d := 0 } }
  | .g => { sp with ct := sp.ct + n, cd := sp.cd + n, cg := sp.cg + n, blank := .none }

/-- The count at a scope (R182). -/
def Split.count (sp : Split) : Scope → Word
  | .t => sp.ct
  | .d => sp.cd
  | .g => sp.cg

/-- The traps of the step class in their order (R210). -/
def stepTrap (v : View) (x : Scope) (n : Nat) : Option TrapInfo :=
  if v.sp.tdepth > 0 then some ⟨0x19, 0⟩
  else if !scopeOk v.gr.residency x then some ⟨0x18, 0⟩
  else if n ≥ 2 ^ 31 then some ⟨0x1A, 0⟩
  else none

/-- step_class of R210: n steps at a scope, and then the wait `after` makes. -/
def stepClass (i : Instr) (x : Scope) (n : View → Nat) (after : Split → Split) (s : State) :
    Host.Outcome State Fault Refusal :=
  issue i s (fun s v => match stepTrap v x (n v) with
    | some t => s.trapSplit v t
    | none =>
      if n v = 0 then s.retire v
      else s.modSplit v.gid v.sid (fun sp => after (sp.raise x (BitVec.ofNat 32 (n v)))))

/-- The wait at a boundary of a scope, past the instruction. -/
def atBoundary (x : Scope) (sp : Split) : Split := { sp.advance with st := .boundary x }

/-- `step` (R210). -/
def execStep (h : Hdr) (x : Scope) (s : State) : Host.Outcome State Fault Refusal :=
  stepClass (.step h x) x (fun _ => 1) (atBoundary x) s

/-- `stepn` (R210). -/
def execStepn (h : Hdr) (x : Scope) (n : Nat) (s : State) : Host.Outcome State Fault Refusal :=
  stepClass (.stepn h x n) x (fun _ => n) (atBoundary x) s

/-- `stepto` (R210): the steps that reach the count in the lowest lane. -/
def execStepto (h : Hdr) (x : Scope) (a : Nat) (s : State) : Host.Outcome State Fault Refusal :=
  stepClass (.stepto h x a) x (fun v => (v.g.rd a (lowestLane v.sp.mask) - v.sp.count x).toNat) (atBoundary x) s

/-- `yieldc` (R211): a step that parks at its own PC. -/
def execYieldc (h : Hdr) (x : Scope) (a ctr mask : Nat) (s : State) : Host.Outcome State Fault Refusal :=
  issue (.yieldc h x a ctr mask) s (fun s v => match stepTrap v x 1 with
    | some t => s.trapSplit v t
    | none => s.modSplit v.gid v.sid (fun sp =>
        { sp.raise x 1 with st := .parked x ctr (v.g.rd a (lowestLane v.sp.mask)) mask (sp.count x + 1) }))

/-! Effective addresses and per-lane accesses. -/

/-- The effective address of a lane (R216). -/
def View.ea (v : View) (m : FM) (index : Nat) (l : Nat) : Dword :=
  v.g.rd64 m.base l + BitVec.ofInt 64 ((v.g.rd index l).toInt * (2 ^ m.scale : Nat)) + BitVec.ofInt 64 m.disp

/-- The lanes whose access failed, with their traps. -/
def failed {α : Type} (rs : List (Nat × Except TrapInfo α)) : List (Nat × TrapInfo) :=
  rs.filterMap (fun r => match r.2 with
    | .error t => some (r.1, t)
    | .ok _ => none)

/-- The lanes whose access passed, with what it reaches. -/
def passed {α : Type} (rs : List (Nat × Except TrapInfo α)) : List (Nat × α) :=
  rs.filterMap (fun r => match r.2 with
    | .ok a => some (r.1, a)
    | .error _ => none)

/-- The translations of passed accesses cached. -/
def State.fillHits (s : State) (rs : List (Nat × Reach)) : State := s.fills (rs.filterMap (fun r => r.2.hit))

/-- The translations of checked reads cached, and their lines pending no more (R274). -/
def State.fillReads (s : State) (c : Nat) (rs : List (Nat × Reach)) : State :=
  (s.fillHits rs).readLocs c (rs.flatMap (fun r => r.2.locs))

/-! Step stores. -/

/-- The contributions of a spoil entry (R195). -/
def entryContribs (gid : Nat) (g : Group) (tm : Team) (e : Spoil) : List Contrib :=
  e.lanes.map (fun x =>
    { tid := g.tid, flat := tm.flat, writer := .lane g.idx x.lane, ord := e.seq, rule := e.rule, width := e.width,
      bytes := x.bytes, cap := x.cap, v := e.v, vreg := e.vreg, gid := gid, eseq := e.seq, ea := x.ea, ipn := x.ipn })

/-- The verdict registers of an entry, lane by lane. -/
def verdictPend (e : Spoil) : List (Nat × Nat) :=
  let n := match e.rule with
    | .low | .any | .fault | .cap => 1
    | _ => match e.width with
      | .b64 => 2
      | .b128 => 4
      | _ => 1
  if e.vreg ≥ 384 then [] else e.lanes.flatMap (fun x => (List.range n).map (fun i => (x.lane, e.vreg + i)))

/-- A step store of a handler split: it lands at once, and where it has cells beyond the device it retires, with its verdict,
when they are answered (R201, R282). -/
def State.landNow (s : State) (v : View) (e : Spoil) : State :=
  let cs := entryContribs v.gid v.g v.tm e
  let r := s.resolveNow v.c v.gr.det s.fresh [] cs
  let s1 := s.land v.c v.gr.det s.fresh [] cs
  let s2 := { s1 with fresh := s1.fresh + choices cs }
  let ws := r.verdicts.flatMap s.verdictWrites
  if r.writes.all (fun w => !w.2.1.remote) then (s2.modGroup v.gid (fun g => g.apply ws)).retire v
  else
    let writers (cell : Loc) : List Nat := (cs.filter (fun c => c.cells.contains cell)).filterMap Contrib.lane?
    (s2.defer v { Pending.blank 15 with
      kind := .sent (e.lanes.map (·.lane)), regs := if e.v then verdictPend e else [], writes := ws }).sendAll v.c
      (fun cell => .handler v.gid v.g.nextId (writers cell)) r.writes

/-- The entry of a step store takes effect: opened in the spoil buffer, with its verdict registers pending (R194, R213),
or landed at once for a handler split (R201). -/
def State.openEntry (s : State) (v : View) (e : Spoil) : State :=
  if v.sp.tdepth > 0 then s.landNow v e
  else
    let s1 := s.modGroup v.gid (fun g => { g with spoil := g.spoil ++ [e] })
    if e.v then s1.defer v { Pending.blank e.sflag with kind := .verdict, regs := verdictPend e } else s1.retire v

/-- The bytes that a lane stores, with the storage of each. -/
def storeBytes (r : Reach) (x : Nat) : List (Loc × Byte) := r.locs.zip (leBytes r.locs.length x)

/-- The lanes of a step store that passed their checks open an entry, or meet the spoil limit (R194). -/
def State.store (s : State) (v : View) (h : Hdr) (m : FM) (bad : List (Nat × TrapInfo))
    (hits : List (Nat × Dword × Reach)) (data cap : Nat → Nat) : State :=
  let full := decide (v.sp.tdepth = 0) && decide (v.g.spoil.length ≥ 64)
  let bad2 := if full then bad ++ hits.map (fun x => (x.1, (⟨0x1B, 0⟩ : TrapInfo))) else bad
  s.others v bad2 (fun t w =>
    if full ∨ hits = [] then t.retire w
    else
      let t1 := t.fills (hits.filterMap (fun x => x.2.2.hit))
      t1.openEntry w
        { seq := w.g.seq, sid := w.sid, pc := w.sp.pc, scope := m.scope, count := w.sp.count m.scope, rule := m.rule,
          width := m.width, v := m.v, sflag := h.sflag, vreg := if m.v then m.aux else 384,
          lanes := hits.map (fun x =>
            ⟨x.1, x.2.1, x.2.2.ipn, storeBytes x.2.2 (data x.1), BitVec.ofNat 32 (cap x.1)⟩) })

/-- The residency check of a step store; a handler's scope field is ignored (R184, R201). -/
def storeScopeOk (v : View) (m : FM) : Bool := decide (v.sp.tdepth > 0) || scopeOk v.gr.residency m.scope

/-- `sst` (R213). -/
def execSst (h : Hdr) (m : FM) (s : State) : Host.Outcome State Fault Refusal :=
  issue (.sst h m) s (fun s v =>
    let p := v.part h
    if p = 0 then s.retire v
    else if !storeScopeOk v m then s.trapSplit v ⟨0x18, 0⟩
    else
      let n := m.width.bytes
      let ea := v.ea m (if m.v then 384 else m.aux)
      let rs := (maskLanes p).map (fun l => (l, s.reach (v.who l) (.step m.scope m.rule) (ea l) n n))
      s.store v h m (failed rs) ((passed rs).map (fun r => (r.1, ea r.1, r.2)))
        (fun l => v.g.rdN m.data ((n + 3) / 4) l) (fun l => if m.rule = .cap then (v.g.rdN m.data 2 l) / 2 ^ 32 else 0))

/-- `sstl` (R214): one line for all lanes; its check is that of a 128-byte write. -/
def execSstl (h : Hdr) (m : FM) (s : State) : Host.Outcome State Fault Refusal :=
  issue (.sstl h m) s (fun s v =>
    let p := v.part h
    if p = 0 then s.retire v
    else if !storeScopeOk v m then s.trapSplit v ⟨0x18, 0⟩
    else
      let l0 := lowestLane p
      let line := v.ea m 384 l0
      match s.reach (v.who l0) (.step m.scope m.rule) line 128 128 with
      | .error t => s.trapNow v ⟨p, t.code, 0, v.sp.pc, (maskLanes p).map (fun l => (l, t.tval)), none⟩
      | .ok r => s.store v h m [] ((maskLanes p).map (fun l =>
            (l, line + BitVec.ofNat 64 (4 * l), { r with locs := (r.locs.drop (4 * l)).take 4 })))
          (fun l => (v.g.rd m.data l).toNat) (fun _ => 0))

end Sys2Proof.Machine
end

