-- ==== Sys2Proof/Machine/MemOps.lean ====
section
/-! DEFINITION. Loads, private stores and prefetch, opcodes 0x100, 0x101, 0x106, 0x107 (spec 15_isa_memory R326-R332,
13_link R281, R283, R288). -/
namespace Sys2Proof.Machine

/-- A failure put into the link error record: the first one's kind and PC, and the count (R288). -/
def noteLink (rec : Dword) (kind : Nat) (pc : Dword) : Dword :=
  let n := rec.toNat / 2 ^ 32
  let first := if n = 0 then kind * 2 ^ 28 + bits pc.toNat 31 4 else rec.toNat % 2 ^ 32
  BitVec.ofNat 64 (min (n + 1) (2 ^ 32 - 1) * 2 ^ 32 + first)

/-- A failure recorded against a context. -/
def State.linkFail (s : State) (c kind : Nat) (pc : Dword) : State :=
  s.setCtx c { s.ctx c with linkErr := noteLink (s.ctx c).linkErr kind pc }

/-- Does an access go beyond the device. -/
def Reach.remote (r : Reach) : Bool := r.locs.any Loc.remote

/-- The request of a lane's load that goes beyond the device (R281, R286); none when no port is up. -/
def State.askRemote (s : State) (v : View) (pid l : Nat) (r : Reach) : Option OutMsg :=
  match r.locs.head? with
  | some (.peer a) =>
    match s.peerPort a with
    | some port => some (.peerLoad port (bits a 56 47) (a / 2 ^ 57) (a % 2 ^ 47) r.locs.length v.gid pid l)
    | none => none
  | some (.host a) => some (.hostLoad a r.locs.length v.gid pid l)
  | _ => none

/-- The registers of a load's width. -/
def loadRegs (w : Width) : Nat := (w.bytes + 3) / 4

/-- A load's checked lanes: values of this device are read now and written when the unit completes; the others wait for
their replies, and a load that no port can carry writes zero (R283). A load into `vz` makes its requests too. `known` are lanes whose value needs no access. -/
def State.load (s : State) (v : View) (flag d : Nat) (w : Width) (hits : List (Nat × Reach)) (known : List (Nat × Nat)) :
    State :=
  let s1 := s.fillReads v.c hits
  let pid := v.g.nextId
  let far := hits.filter (fun x => x.2.remote)
  let out := far.filter (fun x => (s.askRemote v pid x.1 x.2).isSome)
  let lost := far.filter (fun x => (s.askRemote v pid x.1 x.2).isNone)
  let near := hits.filter (fun x => !x.2.remote)
  let ws := near.flatMap (fun x => writesN x.1 d (loadRegs w) (s.readReach v.c x.2)) ++
    lost.flatMap (fun x => writesN x.1 d (loadRegs w) 0) ++ known.flatMap (fun x => writesN x.1 d (loadRegs w) x.2)
  let regs := (hits.map (·.1) ++ known.map (·.1)).flatMap (fun l => (writesN l d (loadRegs w) 0).map (fun y => (y.1, y.2.1)))
  if regs = [] ∧ far = [] then s1.retire v
  else
    let s2 := s1.defer v { Pending.blank flag with
      kind := if out = [] then .unit else .remote (out.map (·.1)), regs := regs, writes := ws }
    let s3 := lost.foldl (fun t _ => t.linkFail v.c 2 v.sp.pc) s2
    (out.filterMap (fun x => s.askRemote v pid x.1 x.2)).foldl State.send s3

/-- `ld` (R329). -/
def execLd (h : Hdr) (m : FM) (s : State) : Host.Outcome State Fault Refusal :=
  issue (.ld h m) s (fun s v =>
    let n := m.width.bytes
    let rs := (maskLanes (v.part h)).map (fun l => (l, s.reach (v.who l) .load (v.ea m m.aux l) n n))
    s.others v (failed rs) (fun t w => t.load w h.sflag m.data m.width (passed rs) []))

/-- `ldl` (R330). -/
def execLdl (h : Hdr) (m : FM) (s : State) : Host.Outcome State Fault Refusal :=
  issue (.ldl h m) s (fun s v =>
    let p := v.part h
    if p = 0 then s.retire v
    else
      let l0 := lowestLane p
      match s.reach (v.who l0) .line (v.ea m 384 l0) 128 128 with
      | .error t => s.trapNow v ⟨p, t.code, 0, v.sp.pc, (maskLanes p).map (fun l => (l, t.tval)), none⟩
      | .ok r => s.load v h.sflag m.data .b32 ((maskLanes p).map (fun l =>
          (l, { r with locs := (r.locs.drop (4 * l)).take 4 }))) [])

/-- `pst` (R331): the surviving lanes write at retirement. -/
def execPst (h : Hdr) (m : FM) (s : State) : Host.Outcome State Fault Refusal :=
  issue (.pst h m) s (fun s v =>
    let n := m.width.bytes
    let rs := (maskLanes (v.part h)).map (fun l => (l, s.reach (v.who l) .pst (v.ea m m.aux l) n n))
    s.others v (failed rs) (fun t w =>
      let t1 := t.fillHits (passed rs)
      ((passed rs).foldl (fun u x => (u.writeLocs w.c x.2.ipn (storeBytes x.2 (v.g.rdN m.data ((n + 3) / 4) x.1))).markPriv
        ((x.2.priv).getD 0) n) t1).retire w))

/-- `prf` (R332): no architectural effect. -/
def execPrf (h : Hdr) (m : FM) (s : State) : Host.Outcome State Fault Refusal :=
  issue (.prf h m) s (fun s v => s.retire v)

end Sys2Proof.Machine
end

