-- ==== Sys2Proof/Machine/Engine.lean ====
section
/-! DEFINITION. Engine operations, completion counters and the tag table, opcodes 0x140-0x14B (spec 15_isa_memory
R333-R346, 10_memory R225-R228). -/
namespace Sys2Proof.Machine

/-! Byte ranges (R218, R227, R263, R337). -/

/-- A byte range cut at 4 KiB pages: address and length of each piece. -/
def pieces : Nat → Nat → Nat → List (Nat × Nat)
  | 0, _, _ => []
  | k + 1, a, n => if n = 0 then [] else
      let m := min n (4096 - a % 4096)
      (a, m) :: pieces k (a + m) (n - m)

/-- The bytes of checked pieces, each with its IPA page, and the translations used; or the first failure. -/
def State.reachPieces (s : State) (w : Who) (use : Use) (align : Nat) :
    List (Nat × Nat) → Except TrapInfo (List (Nat × Loc) × List TlbEntry)
  | [] => .ok ([], [])
  | (a, n) :: ps => match s.reach w use (BitVec.ofNat 64 a) n align with
    | .error t => .error t
    | .ok r => match s.reachPieces w use align ps with
      | .error t => .error t
      | .ok (ls, es) => .ok (r.locs.map (fun l => (r.ipn, l)) ++ ls, r.hit.toList ++ es)

/-- A whole range of n bytes aligned to a width: one piece in a scratchpad, page by page otherwise, so that a far range is
checked in every device that it runs into. -/
def State.reachRange (s : State) (w : Who) (use : Use) (ea : Dword) (n width : Nat) :
    Except TrapInfo (List (Nat × Loc) × List TlbEntry) :=
  let p := pathOf ea
  if p = 2 ∨ p = 3 then s.reachPieces w use width [(ea.toNat, n)]
  else s.reachPieces w use width (pieces (n / 4096 + 2) ea.toNat n)

/-- The rule units of one run: destination bytes with the source byte of each (R337, R338). -/
def runUnits (w : Nat) (dst : List (Nat × Loc)) (src : List (Nat × Loc)) : List EngUnit :=
  let ds := chunksOf w dst.length dst
  let ss := chunksOf w dst.length src
  (List.range ds.length).map (fun i =>
    let d := ds.getD i []
    ⟨((d.head?).map (·.1)).getD 0, d.map (·.2), (ss.getD i []).map (·.2)⟩)
where
  /-- A list cut into pieces of n, at most k of them. -/
  chunksOf (n : Nat) : Nat → List (Nat × Loc) → List (List (Nat × Loc))
    | 0, _ => []
    | k + 1, xs => match xs with
      | [] => []
      | _ => xs.take n :: chunksOf n k (xs.drop n)

/-- One run of an operation: destination, source if any, length. -/
structure Run where
  dst : Dword
  src : Option Dword
  len : Nat
  deriving DecidableEq, Repr

/-- Ranges checked in order: the bytes of each and the translations used, or the first failure. -/
def State.reachAll (s : State) (w : Who) (use : Use) (width : Nat) :
    List (Dword × Nat) → Except TrapInfo (List (List (Nat × Loc)) × List TlbEntry)
  | [] => .ok ([], [])
  | (a, n) :: rs => match s.reachRange w use a n width with
    | .error t => .error t
    | .ok (x, e1) => match s.reachAll w use width rs with
      | .error t => .error t
      | .ok (xs, e2) => .ok (x :: xs, e1 ++ e2)

/-- The units of checked runs and the translations used: the destination ranges of an operation come first, then its
source ranges (R337). -/
def State.reachRuns (s : State) (w : Who) (width : Nat) (rs : List Run) : Except TrapInfo (List EngUnit × List TlbEntry) :=
  match s.reachAll w .engDst width (rs.map (fun r => (r.dst, r.len))) with
  | .error t => .error t
  | .ok (ds, e1) => match s.reachAll w .engSrc width (rs.filterMap (fun r => r.src.map (fun a => (a, r.len)))) with
    | .error t => .error t
    | .ok (xs, e2) => .ok ((List.range ds.length).flatMap (fun i => runUnits width (ds.getD i []) (xs.getD i [])), e1 ++ e2)

/-! Command records (R334). -/

/-- A command record with nothing in it yet. -/
def blankCmd (kind : EngKind) (m : FM) (lane group : Nat) (pc : Dword) : Cmd :=
  { st := .running, kind := kind, ctr := (m.disp % 32).toNat, rule := m.rule, width := m.width, hint := m.hint, lane := lane,
    group := group, pc := pc, order := 0, count := 0, dst := 0, src := 0, n := 0, rows := 0, dstride := 0, sstride := 0,
    mask := 0, addrs := [], units := [], writes := [], err := false }

/-- The runs of a command record, from its own operands (R337). -/
def Cmd.runs (c : Cmd) : List Run :=
  match c.kind with
  | .cpy => [⟨c.dst, some c.src, c.n⟩]
  | .zfill => [⟨c.dst, none, c.n⟩]
  | .cpy2d => (List.range c.rows).map (fun (r : Nat) =>
      ⟨c.dst + BitVec.ofInt 64 (c.dstride * (r : Int)), some (c.src + BitVec.ofInt 64 (c.sstride * (r : Int))), c.n⟩)
  | .gth => (maskLanes c.mask).map (fun l =>
      ⟨c.dst + BitVec.ofNat 64 (c.n * l), some (sget 0 c.addrs l), c.n⟩)
  | .sct => (maskLanes c.mask).map (fun l =>
      ⟨sget 0 c.addrs l, some (c.src + BitVec.ofNat 64 (c.n * l)), c.n⟩)

/-- The lowest free record of a team (R334). -/
def Team.freeCmd (t : Team) : Option Nat := (List.range 16).find? (fun i => (fget t.cmds i).isNone)

/-- An operation forked: the lowest free record, the next order number (R334, R337). -/
def Team.fork (t : Team) (c : Cmd) : Team :=
  match t.freeCmd with
  | some i => { t with cmds := fset t.cmds i { c with order := t.order, st := .running, writes := [], err := false }
                       order := t.order + 1 }
  | none => t

/-! Source bytes beyond the device (R227, R281, R286, R340). -/

/-- The source bytes of a command that lie beyond the device, in element order. -/
def Cmd.farSources (c : Cmd) : List Loc := c.units.flatMap (fun u => u.src.filter Loc.remote)

/-- Does a byte go on a piece: it is the next one, on the same path and in the same 4 KiB, which leave by one port (R281). -/
def follows (p : Loc × Nat) (l : Loc) : Bool :=
  match p.1, l with
  | .peer a, .peer b => decide (b = a + p.2) && decide (b / 4096 = a / 4096)
  | .host a, .host b => decide (b = a + p.2) && decide (b / 4096 = a / 4096)
  | _, _ => false

/-- Bytes put together into pieces, each a first byte and a length. -/
def farPieces (ls : List Loc) : List (Loc × Nat) :=
  (ls.foldl (fun acc l => match acc with
    | p :: ps => if follows p l then (p.1, p.2 + 1) :: ps else (l, 1) :: acc
    | [] => [(l, 1)]) ([] : List (Loc × Nat))).reverse

/-- A command that met a refused, lost or uncorrectable source: it has no contributions, and lands its counter's advance
with err (R340). -/
def Cmd.lose (c : Cmd) : Cmd := { c with st := .completed, writes := [], err := true }

/-- The operation of an order number in a record, if it still runs, loses a source. -/
def State.loseFetch (s : State) (tid rec order : Nat) : State :=
  s.modTeam tid (fun t => match fget t.cmds rec with
    | some c => if c.st = .running ∧ c.order = order then { t with cmds := fset t.cmds rec c.lose } else t
    | none => t)

/-- One piece of an operation's far source asked for; without a port that is up it is lost at once (R281, R283, R286). -/
def State.fetchPiece (s : State) (tid rec order : Nat) (x : Loc × Nat) : State :=
  match x.1 with
  | .peer a => match s.peerPort a with
    | some p => s.send (.peerFetch p (bits a 56 47) (a / 2 ^ 57) (a % 2 ^ 47) x.2 tid rec order)
    | none => s.loseFetch tid rec order
  | .host a => s.send (.hostFetch a x.2 tid rec order)
  | _ => s

/-- The far sources asked for of a team's operations with order numbers from one on. -/
def State.fetchFrom (s : State) (tid order : Nat) : State :=
  (((fget s.teams tid).map (·.cmds)).getD []).foldl (fun t e =>
    if e.2.order ≥ order then (farPieces e.2.farSources).foldl (fun u x => u.fetchPiece tid e.1 e.2.order x) t else t) s

/-- The operations that passed their checks are forked in lane order, or every surviving lane meets the engine limit. -/
def State.forkAll (s : State) (v : View) (h : Hdr) (bad : List (Nat × TrapInfo)) (ops : List (Cmd × List TlbEntry)) :
    State :=
  let full := decide (ops ≠ []) && decide (v.tm.cmds.length + ops.length > 16)
  let ok := v.part h &&& ~~~trapMask bad
  let bad2 := if full then bad ++ (maskLanes ok).map (fun l => (l, (⟨0x60, 0⟩ : TrapInfo))) else bad
  s.others v bad2 (fun t w =>
    if full ∨ ops = [] then t.retire w
    else (((t.fills (ops.flatMap (·.2))).modTeam w.tid (fun tm => ops.foldl (fun u o => u.fork o.1) tm)).retire w).fetchFrom
      w.tid v.tm.order)

/-- An engine instruction whose operations are one per lane (R337): `ops` gives the operand check and the record. -/
def engineLanes (i : Instr) (h : Hdr) (m : FM) (rec : View → Nat → Except TrapInfo (Option Cmd)) (s : State) :
    Host.Outcome State Fault Refusal :=
  issue i s (fun s v =>
    let rs : List (Nat × Except TrapInfo (Option (Cmd × List TlbEntry))) := (maskLanes (v.part h)).map (fun l =>
      (l, match rec v l with
        | .error t => .error t
        | .ok none => .ok none
        | .ok (some c) => match s.reachRuns (v.who l) m.width.bytes c.runs with
          | .error t => .error t
          | .ok (us, es) => .ok (some ({ c with units := us }, es))))
    s.forkAll v h (failed rs) ((passed rs).filterMap (·.2)))

/-- The operand check of a byte count (R336). -/
def countOk (w n : Nat) : Bool := decide (n ≤ 2 ^ 24) && decide (n % w = 0)

/-- The record of `cpy` or `zfill` in one lane: none for a count of zero, which forks nothing (R336). -/
def linearRec (kind : EngKind) (m : FM) (v : View) (l : Nat) : Except TrapInfo (Option Cmd) :=
  let n := (v.g.rd m.data l).toNat
  if n = 0 then .ok none
  else if !countOk m.width.bytes n then .error ⟨0x61, 0⟩
  else .ok (some { blankCmd kind m l v.g.idx v.sp.pc with
    count := n, n := n, dst := v.g.rd64 m.base l, src := if kind = .zfill then 0 else v.g.rd64 m.aux l })

/-- `cpy` (R335-R337). -/
def execCpy (h : Hdr) (m : FM) (s : State) : Host.Outcome State Fault Refusal :=
  engineLanes (.cpy h m) h m (linearRec .cpy m) s

/-- `zfill` (R335-R337). -/
def execZfill (h : Hdr) (m : FM) (s : State) : Host.Outcome State Fault Refusal :=
  engineLanes (.zfill h m) h m (linearRec .zfill m) s

/-- One register of the quad of `cpy2d`. -/
def quadReg (g : Group) (m : FM) (i l : Nat) : Word := g.rd (if m.data ≥ 384 then 384 else m.data + i) l

/-- The record of `cpy2d` in one lane (R336). -/
def rowsRec (m : FM) (v : View) (l : Nat) : Except TrapInfo (Option Cmd) :=
  let w := m.width.bytes
  let n := (quadReg v.g m 0 l).toNat
  let rows := (quadReg v.g m 1 l).toNat
  let ds := (quadReg v.g m 2 l).toInt
  let ss := (quadReg v.g m 3 l).toInt
  if n < 1 ∨ rows < 1 ∨ n * rows > 2 ^ 24 ∨ n % w ≠ 0 ∨ ds % w ≠ 0 ∨ ss % w ≠ 0 then .error ⟨0x61, 0⟩
  else .ok (some { blankCmd .cpy2d m l v.g.idx v.sp.pc with
    count := n * rows, n := n, rows := rows, dst := v.g.rd64 m.base l, src := v.g.rd64 m.aux l, dstride := ds, sstride := ss })

/-- `cpy2d` (R335-R337). -/
def execCpy2d (h : Hdr) (m : FM) (s : State) : Host.Outcome State Fault Refusal :=
  engineLanes (.cpy2d h m) h m (rowsRec m) s

/-- The slice of the uniform range that belongs to a lane's run: its place is the lane's number (R337). -/
def runSlice (u : Dword) (n l : Nat) : Dword × Nat := (u + BitVec.ofNat 64 (n * l), n)

/-- The checked ranges of `gth` and `sct` over some lanes, destination first (R337): for each lane its destination and source
bytes, or its trap. The lane's own range may fail for that lane alone; a failure of the uniform range traps every lane
that did not fail before (R326). The uniform range is that of the lanes still in the operation, in lane order, and its
first failure gives `ks_tval` (DEDUCED, log 48). The uniform address is checked itself before its slices. -/
def State.reachSlices (s : State) (v : View) (isG : Bool) (width n : Nat) (u : Dword) (own : Nat → Dword) (ls : List Nat) :
    List (Nat × Except TrapInfo (List (Nat × Loc) × List (Nat × Loc) × List TlbEntry)) :=
  let alone (use : Use) := ls.map (fun l => (l, s.reachRange (v.who l) use (own l) n width))
  let slices (use : Use) (ks : List Nat) :=
    if !formOk u then .error ⟨0x20, u⟩
    else if u.toNat % width ≠ 0 then .error ⟨0x21, u⟩
    else s.reachAll (v.who (ls.headD 0)) use width (ks.map (runSlice u n))
  if isG then match slices .engDst ls with
    | .error t => ls.map (fun l => (l, .error t))
    | .ok (ds, es) => ((alone .engSrc).zip ds).map (fun x => (x.1.1, match x.1.2 with
        | .error t => .error t
        | .ok (src, e) => .ok (x.2, src, es ++ e)))
  else
    let ds := alone .engDst
    let bad (t : TrapInfo) := ds.map (fun x => (x.1, match x.2 with
      | .error e => .error e
      | .ok _ => .error t))
    match slices .engSrc ((passed ds).map (·.1)) with
    | .error t => bad t
    | .ok (xs, es) => ((failed ds).map (fun x => (x.1, .error x.2))) ++
        ((passed ds).zip xs).map (fun x => (x.1.1, .ok (x.1.2.1, x.2, es ++ x.1.2.2)))

/-- `gth` and `sct`: one operation over the surviving lanes (R336, R337). The run bytes and the uniform address are those
of the lowest lane, and their own failures trap every lane (R326). -/
def engineRuns (i : Instr) (kind : EngKind) (h : Hdr) (m : FM) (s : State) : Host.Outcome State Fault Refusal :=
  issue i s (fun s v =>
    let p := v.part h
    if p = 0 then s.retire v
    else
      let w := m.width.bytes
      let l0 := lowestLane p
      let n := (v.g.rd m.data l0).toNat
      let isG := decide (kind = .gth)
      let u := v.g.rd64 (if isG then m.base else m.aux) l0
      let own (l : Nat) := v.g.rd64 (if isG then m.aux else m.base) l
      let whole (t : TrapInfo) : State := s.forkAll v h ((maskLanes p).map (fun l => (l, t))) []
      if n > 4096 ∨ n % w ≠ 0 then whole ⟨0x61, 0⟩
      else if n = 0 then s.retire v
      else
        let rs := s.reachSlices v isG w n u own (maskLanes p)
        let good := passed rs
        let c : Cmd := { blankCmd kind m l0 v.g.idx v.sp.pc with
          n := n, dst := if isG then u else 0, src := if isG then 0 else u
          mask := maskOf (fun l => good.any (fun x => decide (x.1 = l)))
          addrs := good.foldl (fun a x => sset 0 a x.1 (own x.1)) []
          count := n * good.length
          units := good.flatMap (fun x => runUnits w x.2.1 x.2.2.1) }
        s.forkAll v h (failed rs) (if good = [] then [] else [(c, good.flatMap (fun x => x.2.2.2))]))

/-- `gth` (R335-R337). -/
def execGth (h : Hdr) (m : FM) (s : State) : Host.Outcome State Fault Refusal := engineRuns (.gth h m) .gth h m s

/-- `sct` (R335-R337). -/
def execSct (h : Hdr) (m : FM) (s : State) : Host.Outcome State Fault Refusal := engineRuns (.sct h m) .sct h m s

/-- Every running or completed record cancelled, with nothing of it to land (R341, R253). -/
def Team.quiesce (t : Team) : Team :=
  { t with cmds := fmapV (fun _ c =>
      if c.st = .running ∨ c.st = .completed then { c with st := .cancelled, writes := [], err := false } else c) t.cmds }

/-- The mask of cancelled records. -/
def Team.cancelled (t : Team) : Nat :=
  (List.range 16).foldl (fun m i => match fget t.cmds i with
    | some c => if c.st = .cancelled then m + 2 ^ i else m
    | none => m) 0

/-- `cpyq` (R341). -/
def execCpyq (h : Hdr) (d : Nat) (s : State) : Host.Outcome State Fault Refusal :=
  issue (.cpyq h d) s (fun s v =>
    let p := v.part h
    if p = 0 then s.retire v
    else
      let t := v.tm.quiesce
      (s.setTeam v.tid t).deferRegs v h.sflag ((maskLanes p).flatMap (fun l => writesN l d 1 t.cancelled)) 0)

/-- The checks of the records that `cpyre` re-issues, in ascending order: the first failure, or their new units. -/
def State.recheck (s : State) (v : View) : List (Nat × Cmd) → Except TrapInfo (List (Nat × Cmd) × List TlbEntry)
  | [] => .ok ([], [])
  | (i, c) :: cs => match s.reachRuns (v.who c.lane) c.width.bytes c.runs with
    | .error t => .error t
    | .ok (us, e1) => match s.recheck v cs with
      | .error t => .error t
      | .ok (rest, e2) => .ok ((i, { c with units := us }) :: rest, e1 ++ e2)

/-- Re-issued records with their new order numbers, and dropped ones gone (R342). -/
def Team.reissue (t : Team) (cs : List (Nat × Cmd)) (drop : Nat) : Team :=
  let t1 := cs.foldl (fun u x => { u with
    cmds := fset u.cmds x.1 { x.2 with st := .running, order := u.order }, order := u.order + 1 }) t
  { t1 with cmds := t1.cmds.filter (fun e => !(bit drop e.1 && decide (e.2.st = .cancelled))) }

/-- `cpyre` (R342). -/
def execCpyre (h : Hdr) (a b : Nat) (s : State) : Host.Outcome State Fault Refusal :=
  issue (.cpyre h a b) s (fun s v =>
    let p := v.part h
    if p = 0 then s.retire v
    else
      let r := (v.g.rd a (lowestLane p)).toNat % 2 ^ 16
      let d := (v.g.rd b (lowestLane p)).toNat % 2 ^ 16
      let cs := v.tm.cmds.filter (fun e => bit r e.1 && decide (e.2.st = .cancelled))
      match s.recheck v cs with
      | .error t => s.trapNow v ⟨p, t.code, 0, v.sp.pc, (maskLanes p).map (fun l => (l, t.tval)), none⟩
      | .ok (cs2, es) =>
        (((s.fills es).modTeam v.tid (fun t => t.reissue cs2 (d - (d &&& r)))).retire v).fetchFrom v.tid v.tm.order)

/-! Completion counters (R333, R343). -/

/-- `ctr` (R343). -/
def execCtr (h : Hdr) (d k : Nat) (s : State) : Host.Outcome State Fault Refusal :=
  issue (.ctr h d k) s (fun s v =>
    s.deferRegs v h.sflag ((maskLanes (v.part h)).flatMap (fun l => writesN l d 2 (sget 0 v.tm.ctrs k).toNat)) 0)

/-- A counter set: its value, with col and err clear (R343). -/
def Team.setCtr (t : Team) (k : Nat) (w : Word) : Team := { t with ctrs := sset 0 t.ctrs k (BitVec.setWidth 34 w) }

/-- `ctrset` (R343): an update for the next team boundary, or at once in a handler split. -/
def execCtrset (h : Hdr) (k a : Nat) (s : State) : Host.Outcome State Fault Refusal :=
  issue (.ctrset h k a) s (fun s v =>
    let p := v.part h
    if p = 0 then s.retire v
    else
      let l := lowestLane p
      let w := v.g.rd a l
      (s.modTeam v.tid (fun t =>
        if v.sp.tdepth > 0 then t.setCtr k w
        else { t with upds := t.upds ++ [⟨.ctrset, k, v.sp.ct, BitVec.setWidth 64 w, v.g.idx, l, v.g.seq⟩] })).retire v)

/-! The tag table (R225, R226, R344). -/

/-- The lookup of R226: miss, or aux and the least entry that holds the key. -/
def Team.lookup (t : Team) (spad key : Nat) : Nat :=
  let hit (i : Nat) : Bool := let e := (sget 0 t.tags i).toNat; bit e 63 && decide (bits e 56 12 = key)
  match (List.range (spad / 4096)).find? hit with
  | some i => bits (sget 0 t.tags i).toNat 11 0 * 2 ^ 16 + i
  | none => 0xFFFFFFFF

/-- `tagq` (R344). -/
def execTagq (h : Hdr) (d a : Nat) (s : State) : Host.Outcome State Fault Refusal :=
  issue (.tagq h d a) s (fun s v =>
    s.deferRegs v h.sflag ((maskLanes (v.part h)).flatMap (fun l =>
      writesN l d 1 (v.tm.lookup v.gr.spad (bits (v.g.rd64 a l).toNat 56 12)))) 0)

/-- The entry updates of one instruction: recorded for the next team boundary, or applied at once in a handler split, the
least lane standing for an entry (R226). -/
def Team.tagUpdates (t : Team) (v : View) (kind : UpdKind) (us : List (Nat × Nat × Dword)) : Team :=
  if v.sp.tdepth > 0 then
    us.foldr (fun u x => { x with tags := sset 0 x.tags u.2.1 u.2.2 }) t
  else { t with upds := t.upds ++ us.map (fun u => ⟨kind, u.2.1, v.sp.ct, u.2.2, v.g.idx, u.1, v.g.seq⟩) }

/-- The check of one lane of `tagset` or `tagclr`, with its update: lane, entry, value. -/
def tagLane (v : View) (i : Word) (e : Dword) (l : Nat) : Except TrapInfo (Nat × Nat × Dword) :=
  if i.toNat ≥ v.gr.spad / 4096 ∨ bits e.toNat 62 57 ≠ 0 then .error ⟨0x62, 0⟩ else .ok (l, i.toNat, e)

/-- `tagset` and `tagclr` (R344). -/
def tagOp (i : Instr) (kind : UpdKind) (h : Hdr) (index : Nat) (value : View → Nat → Dword) (s : State) :
    Host.Outcome State Fault Refusal :=
  issue i s (fun s v =>
    let rs := (maskLanes (v.part h)).map (fun l => (l, tagLane v (v.g.rd index l) (value v l) l))
    s.others v (failed rs) (fun t w =>
      (t.modTeam w.tid (fun tm => tm.tagUpdates w kind ((passed rs).map (·.2)))).retire w))

/-- `tagset` (R344). -/
def execTagset (h : Hdr) (a b : Nat) (s : State) : Host.Outcome State Fault Refusal :=
  tagOp (.tagset h a b) .tagset h a (fun v l => v.g.rd64 b l) s

/-- `tagclr` (R344). -/
def execTagclr (h : Hdr) (a : Nat) (s : State) : Host.Outcome State Fault Refusal :=
  tagOp (.tagclr h a) .tagclr h a (fun _ _ => 0) s

end Sys2Proof.Machine
end

