-- ==== Sys2Proof/Machine/Tensor.lean ====
section
/-! DEFINITION. Tensor handles and accumulator tiles, opcodes 0x102, 0x105, 0x180-0x18D (spec 16_isa_matrix R347-R366,
03_numbers R67, R68). Operands are read and tiles written at issue, which R355 allows and R354 orders. -/
namespace Sys2Proof.Machine

/-! Descriptors (R348, R349). -/

/-- Level types (R348). -/
inductive LevelTy where
  | dense | compressed | singleton | blocked
  deriving DecidableEq, Repr

/-- A level entry (R348). -/
structure Level where
  ty : LevelTy
  ext : Nat
  ioff : Nat
  lbase : Nat
  deriving DecidableEq, Repr

/-- Layouts (R348). -/
inductive Layout where
  | row | column | diagonal | plane
  deriving DecidableEq, Repr

/-- A descriptor that is well formed (R349): its element as a side of a conversion, the element's width, its levels. -/
structure Desc where
  fmt : Nat
  ecode : Nat
  elem : ConvSide
  layout : Layout
  scale : Nat
  vbase : Nat
  sbase : Nat
  row0 : Nat
  col0 : Nat
  levels : List Level
  pitch : Nat
  deriving DecidableEq, Repr

/-- The level types by code. -/
def LevelTy.ofCode : Nat → Option LevelTy
  | 0 => some .dense
  | 1 => some .compressed
  | 2 => some .singleton
  | 3 => some .blocked
  | _ => none

/-- The layouts by code. -/
def Layout.ofCode : Nat → Option Layout
  | 0 => some .row
  | 1 => some .column
  | 2 => some .diagonal
  | 3 => some .plane
  | _ => none

/-- A descriptor word. -/
def wordAt (ws : FMap Word) (i : Nat) : Nat := (sget 0 ws i).toNat

/-- The element named by ecode and fmt: the scalar types of R86 and a narrow format (R348). -/
def elemOf (ecode fmt : Nat) : Option ConvSide :=
  if ecode = 0x20 then (if (QRec.of fmt).valid then some (.q (QRec.of fmt)) else none)
  else if fmt ≠ 0 then none
  else if (1 ≤ ecode ∧ ecode ≤ 8) ∨ (0x10 ≤ ecode ∧ ecode ≤ 0x13) then (ElemTy.ofCode ecode).map .el
  else none

/-- One level entry in use, checked by itself (R349). -/
def levelOf (ws : FMap Word) (i : Nat) : Option Level :=
  let w0 := wordAt ws (8 + 4 * i)
  let ioff := wordAt ws (9 + 4 * i)
  let lbase := wordAt ws (10 + 4 * i) + 2 ^ 32 * wordAt ws (11 + 4 * i)
  let ext := bits w0 28 0
  match LevelTy.ofCode (bits w0 31 29) with
  | none => none
  | some ty =>
    let ok := decide (ext ≥ 1) && (match ty with
      | .dense => decide (ioff = 0) && decide (lbase = 0)
      | .compressed => decide (lbase % 4 = 0)
      | .singleton => decide (ioff = 0) && decide (i ≠ 0) && decide (lbase % 4 = 0)
      | .blocked => decide (ioff = 0) && decide (ext % 4 = 0))
    if ok then some ⟨ty, ext, ioff, lbase⟩ else none

/-- The levels in use, outermost first, if each is good. -/
def levelsOf (ws : FMap Word) (n : Nat) : Option (List Level) :=
  (List.range n).foldr (fun i acc => match levelOf ws i, acc with
    | some l, some ls => some (l :: ls)
    | _, _ => none) (some [])

/-- Is every level dense. -/
def Desc.dense (d : Desc) : Bool := d.levels.all (fun l => decide (l.ty = .dense))

/-- The element width in bits (R47, R54). -/
def Desc.w (d : Desc) : Nat := d.elem.width

/-- The extent of a level. -/
def Desc.ext (d : Desc) (i : Nat) : Nat := ((d.levels[i]?).map (·.ext)).getD 0

/-- The extent that the pitch replaces (R348). -/
def Desc.pitched (d : Desc) : Nat := if d.layout = .column then d.ext 0 else d.ext (d.levels.length - 1)

/-- The effective pitch (R350). -/
def Desc.effPitch (d : Desc) : Nat := if d.pitch = 0 then d.pitched else d.pitch

/-- The conditions of R349 on a descriptor as a whole. -/
def Desc.ok (d : Desc) : Bool :=
  (match d.layout with
    | .row => true
    | .column => decide (d.levels.length = 2) && d.dense
    | .diagonal => (decide (d.vbase / 2 ^ 61 = 2) || decide (d.vbase / 2 ^ 61 = 3)) && !bit d.vbase 22
    | .plane => d.dense && decide (d.effPitch % 32 = 0)) &&
  decide (d.vbase % (if d.w < 8 ∨ d.layout = .plane then 4 else d.w / 8) = 0) &&
  (if d.scale = 0 then decide (d.sbase = 0) else decide (d.sbase % 4 = 0)) &&
  (decide (d.pitch = 0) || decide (d.pitch ≥ d.pitched))

/-- The descriptor in thirty-two words, when it is well formed (R348, R349). -/
def Desc.of (ws : FMap Word) : Option Desc :=
  let w0 := wordAt ws 0
  let n := bits w0 26 24
  let zeros := decide (wordAt ws 1 = 0) && decide (wordAt ws 29 = 0) && decide (wordAt ws 30 = 0) &&
    decide (wordAt ws 31 = 0) && (List.range 5).all (fun i => decide (i < n) ||
      (List.range 4).all (fun j => decide (wordAt ws (8 + 4 * i + j) = 0)))
  match elemOf (bits w0 23 16) (bits w0 15 0), Layout.ofCode (bits w0 29 27), levelsOf ws n with
  | some e, some lay, some ls =>
    let d : Desc :=
      { fmt := bits w0 15 0, ecode := bits w0 23 16, elem := e, layout := lay, scale := bits w0 31 30,
        vbase := wordAt ws 2 + 2 ^ 32 * wordAt ws 3, sbase := wordAt ws 4 + 2 ^ 32 * wordAt ws 5,
        row0 := wordAt ws 6, col0 := wordAt ws 7, levels := ls, pitch := wordAt ws 28 }
    if zeros ∧ 1 ≤ n ∧ n ≤ 5 ∧ d.ok then some d else none
  | _, _, _ => none

/-- A handle's descriptor: none when the handle is invalid or not well formed (R349). -/
def Team.desc (t : Team) (h : Nat) : Option Desc :=
  match fget t.handles h with
  | some x => if x.valid then Desc.of x.words else none
  | none => none

/-! Finding an element (R350-R352). -/

/-- What `resolve` returns: a position, or the coordinate that is implied or out of bounds. -/
inductive Pos where
  | at (q : Nat)
  | implied (c : Nat)
  | outside (c : Nat)
  deriving DecidableEq, Repr

/-- A checked read of an aligned container at an address. -/
abbrev Reader := Dword → Nat → Except TrapInfo Nat

/-- The checks of R218 on an access of this chapter, whose traps all give the failing address (R365). -/
def State.reachMx (s : State) (w : Who) (use : Use) (ea : Dword) (n align : Nat) : Except TrapInfo Reach :=
  match s.reach w use ea n align with
  | .error t => .error (if t.code = 0x18 then ⟨0x18, ea⟩ else t)
  | r => r

/-- Above every cause code: what a read meets whose bytes lie beyond the device and have not come yet. Their number is
added. It is no trap: the instruction asks for them and waits. -/
def farCode : Nat := 0x100

/-- Reads as one lane of a view makes them, under the checks of R218 for a load that is no `ld`. What lies beyond the device
is there once its reply is in (R329). -/
def State.reader (s : State) (v : View) (l : Nat) : Reader := fun ea n =>
  match s.reachMx (v.who l) .line ea n n with
  | .ok r =>
    if r.remote then
      match (v.g.far.find? (fun f => decide (f.sid = v.sid) && decide (f.lane = l) && decide (f.ea = ea) && decide (f.n = n))).bind
          (·.value) with
      | some x => .ok x
      | none => .error ⟨farCode + n, ea⟩
    else .ok (s.readReach v.c r)
  | .error t => .error t

/-- What a probe read answers in place of a value; no cause has this code. -/
def probeCode : Nat := 0xFF

/-- The reads of a lane, with a probe at those that `hit` picks by address and size. -/
def State.probe (s : State) (v : View) (hit : Dword → Nat → Bool) (l : Nat) : Reader := fun ea n =>
  match s.reader v l ea n with
  | .ok x => if hit ea n then .error ⟨probeCode, ea⟩ else .ok x
  | .error t => .error t

/-- Do some reads end at a probe. -/
def probed {α : Type} (r : Except TrapInfo α) : Bool :=
  match r with
  | .ok _ => false
  | .error t => decide (t.code = probeCode)

/-- An address in each line that is still to be scrubbed. -/
def State.pendingLines (s : State) : List Nat :=
  distinct (s.ctxs.flatMap (fun e => e.2.scrub.flatMap (fun r => linesOf r.1 (r.2 - r.1))))

/-- Does a read of a lane reach a line of this device. -/
def State.reachesLine (s : State) (v : View) (l a : Nat) (ea : Dword) (n : Nat) : Bool :=
  match s.reachMx (v.who l) .line ea n n with
  | .ok r => r.locs.any (fun x => match x with
    | .dram b => decide (b / 64 = a / 64)
    | _ => false)
  | .error _ => false

/-- The pending lines that an instruction reads are read: `reads` says whether a lane comes to a probe among its reads (R274). -/
def State.readBy (s : State) (v : View) (i : Instr) (reads : Nat → Reader → Bool) : State :=
  if v.precheck i = none then
    s.seen v.c (s.pendingLines.filter (fun a => lanes.any (fun l => reads l (s.probe v (s.reachesLine v l a) l))))
  else s

/-- What a split has read beyond the device for one instruction is used up. -/
def State.dropFar (s : State) (v : View) : State :=
  if v.g.far = [] then s
  else s.modGroup v.gid (fun g => { g with far := g.far.filter (fun f => decide (f.sid ≠ v.sid)) })

/-- The request of a read that is missing. -/
def State.farRequest (s : State) (v : View) (pid : Nat) (m : Nat × TrapInfo) : Option OutMsg :=
  match s.reachMx (v.who m.1) .line m.2.tval (m.2.code - farCode) (m.2.code - farCode) with
  | .ok r => s.askRemote v pid m.1 r
  | .error _ => none

/-- The reads that lanes of an instruction miss are asked for, one for each lane; the split waits for them and issues again. One
that no port can carry reads zero and is recorded (R281, R283, R286). -/
def State.askFar (s : State) (v : View) (ms : List (Nat × TrapInfo)) : State :=
  let pid := v.g.nextId
  let out := ms.filter (fun m => (s.farRequest v pid m).isSome)
  let lost := ms.filter (fun m => (s.farRequest v pid m).isNone)
  let reads : List FarRead := ms.map (fun m => ⟨pid, v.sid, m.1, m.2.tval, m.2.code - farCode,
    if (s.farRequest v pid m).isSome then none else some 0⟩)
  let p := { Pending.blank 15 with
    pid := pid, seq := v.g.seq, sid := v.sid, pc := v.sp.pc, lid := v.lid, kind := .remote (out.map (·.1)) }
  let s1 := s.modGroup v.gid (fun g => { g with
    far := g.far ++ reads, nextId := pid + 1, pend := if out = [] then g.pend else g.pend ++ [p] })
  let s2 := if out = [] then s1 else s1.modSplit v.gid v.sid (fun sp => { sp with st := .own })
  let s3 := lost.foldl (fun t _ => t.linkFail v.c 2 v.sp.pc) s2
  (out.filterMap (s.farRequest v pid)).foldl State.send s3

/-- Of some lanes that failed, those that miss a read. -/
def missing (bad : List (Nat × TrapInfo)) : List (Nat × TrapInfo) := bad.filter (fun m => decide (m.2.code ≥ farCode))

/-- An instruction of this chapter that reads memory, given the reads that its lanes make: it comes to its end, or asks for
reads and issues again. -/
def issueMx (i : Instr) (reads : View → Nat → Reader → Bool) (s : State)
    (body : State → View → Except (List (Nat × TrapInfo)) State) : Host.Outcome State Fault Refusal :=
  issue i (match s.view? with
      | some v => s.readBy v i (reads v)
      | none => s) (fun s v => match body (s.dropFar v) v with
    | .ok t => t
    | .error ms => s.askFar v ms)

/-- The search of a compressed level's run for a coordinate: n indices from q (R350). -/
def findIndex (rd : Reader) (base c : Nat) : Nat → Nat → Except TrapInfo (Option Nat)
  | 0, _ => .ok none
  | n + 1, q => match rd (BitVec.ofNat 64 (base + 4 * q)) 4 with
    | .error t => .error t
    | .ok x => if x = c then .ok (some q) else if x > c then .ok none else findIndex rd base c n (q + 1)

/-- One level of `resolve` below a position p: the position, or none where the element is implied (R350). -/
def levelStep (rd : Reader) (span p c : Nat) (lv : Level) : Except TrapInfo (Option Nat) :=
  match lv.ty with
  | .dense => .ok (some (p * span + c))
  | .compressed => match rd (BitVec.ofNat 64 (lv.lbase + 4 * p)) 4 with
    | .error t => .error t
    | .ok lo => match rd (BitVec.ofNat 64 (lv.lbase + 4 * (p + 1))) 4 with
      | .error t => .error t
      | .ok hi => findIndex rd (lv.lbase + lv.ioff) c (hi - lo) lo
  | .singleton => match rd (BitVec.ofNat 64 (lv.lbase + 4 * p)) 4 with
    | .error t => .error t
    | .ok x => .ok (if x = c then some p else none)
  | .blocked =>
    let b := p * (lv.ext / 2) + 2 * (c / 4)
    match rd (BitVec.ofNat 64 (lv.lbase + b)) 1 with
    | .error t => .error t
    | .ok x => if x = c % 4 then .ok (some b) else match rd (BitVec.ofNat 64 (lv.lbase + b + 1)) 1 with
      | .error t => .error t
      | .ok y => .ok (if y = c % 4 then some (b + 1) else none)

/-- `resolve` over the levels that are left (R350). -/
def resolveFrom (rd : Reader) (d : Desc) : List Level → List Nat → Nat → Except TrapInfo Pos
  | [], _, p => .ok (.at p)
  | lv :: ls, cs, p =>
    let c := cs.headD 0
    if c ≥ lv.ext then .ok (.outside c)
    else match levelStep rd (if ls = [] then d.effPitch else lv.ext) p c lv with
      | .error t => .error t
      | .ok none => .ok (.implied c)
      | .ok (some q) => resolveFrom rd d ls cs.tail q

/-- `resolve` (R350). -/
def Desc.resolve (d : Desc) (rd : Reader) (cs : List Nat) : Except TrapInfo Pos :=
  match resolveFrom rd d d.levels cs 0 with
  | .ok (.at p) => .ok (.at (if d.layout = .column then cs.getD 1 0 * d.effPitch + cs.getD 0 0 else p))
  | r => r

/-- The address at an offset from vbase; that of diagonal layout has its view bit set (R351). -/
def Desc.at_ (d : Desc) (o : Nat) : Dword :=
  BitVec.ofNat 64 (d.vbase + o) ||| (if d.layout = .diagonal then 0x400000#64 else 0)

/-- Are elements packed into words or planes instead of standing in bytes of their own (R351). -/
def Desc.packedElem (d : Desc) : Bool := decide (d.layout = .plane) || decide (d.w < 8)

/-- The address of an element that stands in bytes of its own (R351). -/
def Desc.addr (d : Desc) (q : Nat) : Dword := d.at_ (d.w / 8 * q)

/-- The words of a plane block read, low plane first, one bit of each taken (R351). -/
def planeBits (rd : Reader) (a : Dword) (i : Nat) : Nat → Except TrapInfo Nat
  | 0 => .ok 0
  | n + 1 => match rd a 4 with
    | .error t => .error t
    | .ok x => match planeBits rd (a + 4) i n with
      | .error t => .error t
      | .ok r => .ok (x / 2 ^ i % 2 + 2 * r)

/-- The bits of element q (R351). -/
def Desc.raw (d : Desc) (rd : Reader) (q : Nat) : Except TrapInfo Nat :=
  if d.layout = .plane then planeBits rd (d.at_ (4 * d.w * (q / 32))) (q % 32) d.w
  else if d.w < 8 then
    let k := 32 / d.w
    match rd (d.at_ (4 * (q / k))) 4 with
    | .ok x => .ok (x / 2 ^ (d.w * (q % k)) % 2 ^ d.w)
    | .error t => .error t
  else rd (d.addr q) (d.w / 8)

/-- The bits of the element at coordinates: none where it is implied or out of bounds. -/
def Desc.read (d : Desc) (rd : Reader) (cs : List Nat) : Except TrapInfo (Option Nat) :=
  match d.resolve rd cs with
  | .error t => .error t
  | .ok (.at q) => match d.raw rd q with
    | .ok x => .ok (some x)
    | .error t => .error t
  | .ok _ => .ok none

/-- A function that may fail applied along a list; the first failure ends it. -/
def mapE {α β : Type} (f : α → Except TrapInfo β) : List α → Except TrapInfo (List β)
  | [] => .ok []
  | x :: xs => match f x with
    | .error t => .error t
    | .ok y => match mapE f xs with
      | .error t => .error t
      | .ok ys => .ok (y :: ys)

/-! Shared shapes of the family. -/

/-- A trap with one value in every lane of P (R365). -/
def State.trapP (s : State) (v : View) (h : Hdr) (t : TrapInfo) : State := s.trapNow v (trapAll (v.part h) t.code v.sp.pc t.tval)

/-- What the lowest lane meets as it reads for all of P: a trap in every lane of P, or a read to ask for. -/
def State.trapOrAsk (s : State) (v : View) (h : Hdr) (t : TrapInfo) : Except (List (Nat × TrapInfo)) State :=
  if t.code ≥ farCode then .error [(lowestLane (v.part h), t)] else .ok (s.trapP v h t)

/-- The value of a handle-format trap (R365). -/
def handleTrap (th : Nat) : TrapInfo := ⟨0x09, BitVec.ofNat 64 (0x1000 + th)⟩
/-- The value of an invalid-tile trap (R365). -/
def tileTrap (code t : Nat) : TrapInfo := ⟨code, BitVec.ofNat 64 (0x1000 + t)⟩

/-- A tile of a group. -/
def Group.tile (g : Group) (t : Nat) : Tile := (fget g.tiles t).getD ⟨false, .f32, []⟩
/-- A tile of a group replaced. -/
def Group.setTile (g : Group) (t : Nat) (x : Tile) : Group := { g with tiles := fset g.tiles t x }
/-- A tile becomes invalid and carries no data (R353, R363). -/
def Group.dropTile (g : Group) (t : Nat) : Group := g.setTile t ⟨false, (g.tile t).tag, []⟩

/-- The handle-format trap of an instruction that would write a tile: the tile becomes invalid (R353). -/
def State.trapTile (s : State) (v : View) (h : Hdr) (tile : Nat) (t : TrapInfo) : State :=
  (s.modGroup v.gid (fun g => g.dropTile tile)).trapP v h t

/-- Does the group hold its 64 open entries (R194); a handler's entry is never open (R201). -/
def View.spoilFull (v : View) : Bool := decide (v.sp.tdepth = 0) && decide (v.g.spoil.length ≥ 64)

/-- A spoil entry of the team's own making, under `.low` (R356, R359, R363): the spoil limit, or the entry opened. -/
def State.mxEntry (s : State) (v : View) (h : Hdr) (scope : Scope) (width : Width) (ls : List SLane) : State :=
  if ls = [] then s.retire v
  else if v.spoilFull then s.trapP v h ⟨0x1B, 0⟩
  else s.openEntry v
    { seq := v.g.seq, sid := v.sid, pc := v.sp.pc, scope := scope, count := v.sp.count scope, rule := .low, width := width,
      v := false, sflag := 15, vreg := 384, lanes := ls }

/-- The tag of an accumulator type. -/
def accTag : AccTy → TileTag
  | .f32 => .f32
  | .i32 => .i32

/-! Handles (R356). -/

/-- Words of a handle from thirty-two words of memory. -/
def handleWords (x : Nat) : FMap Word :=
  (List.range 32).foldl (fun m i => sset 0 m i (BitVec.ofNat 32 (x / 2 ^ (32 * i)))) []

/-- A handle written in a team. -/
def Team.setHandle (t : Team) (h : Nat) (x : Handle) : Team := { t with handles := fset t.handles h x }

/-- The words of a handle; an invalid one has none (R347). -/
def Team.words (t : Team) (h : Nat) : FMap Word :=
  match fget t.handles h with
  | some x => if x.valid then x.words else []
  | none => []

/-- `thld` (R356). -/
def execThld (h : Hdr) (m : FM) (s : State) : Host.Outcome State Fault Refusal :=
  issue (.thld h m) s (fun s v =>
    if v.part h = 0 then s.retire v
    else
      let l := lowestLane (v.part h)
      match s.reachMx (v.who l) .line (v.ea m 384 l) 128 128 with
      | .error t => s.trapP v h t
      | .ok r =>
        let p := { Pending.blank h.sflag with handles := [m.data] }
        if r.remote then
          match s.askRemote v v.g.nextId l r with
          | some q => (s.defer v { p with kind := .remote [l], handle := some (m.data, true, []) }).send q
          | none => (s.defer v { p with handle := some (m.data, true, []) }).linkFail v.c 2 v.sp.pc
        else ((s.fills r.hit.toList).readLocs v.c r.locs).defer v
          { p with handle := some (m.data, true, handleWords (s.readReach v.c r)) })

/-- `thst` (R356): one line from all thirty-two lanes, under the checks of `sstl`. -/
def execThst (h : Hdr) (m : FM) (s : State) : Host.Outcome State Fault Refusal :=
  issue (.thst h m) s (fun s v =>
    if v.part h = 0 then s.retire v
    else if !storeScopeOk v m then s.trapSplit v ⟨0x18, 0⟩
    else
      let l0 := lowestLane (v.part h)
      let line := v.ea m 384 l0
      match s.reachMx (v.who l0) (.step m.scope .low) line 128 128 with
      | .error t => s.trapP v h t
      | .ok r => (s.fills r.hit.toList).mxEntry v h m.scope .b32 (lanes.map (fun l =>
          ⟨l, line + BitVec.ofNat 64 (4 * l), r.ipn,
            ((r.locs.drop (4 * l)).take 4).zip (leBytes 4 (wordAt (v.tm.words m.data) l)), 0⟩)))

/-- `thset` (R356). -/
def execThset (h : Hdr) (th w a : Nat) (s : State) : Host.Outcome State Fault Refusal :=
  issue (.thset h th w a) s (fun s v =>
    (s.modTeam v.tid (fun t =>
      t.setHandle th ⟨true, sset 0 (t.words th) w (v.g.rd a (lowestLane (v.part h)))⟩)).retire v)

/-- `thget` (R356). -/
def execThget (h : Hdr) (d th w : Nat) (s : State) : Host.Outcome State Fault Refusal :=
  issue (.thget h d th w) s (fun s v =>
    s.finish v ((maskLanes (v.part h)).flatMap (fun l => writesN l d 1 (wordAt (v.tm.words th) w))) 0)

/-- `thinv` (R356). -/
def execThinv (h : Hdr) (th : Nat) (s : State) : Host.Outcome State Fault Refusal :=
  issue (.thinv h th) s (fun s v => (s.modTeam v.tid (fun t => t.setHandle th ⟨false, []⟩)).retire v)

/-! `ldt` and `sstt` (R357, R358). -/

/-- The coordinates that a lane holds for a descriptor. -/
def View.coords (v : View) (d : Desc) (r l : Nat) : List Nat :=
  (List.range d.levels.length).map (fun i => (v.g.rd (if r ≥ 384 then r else r + i) l).toNat)

/-- What one lane of `ldt` meets: a value known at once, or the bytes of its element. -/
def State.ldtLane (s : State) (v : View) (d : Desc) (r l : Nat) : Except TrapInfo (Sum Nat Reach) :=
  let rd := s.reader v l
  match d.resolve rd (v.coords d r l) with
  | .error t => .error t
  | .ok (.outside c) => .error ⟨0x22, BitVec.ofNat 64 c⟩
  | .ok (.implied _) => .ok (.inl 0)
  | .ok (.at q) =>
    if d.packedElem then match d.raw rd q with
      | .ok x => .ok (.inl x)
      | .error t => .error t
    else match s.reachMx (v.who l) .line (d.addr q) (d.w / 8) (d.w / 8) with
      | .ok x => .ok (.inr x)
      | .error t => .error t

/-- The reads of a lane of `ldt`: indices, and the element. -/
def View.ldtReads (v : View) (h : Hdr) (m : FM) (l : Nat) (rd : Reader) : Bool :=
  (v.part h).getLsbD l && (match v.tm.desc m.base with
    | none => false
    | some d => (decide (m.width = .b64) == decide (d.w = 64)) && probed (d.read rd (v.coords d m.aux l)))

/-- `ldt` (R358). -/
def execLdt (h : Hdr) (m : FM) (s : State) : Host.Outcome State Fault Refusal :=
  issueMx (.ldt h m) (fun v => v.ldtReads h m) s (fun s v =>
    if v.part h = 0 then .ok (s.retire v)
    else match v.tm.desc m.base with
      | none => .ok (s.trapP v h (handleTrap m.base))
      | some d =>
        if decide (m.width = .b64) ≠ decide (d.w = 64) then .ok (s.trapP v h (handleTrap m.base))
        else
          let rs : List (Nat × Except TrapInfo (Sum Nat Reach)) := (maskLanes (v.part h)).map (fun l => (l, s.ldtLane v d m.aux l))
          if missing (failed rs) ≠ [] then .error (missing (failed rs))
          else .ok (s.others v (failed rs) (fun t w =>
            t.load w h.sflag m.data m.width
              ((passed rs).filterMap (fun (x : Nat × Sum Nat Reach) => match x.2 with
                | .inr r => some (x.1, r)
                | .inl _ => none))
              ((passed rs).filterMap (fun (x : Nat × Sum Nat Reach) => match x.2 with
                | .inl n => some (x.1, n)
                | .inr _ => none)))))

/-- Is the type of an arithmetic rule the element type (R81, R357). -/
def ruleElemOk (r : Rule) (e : ConvSide) : Bool :=
  match r, e with
  | .sumI, .el t => decide (t = .i32) || decide (t = .n32) || decide (t = .i64) || decide (t = .n64)
  | .sumF, .el t | .maxF, .el t | .minF, .el t => decide (t = .f32) || decide (t = .f64)
  | .maxI, .el t | .minI, .el t => decide (t = .i32) || decide (t = .i64)
  | .maxN, .el t | .minN, .el t => decide (t = .n32) || decide (t = .n64)
  | .sumI, .q _ | .sumF, .q _ | .maxF, .q _ | .minF, .q _ | .maxI, .q _ | .minI, .q _ | .maxN, .q _ | .minN, .q _ => false
  | _, _ => true

/-- What one lane of `sstt` meets: its storage address with what that reaches. -/
def State.ssttLane (s : State) (v : View) (m : FM) (d : Desc) (l : Nat) : Except TrapInfo (Dword × Reach) :=
  match d.resolve (s.reader v l) (v.coords d m.aux l) with
  | .error t => .error t
  | .ok (.outside c) => .error ⟨0x22, BitVec.ofNat 64 c⟩
  | .ok (.implied c) => .error ⟨0x64, BitVec.ofNat 64 c⟩
  | .ok (.at q) => match s.reachMx (v.who l) (.step m.scope m.rule) (d.addr q) (d.w / 8) (d.w / 8) with
    | .ok x => .ok (d.addr q, x)
    | .error t => .error t

/-- Does a descriptor fit the store of `sstt` (R357). -/
def Desc.ssttOk (d : Desc) (m : FM) : Bool := !d.packedElem && decide (m.width.bytes * 8 = d.w) && ruleElemOk m.rule d.elem

/-- The reads of a lane of `sstt`: indices. -/
def View.ssttReads (v : View) (h : Hdr) (m : FM) (l : Nat) (rd : Reader) : Bool :=
  (v.part h).getLsbD l && storeScopeOk v m && (match v.tm.desc m.base with
    | none => false
    | some d => d.ssttOk m && probed (d.resolve rd (v.coords d m.aux l)))

/-- `sstt` (R358). -/
def execSstt (h : Hdr) (m : FM) (s : State) : Host.Outcome State Fault Refusal :=
  issueMx (.sstt h m) (fun v => v.ssttReads h m) s (fun s v =>
    if v.part h = 0 then .ok (s.retire v)
    else if !storeScopeOk v m then .ok (s.trapSplit v ⟨0x18, 0⟩)
    else match v.tm.desc m.base with
      | none => .ok (s.trapP v h (handleTrap m.base))
      | some d =>
        if !d.ssttOk m then .ok (s.trapP v h (handleTrap m.base))
        else
          let rs := (maskLanes (v.part h)).map (fun l => (l, s.ssttLane v m d l))
          if missing (failed rs) ≠ [] then .error (missing (failed rs))
          else .ok (s.store v h m (failed rs) (passed rs)
            (fun l => v.g.rdN m.data ((m.width.bytes + 3) / 4) l) (fun _ => 0)))

/-! Writing whole tensors: `plnz`, `unpln`, `mmst` (R359, R363). -/

/-- One storage container of a descriptor: its address, size in bytes and content. -/
structure Container where
  addr : Dword
  size : Nat
  val : Nat
  deriving DecidableEq, Repr

/-- The containers that hold elements, given as position and bits; a packed container is whole, with zero where no element
is given (R359, R363). -/
def Desc.containers (d : Desc) (es : List (Nat × Nat)) : List Container :=
  let at1 (per : Nat) (u : Nat) : List (Nat × Nat) := es.filter (fun e => decide (e.1 / per = u))
  match d.layout with
  | .plane => (distinct (es.map (fun e => e.1 / 32))).flatMap (fun b => (List.range d.w).map (fun i =>
      ⟨d.at_ (4 * d.w * b + 4 * i), 4,
        ((at1 32 b).map (fun e => e.2 / 2 ^ i % 2 * 2 ^ (e.1 % 32))).sum⟩))
  | _ =>
    if d.w < 8 then
      let k := 32 / d.w
      (distinct (es.map (fun e => e.1 / k))).map (fun u =>
        ⟨d.at_ (4 * u), 4, ((at1 k u).map (fun e => e.2 % 2 ^ d.w * 2 ^ (d.w * (e.1 % k)))).sum⟩)
    else es.map (fun e => ⟨d.addr e.1, d.w / 8, e.2⟩)

/-- Containers checked for writing by the lowest lane of P, and put into one entry of the group's lowest live lane. -/
def State.writeTensor (s : State) (v : View) (h : Hdr) (d : Desc) (es : List (Nat × Nat)) (k : State → State) : State :=
  match mapE (fun c => match s.reachMx (v.who (lowestLane (v.part h))) (.step .t .low) c.addr c.size c.size with
    | .ok r => (.ok ⟨lowestLane v.g.live, c.addr, r.ipn, storeBytes r c.val, 0⟩ : Except TrapInfo SLane)
    | .error t => .error t) (d.containers es) with
  | .error t => s.trapP v h t
  | .ok ls =>
    if ls ≠ [] ∧ v.spoilFull then s.trapP v h ⟨0x1B, 0⟩
    else (k s).mxEntry v h .t .b32 ls

/-- Is vbase on a path that a tensor may be written through (R359, R363). -/
def Desc.writable (d : Desc) : Bool := decide (d.vbase / 2 ^ 61 ≤ 2)

/-- Two dense levels (R359, R361, R363). -/
def Desc.flat (d : Desc) : Bool := decide (d.levels.length = 2) && d.dense

/-- A coordinate pair for every element of a two-level tensor. -/
def Desc.pairs (d : Desc) : List (Nat × Nat) := (List.range (d.ext 0)).flatMap (fun r => (List.range (d.ext 1)).map (fun c => (r, c)))

/-- The position of an element of a two-level dense tensor (R350). -/
def Desc.place (d : Desc) (r c : Nat) : Nat := if d.layout = .column then c * d.effPitch + r else r * d.effPitch + c

/-- The handles' faults of `plnz` and `unpln`: the handle that breaks a condition, or both descriptors. A mismatch between the
two is the first handle's (R359, R365). -/
def View.planePair (v : View) (toPlane : Bool) (a b : Nat) : Except TrapInfo (Desc × Desc) :=
  match v.tm.desc a with
  | none => .error (handleTrap a)
  | some x =>
    if !x.flat ∨ x.ext 0 * x.ext 1 > 2 ^ 20 ∨ !x.writable ∨ decide (x.layout = .plane) ≠ toPlane then .error (handleTrap a)
    else match v.tm.desc b with
      | none => .error (handleTrap b)
      | some y =>
        if x.ecode ≠ y.ecode ∨ x.fmt ≠ y.fmt ∨ x.ext 0 ≠ y.ext 0 ∨ x.ext 1 ≠ y.ext 1 then .error (handleTrap a)
        else if !y.flat ∨ decide (y.layout = .plane) = toPlane then .error (handleTrap b)
        else .ok (x, y)

/-- The positions of a packed destination that hold no element, within the pitch (R359). -/
def Desc.padding (d : Desc) : List Nat :=
  if d.packedElem then
    let inner := if d.layout = .column then d.ext 0 else d.ext 1
    let outer := if d.layout = .column then d.ext 1 else d.ext 0
    (List.range outer).flatMap (fun r => (List.range (d.effPitch - inner)).map (fun i => r * d.effPitch + inner + i))
  else []

/-- The elements of a source tensor, with the place of each in the destination (R359). -/
def planeElems (rd : Reader) (x y : Desc) : Except TrapInfo (List (Nat × Nat)) :=
  mapE (fun (e : Nat × Nat) => match y.raw rd (y.place e.1 e.2) with
    | .ok n => (.ok (x.place e.1 e.2, n) : Except TrapInfo (Nat × Nat))
    | .error t => .error t) x.pairs

/-- The reads of `plnz` and `unpln`, which the lowest lane makes. -/
def View.planeReads (v : View) (toPlane : Bool) (h : Hdr) (a b l : Nat) (rd : Reader) : Bool :=
  decide (l = lowestLane (v.part h)) && (match v.planePair toPlane a b with
    | .error _ => false
    | .ok (x, y) => probed (planeElems rd x y))

/-- The conversion between layouts (R359). -/
def planeOp (i : Instr) (toPlane : Bool) (h : Hdr) (a b : Nat) (s : State) : Host.Outcome State Fault Refusal :=
  issueMx i (fun v => v.planeReads toPlane h a b) s (fun s v => match v.planePair toPlane a b with
    | .error t => .ok (s.trapP v h t)
    | .ok (x, y) =>
      match planeElems (s.reader v (lowestLane (v.part h))) x y with
      | .error t => s.trapOrAsk v h t
      | .ok es => .ok (s.writeTensor v h x (es ++ x.padding.map (fun q => (q, 0))) id))

/-- `plnz` (R359). -/
def execPlnz (h : Hdr) (a b : Nat) (s : State) : Host.Outcome State Fault Refusal := planeOp (.plnz h a b) true h a b s

/-- `unpln` (R359). -/
def execUnpln (h : Hdr) (a b : Nat) (s : State) : Host.Outcome State Fault Refusal := planeOp (.unpln h a b) false h a b s

/-! The plane-array product (R67, R68, R361). -/

/-- The value of an element's bits (R47, R48, R56). -/
def ConvSide.value (e : ConvSide) (x : Nat) : FV :=
  match e with
  | .q r => r.decode (x % 2 ^ r.w)
  | .el t => if t.isFloat then t.fmt.decode (x % 2 ^ t.width) else FV.fromInt (t.toInt x)

/-- Integers and fixed-point formats of bias 0 (R67). -/
def ConvSide.whole : ConvSide → Bool
  | .el t => !t.isFloat
  | .q r => decide (r.e = 0) && decide (r.bias = 0)

/-- The element types that `mma` multiplies (R361). -/
def ConvSide.mmaOk : ConvSide → Bool
  | .el t => decide (t = .i8) || decide (t = .n8) || decide (t = .f16) || decide (t = .bf16) || decide (t = .f32)
  | .q _ => true

/-- Is a handle fit for an operand of `mma`; `kLevel` is the level that may be 2:4 blocked, if one may (R361). -/
def Desc.mmaOk (d : Desc) (kLevel : Option Nat) : Bool :=
  decide (d.levels.length = 2) && decide (d.vbase / 2 ^ 61 ≤ 4) && d.elem.mmaOk &&
  (List.range 2).all (fun i => match d.levels[i]? with
    | some l => decide (l.ty = .dense) || (decide (l.ty = .blocked) && decide (kLevel = some i))
    | none => false)

/-- The scale of an element (R352); 1 where the handle names none. -/
def Desc.scaleAt (d : Desc) (rd : Reader) (r c : Nat) : Except TrapInfo FV :=
  let at1 (i : Nat) : Except TrapInfo FV := match rd (BitVec.ofNat 64 (d.sbase + 4 * i)) 4 with
    | .ok x => .ok (Fmt.f32.decode x)
    | .error t => .error t
  match d.scale with
  | 1 => at1 0
  | 2 => at1 r
  | 3 => at1 c
  | _ => .ok (.fin false 1 0)

/-- One operand element with its scale: none where it is implied or out of bounds, an exact zero (R351, R361). -/
def Desc.operand (d : Desc) (rd : Reader) (scaled : Bool) (r c : Nat) : Except TrapInfo (Option FV) :=
  match d.read rd [r, c] with
  | .error t => .error t
  | .ok none => .ok none
  | .ok (some x) =>
    if scaled then match d.scaleAt rd r c with
      | .ok f => .ok (some (FV.mul (d.elem.value x) f).1)
      | .error t => .error t
    else .ok (some (d.elem.value x))

/-- A product; an element that is not stored makes it an exact zero (R67). -/
def mmaProd (a b : Option FV) : FV :=
  match a, b with
  | some x, some y => (FV.mul x y).1
  | _, _ => .fin false 0 0

/-- The total of one chunk of products (R67, R68): exact, an exact zero positive. -/
def chunkTotal (ps : List FV) : FV :=
  if ps.any FV.isNaN || (ps.any (fun p => decide (p = .inf true)) && ps.any (fun p => decide (p = .inf false))) then .nan false
  else if ps.any FV.isInf then .inf (ps.any (fun p => decide (p = .inf true)))
  else ps.foldl (fun acc p => (FV.add .rne acc p).1) (.fin false 0 0)

/-- A chunk total applied to an accumulator word (R67, R68). -/
def applyChunk (ty : AccTy) (acc : Word) (t : FV) : Word × FFlags :=
  match ty with
  | .i32 => match t with
    | .fin n m e => (acc + BitVec.ofInt 32 (FV.toIntR .rtz n m e).1, 0)
    | _ => (acc, 0)
  | .f32 =>
    if t.isNaN then (BitVec.ofNat 32 Fmt.f32.encNaN, fInv)
    else
      let r := FV.add .rne (Fmt.f32.decode acc.toNat) t
      let q := Fmt.f32.round .rne false r.1
      (BitVec.ofNat 32 q.1, r.2 ||| q.2)

/-- The chunks of one output element in ascending k (R67). -/
def mmaChunks (ty : AccTy) : Nat → List (Option FV × Option FV) → Word × FFlags → Word × FFlags
  | 0, _, acc => acc
  | n + 1, ps, acc =>
    if ps = [] then acc
    else
      let r := applyChunk ty acc.1 (chunkTotal ((ps.take 32).map (fun p => mmaProd p.1 p.2)))
      mmaChunks ty n (ps.drop 32) (r.1, acc.2 ||| r.2)

/-- A tile's words computed one by one, with the flags of all. -/
def tileOf (f : Nat → Nat → Word × FFlags) : FMap Word × FFlags :=
  (List.range 1024).foldl (fun acc e =>
    let r := f (e / 32) (e % 32)
    (sset 0 acc.1 e r.1, acc.2 ||| r.2)) ([], 0)

/-- The operand checks of `mma` (R361): what fails, with whether it is the handle-format trap, or both descriptors. -/
def View.mmaPair (v : View) (ty : AccTy) (dirA : Bool) (a b : Nat) : Except TrapInfo (Desc × Desc) :=
  match v.tm.desc a with
  | none => .error (handleTrap a)
  | some x =>
    if !x.mmaOk (some (if dirA then 0 else 1)) then .error (handleTrap a)
    else match v.tm.desc b with
      | none => .error (handleTrap b)
      | some y =>
        if !y.mmaOk none then .error (handleTrap b)
        else if ty = .i32 ∧ !x.elem.whole then .error ⟨0x08, BitVec.ofNat 64 x.fmt⟩
        else if ty = .i32 ∧ !y.elem.whole then .error ⟨0x08, BitVec.ofNat 64 y.fmt⟩
        else .ok (x, y)

/-- A result tile, pending under its flag with the flags of the computation (R62, R164). -/
def State.putTile (s : State) (v : View) (h : Hdr) (n : Nat) (t : Tile) (f : FFlags) : State :=
  (s.modGroup v.gid (fun g => g.setTile n t)).defer v { Pending.blank h.sflag with tiles := [n], mx := true, flags := f }

/-- Rows of operand elements: the k run of each of thirty-two rows. -/
def operandRows (f : Nat → Nat → Except TrapInfo (Option FV)) (kn : Nat) : Except TrapInfo (List (List (Option FV))) :=
  mapE (fun i => mapE (fun k => f i k) (List.range kn)) lanes

/-- The rows of A and the columns of B, each a run of kn elements of the common dimension from k0 (R361). -/
def mmaRows (rd : Reader) (scaled dirA dirB : Bool) (x y : Desc) (k0 kn : Nat) :
    Except TrapInfo (List (List (Option FV)) × List (List (Option FV))) :=
  match operandRows (fun i n => if dirA then x.operand rd scaled (x.row0 + k0 + n) (x.col0 + i)
      else x.operand rd scaled (x.row0 + i) (x.col0 + k0 + n)) kn with
  | .error t => .error t
  | .ok as => match operandRows (fun j n => if dirB then y.operand rd scaled (y.row0 + j) (y.col0 + k0 + n)
        else y.operand rd scaled (y.row0 + k0 + n) (y.col0 + j)) kn with
    | .error t => .error t
    | .ok bs => .ok (as, bs)

/-- The run of the common dimension that `mma` takes from its register in the lowest lane: first index and length (R361). -/
def View.mmaRun (v : View) (h : Hdr) (k : Nat) : Nat × Nat :=
  let x := (v.g.rd k (lowestLane (v.part h))).toNat
  (x % 2 ^ 16, x / 2 ^ 16)

/-- May `mma` add to its tile: it is made new, or is valid and of the type. -/
def Tile.takes (t : Tile) (ty : AccTy) (zero : Bool) : Bool := zero || (t.valid && decide (t.tag = accTag ty))

/-- The reads of `mma`, which the lowest lane makes. -/
def View.mmaReads (v : View) (h : Hdr) (ty : AccTy) (zero scaled dirA dirB : Bool) (acc a b k l : Nat) (rd : Reader) : Bool :=
  decide (l = lowestLane (v.part h)) && (match v.mmaPair ty dirA a b with
    | .error _ => false
    | .ok (x, y) => (v.g.tile acc).takes ty zero && probed (mmaRows rd scaled dirA dirB x y (v.mmaRun h k).1 (v.mmaRun h k).2))

/-- `mma` (R360, R361). -/
def execMma (h : Hdr) (ty : AccTy) (zero scaled dirA dirB : Bool) (acc a b k : Nat) (s : State) :
    Host.Outcome State Fault Refusal :=
  issueMx (.mma h ty zero scaled dirA dirB acc a b k) (fun v => v.mmaReads h ty zero scaled dirA dirB acc a b k) s (fun s v =>
    let tile := v.g.tile acc
    match v.mmaPair ty dirA a b with
    | .error t => .ok (if t.code = 0x09 then s.trapTile v h acc t else s.trapP v h t)
    | .ok (x, y) =>
      if !zero ∧ !tile.valid then .ok (s.trapP v h (tileTrap 0x0A acc))
      else if !zero ∧ tile.tag ≠ (accTag ty) then .ok (s.trapP v h (tileTrap 0x63 acc))
      else
        let run := v.mmaRun h k
        match mmaRows (s.reader v (lowestLane (v.part h))) scaled dirA dirB x y run.1 run.2 with
        | .error t => s.trapOrAsk v h t
        | .ok (as, bs) =>
          let r := tileOf (fun i j => mmaChunks ty (run.2 / 32 + 1) ((as.getD i []).zip (bs.getD j []))
            (if zero then 0 else sget 0 tile.vals (32 * i + j), 0))
          .ok (s.putTile v h acc ⟨true, (accTag ty), r.1⟩ r.2))

/-! Tiles (R363, R364). -/

/-- `mmz` (R363). -/
def execMmz (h : Hdr) (ty : AccTy) (acc : Nat) (s : State) : Host.Outcome State Fault Refusal :=
  issue (.mmz h ty acc) s (fun s v => (s.modGroup v.gid (fun g => g.setTile acc ⟨true, (accTag ty), []⟩)).retire v)

/-- `mmfl` (R363). -/
def execMmfl (h : Hdr) (acc : Nat) (s : State) : Host.Outcome State Fault Refusal :=
  issue (.mmfl h acc) s (fun s v => (s.modGroup v.gid (fun g => g.dropTile acc)).retire v)

/-- The element types that `mmld` accepts (R363). -/
def ConvSide.mmldOk (ty : AccTy) (e : ConvSide) : Bool :=
  match ty with
  | .f32 => decide (e.width ≠ 64)
  | .i32 => e.whole && decide (e.width ≠ 64)

/-- One loaded element as an accumulator word (R363). -/
def loadedWord (ty : AccTy) (e : ConvSide) (x : Nat) : Word × FFlags :=
  match ty with
  | .f32 => let r := convert (.el .f32) e .rne false x; (BitVec.ofNat 32 r.1, r.2)
  | .i32 => match e.value x with
    | .fin n m k => (BitVec.ofInt 32 (FV.toIntR .rtz n m k).1, 0)
    | _ => (0, 0)

/-- The elements of a tensor that a tile takes, by place in the tile (R363). -/
def Desc.tileElems (d : Desc) (rd : Reader) : Except TrapInfo (List (Option Nat)) :=
  mapE (fun e => d.read rd [d.row0 + e / 32, d.col0 + e % 32]) (List.range 1024)

/-- The reads of `mmld`, which the lowest lane makes. -/
def View.mmldReads (v : View) (h : Hdr) (ty : AccTy) (c l : Nat) (rd : Reader) : Bool :=
  decide (l = lowestLane (v.part h)) && (match v.tm.desc c with
    | none => false
    | some d => d.flat && d.elem.mmldOk ty && probed (d.tileElems rd))

/-- `mmld` (R363). -/
def execMmld (h : Hdr) (ty : AccTy) (acc c : Nat) (s : State) : Host.Outcome State Fault Refusal :=
  issueMx (.mmld h ty acc c) (fun v => v.mmldReads h ty c) s (fun s v => match v.tm.desc c with
    | none => .ok (s.trapTile v h acc (handleTrap c))
    | some d =>
      if !d.flat ∨ !d.elem.mmldOk ty then .ok (s.trapTile v h acc (handleTrap c))
      else
        match d.tileElems (s.reader v (lowestLane (v.part h))) with
        | .error t => s.trapOrAsk v h t
        | .ok xs =>
          let r := tileOf (fun i j => match xs.getD (32 * i + j) none with
            | some x => loadedWord ty d.elem x
            | none => (0, 0))
          .ok (s.putTile v h acc ⟨true, (accTag ty), r.1⟩ r.2))

/-- The requirements of `mmst` on its handle (R363). -/
def Desc.mmstOk (d : Desc) : Bool :=
  d.flat && d.writable && (match d.layout with
    | .plane => decide (d.col0 % 32 = 0)
    | l => decide (d.w ≥ 8) || ((decide (d.w = 2) || decide (d.w = 4)) && decide (l = .row) &&
        decide (d.col0 % (32 / d.w) = 0) && decide (d.effPitch % (32 / d.w) = 0)))

/-- `mmst` (R363). -/
def execMmst (h : Hdr) (acc c : Nat) (s : State) : Host.Outcome State Fault Refusal :=
  issue (.mmst h acc c) s (fun s v => match v.tm.desc c with
    | none => s.trapP v h (handleTrap c)
    | some d =>
      if !d.mmstOk then s.trapP v h (handleTrap c)
      else
        let tile := v.g.tile acc
        if !tile.valid then s.trapP v h (tileTrap 0x0A acc)
        else
          let src : ConvSide := match tile.tag with
            | .f32 => .el .f32
            | .i32 => .el .i32
          let inside := (List.range 1024).filter (fun e => decide (d.row0 + e / 32 < d.ext 0) && decide (d.col0 + e % 32 < d.ext 1))
          let rs := inside.map (fun e =>
            (d.place (d.row0 + e / 32) (d.col0 + e % 32), convert d.elem src .rne false (sget 0 tile.vals e).toNat))
          let f := rs.foldl (fun f r => f ||| r.2.2) (0 : FFlags)
          s.writeTensor v h d (rs.map (fun r => (r.1, r.2.1)))
            (fun t => t.modGroup v.gid (fun g => g.setFlags v.lid v.sid f)))

/-- The element that a lane names (R364). -/
def View.tileIndex (v : View) (a l : Nat) : Nat := (v.g.rd a l).toNat % 1024

/-- `mmrd` (R364). -/
def execMmrd (h : Hdr) (d a acc : Nat) (s : State) : Host.Outcome State Fault Refusal :=
  issue (.mmrd h d a acc) s (fun s v =>
    let tile := v.g.tile acc
    if v.part h = 0 then s.retire v
    else if !tile.valid then s.trapP v h (tileTrap 0x0A acc)
    else s.deferRegs v h.sflag ((maskLanes (v.part h)).flatMap (fun l =>
      writesN l d 1 (sget 0 tile.vals (v.tileIndex a l)).toNat)) 0)

/-- `mmwr` (R364): the lowest of several lanes that name one element stands. -/
def execMmwr (h : Hdr) (acc a b : Nat) (s : State) : Host.Outcome State Fault Refusal :=
  issue (.mmwr h acc a b) s (fun s v =>
    let tile := v.g.tile acc
    if v.part h = 0 then s.retire v
    else if !tile.valid then s.trapP v h (tileTrap 0x0A acc)
    else (s.modGroup v.gid (fun g => g.setTile acc { tile with
      vals := (maskLanes (v.part h)).foldr (fun l m => sset 0 m (v.tileIndex a l) (v.g.rd b l)) tile.vals })).retire v)

/-- The reads of a lane of an instruction of this chapter, but for the line of `thld`. -/
def View.tensorReads (v : View) : Instr → Nat → Reader → Bool
  | .ldt h m => v.ldtReads h m
  | .sstt h m => v.ssttReads h m
  | .plnz h a b => v.planeReads true h a b
  | .unpln h a b => v.planeReads false h a b
  | .mma h ty zero scaled dirA dirB acc a b k => v.mmaReads h ty zero scaled dirA dirB acc a b k
  | .mmld h ty _ c => v.mmldReads h ty c
  | _ => fun _ _ => false

end Sys2Proof.Machine
end

