-- ==== Sys2Proof/Machine/Complete.lean ====
section
/-! DEFINITION. Results that complete, splits that swap, and engine operations that complete (spec 08_group R150, R162,
R393, 10_memory R227, 15_isa_memory R334, R337, R340). -/
namespace Sys2Proof.Machine

/-- A pending result completes: registers, sticky flags and completion flags of its group, and a handle of its team
(R162, R347). -/
def State.complete (s : State) (gid : Nat) (p : Pending) : State :=
  let s1 := s.modGroup gid (fun g => g.complete p)
  match p.handle, fget s.groups gid with
  | some (h, ok, ws), some g => s1.modTeam g.tid (fun t => t.setHandle h ⟨ok, ws⟩)
  | _, _ => s1

/-- A pending result of a group by its number. -/
def State.pending? (s : State) (gid pid : Nat) : Option Pending :=
  (fget s.groups gid).bind (fun g => g.pend.find? (fun p => decide (p.pid = pid)))

/-- Is a sent store one of a pending step store of a handler split. -/
def SentWrite.isOf (gid pid : Nat) (w : SentWrite) : Bool :=
  match w.src with
  | .handler g p _ => decide (g = gid) && decide (p = pid)
  | .boundary _ _ => false

/-- The lanes whose cell of a handler's step store was refused or lost. -/
def SentWrite.lostLanes (w : SentWrite) : List Nat :=
  match w.src, w.reply with
  | .handler _ _ ls, some false => ls
  | _, _ => []

/-- The late drain error of a handler's step store by some lanes that lost a cell of others among them: it names the least of
the lanes that lost one (R240, R245, R283). -/
def State.oweLost (s : State) (gid : Nat) (p : Pending) (ls lost : List Nat) : State :=
  match fget s.groups gid with
  | none => s
  | some g =>
    let l := lost.foldl min 31
    let count := ((g.splits.find? (fun e => e.2.mask.getLsbD l)).map (fun e => e.2.cg)).getD 0
    s.deliver gid g (maskOf ls.contains)
      (fun n => ⟨n, 0x41, 1, count, BitVec.ofNat 32 (g.idx * 2 ^ 16 + l * 2 ^ 8 + Scope.code .g), p.pc, 4⟩)
      (fun flat => ⟨p.pc.toNat, count.toNat, flat, g.idx, l, Scope.code .g⟩)

/-- A handler's step store retires once every far cell of it is answered: the verdict of a lane that lost one is 0 (R201,
R282, R283). -/
def State.completeSent (s : State) (gid : Nat) (p : Pending) (ls : List Nat) : Option State :=
  let mine := s.sentw.filter (SentWrite.isOf gid p.pid)
  if mine.any (fun w => w.reply.isNone) then none
  else
    let lost := mine.flatMap SentWrite.lostLanes
    let s1 := { (s.complete gid { p with writes := p.writes.map (fun w => if lost.contains w.1 then (w.1, w.2.1, 0) else w) }) with
      sentw := s.sentw.filter (fun w => !w.isOf gid p.pid) }
    some (if lost = [] then s1 else s1.oweLost gid p ls lost)

/-- LONG_LATENCY_COMPLETE (R162). -/
def execLongLatencyComplete (gid pid : Nat) (s : State) : Host.Outcome State Fault Refusal :=
  event s (fun s => match s.pending? gid pid with
    | some p => match p.kind with
      | .unit => some (s.complete gid p)
      | .sent ls => s.completeSent gid p ls
      | .verdict | .remote _ => none
    | none => none)

/-- Does a pre-emption hold a split before its next issue: its rewind window is open, or its group is saved whole
(R249, R255). -/
def Group.halts (g : Group) (sp : Split) : Bool :=
  match g.mark with
  | .stopping whole => whole || sp.window.isSome
  | .savedWhole => true
  | .none | .handler | .idled => false

/-- Is a split unable to issue in the sense of R150: at a boundary, at a join, parked, or stopped (R249). -/
def Group.cannotIssue (g : Group) (sp : Split) : Bool :=
  sp.frozen || g.halts sp || (match sp.st with
    | .boundary _ | .join | .parked _ _ _ _ _ => true
    | _ => false)

/-- A context whose groups are on the device and go on: it runs, or migrates out after having run (R107). -/
def Ctx.runs (x : Ctx) : Bool := decide (x.st = .running) || (decide (x.st = .migOut) && x.migRan)

/-- May a split issue: ready, in the table, not frozen, in a context that runs, in a group that no compaction holds. -/
def State.canIssue (s : State) (v : View) : Bool :=
  decide (v.sp.st = .ready) && decide (v.sp.place ≠ .dormant) && !v.sp.frozen && (s.ctx v.c).runs && !v.g.halts v.sp &&
  !s.compacts.any (fun e => e.2.gids.contains v.gid)

/-- A field of a slot replaced by its value plus a step, modulo 2 to its width (R175). -/
def bumpField (slot lo width : Nat) (step : Int) : Nat :=
  let old := slot / 2 ^ lo % 2 ^ width
  slot - old * 2 ^ lo + wrapNat width ((old : Int) + step) * 2 ^ lo

/-- The place of an increment's field (R84, R175). -/
def IncField.place : IncField → Nat × Nat
  | .f24 => (24, 9)
  | .f33 => (33, 9)
  | .f42 => (42, 9)
  | .f51 => (51, 9)
  | .disp => (51, 24)
  | .acc => (24, 5)

/-- A slot as a pass of a loop decodes it (R175). -/
def LoopSt.patch (lp : LoopSt) (pc : Dword) (slot : Nat) : Nat :=
  ([lp.inc0, lp.inc1, lp.inc2].filterMap id).foldl (fun w i =>
    if pc = seqPc (i.slot + 1) lp.pc ∧ i.slot < lp.len then
      bumpField w (IncField.place i.field).1 (IncField.place i.field).2 (i.delta * lp.pass.toNat)
    else w) slot

/-- The slot a split is about to issue, out of its line. -/
def Split.slotOf (sp : Split) (line : Nat) : Nat :=
  let w := lineSlot line (sp.pc.toNat % 64 / 12)
  match sp.loop with
  | some lp => lp.patch sp.pc w
  | none => w

/-- Splits put in order of age. -/
def byAge : Nat → List Split → List Split
  | 0, _ => []
  | n + 1, sps => match oldest sps with
    | none => []
    | some sp => sp :: byAge n (sps.filter (fun x => decide (x.sid ≠ sp.sid)))

/-- The first of some resident splits whose spill succeeds becomes dormant, and the ready split takes its entry (R150,
R393). -/
def State.swapFor (s : State) (gid : Nat) (d : Split) : List Split → Option State
  | [] => none
  | o :: os => match s.viewOf gid o.sid, o.place with
    | some v, .resident n => match s.spill v o with
      | .ok s1 => some ((s1.setSplit gid o.sid { o with place := .dormant, held := [] }).makeResident gid d n)
      | .error _ => s.swapFor gid d os
    | _, _ => s.swapFor gid d os

/-- SPLIT_SWAP (R150): the oldest ready dormant split takes a free entry, or that of the oldest resident split when none
of them can issue. -/
def execSplitSwap (gid : Nat) (s : State) : Host.Outcome State Fault Refusal :=
  event s (fun s => match fget s.groups gid with
    | none => none
    | some g => match g.dormantReady with
      | none => none
      | some d => match g.freeEntry with
        | some n => some (s.makeResident gid d n)
        | none =>
          let rs := g.splitsWhere (fun sp => sp.entry?.isSome)
          if rs.all g.cannotIssue then s.swapFor gid d (byAge rs.length (rs.filter (fun sp => !sp.mustIssue))) else none)

/-- The source bytes of units: read at this instant, or taken in turn from the reply of a peer or the host (R227). -/
def State.readUnits (s : State) (c : Nat) : List EngUnit → List Byte → List (Nat × List (Loc × Byte))
  | [], _ => []
  | u :: us, bs =>
    let far := (u.src.filter Loc.remote).length
    let vals := (u.src.foldl (fun (acc : List Byte × List Byte) l =>
      if l.remote then (acc.1 ++ [acc.2.headD 0], acc.2.tail) else (acc.1 ++ [s.readLoc c l], acc.2)) ([], bs)).1
    let data := if u.src = [] then u.dest.map (fun l => (l, (0 : Byte))) else u.dest.zip vals
    (u.ipn, data) :: s.readUnits c us (bs.drop far)

/-- A command that has read its sources, or met a refused or lost one (R334, R340). -/
def State.finishCmd (s : State) (c : Nat) (cmd : Cmd) (reply : Option (List Byte)) : Option Cmd :=
  let far := cmd.farSources
  if far = [] then some { cmd with st := .completed, writes := s.readUnits c cmd.units [] }
  else match reply with
    | none => some cmd.lose
    | some bs => if bs.length = far.length then some { cmd with st := .completed, writes := s.readUnits c cmd.units bs } else none

/-- ENGINE_COMPLETE (R334). -/
def execEngineComplete (tid rec : Nat) (reply : Option (List Byte)) (s : State) : Host.Outcome State Fault Refusal :=
  event s (fun s => match fget s.teams tid with
    | none => none
    | some t => match fget t.cmds rec, fget s.grids t.grid with
      | some cmd, some gr =>
        if cmd.st = .running then (s.finishCmd gr.ctx cmd reply).map (fun c =>
          (s.readLocs gr.ctx (cmd.units.flatMap (·.src))).setTeam tid { t with cmds := fset t.cmds rec c })
        else none
      | _, _ => none)

end Sys2Proof.Machine
end

