-- ==== Sys2Proof/Machine/Drain.lean ====
section
/-! DEFINITION. Boundaries: arrival, forming, the drain's parts and marks, landing, release (spec 09_step R184-R191,
R202-R211, R394, 10_memory R226-R231, 13_link R281, R282, R286, 15_isa_memory R334, R339, R340, R343). -/
namespace Sys2Proof.Machine

/-! Domains (R184). -/

/-- The scope of a domain. -/
def domScope : Domain → Scope
  | .team _ => .t
  | .die _ _ => .d
  | .grid _ => .g

/-- The number of the grid a domain belongs to. -/
def State.domGrid (s : State) : Domain → Option Nat
  | .team t => (fget s.teams t).map (·.grid)
  | .die g _ => some g
  | .grid g => some g

/-- Does a landing belong to a context. -/
def State.landsIn (s : State) (c : Nat) (l : Landing) : Bool :=
  decide (((s.domGrid l.dom).bind (fget s.grids)).map (·.ctx) = some c)

/-- Is a team of a domain. -/
def domHas (d : Domain) (tid : Nat) (t : Team) : Bool :=
  match d with
  | .team n => decide (tid = n)
  | .die g k => decide (t.grid = g) && decide (t.slice = k)
  | .grid g => decide (t.grid = g)

/-- The teams of a domain. -/
def State.domTeams (s : State) (d : Domain) : List (Nat × Team) := s.teams.filter (fun e => domHas d e.1 e.2)

/-- The groups of a domain. -/
def State.domGroups (s : State) (d : Domain) : List (Nat × Group) :=
  s.groups.filter (fun e => match fget s.teams e.2.tid with
    | some t => domHas d e.2.tid t
    | none => false)

/-- The last landed boundary of a domain. -/
def State.landed (s : State) : Domain → Word
  | .team t => ((fget s.teams t).map (·.landed)).getD 0
  | .die g k => ((fget s.grids g).map (fun gr => sget 0 gr.landedD k)).getD 0
  | .grid g => ((fget s.grids g).map (·.landedG)).getD 0

/-- The last landed boundary of a domain set. -/
def State.setLanded (s : State) (d : Domain) (b : Word) : State :=
  match d with
  | .team t => s.modTeam t (fun x => { x with landed := b })
  | .die g k => match fget s.grids g with
    | some gr => s.setGrid g { gr with landedD := sset 0 gr.landedD k b }
    | none => s
  | .grid g => match fget s.grids g with
    | some gr => s.setGrid g { gr with landedG := b }
    | none => s

/-- The landing of a domain that is under way. -/
def State.landing? (s : State) (d : Domain) : Option Landing := s.landings.find? (fun l => decide (l.dom = d))

/-- The landing of a domain replaced. -/
def State.setLanding (s : State) (l : Landing) : State :=
  { s with landings := s.landings.map (fun m => if m.dom = l.dom then l else m) }

/-! Arrival (R186). -/

/-- Does a split stand in a handler, or frozen under the pre-emption handler of its group. -/
def Group.inHandler (g : Group) (sp : Split) : Bool :=
  decide (sp.tdepth > 0) || g.splits.any (fun e => decide (e.2.place = .ninth))

/-- The lanes that keep an arrival at a scope from an earlier wait (R186). -/
def Arrivals.at (a : Arrivals) : Scope → LaneMask
  | .t => a.t
  | .d => a.d
  | .g => a.g

/-- Have all lanes of a split kept their arrival at a scope. -/
def Split.keptAt (sp : Split) (x : Scope) : Bool := decide (sp.mask &&& ~~~(sp.blank.at x) = 0)

/-- Does a split take boundary b at a scope as a blank step: it waits at a join or is parked outside every handler, or its
lanes have arrived so before (R186). -/
def Group.blankAt (g : Group) (sp : Split) (x : Scope) (b : Word) : Bool :=
  decide (sp.count x + 1 = b) && (sp.keptAt x || (!g.inHandler sp && (match sp.st with
    | .join | .parked _ _ _ _ _ => true
    | _ => false)))

/-- Have the lanes of a split arrived at boundary b of a scope. -/
def Group.arrived (g : Group) (sp : Split) (x : Scope) (b : Word) : Bool := countGe (sp.count x) b || g.blankAt sp x b

/-- The splits that stand for a group's lanes: a pre-emption handler stands beside the frozen ones. -/
def Group.members (g : Group) : List Split := g.splitsWhere (fun sp => decide (sp.place ≠ .ninth))

/-- Have the narrower boundaries of the step that reached boundary b landed (R198, R231). -/
def narrowDone (gr : Grid) (t : Team) (sp : Split) (x : Scope) (b : Word) : Bool :=
  if !countGe (sp.count x) b then true
  else
    let k := sp.count x - b
    match x with
    | .t => true
    | .d => countGe t.landed (sp.ct - k)
    | .g => countGe t.landed (sp.ct - k) && countGe (sget 0 gr.landedD t.slice) (sp.cd - k)

/-- The spoil entries of a group that land at boundary b of a scope (R194). -/
def Group.dueSpoil (g : Group) (x : Scope) (b : Word) : List Spoil :=
  g.spoil.filter (fun e => decide (e.scope = x) && decide (e.count + 1 = b))

/-- Is something of a team still to land at its own boundaries (R228, R394). -/
def State.teamDue (s : State) (tid : Nat) (t : Team) : Bool :=
  t.cmds.any (fun e => decide (e.2.st = .completed)) || decide (t.upds ≠ []) ||
  s.groups.any (fun e => decide (e.2.tid = tid) && e.2.spoil.any (fun x => decide (x.scope = .t)))

/-- Are all teams of a domain placed: the lanes of the others are members, fixed at launch, that have not arrived (R184). -/
def Grid.placedIn (gr : Grid) : Domain → Bool
  | .team _ => true
  | .die _ k => decide (sget 0 gr.nextTeam k ≥ gr.teams)
  | .grid _ => (List.range gr.dies).all (fun k => decide (sget 0 gr.nextTeam k ≥ gr.teams))

/-- Does a context wait for a cut: a latched round, or a migration that is to begin (R270, R289). -/
def Ctx.wantsCut (x : Ctx) : Bool := x.roundDue || (x.busy && decide (x.cmd = some 5))

/-- Is some other landing of a context under way with part of its cells updated: what a lane has loaded of it orders it before
the boundaries of that lane, which may not begin to land before the rest of it is there (R187, R191, R230). The model lets no
boundary of the context form meanwhile, whoever has loaded (log 6). -/
def State.partLanded (s : State) (c : Nat) (d : Domain) : Bool :=
  s.landings.any (fun l => decide (l.dom ≠ d) && decide (l.done ≠ []) && s.landsIn c l)

/-- May boundary b of a domain form (R184-R190, R230, R394); while a cut is waited for, and after a device-fatal error, none
does (R270, R278). -/
def State.mayForm (s : State) (d : Domain) (gr : Grid) (b : Word) : Bool :=
  let x := domScope d
  let gs := s.domGroups d
  decide ((s.ctx gr.ctx).stop = .none) && decide (s.mgmt.state ≠ 2) && !(s.ctx gr.ctx).wantsCut && gr.placedIn d && (s.ctx gr.ctx).runs && (s.landing? d).isNone &&
  !s.partLanded gr.ctx d &&
  gs.all (fun e => match fget s.teams e.2.tid with
    | some t => e.2.members.all (fun sp => e.2.arrived sp x b && narrowDone gr t sp x b)
    | none => false) &&
  (gs.any (fun e => decide (e.2.live ≠ 0)) || (match d with
    | .team tid => match fget s.teams tid with
      | some t => s.teamDue tid t
      | none => false
    | _ => gs.any (fun e => e.2.spoil.any (fun y => decide (y.scope = x)))))

/-! Forming (R187). -/

/-- A split that has taken boundary b by a blank step: the count is b, and the arrival is used up. -/
def Split.blankStep (sp : Split) (x : Scope) (b : Word) : Split :=
  match x with
  | .t => { sp with ct := b, blank := { sp.blank with t := 0 } }
  | .d => { sp with cd := b, blank := { sp.blank with d := 0 } }
  | .g => { sp with cg := b, blank := { sp.blank with g := 0 } }

/-- The blank steps of boundary b counted; lanes in a handler that had arrived before it have them in their return state
too (R186, R187). -/
def Group.takeBlanks (g : Group) (x : Scope) (b : Word) : Group :=
  { g with
    splits := fmapV (fun _ sp => if sp.place ≠ .ninth ∧ g.blankAt sp x b then sp.blankStep x b else sp) g.splits
    levels := fmapV (fun _ lv => { lv with ret := lv.ret.map (fun r =>
      if r.keptAt x ∧ r.count x + 1 = b then r.blankStep x b else r) }) g.levels }

/-- The contributions of a team's completed engine operations, in element order (R228, R338). -/
def Team.engineContribs (t : Team) (tid : Nat) : List Contrib :=
  (t.cmds.filter (fun e => decide (e.2.st = .completed))).flatMap (fun e =>
    (List.range e.2.writes.length).map (fun i =>
      let w := e.2.writes.getD i (0, [])
      { tid := tid, flat := t.flat, writer := .engine e.2.order, ord := i, rule := e.2.rule, width := e.2.width, bytes := w.2,
        cap := 0, v := false, vreg := 384, gid := 0, eseq := e.1, ea := 0, ipn := w.1 }))

/-- The contributions that land at boundary b of a domain (R187, R228). -/
def State.dueContribs (s : State) (d : Domain) (b : Word) : List Contrib :=
  (s.domGroups d).flatMap (fun e => match fget s.teams e.2.tid with
    | some t => (e.2.dueSpoil (domScope d) b).flatMap (entryContribs e.1 e.2 t)
    | none => []) ++
  (match d with
    | .team tid => match fget s.teams tid with
      | some t => t.engineContribs tid
      | none => []
    | _ => [])

/-- The group that a contribution's part is tagged with; an engine operation's is tagged with none. -/
def Contrib.partGroup (c : Contrib) : Nat :=
  match c.writer with
  | .lane g _ => g + 1
  | .engine _ => 0

/-- Does a contribution belong to the ordered class (R204). -/
def Contrib.orderedIn (c : Contrib) (det : Bool) : Bool := c.v || decide (c.rule = .cap) || (det && decide (c.rule = .sumF))

/-- The die that a contribution leaves from: that of its group's quadrant, or of its team's home core. -/
def State.dieOf (s : State) (c : Contrib) : Nat :=
  match c.writer with
  | .lane _ _ => ((fget s.groups c.gid).map (fun g => g.quad / 192)).getD 0
  | .engine _ => ((fget s.teams c.tid).map (·.die)).getD 0

/-- The parts of a landing: one for each team, group, cell and rule (R202, R203), all in their cores. -/
def State.partsOf (s : State) (det : Bool) (cs : List Contrib) : FMap Part :=
  let keys := distinct (cs.flatMap (fun c => c.cells.map (fun l => (c.tid, c.partGroup, l, c.rule))))
  (List.range keys.length).filterMap (fun i => (keys[i]?).bind (fun k =>
    let mine := cs.filter (fun c =>
      decide (c.tid = k.1) && decide (c.partGroup = k.2.1) && c.cells.contains k.2.2.1 && decide (c.rule = k.2.2.2))
    (mine.head?).map (fun c0 =>
      (i, { tid := k.1, group := k.2.1, die := s.dieOf c0, home := s.homeOf k.2.2.1, cell := k.2.2.1, rule := k.2.2.2
            ordered := mine.any (·.orderedIn det), stage := .core }))))

/-- BOUNDARY_FORM (R187). -/
def execBoundaryForm (d : Domain) (s : State) : Host.Outcome State Fault Refusal :=
  event s (fun s => match (s.domGrid d).bind (fun n => fget s.grids n) with
    | none => none
    | some gr =>
      let b := s.landed d + 1
      if !s.mayForm d gr b then none
      else
        let cs := sortC (s.dueContribs d b)
        let l : Landing :=
          { dom := d, b := b, base := s.fresh, contribs := cs, parts := s.partsOf gr.det cs, marks := [],
            teams := (s.domTeams d).map (fun e => (e.2.flat, e.1)), replay := [], done := [], verdicts := [], late := [],
            engines := match d with
              | .team tid => match fget s.teams tid with
                | some t => (t.cmds.filter (fun e => decide (e.2.st = .completed))).map (fun e => (tid, e.1))
                | none => []
              | _ => []
            peers := s.nextMsg }
        let s1 := (s.domGroups d).foldl (fun (t : State) e => t.modGroup e.1 (fun g => g.takeBlanks (domScope d) b)) s
        let s2 := l.engines.foldl (fun (t : State) e => t.modTeam e.1 (fun tm => match fget tm.cmds e.2 with
          | some c => { tm with cmds := fset tm.cmds e.2 { c with st := .landing } }
          | none => tm)) s1
        some { s2 with landings := s2.landings ++ [l], fresh := s2.fresh + (cs.length + 1) * choices cs })

/-! The drain (R202-R207). -/

/-- A part of a landing replaced. -/
def Landing.setPart (l : Landing) (n : Nat) (p : Part) : Landing := { l with parts := fset l.parts n p }

/-- The die link controller that a part leaves its die through, by the memory die of its home (R10). -/
def Part.dlc (p : Part) : Nat :=
  match p.home with
  | .slice n => n / 16
  | .memDie n => n
  | .core _ | .fe => 4

/-- Do two parts share an entry of a merge buffer: one team, one cell, one rule (R203). -/
def Part.joins (p q : Part) : Bool := decide (p.tid = q.tid) && decide (p.cell = q.cell) && decide (p.rule = q.rule)

/-- The entries of the merge buffer of a die link controller that a landing holds (R203). -/
def Landing.buffer (l : Landing) (die dlc : Nat) : List (Nat × Loc × Rule) :=
  distinct ((l.parts.filter (fun q => decide (q.2.stage = .buffered) && decide (q.2.die = die) && decide (q.2.dlc = dlc))).map
    (fun q => (q.2.tid, q.2.cell, q.2.rule)))

/-- What the merge buffer does with a part that reaches it: an entry of its team, cell and rule takes it up, a free one of the
64 is opened for it, and with none free it passes on with its tags (R203). -/
def State.bufferAt (s : State) (l : Landing) (p : Part) : Stage :=
  if (l.buffer p.die p.dlc).contains (p.tid, p.cell, p.rule) ∨
    (s.landings.map (fun m => (m.buffer p.die p.dlc).length)).sum < 64 then .buffered else .passing

/-- A landing after some of its parts have moved: every cell whose parts are all applied is updated (R187, R198). -/
def State.drained (s : State) (l : Landing) : State :=
  match (s.domGrid l.dom).bind (fget s.grids) with
  | none => s.setLanding l
  | some gr =>
    let r := s.landCells gr.ctx gr.det l
    r.1.setLanding r.2

/-- MERGE_BUFFER_PART (R203): a part that is not homed on a core leaves its own for the die link controller on its way to a
crusher, or to the memory die or the FE die that resolves it (R10, R193, R202). -/
def execMergeBufferPart (d : Domain) (n : Nat) (s : State) : Host.Outcome State Fault Refusal :=
  event s (fun s => match s.landing? d with
    | none => none
    | some l => match fget l.parts n with
      | none => none
      | some p => match p.stage, p.home with
        | .core, .core _ => none
        | .core, _ => some (s.setLanding (l.setPart n { p with stage := s.bufferAt l p }))
        | _, _ => none)

/-- The flat index of a team in a landing. -/
def Landing.flatOf (l : Landing) (tid : Nat) : Nat := ((l.teams.find? (fun e => decide (e.2 = tid))).map (·.1)).getD 0

/-- Is the drain-end mark of a team at a home. -/
def Landing.marked (l : Landing) (h : Home) (flat : Nat) : Bool := l.marks.contains (h, flat)

/-- Is a part still on its way to its home. -/
def Stage.under : Stage → Bool
  | .core | .buffered | .passing => true
  | .held | .refused | .applied => false

/-- The parts of a team for a cell. -/
def Landing.partsFor (l : Landing) (tid : Nat) (cell : Loc) : List (Nat × Part) :=
  l.parts.filter (fun q => decide (q.2.tid = tid) && decide (q.2.cell = cell))

/-- May a part of the ordered class be applied: its team's parts for the cell are complete and its mark is there, and every
lower team has had its part for the cell applied or has none and has sent its mark (R204). -/
def Landing.inTurn (l : Landing) (p : Part) : Bool :=
  let f := l.flatOf p.tid
  l.marked p.home f && (l.partsFor p.tid p.cell).all (fun q => !q.2.stage.under) &&
  l.teams.all (fun e => decide (e.1 ≥ f) ||
    (let mine := l.partsFor e.2 p.cell
     mine.all (fun q => decide (q.2.stage = .applied)) && (decide (mine ≠ []) || l.marked p.home e.1)))

/-- Is a cell blocked: a part for it has been refused (R205). -/
def Landing.blocked (l : Landing) (cell : Loc) : Bool :=
  l.parts.any (fun q => decide (q.2.cell = cell) && decide (q.2.stage = .refused))

/-- The entries of a home's holding buffer: one for each cell and team (R204). -/
def Landing.holding (l : Landing) (h : Home) : List (Loc × Nat) :=
  distinct ((l.parts.filter (fun q => decide (q.2.home = h) && decide (q.2.stage = .held))).map (fun q => (q.2.cell, q.2.tid)))

/-- Held parts of a home applied as their turn comes, k at most. -/
def Landing.release (l : Landing) (h : Home) : Nat → Landing
  | 0 => l
  | k + 1 => match l.parts.find? (fun q => decide (q.2.home = h) && decide (q.2.stage = .held) && !l.blocked q.2.cell && l.inTurn q.2) with
    | some q => (l.setPart q.1 { q.2 with stage := .applied }).release h k
    | none => l

/-- Some parts of a landing brought to a stage. -/
def Landing.stage (l : Landing) (ps : List (Nat × Part)) (st : Stage) : Landing :=
  ps.foldl (fun m q => m.setPart q.1 { q.2 with stage := st }) l

/-- Parts of one team for one cell reach their home together: they are refused, applied, or held; parts held are applied at
once if they are in turn, and then those that waited for them. The holding buffer's 16 entries are shared by the landings that
are under way (R204, R205, R207). -/
def State.arrive (s : State) (l : Landing) (p : Part) (ps : List (Nat × Part)) : Landing :=
  let others := (s.landings.filter (fun m => decide (m.dom ≠ l.dom))).map (fun m => (m.holding p.home).length)
  let held := l.stage ps .held
  if l.blocked p.cell then l.stage ps .refused
  else if ps.all (fun q => !q.2.ordered) then (l.stage ps .applied).release p.home l.parts.length
  else if held.inTurn p ∨ (l.holding p.home).contains (p.cell, p.tid) ∨ others.sum + (l.holding p.home).length < 16 then
    held.release p.home l.parts.length
  else l.stage ps .refused

/-- May a part leave for its home: out of a merge buffer a float sum leaves once its team's mark has passed (R203). -/
def Landing.leaves (l : Landing) (p : Part) : Bool :=
  match p.stage, p.home with
  | .passing, _ => true
  | .core, .core _ => true
  | .buffered, h => decide (p.rule ≠ .sumF) || l.marked h (l.flatOf p.tid)
  | _, _ => false

/-- CRUSHER_PART (R204): a part reaches its home; those that a merge buffer has combined arrive together. -/
def execCrusherPart (d : Domain) (n : Nat) (s : State) : Host.Outcome State Fault Refusal :=
  event s (fun s => match s.landing? d with
    | none => none
    | some l => match fget l.parts n with
      | none => none
      | some p =>
        if !l.leaves p then none
        else
          let mates := l.parts.filter (fun q => decide (q.1 = n) ||
            (decide (p.stage = .buffered) && decide (q.2.stage = .buffered) && decide (q.2.die = p.die) && p.joins q.2))
          some (s.drained (s.arrive l p mates)))

/-- DRAIN_END_MARK (R202, R204): it follows the team's last part, and releases what was held for it. -/
def execDrainEndMark (d : Domain) (h : Home) (tid : Nat) (s : State) : Host.Outcome State Fault Refusal :=
  event s (fun s => match s.landing? d with
    | none => none
    | some l =>
      let sent := l.parts.all (fun q => decide (q.2.tid ≠ tid) || decide (q.2.home ≠ h) || decide (q.2.stage ≠ .core))
      if l.teams.any (fun e => decide (e.2 = tid)) && sent && !l.marked h (l.flatOf tid) then
        some (s.drained (({ l with marks := l.marks ++ [(h, l.flatOf tid)] }).release h l.parts.length))
      else none)

/-- ORDERED_REPLAY (R205): with every mark at the home, the token visits the teams in order, and the blocked cells' parts
are applied in that order. -/
def execOrderedReplay (d : Domain) (h : Home) (s : State) : Host.Outcome State Fault Refusal :=
  event s (fun s => match s.landing? d with
    | none => none
    | some l =>
      let here := fun (q : Nat × Part) => decide (q.2.home = h)
      if l.teams.all (fun e => l.marked h e.1) && l.parts.any (fun q => here q && decide (q.2.stage = .refused)) &&
          l.parts.all (fun q => !here q || !q.2.stage.under) then
        let l1 : Landing := { l with
          replay := l.replay ++ [h]
          parts := l.parts.map (fun q => if here q ∧ l.blocked q.2.cell then (q.1, { q.2 with stage := Stage.applied }) else q) }
        some (s.drained (l1.release h l1.parts.length))
      else none)

/-! Landing (R187, R198). -/

/-- The order in which several pending updates of one entry or counter stand: the least writer key (R226, R343). -/
def Upd.before (a b : Upd) : Bool :=
  decide (a.group < b.group) || (decide (a.group = b.group) &&
    (decide (a.lane < b.lane) || (decide (a.lane = b.lane) && decide (a.ord < b.ord))))

/-- One pending update applied. -/
def Team.applyUpd (t : Team) (u : Upd) : Team :=
  match u.kind with
  | .ctrset => t.setCtr u.index (BitVec.ofNat 32 u.value.toNat)
  | _ => { t with tags := sset 0 t.tags u.index u.value }

/-- Are two updates of one entry or of one counter. -/
def Upd.sameCell (a b : Upd) : Bool := decide (a.index = b.index) && decide ((a.kind = .ctrset) = (b.kind = .ctrset))

/-- The updates that land at boundary b of a team: for each entry or counter that of the least writer key. -/
def Team.landUpds (t : Team) (b : Word) : Team :=
  let due := t.upds.filter (fun u => decide (u.count + 1 = b))
  let win := due.filter (fun u => due.all (fun w => !w.sameCell u || !w.before u))
  { (win.foldr (fun u x => x.applyUpd u) t) with upds := t.upds.filter (fun u => decide (u.count + 1 ≠ b)) }

/-- A landed command: its counter advances by the byte count, err is noted, and the record is free (R333, R334, R340). -/
def Team.landCmd (t : Team) (rec : Nat) : Team :=
  match fget t.cmds rec with
  | none => t
  | some c =>
    let old := sget 0 t.ctrs c.ctr
    let value := (old.toNat + c.count) % 2 ^ 32
    let flags := old.toNat / 2 ^ 32 ||| (if c.err then 2 else 0)
    { t with ctrs := sset 0 t.ctrs c.ctr (BitVec.ofNat 34 (flags * 2 ^ 32 + value)), cmds := fdel t.cmds rec }

/-- The last landed boundary of a team's domain of a scope. -/
def Grid.landedAt (gr : Grid) (t : Team) : Scope → Word
  | .t => t.landed
  | .d => sget 0 gr.landedD t.slice
  | .g => gr.landedG

/-- Have the boundaries landed that a split waits for: those that its counts name at a scope and every narrower one (R187,
R188). -/
def Grid.passed (gr : Grid) (t : Team) (sp : Split) (x : Scope) : Bool :=
  countGe t.landed sp.ct && (decide (x = .t) || countGe (sget 0 gr.landedD t.slice) sp.cd) &&
  (decide (x ≠ .g) || countGe gr.landedG sp.cg)

/-- The resume condition of a parked split: the boundary that closes its own interval has landed, its counter has reached the
target, and the flags it names are clear (R211). -/
def Group.resumes (g : Group) (gr : Grid) (t : Team) : SplitState → Bool
  | .parked x n w m c =>
    countGe (gr.landedAt t x) c && countGe (BitVec.setWidth 32 (sget 0 t.ctrs n)) w && !flagsMeet g.pendingFlags m
  | _ => false

/-- The arrivals of a parked split that resumes at the landing of a boundary of a scope: its lanes keep those at the other
scopes (R186); at that boundary's own it has passed what landed, and takes part in the next by its own steps (log 47). -/
def Split.resumedAt (sp : Split) : Scope → Arrivals
  | .t => ⟨0, sp.mask, sp.mask⟩
  | .d => ⟨sp.mask, 0, sp.mask⟩
  | .g => ⟨sp.mask, sp.mask, 0⟩

/-- A member split after the landing of a boundary of a scope: released, or its resume condition tested (R187, R211). -/
def Group.afterLanding (g : Group) (gr : Grid) (t : Team) (y : Scope) (sp : Split) : Split :=
  match sp.st with
  | .boundary x => if gr.passed t sp x then { sp with st := .ready, entered := true } else sp
  | .parked _ _ _ _ _ =>
    if g.resumes gr t sp.st then { sp.advance with st := .ready, entered := true, blank := sp.resumedAt y } else sp
  | _ => sp

/-- The members of a domain released or tested. -/
def State.releaseDom (s : State) (d : Domain) : State :=
  (s.domGroups d).foldl (fun (u : State) e => u.modGroup e.1 (fun g =>
    match fget u.teams g.tid with
    | some t => match fget u.grids t.grid with
      | some gr => { g with splits := fmapV (fun _ sp => g.afterLanding gr t (domScope d) sp) g.splits }
      | none => g
    | none => g)) s

/-- Peer writes applied to the memory of their context (R282). -/
def State.applyPeers (s : State) (c : Nat) (sel : PeerWrite → Bool) : State :=
  let t := (s.inbox.filter (fun w => decide (w.ctx = c) && sel w)).foldl (fun u w =>
    w.bytes.foldl (fun v b => v.writeLoc c b.1 (.dram b.2.1) b.2.2) u) s
  { t with inbox := s.inbox.filter (fun w => !(decide (w.ctx = c) && sel w)) }

/-- The replies of the cells that a boundary sent out. -/
def State.sentOf (s : State) (d : Domain) (b : Word) : List SentWrite :=
  s.sentw.filter (fun w => decide (w.src = SentBy.boundary d b))

/-- Is every part of a landing applied, and what it sent out answered. -/
def State.allApplied (s : State) (l : Landing) : Bool :=
  l.parts.all (fun q => decide (q.2.stage = .applied)) &&
  (s.sentOf l.dom l.b).all (fun w => w.reply.isSome)

/-- BOUNDARY_LANDED (R187, R198): the whole update at once, then counters, tags and counts, then the waiting splits. -/
def execBoundaryLanded (d : Domain) (s : State) : Host.Outcome State Fault Refusal :=
  event s (fun s => match s.landing? d, (s.domGrid d).bind (fun n => fget s.grids n) with
    | some l, some gr =>
      if !s.allApplied l then none
      else
        let lost := ((s.sentOf d l.b).filter (fun w => decide (w.reply = some false))).map (fun w => (w.cell, 1))
        let s0 := match d with
          | .grid _ => s.applyPeers gr.ctx (fun w => decide (w.id < l.peers))
          | _ => s
        let sU := match d with
          | .team tid => s0.modTeam tid (fun x => x.landUpds l.b)
          | _ => s0
        let s1 := sU.landRest gr.ctx gr.det (l.baseOf l.contribs.length) (l.late ++ lost) l.done l.verdicts l.contribs
        let s2 := (s.domGroups d).foldl (fun (t : State) e => t.modGroup e.1 (fun g =>
          { g with spoil := g.spoil.filter (fun y => !(decide (y.scope = domScope d) && decide (y.count + 1 = l.b))) })) s1
        let s3 := match d with
          | .team _ => l.engines.foldl (fun (t : State) (e : Nat × Nat) => t.modTeam e.1 (fun x => x.landCmd e.2)) s2
          | _ => s2
        let s4 := { s3 with
          landings := s3.landings.filter (fun m => decide (m.dom ≠ d))
          sentw := s3.sentw.filter (fun w => decide (w.src ≠ SentBy.boundary d l.b)) }
        some ((s4.setLanded d l.b).releaseDom d)
    | _, _ => none)

end Sys2Proof.Machine
end

