-- ==== Sys2Proof/Machine/Priv.lean ====
section
/-! DEFINITION. The privileged registers and `mfk`, `mtk`, `tlbinv` (spec 05_context R98-R106, 06_queue R129,
11_traps R238-R240, 12_page R264, R268). -/
namespace Sys2Proof.Machine

/-- All bits of a width. -/
def ones (n : Nat) : Nat := 2 ^ n - 1

/-- The RW fields of a privileged register, as a mask. -/
def rwMask : PReg → Nat
  | .kuDet => 0x100
  | .kuFnver => 0xF00
  | .ksStatus => 0x100
  | .ksEpc | .ksTvec | .ksPvec | .khPdesc | .khSarea | .khHvec => ones 64
  | .ksPtbase => (ones 31) * 2 ^ 21 + 1
  | .ksScring => 7 * 2 ^ 61 + (ones 45) * 2 ^ 12
  | .ksScsize => 0x11F
  | .khCsel | .khMemkey => 0x3F
  | .khSalen => ones 32
  | .khQos => 0xFF07FFFF
  | .khVf => 0x7F
  | .khPtbase2 => (ones 39) * 2 ^ 13
  | .kuTime | .ksCause | .ksTval | .ksLmask | .ksAmask | .ksPhys | .khCtl | .khFwver => 0

/-- The RO and WO fields of a privileged register, as a mask: a write leaves or consumes them, and only the bits outside
these and the RW fields are RV. -/
def roMask : PReg → Nat
  | .kuDet => 1
  | .kuFnver => 0xF
  | .kuTime | .ksTval => ones 64
  | .ksStatus => 0xF
  | .ksCause => 0xF3FF
  | .ksLmask | .ksAmask | .khFwver => ones 32
  | .ksPhys => 0x3E007FF
  | .khCtl => 0x80FF0F0F
  | _ => 0

/-- Is a value a PC (R239). -/
def isPc (x : Nat) : Bool := decide (x % 64 % 12 = 0) && decide (x % 64 ≤ 48) && decide (x < 2 ^ 57)

/-- A value that `mtk` refuses with the illegal-value trap and a window ignores (R5, R99, R104). -/
def illegalValue (x : Ctx) (k : PReg) (v : Nat) : Bool :=
  decide (v - (v &&& (rwMask k ||| roMask k)) ≠ 0) || (match k with
    | .kuFnver => decide (bits v 11 8 ≠ 1) && decide (bits v 11 8 ≠ 2)
    | .khQos => decide (bits v 15 8 = 0) || decide (bits v 7 0 = 0)
    | .khSalen => decide (v % 4096 ≠ 0)
    | .ksScsize => decide (bits v 4 0 > 12) || (decide (bits v 4 0 ≠ 0) && decide (bits x.scring.toNat 63 61 ≠ 7))
    | .ksTvec | .ksPvec | .khHvec => !isPc v
    | .khCtl => decide (bits v 3 0 ≥ 10)
    | _ => false)

/-- The code of a context state (R106). -/
def CtxState.code : CtxState → Nat
  | .free => 0
  | .scrubbing => 1
  | .bound => 2
  | .running => 3
  | .preempted => 4
  | .migOut => 5
  | .migIn => 6
  | .disabled => 7

/-- The mode field (R93). -/
def Mode.code : Mode → Nat
  | .user => 0
  | .sup => 1
  | .hyp => 2

/-- A register that exists once per context or once per device, as a window reads it (R98, R99). Split registers are not
here. -/
def State.ctxReg (s : State) (c : Nat) (k : PReg) : Nat :=
  let x := s.ctx c
  match k with
  | .kuDet => 0x101 * b2n x.pdet
  | .kuFnver => 0x101 * x.pver
  | .kuTime => s.time % 2 ^ 64
  | .ksStatus => 0x100 * b2n x.swip
  | .ksTvec => x.tvec.toNat
  | .ksPvec => x.pvec.toNat
  | .ksPtbase => x.ptbase.toNat
  | .ksScring => x.scring.toNat
  | .ksScsize => x.scsize.toNat
  | .khCtl => 2 ^ 31 * b2n x.busy + 2 ^ 16 * x.err + 2 ^ 8 * x.st.code
  | .khCsel => s.csel
  | .khPdesc => x.pdesc.toNat
  | .khSarea => x.sarea.toNat
  | .khSalen => x.salen.toNat
  | .khQos => x.qos.toNat
  | .khVf => x.vf.toNat
  | .khPtbase2 => x.ptbase2.toNat
  | .khMemkey => x.memkey.toNat
  | .khHvec => x.hvec.toNat
  | .khFwver => s.fwver.toNat
  | .ksCause | .ksEpc | .ksTval | .ksLmask | .ksAmask | .ksPhys => 0

/-- `ks_cause` of a level (R238). -/
def TrapLevel.causeWord (lv : TrapLevel) : Nat := lv.sub * 2 ^ 12 + lv.from_.code * 2 ^ 8 + lv.cause

/-- `ks_phys` of a group (R102). -/
def Group.phys (g : Group) : Nat := g.slot * 2 ^ 21 + g.quad

/-- A split register of a split: its own trap level's values, zero without one (R99, R102, R238). -/
def splitReg (x : Ctx) (g : Group) (sp : Split) (k : PReg) (l : Nat) : Nat :=
  let lv := sp.lv.bind (fget g.levels)
  match k, lv with
  | .ksStatus, _ => 0x100 * b2n x.swip + 4 * sp.tdepth + sp.mode.code
  | .ksPhys, _ => g.phys
  | .ksCause, some t => t.causeWord
  | .ksEpc, some t => t.epc.toNat
  | .ksTval, some t => (sget 0 t.tval l).toNat
  | .ksLmask, some t => t.lmask.toNat
  | .ksAmask, some t => t.amask.toNat
  | _, _ => 0

/-- Is a register one of the split registers, which a lane reads of its own split (R99). -/
def isSplitReg : PReg → Bool
  | .ksStatus | .ksCause | .ksEpc | .ksTval | .ksLmask | .ksAmask | .ksPhys => true
  | _ => false

/-- The context whose copy of a register a split's `mfk` or `mtk` reaches (R99). -/
def State.regCtx (s : State) (v : View) (k : PReg) : Nat :=
  match k with
  | .khCtl | .khPdesc | .khSarea | .khSalen | .khQos | .khVf | .khPtbase2 | .khMemkey | .khHvec => s.csel
  | _ => v.c

/-- The value of a privileged register as a lane sees it (R99, R101). -/
def State.readReg (s : State) (v : View) (k : PReg) (l : Nat) : Nat :=
  match k with
  | .kuDet => 0x100 * b2n (s.ctx v.c).pdet + b2n v.gr.det
  | .kuFnver => 0x100 * (s.ctx v.c).pver + v.gr.fnver
  | _ => if isSplitReg k then splitReg (s.ctx v.c) v.g v.sp k l else s.ctxReg (s.regCtx v k) k

/-- The rank by which a window chooses among handler splits: depth, launch of the grid, flat team, group (R99). -/
def windowRank (sp : Split) (grid flat idx : Nat) : List Nat := [sp.tdepth, grid, flat, idx, lowestLane sp.mask]

/-- Lists of numbers of one length, the first difference deciding. -/
def lexBefore : List Nat → List Nat → Bool
  | a :: as, b :: bs => decide (a < b) || (decide (a = b) && lexBefore as bs)
  | _, _ => false

/-- The handler split whose values a window of a context returns (R99). -/
def State.windowSplit (s : State) (c : Nat) : Option (List Nat × Group × Split) :=
  let all := s.groups.flatMap (fun e => match fget s.teams e.2.tid with
    | none => []
    | some t => match fget s.grids t.grid with
      | none => []
      | some gr =>
        if gr.ctx = c then
          (e.2.splitsWhere (fun sp => decide (sp.tdepth > 0))).map (fun sp => (windowRank sp t.grid t.flat e.2.idx, e.2, sp))
        else [])
  all.foldl (fun acc x => match acc with
    | none => some x
    | some y => if lexBefore x.1 y.1 then some x else some y) none

/-- A register of a context as a read of the physical function's window returns it (R99, R102). -/
def State.windowRead (s : State) (c : Nat) (k : PReg) : Nat :=
  if isSplitReg k then
    match s.windowSplit c with
    | some (_, g, sp) => splitReg (s.ctx c) g sp k (lowestLane sp.mask)
    | none => s.ctxReg c k
  else s.ctxReg c k

/-- The start of a context command (R106). A PREEMPT that its state accepts stops boundaries from this moment (R189), and
a DISABLE cuts short what runs. -/
def State.startCmd (s : State) (c cmd : Nat) : State :=
  let x := s.ctx c
  if cmd = 0 then s
  else if x.busy ∧ cmd ≠ 8 then s.setCtx c { x with err := 2 }
  else
    let stop := if cmd = 3 ∧ (x.st = .running ∨ x.st = .migOut) then Stop.preempt else x.stop
    s.setCtx c { x with busy := true, err := 0, cmd := some cmd, cutShort := x.busy, stop := stop, reqTime := s.time }

/-- A legal value written to a per-context or device register: its RW fields, and the command of `kh_ctl` (R104). The write takes
effect in the step that makes it; a command of `kh_ctl` only starts there and runs as steps of its own (R105, R106). -/
def State.putReg (s : State) (c : Nat) (k : PReg) (v : Nat) : State :=
  let x := s.ctx c
  let w := v &&& rwMask k
  let d := BitVec.ofNat 64 w
  let u := BitVec.ofNat 32 w
  match k with
  | .kuDet => s.setCtx c { x with pdet := bit w 8 }
  | .kuFnver => s.setCtx c { x with pver := bits w 11 8 }
  | .ksStatus => s.setCtx c { x with swip := bit w 8 }
  | .ksTvec => s.setCtx c { x with tvec := d }
  | .ksPvec => s.setCtx c { x with pvec := d }
  | .ksPtbase => s.setCtx c { x with ptbase := d }
  | .ksScring => s.setCtx c { x with scring := d }
  | .ksScsize => s.setCtx c { x with scsize := u }
  | .khCtl => s.startCmd c (bits v 3 0)
  | .khCsel => { s with csel := w }
  | .khPdesc => s.setCtx c { x with pdesc := d }
  | .khSarea => s.setCtx c { x with sarea := d }
  | .khSalen => s.setCtx c { x with salen := u }
  | .khQos => s.setCtx c { x with qos := u }
  | .khVf => s.setCtx c { x with vf := u }
  | .khPtbase2 => s.setCtx c { x with ptbase2 := d }
  | .khMemkey => s.setCtx c { x with memkey := u }
  | .khHvec => s.setCtx c { x with hvec := d }
  | .kuTime | .ksCause | .ksEpc | .ksTval | .ksLmask | .ksAmask | .ksPhys | .khFwver => s

/-- A legal value written by a split: `ks_epc` goes to its own trap level (R99). The split's next instruction sees it (R105). -/
def State.writeReg (s : State) (v : View) (k : PReg) (x : Nat) : State :=
  match k, v.sp.lv with
  | .ksEpc, some lid => s.modGroup v.gid (fun g => match fget g.levels lid with
    | some lv => { g with levels := fset g.levels lid { lv with epc := BitVec.ofNat 64 x } }
    | none => g)
  | _, _ => s.putReg (s.regCtx v k) k x

/-- `mfk` (R104). -/
def execMfk (h : Hdr) (d : Nat) (k : PReg) (s : State) : Host.Outcome State Fault Refusal :=
  issue (.mfk h d k) s (fun s v =>
    s.finish v ((maskLanes (v.part h)).flatMap (fun l => writesN l d (if k.wide then 2 else 1) (s.readReg v k l))) 0)

/-- `mtk` (R104): the lowest lane that passes the guard gives the value. The write takes effect in this step, so the next
instruction sees it; a command of `kh_ctl` is started here and ends by a step of its own (R105). -/
def execMtk (h : Hdr) (r : Nat) (k : PReg) (s : State) : Host.Outcome State Fault Refusal :=
  issue (.mtk h r k) s (fun s v =>
    let p := v.part h
    if p = 0 then s.retire v
    else
      let x := v.g.rdN r (if k.wide then 2 else 1) (lowestLane p)
      if illegalValue (s.ctx (s.regCtx v k)) k x then s.trapNow v (trapAll p 0x05 v.sp.pc 0)
      else (s.writeReg v k x).retire v)

/-- Does `tlbinv` remove an entry (R268). Its lanes name one page each; every entry of the same 1 GiB, the largest leaf
there is, goes, for an entry that is not kept is only walked again (R267). -/
def tlbHit (k : TlbKind) (c csel : Nat) (names : List Nat) (e : TlbEntry) : Bool :=
  match k with
  | .all => decide (e.ctx = c)
  | .va => decide (e.ctx = c) && names.any (fun n => decide (bits n 56 30 = e.vpn / 2 ^ 18))
  | .ipa => decide (e.ctx = csel) && names.any (fun n => decide (n / 2 ^ 30 = e.ipn / 2 ^ 18))
  | .ctx => decide (e.ctx = csel)

/-- `tlbinv` (R268). -/
def execTlbinv (h : Hdr) (k : TlbKind) (a : Nat) (s : State) : Host.Outcome State Fault Refusal :=
  issue (.tlbinv h k a) s (fun s v =>
    let names := (maskLanes v.sp.mask).map (fun l => (v.g.rd64 a l).toNat)
    { s.retire v with tlb := s.tlb.filter (fun e => !tlbHit k v.c s.csel names e) })

end Sys2Proof.Machine
end

