-- ==== Sys2Proof/Machine/Pages.lean ====
section
/-! DEFINITION. Stage control, snapshots, pre-copy rounds, page moves, the scrub engine (spec 12_page R265-R276, 13_link
R289-R291). -/
namespace Sys2Proof.Machine

/-! The stage control page (R265). -/

/-- A field of the stage control page. -/
def State.stageField (s : State) (c o n : Nat) : Nat := s.readN s.fwKey (s.stagePage c + o) n

/-- A 4-byte cell of the stage control page written by the device. -/
def State.putStage (s : State) (c o v : Nat) : State := s.writeBytes s.fwKey (s.stagePage c + o) (leBytes 4 v)

/-- The hypervisor's fields read (R265). -/
def State.loadStage (s0 : State) (c : Nat) : State :=
  let s := s0.seen c (linesOf (s0.stagePage c) 84)
  let x := s.ctx c
  s.setCtx c { x with stage := { x.stage with
    map0 := s.stageField c 0 8, map1 := s.stageField c 8 8, mlen := s.stageField c 16 4
    track := bit (s.stageField c 20 4) 0, pool := s.stageField c 24 8, pent := s.stageField c 32 4 } }

/-- A range added to disjoint ones, less what they hold already: each line is pending once. -/
def addRange (acc : List (Nat × Nat)) (r : Nat × Nat) : List (Nat × Nat) :=
  acc ++ acc.foldl (fun ps q => ps.flatMap (lessRange q)) (if r.1 < r.2 then [r] else [])

/-- The ranges of the scrub list, at most 256, in whole 4 KiB pages and without repeats (R265, R274). The list is not among what
R273 enciphers under the firmware key, so its lines move under the context's. -/
def State.scrubList (s : State) (c : Nat) : List (Nat × Nat) :=
  let slist := s.stageField c 40 8
  let word (i : Nat) : Nat := s.readN (s.keyAt c (slist + 8 * i)) (slist + 8 * i) 8 / 4096 * 4096
  (List.range (min 256 (s.stageField c 48 4))).foldl (fun acc i => addRange acc (word (2 * i), word (2 * i) + word (2 * i + 1))) []

/-- The stage fields of a context at BIND or MIGRATE_IN: the hypervisor's read afresh, the device's own at zero and written to
their cells, the scrub list pending (R265, R274). -/
def State.openStage (s : State) (c : Nat) : State :=
  let s1 := (s.setCtx c { s.ctx c with stage := Stage2.reset }).loadStage c
  let y := { s1.ctx c with scrub := s1.scrubList c }
  ((s1.syncStage c).putStage c 52 y.sleft).setCtx c y

/-! Cuts and snapshots (R270, R271). -/

/-- A cut can be made: nothing of the context is landing. -/
def State.cutFree (s : State) (c : Nat) : Bool := s.landings.all (fun l => !s.landsIn c l)

/-- The pages whose bits are set in a dirty map. -/
def State.mapPages (s : State) (c map mlen : Nat) : List Nat :=
  (List.range mlen).flatMap (fun i =>
    let b := s.readByte (s.keyAt c (map + i)) (map + i)
    ((List.range 8).filter b.getLsbD).map (fun j => 8 * i + j))

/-- The bytes of a dirty map written to zero. -/
def State.clearMap (s : State) (c map mlen : Nat) : State :=
  (List.range mlen).foldl (fun (t : State) i => t.writeByte (t.keyAt c (map + i)) (map + i) 0) s

/-- A snapshot at a cut, with the pages of its delta map (R270). -/
def State.snapshot (s : State) (c : Nat) : State × List Nat :=
  let s0 := s.loadStage c
  let g := (s0.ctx c).stage
  let delta := if g.active then g.map1 else g.map0
  let other := if g.active then g.map0 else g.map1
  let g1 := { g with active := !g.active, pused := 0, full := false, snap := g.snap + 1 }
  let s1 := (s0.seen c (linesOf delta g.mlen)).clearMap c other g.mlen
  ((s1.setCtx c { s1.ctx c with stage := g1 }).syncStage c, s0.mapPages c delta g.mlen)

/-- The IPA pages below a hypervisor table, n levels above the last. -/
def State.leavesH (s : State) : Nat → Nat → Nat → List Nat
  | 0, table, base => (List.range 512).filterMap (fun i => match readEnt 3 (s.readN s.fwKey (table + 8 * i) 8) with
    | .leaf _ _ => some (base / 4096 + i)
    | _ => none)
  | n + 1, table, base => (List.range 512).flatMap (fun i =>
    let size := 2 ^ (12 + 9 * (n + 1))
    match readEnt (2 - n) (s.readN s.fwKey (table + 8 * i) 8) with
    | .leaf _ _ => (List.range (size / 4096)).map (fun j => (base + i * size) / 4096 + j)
    | .table a => s.leavesH n a (base + i * size)
    | .bad => [])

/-- The root of the hypervisor stage of a context (R264). -/
def State.hypRoot (s : State) (c : Nat) : Nat := bits (s.ctx c).ptbase2.toNat 51 13 * 2 ^ 13

/-- Every IPA page that the hypervisor stage of a context maps (R290). -/
def State.mappedPages (s : State) (c : Nat) : List Nat :=
  (s.leavesH 3 (s.hypRoot c) 0).filter (fun p => (s.walkH (4096 * p) 3 (s.hypRoot c)).isSome)

/-- The hypervisor tables of a context are read through. -/
def State.tablesSeen (s : State) (c : Nat) : State :=
  s.seen c ((s.hypRoot c :: s.tablesH 3 (s.hypRoot c)).flatMap (fun a => linesOf a 4096))

/-- The content of a page in the current snapshot: its pool copy if there is one, otherwise the page in memory (R271). -/
def State.snapPage (s : State) (c ipn : Nat) : List Byte :=
  let g := (s.ctx c).stage
  match (List.range g.pused).find? (fun j => decide (s.readN s.fwKey (g.pool + 8 * j) 8 = ipn + 2 ^ 63)) with
  | some j => (List.range 4096).map (fun i => s.readByte s.fwKey (g.pool + (8 * g.pent + 4095) / 4096 * 4096 + 4096 * j + i))
  | none => match s.walkH (4096 * ipn) 3 (s.hypRoot c) with
    | some (_, a) => (List.range 4096).map (fun i => s.readByte (s.keyAt c a) (a + i))
    | none => []

/-- The page in memory that a snapshot's content is read from is pending no more (R274). -/
def State.pageSeen (s : State) (c ipn : Nat) : State :=
  if s.hasCopy c ipn then s
  else match s.walkH (4096 * ipn) 3 (s.hypRoot c) with
    | some (_, a) => s.seen c (linesOf a 4096)
    | none => s.walked c 0x2A 0 (4096 * ipn)

/-! Pre-copy rounds (R289-R291). -/

/-- A round begins with its pages. -/
def State.beginRound (s : State) (c : Nat) (pages : List Nat) (final : Bool) : State :=
  let x := s.ctx c
  s.setCtx c { x with
    round := some ⟨x.stage.snap - 1, pages, final, 0, 0⟩, roundDue := false, pcBusy := true, pcStat := 0, pcSent := 0 }

/-- The next snapshot is taken and its delta pages are to be sent (R290). -/
def State.startRound (s : State) (c : Nat) : State :=
  let (s1, pages) := s.snapshot c
  s1.beginRound c pages false

/-- ROUND (R270, R289, R290): a round starts at a cut. While a boundary of the context lands the command is kept, the engine
is busy, and the round starts once the landing is done. -/
def execRound (c : Nat) (s : State) : Host.Outcome State Fault Refusal :=
  event s (fun s =>
    let x := s.ctx c
    if x.st ≠ .migOut ∨ x.stop ≠ .none ∨ x.round.isSome then none
    else if s.cutFree c then some (s.startRound c)
    else if x.roundDue then none
    else some (s.setCtx c { x with roundDue := true, pcBusy := true, pcStat := 0, pcSent := 0 }))

/-- The bits of pages ORed into the active map (R291). -/
def State.remark (s : State) (c : Nat) (pages : List Nat) : State :=
  let g := (s.ctx c).stage
  pages.foldl (fun (t : State) p =>
    if p ≥ 8 * g.mlen then t
    else t.writeByte (t.keyAt c (g.mapByte p)) (g.mapByte p) (t.readByte (t.keyAt c (g.mapByte p)) (g.mapByte p) ||| BitVec.ofNat 8 (2 ^ (p % 8)))) s

/-! Records of the stream (R290, R392). -/

/-- The session of a context's stream; a cleared slot holds zeros (R289, log 8). -/
def State.session (s : State) (c : Nat) : Session := (fget s.mgmt.sessions (s.ctx c).pcSess).getD ⟨0, 0, false, 0, 0⟩

/-- The 96-bit nonce of a record: the session's salt, then the record's sequence, both big-endian (R392). -/
def Session.nonce (x : Session) (seq : Nat) : List Nat := beNats 4 x.salt ++ beNats 8 seq

/-- The 32 bytes of a session's key. -/
def Session.keyBytes (x : Session) : List Nat := nats (leBytes 32 x.key)

/-- A body enciphered for a record, and its tag over header and ciphertext; the header's layout is a free value (R290, log
51). -/
def Session.seal (x : Session) (page snap seq : Nat) (body : List Byte) : List Byte × List Byte :=
  let cipher := gcmText x.keyBytes (x.nonce seq) (nats body)
  (bytesOf cipher, bytesOf (gcmTag x.keyBytes (x.nonce seq) (nats (Config.recordHeader page snap seq)) cipher))

/-- The body of a record whose tag verifies. -/
def Session.unseal (x : Session) (page snap seq : Nat) (body tag : List Byte) : Option (List Byte) :=
  if gcmTag x.keyBytes (x.nonce seq) (nats (Config.recordHeader page snap seq)) (nats body) = nats tag then
    some (bytesOf (gcmText x.keyBytes (x.nonce seq) (nats body)))
  else none

/-- The records of pages sent, one after another (R290). -/
def State.sendPages (s : State) (c snap : Nat) : Nat → List Nat → State
  | _, [] => s
  | seq, p :: ps =>
    let r := (s.session c).seal p snap seq (s.snapPage c p)
    ((s.pageSeen c p).send (.pageRecord c p snap seq r.1 r.2)).sendPages c snap (seq + 1) ps

/-- Up to k more pages of a round sent: `sent` and the record sequence advance, and those that went before the pool filled are
counted (R289, R291). -/
def State.sendOn (s : State) (c k : Nat) : State :=
  let x := s.ctx c
  match x.round with
  | none => s
  | some r =>
    let ps := (r.pages.drop r.sent).take k
    let s1 := s.sendPages c r.snap x.pcSeq ps
    s1.setCtx c { x with
      round := some { r with sent := r.sent + ps.length, early := if x.stage.full then r.early else r.early + ps.length }
      pcSent := r.sent + ps.length, pcSeq := x.pcSeq + ps.length }

/-- As time passes every round sends some of its pages, how many is a free value (R290). -/
def State.streamOn (s : State) : State :=
  (s.ctxs.filter (fun e => e.2.round.isSome)).foldl (fun (t : State) e =>
    { (t.sendOn e.1 (Config.freeChoice t.fresh)) with fresh := t.fresh + 1 }) s

/-- A context whose command has ended with a result (R106). -/
def Ctx.ended (x : Ctx) (err : Nat) : Ctx := { x with busy := false, err := err, cmd := none, cutShort := false, stop := .none }

/-- May a round end with `sent` pages gone, the first `early` of them before the pool filled. -/
def Round.mayEnd (r : Round) (full : Bool) (sent early : Nat) : Bool :=
  decide (r.sent ≤ sent) && decide (sent ≤ r.pages.length) && decide (r.early ≤ early) && decide (early ≤ sent) &&
  (!full || decide (r.early = r.sent) || decide (early = r.early))

/-- A round's end: the first `sent` pages have gone, the first `early` of them before the pool filled. Whatever the ending,
pages not sent, and those sent after the pool filled, are marked again (R291). -/
def State.closeRound (s : State) (c stat sent early : Nat) (r : Round) : State :=
  let x := s.ctx c
  let s1 := s.sendOn c (sent - r.sent)
  let again := (if x.stage.full then (r.pages.take sent).drop early else []) ++ r.pages.drop sent
  let s2 := if stat = 0 then s1 else s1.remark c again
  s2.setCtx c { s2.ctx c with round := none, pcBusy := false, pcStat := stat }

/-- The bytes of the save area as they lie in memory. -/
def State.areaBytes (s : State) (c : Nat) : List Byte :=
  let a := (s.ctx c).sarea.toNat
  let n := s.readN s.fwKey (a + 24) 8
  (List.range n).map (fun i => s.readByte s.fwKey (a + i))

/-- The save area sent after the last round, as one more record of the stream (R290, log 51). -/
def State.sendArea (s : State) (c : Nat) (r : Round) : State :=
  let x := s.ctx c
  let y := (s.session c).seal r.pages.length r.snap x.pcSeq (s.areaBytes c)
  let t := s.seen c (linesOf x.sarea.toNat (s.areaBytes c).length)
  (t.send (.saveArea c r.pages.length r.snap x.pcSeq y.1 y.2)).setCtx c { t.ctx c with pcSeq := x.pcSeq + 1 }

/-- A round's end, and for the last round of a final stop what follows it: the save area goes out and the context is
scrubbed, or the context stays pre-empted with err 0x0C (R107). -/
def State.endRound (s : State) (c stat sent early : Nat) (r : Round) : State :=
  let s1 := s.closeRound c stat sent early r
  if !r.final then s1
  else if stat = 0 then
    let s2 := s1.sendArea c r
    s2.setCtx c { s2.ctx c with st := .scrubbing }
  else s1.setCtx c { (s1.ctx c).ended 0x0C with st := .preempted }

/-- PRECOPY_ROUND_END (R289, R291): done, pool full, port down, or rejected by the receiver. -/
def execPrecopyRoundEnd (c stat sent early : Nat) (s : State) : Host.Outcome State Fault Refusal :=
  event s (fun s => match (s.ctx c).round with
    | none => none
    | some r =>
      let full := (s.ctx c).stage.full
      if !r.mayEnd full sent early ∨ stat > 3 ∨ (stat = 0 ∧ (sent ≠ r.pages.length ∨ full)) ∨ (stat = 1 ∧ !full) then
        none
      else some (s.endRound c stat sent early r))

/-- ABORT (R289, R291): a round that runs ends where it stands, and one that waits for its cut does not start. -/
def execAbort (c sent early : Nat) (s : State) : Host.Outcome State Fault Refusal :=
  event s (fun s =>
    let x := s.ctx c
    match x.round with
    | none => if x.roundDue then some (s.setCtx c { x with roundDue := false, pcBusy := false, pcStat := 4 }) else none
    | some r => if r.mayEnd x.stage.full sent early then some (s.endRound c 4 sent early r) else none)

/-- The receiver notes that a record of the stream has landed. -/
def Incoming.note (i : Incoming) (seq : Nat) : Incoming := { i with got := if i.got.contains seq then i.got else seq :: i.got }

/-- Have the last round and the save area landed whole (R290). -/
def Incoming.whole (i : Incoming) : Bool :=
  match i.tail with
  | some (lo, hi) => (List.range (hi - lo)).all (fun k => i.got.contains (lo + k))
  | none => false

/-- PRECOPY_RECORD (R290): the receiver applies a record whose tag verifies, and keeps for each page that of the highest
snapshot number; a record whose tag fails leaves nothing. The last record carries the save area, and in the place of a page
number the count of the records of the last round, which stand before it in sequence (log 51). -/
def execPrecopyRecord (c page snap seq : Nat) (body tag : List Byte) (last : Bool) (s : State) :
    Host.Outcome State Fault Refusal :=
  event s (fun s =>
    let x := s.ctx c
    match x.incoming, (s.session c).unseal page snap seq body tag with
    | some inc, some bytes =>
      if x.st ≠ .migIn then none
      else if last then
        let s1 := s.writeBytes s.fwKey x.sarea.toNat bytes
        some (s1.setCtx c { s1.ctx c with incoming := some { inc with tail := some (seq - page, seq) } })
      else if (match fget inc.pages page with
          | some n => decide (n > snap)
          | none => false) then some (s.setCtx c { x with incoming := some (inc.note seq) })
      else match s.walkH (4096 * page) 3 (s.hypRoot c) with
        | none => some (s.walked c 0x2A 0 (4096 * page))
        | some (_, a) =>
          let s1 := s.writeBytes (s.keyAt c a) a (bytes.take 4096)
          some (s1.setCtx c { s1.ctx c with incoming := some { (inc.note seq) with pages := fset inc.pages page snap } })
    | some _, none => if x.st ≠ .migIn then none else some s
    | none, _ => none)

/-! Page moves (R276). -/

/-- The last-level tables below a hypervisor table, n levels above the last. -/
def State.lastTables (s : State) : Nat → Nat → List Nat
  | 0, table => [table]
  | n + 1, table => (s.entriesH table).flatMap (fun i => match readEnt (2 - n) (s.readN s.fwKey (table + 8 * i) 8) with
    | .table a => s.lastTables n a
    | _ => [])

/-- Is an address that of an entry of a level-3 table of a context's hypervisor stage. -/
def State.inLastTable (s : State) (c a : Nat) : Bool :=
  decide (a % 8 = 0) && (s.lastTables 3 (s.hypRoot c)).contains (a / 4096 * 4096)

/-- MSTAT_POLL (R265, R276): the cell is read, and a request is taken up, or refused. -/
def execMstatPoll (c : Nat) (s0 : State) : Host.Outcome State Fault Refusal :=
  event s0 (fun s0 =>
    let x := s0.ctx c
    if x.st = .free ∨ x.st = .scrubbing ∨ x.st = .disabled ∨ x.move.isSome then none
    else
      let s1 := s0.seen c (linesOf (s0.stagePage c + 64) 20)
      if s1.stageField c 80 4 ≠ 1 then some s1
      else
        let leaf := s1.stageField c 64 8
        let new := s1.stageField c 72 8
        let s := if s1.inLastTable c leaf then s1.seen c [leaf] else s1
        let e := s.readN s.fwKey leaf 8
        match readEnt 3 e with
        | .leaf _ old =>
          if bit e 8 ∨ !s.inLastTable c leaf ∨ new % 4096 ≠ 0 ∨ !s.installed new 4096 ∨ new / 2 ^ 42 = old / 2 ^ 42 then
            some (s.putStage c 80 3)
          else some (s.setCtx c { s.ctx c with move := some ⟨leaf, old, new, false, [], 0⟩ })
        | _ => some (s.putStage c 80 3))

/-- A location after its page has moved: the redirect of the old home (R276). -/
def Move.redirect (m : Move) : Loc → Loc
  | .dram a => if a / 4096 = m.old / 4096 then .dram (m.new + a % 4096) else .dram a
  | l => l

/-- Every access translated before the cut goes to the new home. -/
def State.redirect (s : State) (m : Move) : State :=
  let cmd (k : Cmd) : Cmd := { k with
    units := k.units.map (fun u => { u with dest := u.dest.map m.redirect, src := u.src.map m.redirect })
    writes := k.writes.map (fun w => (w.1, w.2.map (fun b => (m.redirect b.1, b.2)))) }
  { s with
    teams := fmapV (fun _ (t : Team) => { t with cmds := fmapV (fun _ k => cmd k) t.cmds }) s.teams
    inbox := s.inbox.map (fun w => { w with bytes := w.bytes.map (fun b =>
      (b.1, if b.2.1 / 4096 = m.old / 4096 then m.new + b.2.1 % 4096 else b.2.1, b.2.2)) }) }

/-- A 64-byte line copied to another DPA: its content moves, as the context's key reads it, whatever key it was written under. A
line that was still to be scrubbed is zero, and neither line is pending after it (R273-R275). -/
def State.copyLine (s : State) (c src dst : Nat) : State :=
  let k := s.keyAt c (64 * src)
  let kd := s.keyAt c (64 * dst)
  let s0 := s.readLine k src
  let s1 := if s0.scrubPending (64 * dst) then s0.unscrub kd dst else s0
  ({ s1 with
    mem := (List.range 64).foldl (fun m i => sset 0 m (64 * dst + i) (s1.readByte k (64 * src + i))) s1.mem
    ktag := if (fget s1.ktag src).isSome then fset s1.ktag dst kd else fdel s1.ktag dst } : State).cacheLine dst

/-- The lines of a frame copied to another. -/
def State.copyFrame (s : State) (c src dst : Nat) : State :=
  (List.range 64).foldl (fun (t : State) i => t.copyLine c (src / 64 + i) (dst / 64 + i)) s

/-- A hypervisor leaf rewritten to name another frame (R276). -/
def State.putLeaf (s : State) (leaf frame : Nat) : State :=
  let e := s.readN s.fwKey leaf 8
  s.writeBytes s.fwKey leaf (leBytes 8 (e - bits e 51 12 * 4096 + frame))

/-- Is an engine operation between its issue, when it is translated, and its landing. -/
def CmdState.flies : CmdState → Bool
  | .running | .completed | .landing => true
  | .cancelled => false

/-- The engine operations of a context that have been translated and have not landed: team, command record, order number. -/
def State.inFlight (s : State) (c : Nat) : List (Nat × Nat × Nat) :=
  (s.teams.filter (fun e => decide ((fget s.grids e.2.grid).map (·.ctx) = some c))).flatMap (fun e =>
    (e.2.cmds.filter (fun k => k.2.st.flies)).map (fun k => (e.1, k.1, k.2.order)))

/-- PAGE_MOVE_CUT (R276): at a cut with no open spoil entry of the context on the page, the frame is copied, the leaf is
rewritten and cached translations go. -/
def execPageMoveCut (c : Nat) (s : State) : Host.Outcome State Fault Refusal :=
  event s (fun s =>
    let x := s.ctx c
    match x.move with
    | none => none
    | some m =>
      let held := s.groups.any (fun e => e.2.spoil.any (fun y => y.lanes.any (fun z => z.bytes.any (fun b =>
        decide (m.redirect b.1 ≠ b.1)))))
      if m.cut ∨ held ∨ !s.cutFree c then none
      else
        let s2 := (s.copyFrame c m.old m.new).putLeaf m.leaf m.new
        let s3 := { (s2.redirect m) with tlb := s2.tlb.filter (fun t => decide (t.ctx ≠ c) || decide (t.dpn ≠ m.old / 4096)) }
        some (s3.setCtx c { s3.ctx c with move := some { m with cut := true, waits := s.inFlight c, upTo := s.nextMsg } }))

/-- A page move abandoned: after its cut, the old home is valid again with the page as it stands, the leaf names it, and
no cached translation names the new frame (R111, R276; DEDUCED, log 50). -/
def State.undoMove (s : State) (c : Nat) : State :=
  match (s.ctx c).move with
  | some m =>
    if m.cut then
      let s1 := ((s.copyFrame c m.new m.old).putLeaf m.leaf m.old).redirect { m with old := m.new, new := m.old }
      { s1 with tlb := s1.tlb.filter (fun t => decide (t.ctx ≠ c) || decide (t.dpn ≠ m.new / 4096)) }
    else s
  | none => s

/-- Has every access of a context that was translated before the cut of a move completed. -/
def State.moveSettled (s : State) (c : Nat) (m : Move) : Bool :=
  m.waits.all (fun w => !(s.inFlight c).contains w) && s.inbox.all (fun w => decide (w.ctx ≠ c) || decide (w.id ≥ m.upTo))

/-- PAGE_MOVE_DONE (R276): the redirect entry goes, and mstat says so, once every access translated before the cut has
completed. -/
def execPageMoveDone (c : Nat) (s : State) : Host.Outcome State Fault Refusal :=
  event s (fun s => match (s.ctx c).move with
    | some m => if m.cut ∧ s.moveSettled c m then some ((s.setCtx c { s.ctx c with move := none }).putStage c 80 2) else none
    | none => none)

/-! The scrub engine (R274). -/

/-- SCRUB_LINE (R274): a pending line is written to zero under the context's key. -/
def execScrubLine (c : Nat) (s : State) : Host.Outcome State Fault Refusal :=
  event s (fun s => match (s.ctx c).scrub with
    | [] => none
    | r :: _ => some (s.prepLine (s.keyOf c) (r.1 / 64)))

end Sys2Proof.Machine
end

