-- ==== Sys2Proof/Machine/Place.lean ====
section
/-! DEFINITION. Images, launch checks, placement, compaction, the birth and the end of teams (spec 07_kernel R131-R144,
10_memory R224). -/
namespace Sys2Proof.Machine

/-! The device as a reader and writer of context memory, of descriptors, records, images and completion records (R116, R119). It
goes through both stages with the rights of supervisor mode: DESIGN CHOICE, for no rule gives its mode (log 62). -/

/-- The page of an address, for an access by the device; none where a stage refuses it, and none for an address of another path
than 000, a record's crec among them (R119 names no path for it: DESIGN CHOICE, log 62). -/
def State.devPage (s : State) (c : Nat) (acc : Acc) (va : Nat) : Option TlbEntry :=
  if va ≥ 2 ^ 57 then none
  else match s.xlate c false false acc (BitVec.ofNat 64 va) va with
    | .ok e => some e
    | .error _ => none

/-- n bytes read by the device, page by page. -/
def State.devPages (s : State) (c : Nat) : Nat → Nat → Nat → Option (List Byte)
  | 0, _, n => if n = 0 then some [] else none
  | k + 1, va, n =>
    if n = 0 then some []
    else match s.devPage c .r va with
      | none => none
      | some e =>
        let m := min n (4096 - va % 4096)
        (s.devPages c k (va + m) (n - m)).map (fun bs =>
          (List.range m).map (fun i => s.readByte (s.keyAt c (e.dpn * 4096)) (e.dpn * 4096 + va % 4096 + i)) ++ bs)

/-- The walk of an access by the device has failed: its entries are pending no more (R274). -/
def State.devWalked (s : State) (c : Nat) (acc : Acc) (va : Nat) : State :=
  if va ≥ 2 ^ 57 then s
  else match s.xlate c false false acc (BitVec.ofNat 64 va) va with
    | .ok _ => s
    | .error t => s.walked c t.code va t.tval.toNat

/-- n bytes of context memory are read by the device, page by page: their lines are pending no more (R274). -/
def State.devSeenPages (s : State) (c : Nat) : Nat → Nat → Nat → State
  | 0, _, _ => s
  | k + 1, va, n =>
    if n = 0 then s
    else match s.devPage c .r va with
      | none => s.devWalked c .r va
      | some e =>
        let m := min n (4096 - va % 4096)
        (s.seen c (linesOf (e.dpn * 4096 + va % 4096) m)).devSeenPages c k (va + m) (n - m)

/-- n bytes of context memory from an address are read by the device. -/
def State.devSeen (s : State) (c va n : Nat) : State := s.devSeenPages c (n / 4096 + 2) va n

/-- n bytes of context memory from an address, read by the device. -/
def State.devRead (s : State) (c va n : Nat) : Option (List Byte) := s.devPages c (n / 4096 + 2) va n

/-- Bytes within one page written by the device; none where the address is not writable. -/
def State.devWrite (s : State) (c va : Nat) (bs : List Byte) : Option State :=
  match s.devPage c .w va with
  | none => none
  | some e => some (s.writeLocs c e.ipn ((List.range bs.length).map (fun i =>
      (Loc.dram (e.dpn * 4096 + va % 4096 + i), bs.getD i 0))))

/-- A little-endian field of bytes. -/
def field (bs : List Byte) (o n : Nat) : Nat := leNat ((bs.drop o).take n)

/-- Are the bytes of a range all zero. -/
def zeros (bs : List Byte) (lo hi : Nat) : Bool := decide (field bs lo (hi - lo) = 0)

/-- One bit of a reflected CRC with the Castagnoli polynomial. -/
def crcBit (c : Nat) : Nat := if c % 2 = 1 then (c / 2) ^^^ 0x82F63B78 else c / 2

/-- CRC-32C of bytes. -/
def crc32c (bs : List Byte) : Nat :=
  (bs.foldl (fun c b => (List.range 8).foldl (fun x _ => crcBit x) (c ^^^ b.toNat)) 0xFFFFFFFF) ^^^ 0xFFFFFFFF

/-- Bytes with four of them taken as zero. -/
def zeroed (bs : List Byte) (o : Nat) : List Byte := bs.take o ++ [0, 0, 0, 0] ++ bs.drop (o + 4)

/-! The image (R131-R135). -/

/-- Do two ranges of offsets share a byte. -/
def spansMeet (a b : Nat × Nat) : Bool := decide (a.1 < b.2) && decide (b.1 < a.2) && decide (a.1 < a.2) && decide (b.1 < b.2)

/-- The header of an image passes R131, but for its CRC: everything that refusal 0x01 names. -/
def imageHeadOk (h : List Byte) : Bool :=
  let table := (64, 64 + 576 * field h 16 4)
  let text := (field h 24 8, field h 24 8 + field h 32 8)
  let ro := (field h 40 8, field h 40 8 + field h 48 8)
  decide (field h 0 4 = 0x1F4E4946) && decide (field h 4 2 = 1) && decide (1 ≤ field h 16 4) && decide (field h 16 4 ≤ 256) &&
  zeros h 20 24 && zeros h 60 64 && decide (field h 24 8 % 64 = 0) && decide (field h 32 8 % 64 = 0) &&
  decide (field h 40 8 % 64 = 0) && decide (table.2 ≤ field h 8 8) && decide (text.2 ≤ field h 8 8) &&
  decide (ro.2 ≤ field h 8 8) && !spansMeet (0, table.2) text && !spansMeet (0, table.2) ro && !spansMeet text ro

/-- The image at an address, if nothing of refusal 0x01 holds. -/
def State.readImage (s : State) (c va : Nat) : Option (List Byte) :=
  if va % 64 ≠ 0 then none
  else match s.devRead c va 64 with
    | none => none
    | some h =>
      if !imageHeadOk h then none
      else match s.devRead c va (field h 8 8) with
        | none => none
        | some bs => if crc32c (zeroed bs 56) = field h 56 4 then some bs else none

/-- An image is read: its header, and the whole where the header holds. -/
def State.imageSeen (s : State) (c va : Nat) : State :=
  if va % 64 ≠ 0 then s
  else match s.devRead c va 64 with
    | none => s.devSeen c va 64
    | some h => s.devSeen c va (if imageHeadOk h then field h 8 8 else 64)

/-- The declaration and the variant slots of a kernel of an image (R132). -/
def kernelEntry (image : List Byte) (k : Nat) : List Byte := (image.drop (64 + 576 * k)).take 576

/-- Is a number one of the register counts of R132. -/
def regCount (n : Nat) : Bool := [32, 48, 64, 96, 128, 192, 256, 384].contains n

/-- The order of variant slot i as core-in-die indices. -/
def variantOrder (e : List Byte) (i : Nat) : List Nat := ((e.drop (64 + 64 * i + 8)).take 48).map (·.toNat)

/-- A variant slot in its limits: a permutation, or all zero when it is not in use. -/
def variantOk (e : List Byte) (i : Nat) : Bool :=
  if i < field e 4 4 then
    (List.range 48).all (fun n => (variantOrder e i).contains n) && zeros e (64 + 64 * i + 56) (128 + 64 * i)
  else zeros e (64 + 64 * i) (128 + 64 * i)

/-- A declaration in the limits of R132. -/
def declOk (e : List Byte) (tlen : Nat) : Bool :=
  decide (field e 0 4 % 64 = 0) && decide (field e 0 4 < tlen) && decide (1 ≤ field e 4 4) && decide (field e 4 4 ≤ 8) &&
  decide (1 ≤ field e 8 2) && decide (field e 8 2 ≤ 512) && decide (field e 10 2 ≤ field e 8 2) &&
  regCount (field e 12 2) && regCount (field e 14 2) && decide (field e 16 1 ≤ 16) && decide (field e 17 1 ≤ 16) &&
  decide (field e 18 2 ≤ 64) && decide (field e 20 4 % 4096 = 0) && decide (field e 20 4 ≤ 3670016) &&
  decide (1 ≤ field e 24 1) && decide (field e 24 1 ≤ 16) && decide (field e 25 1 < 8) && zeros e 26 64 &&
  (List.range 8).all (fun i => variantOk e i)

/-- The variant that a partition's signature selects (R134). -/
def pickVariant (e : List Byte) (sig : Nat) : Option Nat :=
  let slots := List.range (field e 4 4)
  match slots.find? (fun i => decide (field e (64 + 64 * i) 8 = sig)) with
  | some i => some i
  | none => slots.find? (fun i => decide (field e (64 + 64 * i) 8 = 0))

/-! The resources that a partition holds (R137, R138, R142). -/

/-- What a group holds of a quadrant. -/
structure Held where
  gid : Nat
  quad : Nat
  slot : Nat
  block : Nat
  nregs : Nat
  ntiles : Nat
  deriving DecidableEq, Repr

/-- What a team holds of its home core: its allocation. -/
structure Alloc where
  tid : Nat
  core : Nat
  a0 : Nat
  len : Nat
  deriving DecidableEq, Repr

/-- Everything held: groups, allocations, and for each homed team its core and its handle entries. -/
structure Res where
  held : List Held
  allocs : List Alloc
  homes : List (Nat × Nat)
  deriving DecidableEq, Repr

/-- What the groups and teams of the device hold. A team that has ended keeps its allocation only (R224). -/
def State.res (s : State) : Res :=
  { held := s.groups.map (fun e => ⟨e.1, e.2.quad, e.2.slot, e.2.block, e.2.nregs, e.2.ntiles⟩)
    allocs := (s.teams.map (fun e => (⟨e.1, e.2.core, e.2.a0, ((fget s.grids e.2.grid).map (·.spad)).getD 0⟩ : Alloc))).filter
      (fun a => decide (a.len > 0))
    homes := (s.teams.filter (fun e => !e.2.ended)).map (fun e => (e.2.core, e.2.hstore)) }

/-- The alignment of a block of rows (R142). -/
def rowAlign (n : Nat) : Nat := if n % 3 = 0 then n / 3 * 2 else n

/-- The lowest free placement of rows in a quadrant (R142). -/
def Res.rows (r : Res) (q n : Nat) : Option Nat :=
  ((List.range (2048 / rowAlign n)).map (fun i => i * rowAlign n)).find? (fun a => decide (a + n ≤ 2048) &&
    r.held.all (fun h => decide (h.quad ≠ q) || decide (h.block + h.nregs ≤ a) || decide (a + n ≤ h.block)))

/-- The lowest free group slot of a quadrant. -/
def Res.slot (r : Res) (q : Nat) : Option Nat :=
  (List.range 32).find? (fun n => r.held.all (fun h => decide (h.quad ≠ q) || decide (h.slot ≠ n)))

/-- A place for a group in a quadrant: slot, rows and tiles. -/
def Res.tryQuad (r : Res) (gid q n tiles : Nat) : Option Held :=
  match r.slot q, r.rows q n with
  | some sl, some b =>
    if ((r.held.filter (fun h => decide (h.quad = q))).map (·.ntiles)).sum + tiles ≤ 16 then some ⟨gid, q, sl, b, n, tiles⟩
    else none
  | _, _ => none

/-- The bytes of one quadrant's part of the allocation space (R14, R221). -/
def quadSpace : Nat := 7 * 131072

/-- Is a range of a core's allocation space free, and in banks of the partition's quadrants. -/
def Res.spaceFree (r : Res) (part : List Nat) (core a n : Nat) : Bool :=
  (List.range 4).all (fun k => part.contains (4 * core + k) || decide ((k + 1) * quadSpace ≤ a) || decide (a + n ≤ k * quadSpace)) &&
  decide (a + n ≤ 4 * quadSpace) &&
  r.allocs.all (fun x => decide (x.core ≠ core) || decide (x.a0 + x.len ≤ a) || decide (a + n ≤ x.a0))

/-- The least number of a list. -/
def leastOf (xs : List Nat) : Option Nat :=
  xs.foldl (fun (m : Option Nat) x => match m with
    | some y => some (min x y)
    | none => some x) none

/-- The lowest free contiguous space of a core (R137). -/
def Res.space (r : Res) (part : List Nat) (core n : Nat) : Option Nat :=
  if n = 0 then some 0
  else leastOf (((List.range 4).map (fun k => k * quadSpace) ++
    (r.allocs.filter (fun x => decide (x.core = core))).map (fun x => x.a0 + x.len)).filter (fun a => r.spaceFree part core a n))

/-- The partition quadrants of a core's cluster, from the core on, wrapping (R137). -/
def clusterQuads (part : List Nat) (c : Nat) : List Nat :=
  ((List.range 4).flatMap (fun j => (List.range 4).map (fun q => 4 * (c / 4 * 4 + (c + j) % 4) + q))).filter part.contains

/-- The registers and tiles of group g of a team of a grid (R132). -/
def Grid.need (gr : Grid) (g : Nat) : Nat × Nat := if g < gr.prod then (gr.pregs, gr.ptiles) else (gr.cregs, gr.ctiles)

/-- The groups from g on, k of them, placed from the i-th quadrant of a list on; all of them or none (R137). -/
def Res.placeGroups (r : Res) (gr : Grid) (qs : List Nat) : Nat → Nat → Nat → Option Res
  | 0, _, _ => some r
  | k + 1, g, i =>
    let need := gr.need g
    match (List.range qs.length).findSome? (fun j =>
        let n := (i + j) % qs.length
        (r.tryQuad g (qs.getD n 0) need.1 need.2).map (fun h => (n, h))) with
    | some (n, h) => ({ r with held := r.held ++ [h] } : Res).placeGroups gr qs k (g + 1) (n + 1)
    | none => none

/-- A team placed: its home core, its allocation's start, and its groups in ascending index. -/
structure Spot where
  core : Nat
  a0 : Nat
  held : List Held
  deriving DecidableEq, Repr

/-- The check of R137 for a team of a grid on a core; a pass reserves what it found. -/
def Res.check (r : Res) (part : List Nat) (gr : Grid) (c : Nat) : Option (Res × Spot) :=
  match r.space part c gr.spad with
  | none => none
  | some a0 =>
    let mine := r.homes.filter (fun h => decide (h.1 = c))
    if mine.length ≥ 64 ∨ (mine.map (·.2)).sum + gr.nhandles > 512 then none
    else match r.placeGroups gr (clusterQuads part c) gr.groups 0 0 with
      | none => none
      | some r1 =>
        some ({ r1 with allocs := if gr.spad > 0 then r1.allocs ++ [⟨0, c, a0, gr.spad⟩] else r1.allocs
                        homes := r1.homes ++ [(c, gr.nhandles)] }, ⟨c, a0, r1.held.drop r.held.length⟩)

/-! The order of placement (R136, R139). -/

/-- The shader dies of a partition, ascending. -/
def partDies (part : List Nat) : List Nat := (List.range 8).filter (fun d => part.any (fun q => decide (q / 192 = d)))

/-- The cores of a die slice in the variant's order (R136). -/
def sliceCores (part : List Nat) (gr : Grid) (slice : Nat) : List Nat :=
  let ds := partDies part
  let d := ds.getD (slice % ds.length) 0
  (gr.order.map (fun o => 48 * d + o)).filter (fun c => part.any (fun q => decide (q / 4 = c)))

/-- The cores in the order in which a team tries them: from the one after the previous team's home core (R139). -/
def tryOrder (cores : List Nat) (prev : Option Nat) : List Nat :=
  match prev.bind (fun p => cores.findIdx? (fun c => decide (c = p))) with
  | some i => cores.drop (i + 1) ++ cores.take (i + 1)
  | none => cores

/-- One team placed on the first core that passes. -/
def Res.placeTeam (r : Res) (part : List Nat) (gr : Grid) (slice : Nat) (prev : Option Nat) : Option (Res × Spot) :=
  (tryOrder (sliceCores part gr slice) prev).findSome? (fun c => r.check part gr c)

/-- The teams of a set placed one after another, with the last home core of each die slice. -/
def Res.placeList (r : Res) (part : List Nat) (gr : Grid) : FMap Nat → List (Nat × Nat) → Option (Res × List Spot)
  | _, [] => some (r, [])
  | last, (slice, _) :: rest => match r.placeTeam part gr slice (fget last slice) with
    | none => none
    | some (r1, sp) => match r1.placeList part gr (fset last slice sp.core) rest with
      | none => none
      | some (r2, sps) => some (r2, sp :: sps)

/-- Do consecutive teams of a gang stand in equal or next clusters of one die (R139). -/
def gangOk (gang : Nat) : List ((Nat × Nat) × Spot) → Bool
  | a :: b :: rest =>
    (decide (a.1.1 ≠ b.1.1) || decide (a.1.2 / gang ≠ b.1.2 / gang) ||
      (let x := a.2.core / 4
       let y := b.2.core / 4
       (decide (y = x) || decide (y = x + 1)) && decide (x / 12 = y / 12))) && gangOk gang (b :: rest)
  | _ => true

/-- A set placed all or nothing. -/
def Res.placeSet (r : Res) (part : List Nat) (gr : Grid) (set : List (Nat × Nat)) : Option (Res × List Spot) :=
  match r.placeList part gr gr.lastCore set with
  | none => none
  | some (r1, sps) => if gr.gang ≤ 1 ∨ gangOk gr.gang (set.zip sps) then some (r1, sps) else none

/-- All teams of a die slice. -/
def Grid.sliceSet (gr : Grid) (d : Nat) : List (Nat × Nat) := (List.range gr.teams).map (fun t => (d, t))

/-- The set that is placed next on a die slice, empty when none is left there (R139). -/
def Grid.nextSet (gr : Grid) (d : Nat) : List (Nat × Nat) :=
  let t := sget 0 gr.nextTeam d
  if t ≥ gr.teams then []
  else match gr.residency with
    | 3 => (List.range gr.dies).flatMap gr.sliceSet
    | 2 => gr.sliceSet d
    | _ => (List.range gr.gang).map (fun i => (d, t + i))

/-- The die slices on which a set is placed; a grid placed as a whole counts once. -/
def Grid.slices (gr : Grid) : List Nat := if gr.residency = 3 then [0] else List.range gr.dies

/-- Does a grid wait for placement. -/
def Grid.unplaced (gr : Grid) : Bool := (List.range gr.dies).any (fun d => decide (sget 0 gr.nextTeam d < gr.teams))

/-- Nothing held. -/
def Res.empty : Res := ⟨[], [], []⟩

/-- Does a grid fit the empty partition (R135 code 0x07). -/
def fitsEmpty (part : List Nat) (gr : Grid) : Bool :=
  let g0 : Grid := { gr with lastCore := [], nextTeam := [] }
  g0.slices.all (fun d => (Res.empty.placeSet part g0 (g0.nextSet d)).isSome)

/-! Placing and birth (R139-R141). -/

/-- A tile at birth (R141, R353). -/
def Tile.born : Tile := ⟨true, .f32, []⟩

/-- The split that a group is born with (R141). -/
def Split.born (pc : Dword) : Split :=
  { sid := 0, mask := 0xFFFFFFFF#32, pc := pc, mode := .user, tdepth := 0, rejoin := pcNone, jmask := 0, held := [],
    depth := 0, sbase := 0, loop := none, ct := 0, cd := 0, cg := 0, blank := .none, age := 0, st := .ready, place := .resident 0,
    entered := true, popDue := false, lv := none, window := none, flash := none, frozen := false, mustIssue := false,
    lastIssue := 0, opps := 0, cycles := 0 }

/-- The register words of a group at birth (R141). -/
def bornRegs (args rodata : Dword) : FMap Word :=
  (List.range 4).foldl (fun m i =>
    let w := BitVec.ofNat 32 ((if i < 2 then args.toNat else rodata.toNat) / 2 ^ (32 * (i % 2)))
    (List.range 32).foldl (fun m l => sset 0 m (32 * i + l) w) m) []

/-- A group with nothing in it, at its place. -/
def Group.blank (tid idx : Nat) (h : Held) : Group :=
  { tid := tid, idx := idx, quad := h.quad, slot := h.slot, block := h.block, nregs := h.nregs, ntiles := h.ntiles,
    regs := [], live := 0, sticky := 0, stickyBase := 0, stickyLog := [], heldSticky := [], exits := [], pend := [], far := [], tiles := [], spoil := [], owed := [],
    save1 := [], levels := [], splits := [], nextId := 1, nextAge := 1, seq := 0, birth := 0, waited := 0, mark := .none }

/-- A group at birth (R141). -/
def Group.born (gr : Grid) (tid idx birth : Nat) (h : Held) : Group :=
  { Group.blank tid idx h with
    regs := bornRegs gr.args gr.rodata, live := 0xFFFFFFFF#32, birth := birth, splits := [(0, Split.born gr.entry)]
    tiles := (List.range h.ntiles).map (fun i => (i, Tile.born)) }

/-- A team at birth, or before its record is restored. -/
def Team.born (grid : Nat) (gr : Grid) (slice idx : Nat) (sp : Spot) : Team :=
  { grid := grid, slice := slice, idx := idx, flat := slice * gr.teams + idx, die := sp.core / 48, core := sp.core,
    a0 := sp.a0, hstore := gr.nhandles, spad := [], tags := [], ctrs := [], cmds := [], order := 0, upds := [],
    handles := [], landed := 0, ended := false, saved := false }

/-- A group born: it is new, and its lanes have written nothing private (R220). -/
def State.bornGroup (s : State) (gr : Grid) (tid : Nat) (t : Team) (idx : Nat) (h : Held) : State :=
  let g := Group.born gr tid idx s.nextGroup h
  let k := privKey gr.ctx (globalLane gr t g 0) 0
  { (s.setGroup s.nextGroup g) with
    nextGroup := s.nextGroup + 1, priv := fdelRange s.priv k (k + 32 * 2 ^ 24) }

/-- A team born at its place (R141). -/
def State.bornTeam (s : State) (grid : Nat) (gr : Grid) (slice idx : Nat) (sp : Spot) : State :=
  let t := Team.born grid gr slice idx sp
  let s1 := { (s.setTeam s.nextTeam t) with nextTeam := s.nextTeam + 1 }
  (List.range sp.held.length).foldl (fun u i => u.bornGroup gr s.nextTeam t i (sp.held.getD i ⟨0, 0, 0, 0, 32, 0⟩)) s1

/-- The grid after a set is placed. -/
def Grid.placed (gr : Grid) (ts : List ((Nat × Nat) × Spot)) : Grid :=
  ts.foldl (fun g e => { g with
    nextTeam := fset g.nextTeam e.1.1 (e.1.2 + 1), lastCore := fset g.lastCore e.1.1 e.2.core }) gr

/-- A set that has been found a place, born. -/
def State.bornSet (s : State) (grid : Nat) (gr : Grid) (ts : List ((Nat × Nat) × Spot)) : State :=
  ts.foldl (fun t e => t.bornTeam grid gr e.1.1 e.1.2 e.2) (s.setGrid grid (gr.placed ts))

/-- The first grid of a context, in launch order, that waits for placement (R140). -/
def State.waitingGrid (s : State) (c : Nat) : Option (Nat × Grid) :=
  s.grids.find? (fun e => decide (e.2.ctx = c) && e.2.unplaced)

/-- The sets of a grid that are next, one for each die slice. -/
def Grid.nextSets (gr : Grid) : List (List (Nat × Nat)) := (gr.slices.map gr.nextSet).filter (fun l => decide (l ≠ []))

/-- Does a context place teams: it runs, no request stops it, and no compaction of it is under way. -/
def State.places (s : State) (c : Nat) : Bool :=
  (s.ctx c).runs && decide ((s.ctx c).stop = .none) && (fget s.compacts c).isNone

/-- TEAM_PLACEMENT (R139-R141): the next set that fits, of the first grid that waits. -/
def execTeamPlacement (c : Nat) (s : State) : Host.Outcome State Fault Refusal :=
  event s (fun s =>
    if !s.places c then none
    else match s.waitingGrid c with
      | none => none
      | some (n, gr) => gr.nextSets.findSome? (fun set =>
          (s.res.placeSet (s.ctx c).quads gr set).map (fun x => s.bornSet n gr (set.zip x.2))))

/-! Compaction (R143). -/

/-- Groups put in order of quadrant and block. -/
def insHeld (h : Held) : List Held → List Held
  | [] => [h]
  | x :: xs => if h.quad < x.quad ∨ (h.quad = x.quad ∧ h.block ≤ x.block) then h :: x :: xs else x :: insHeld h xs

/-- Allocations put in order of core and start. -/
def insAlloc (a : Alloc) : List Alloc → List Alloc
  | [] => [a]
  | x :: xs => if a.core < x.core ∨ (a.core = x.core ∧ a.a0 ≤ x.a0) then a :: x :: xs else x :: insAlloc a xs

/-- The groups and allocations of a cluster that may move, packed to the lowest placements in ascending order (R143). -/
def Res.pack (r : Res) (part : List Nat) (cl : Nat) (gm tm : Nat → Bool) : Res :=
  let mg (h : Held) : Bool := decide (h.quad / 16 = cl) && part.contains h.quad && gm h.gid
  let ma (a : Alloc) : Bool := decide (a.core / 4 = cl) && tm a.tid
  let gs := (r.held.filter mg).foldl (fun acc h => insHeld h acc) []
  let as_ := (r.allocs.filter ma).foldl (fun acc a => insAlloc a acc) []
  let r0 : Res := { r with held := r.held.filter (fun h => !mg h), allocs := r.allocs.filter (fun a => !ma a) }
  let r1 := gs.foldl (fun (u : Res) h => { u with held := u.held ++ [{ h with block := (u.rows h.quad h.nregs).getD h.block }] }) r0
  as_.foldl (fun (u : Res) a => { u with allocs := u.allocs ++ [{ a with a0 := (u.space part a.core a.len).getD a.a0 }] }) r1

/-- Teams of a context. -/
def State.ofCtx (s : State) (c tid : Nat) : Bool :=
  match fget s.teams tid with
  | some t => decide (((fget s.grids t.grid).map (·.ctx)) = some c)
  | none => false

/-- The packing of a core's cluster with which a set would be placed (R143). -/
def State.packing (s : State) (c : Nat) (gr : Grid) (set : List (Nat × Nat)) (core : Nat) : Option Compact :=
  let part := (s.ctx c).quads
  let r := s.res.pack part (core / 4) (fun _ => true) (s.ofCtx c)
  if (r.placeSet part gr set).isSome then
    some ⟨core, (s.res.held.filter (fun h => !r.held.contains h)).map (·.gid), (s.res.allocs.filter (fun a => !r.allocs.contains a)).map (·.tid)⟩
  else none

/-- COMPACTION (R143): no core passes for the set to be placed, and packing the cluster of some core would let it pass; the
first such core in variant order is taken, and its groups to be moved stop. -/
def execCompaction (c : Nat) (s : State) : Host.Outcome State Fault Refusal :=
  event s (fun s =>
    if !s.places c then none
    else match s.waitingGrid c with
      | none => none
      | some (_, gr) =>
        if gr.nextSets.any (fun set => (s.res.placeSet (s.ctx c).quads gr set).isSome) then none
        else gr.nextSets.findSome? (fun set =>
          ((set.map (·.1)).flatMap (fun d => sliceCores (s.ctx c).quads gr d)).findSome? (fun core =>
            (s.packing c gr set core).map (fun k => { s with compacts := fset s.compacts c k }))))

/-- The new places of a packing taken over. -/
def State.moveTo (s : State) (r : Res) : State :=
  let s1 := r.held.foldl (fun (t : State) h => t.modGroup h.gid (fun g => { g with block := h.block })) s
  r.allocs.foldl (fun (t : State) a => t.modTeam a.tid (fun m => { m with a0 := a.a0 })) s1

/-- COMPACTION_COMPLETE (R143): once the stopped groups have no result but verdicts pending, rows and allocations move and
the groups resume. -/
def execCompactionComplete (c : Nat) (s : State) : Host.Outcome State Fault Refusal :=
  event s (fun s => match fget s.compacts c with
    | none => none
    | some k =>
      if k.gids.any (fun n => match fget s.groups n with
          | some g => g.pend.any (fun p => decide (p.kind ≠ .verdict))
          | none => false) then none
      else
        let r := s.res.pack (s.ctx c).quads (k.core / 4) k.gids.contains k.tids.contains
        some { (s.moveTo r) with compacts := fdel s.compacts c })

/-! The end of a team (R141, R224). -/

/-- The groups of a team. -/
def State.teamGroups (s : State) (tid : Nat) : List (Nat × Group) := s.groups.filter (fun e => decide (e.2.tid = tid))

/-- Has a team ended: every lane has exited, its spoil entries and engine writes have landed (R141). -/
def State.teamDone (s : State) (tid : Nat) (t : Team) : Bool :=
  !t.ended && (s.teamGroups tid).all (fun e => decide (e.2.live = 0) && decide (e.2.spoil = [])) &&
  t.cmds.all (fun e => decide (e.2.st = .cancelled)) &&
  s.landings.all (fun l => l.teams.all (fun e => decide (e.2 ≠ tid)))

/-- Teams of a die slice that have all ended are gone with their allocations, once every team of it was placed. -/
def State.freeSlice (s : State) (grid : Nat) (gr : Grid) (slice : Nat) : State :=
  let mine (t : Team) : Bool := decide (t.grid = grid) && decide (t.slice = slice)
  if sget 0 gr.nextTeam slice < gr.teams ∨ s.teams.any (fun e => mine e.2 && !e.2.ended) then s
  else { s with teams := s.teams.filter (fun e => !mine e.2) }

/-- TEAM_END (R141): its resources are freed; in a grid with residency die or grid its allocation and tags stay until every
team of its die slice has ended (R224). -/
def execTeamEnd (tid : Nat) (s : State) : Host.Outcome State Fault Refusal :=
  event s (fun s => match fget s.teams tid with
    | none => none
    | some t =>
      if !s.teamDone tid t then none
      else
        let s1 := { s with groups := s.groups.filter (fun e => decide (e.2.tid ≠ tid)) }
        match fget s.grids t.grid with
        | none => none
        | some gr =>
          if gr.residency ≥ 2 then
            some ((s1.setTeam tid { t with ended := true, cmds := [], upds := [], handles := [], ctrs := [] }).freeSlice t.grid gr t.slice)
          else some { s1 with teams := fdel s1.teams tid })

end Sys2Proof.Machine
end

