-- ==== Sys2Proof/Machine/Queues.lean ====
section
/-! DEFINITION. User queues, hardware slots, launch records and completion records (spec 06_queue R114-R125, 05_context
R101, 07_kernel R135). -/
namespace Sys2Proof.Machine

/-! The queue window (R114, R115). -/

/-- What refuses a write of the queue window by the state of its context (R114). -/
def CtxState.qtCauses (x : CtxState) : List Nat :=
  match x with
  | .running | .migOut | .migIn => [2]
  | .free | .scrubbing | .disabled => [4]
  | .bound | .preempted => []

/-- The causes that refuse a write of `qt_base`. -/
def qtBaseCauses (x : Ctx) (v : Dword) : List Nat :=
  x.st.qtCauses ++ (if pathOf v ≠ 0 then [3] else []) ++ (if v.toNat % 64 ≠ 0 then [5] else [])

/-- The causes that refuse a write of `qt_count`. -/
def qtCountCauses (x : Ctx) (v : Dword) : List Nat :=
  x.st.qtCauses ++ (if bits v.toNat 16 0 > 65536 then [1] else []) ++ (if bits v.toNat 31 17 ≠ 0 then [5] else [])

/-- QT_BASE_WRITE (R115). -/
def execQtBaseWrite (c : Nat) (v : Dword) (s : State) : Host.Outcome State Fault Refusal :=
  event s (fun s =>
    let x := s.ctx c
    if !s.answers then none
    else match leastOf (qtBaseCauses x v) with
    | some e => some (s.setCtx c { x with qtErr := e })
    | none => some (s.setCtx c { x with qtErr := 0, qtBase := v }))

/-- QT_COUNT_WRITE (R115). -/
def execQtCountWrite (c : Nat) (v : Dword) (s : State) : Host.Outcome State Fault Refusal :=
  event s (fun s =>
    let x := s.ctx c
    if !s.answers then none
    else match leastOf (qtCountCauses x v) with
    | some e => some (s.setCtx c { x with qtErr := e })
    | none => some (s.setCtx c { x with qtErr := 0, qtCount := bits v.toNat 16 0 }))

/-! Descriptors (R116). -/

/-- The address of queue n's descriptor. -/
def State.descAt (s : State) (c n : Nat) : Nat := (s.ctx c).qtBase.toNat + 64 * n

/-- The bytes of queue n's descriptor. -/
def State.desc (s : State) (c n : Nat) : Option (List Byte) := s.devRead c (s.descAt c n) 64

/-- Queue n's descriptor is read. -/
def State.descSeen (s : State) (c n : Nat) : State := s.devSeen c (s.descAt c n) 64

/-- A queue that the scheduler has not met, its indices as its descriptor gives them. -/
def Queue.ofDesc (d : List Byte) : Queue :=
  { st := .disabled, rbase := 0, rsize := 2, ctl := 0, widx := BitVec.ofNat 32 (field d 16 4), ridx := BitVec.ofNat 32 (field d 20 4),
    done := BitVec.ofNat 32 (field d 24 4), qerr := 0, eseq := 0, since := 0, rung := false, head := none, complete := [] }

/-- Queue n as the scheduler keeps it. -/
def State.queue (s : State) (c n : Nat) : Queue :=
  (fget (s.ctx c).queues n).getD (Queue.ofDesc ((s.desc c n).getD []))

/-- Queue n replaced. -/
def State.setQueue (s : State) (c n : Nat) (q : Queue) : State :=
  s.setCtx c { s.ctx c with queues := fset (s.ctx c).queues n q }

/-- A 4-byte cell of a descriptor written back; nothing where it cannot be written. -/
def State.putDesc (s : State) (c n o : Nat) (v : Nat) : State :=
  (s.devWrite c (s.descAt c n + o) (leBytes 4 v)).getD (s.devWalked c .w (s.descAt c n + o))

/-- The slot that maps a queue. -/
def State.slotFor (s : State) (c n : Nat) : Option (Nat × Slot) :=
  s.slots.find? (fun e => decide (e.2.ctx = c) && decide (e.2.queue = n))

/-- A slot replaced. -/
def State.setSlot (s : State) (k : Nat) (x : Slot) : State := { s with slots := fset s.slots k x }

/-- The slot of a queue begins to unload, if it has one. -/
def State.stopSlot (s : State) (c n : Nat) : State :=
  match s.slotFor c n with
  | some (k, x) => s.setSlot k { x with st := .unloading }
  | none => s

/-- A queue put into error (R118): qerr and eseq are written and it is unloaded. -/
def State.errQueue (s : State) (c n code : Nat) (eseq : Word) : State :=
  let q := s.queue c n
  if q.st = .error then s
  else
    let s1 := s.setQueue c n { q with st := .error, qerr := code, eseq := eseq, head := none }
    ((s1.putDesc c n 28 code).putDesc c n 32 eseq.toNat).stopSlot c n

/-! Seeing a descriptor (R117, R122). -/

/-- A mapped queue's widx and enable as re-read: disabled, too many records, empty, or going on (R117, R118, R122). A doorbell is
kept for the re-read after the unload. -/
def State.pollQueue (s : State) (c n : Nat) (d : List Byte) : State :=
  let q := s.queue c n
  let widx := BitVec.ofNat 32 (field d 16 4)
  let en := bit (field d 12 4) 0
  let q1 : Queue := { q with
    widx := widx, ctl := if en then q.ctl else BitVec.ofNat 32 (q.ctl.toNat / 2 * 2) }
  if !en ∧ (q.head = none ∨ q.st = .blocked) then
    (s.setQueue c n { q1 with st := .disabled, head := none }).stopSlot c n
  else if (widx - q.ridx).toNat > 2 ^ q.rsize then (s.setQueue c n q1).errQueue c n 1 q.ridx
  else if widx = q.ridx ∧ q.head = none then (s.setQueue c n { q1 with st := .empty }).stopSlot c n
  else s.setQueue c n q1

/-- An unmapped queue's descriptor seen: en 0 disables a queue in any state, en 1 makes a disabled queue empty, and records
make an empty queue waiting; a queue in error leaves that state on a doorbell once software has cleared qerr (R118, R122). -/
def State.seeIdle (s : State) (c n : Nat) (d : List Byte) : State :=
  let q := s.queue c n
  let ctl := BitVec.ofNat 32 (field d 12 4)
  let widx := BitVec.ofNat 32 (field d 16 4)
  let q1 : Queue := { q with rung := false, widx := widx, qerr := if field d 28 4 = 0 then 0 else q.qerr }
  if !ctl.getLsbD 0 then s.setQueue c n { q1 with st := .disabled }
  else if q.st = .error ∧ ¬(q.rung ∧ field d 28 4 = 0) then s.setQueue c n { q with rung := false }
  else if q.st = .waiting then s.setQueue c n { q1 with ctl := ctl }
  else if widx ≠ q.ridx then s.setQueue c n { q1 with st := .waiting, ctl := ctl, since := s.time }
  else s.setQueue c n { q1 with st := .empty, ctl := ctl }

/-- The scheduler reads a queue's descriptor: at once unless its slot loads or unloads, which keeps a doorbell for later. -/
def State.see (s0 : State) (c n : Nat) : State :=
  let s := s0.descSeen c n
  match s.slotFor c n, s.desc c n with
  | some (_, x), some d => if x.st = .active then s.pollQueue c n d else s
  | some (_, x), none => if x.st = .active then s.errQueue c n 2 0 else s
  | none, some d => s.seeIdle c n d
  | none, none => s.errQueue c n 2 0

/-- Does the scheduler work on a context's queues (R117, R126). -/
def State.maps (s : State) (c : Nat) : Bool := (s.ctx c).runs && decide ((s.ctx c).stop = .none)

/-- Does the scheduler read a context's descriptors: it runs or migrates out, though a pre-emption keeps its queues from being
mapped (R117). -/
def State.sweeps (s : State) (c : Nat) : Bool := decide ((s.ctx c).st = .running) || decide ((s.ctx c).st = .migOut)

/-- DOORBELL (R116, R117): beyond the table it is ignored. -/
def execDoorbell (c n : Nat) (s : State) : Host.Outcome State Fault Refusal :=
  event s (fun s =>
    if n ≥ (s.ctx c).qtCount ∨ !s.answers then none
    else
      let s1 := s.setQueue c n { s.queue c n with rung := true }
      if s.sweeps c then some (s1.see c n) else some s1)

/-- QUEUE_SWEEP (R117): once for each whole millisecond, every descriptor is read. -/
def execQueueSweep (c : Nat) (s : State) : Host.Outcome State Fault Refusal :=
  event s (fun s =>
    let x := s.ctx c
    if !s.sweeps c || decide (s.time / 1000000 ≤ x.sweepAt) then none
    else some ((List.range x.qtCount).foldl (fun (t : State) n => t.see c n)
      (s.setCtx c { x with sweepAt := s.time / 1000000 })))

/-! Slots (R120, R122). -/

/-- The effective priority of a queue (R120). -/
def State.prio (s : State) (c n : Nat) : Nat := min (bits (s.queue c n).ctl.toNat 3 1) (bits (s.ctx c).qos.toNat 18 16)

/-- May a context hold one more slot (R120). -/
def State.underLimit (s : State) (c : Nat) : Bool :=
  let m := bits (s.ctx c).qos.toNat 31 24
  decide ((s.slots.filter (fun e => decide (e.2.ctx = c))).length < if m = 0 then 256 else m)

/-- Queues of the contexts that the scheduler works on, with a state. -/
def State.queuesIn (s : State) (p : Queue → Bool) : List (Nat × Nat × Queue) :=
  s.ctxs.flatMap (fun e => if s.maps e.1 then
    (e.2.queues.filter (fun q => p q.2)).map (fun q => (e.1, q.1, q.2)) else [])

/-- Must a waiting queue let another go first: one of higher priority waits or is mapped with work, or one of its own
priority has waited longer (R120). A queue of a context at its limit is passed over. A blocked queue does not count as mapped
with work: DESIGN CHOICE, for R120 does not say whether one holds queues of lower priority back (log 61). -/
def State.passedBy (s : State) (c n : Nat) : Bool :=
  (s.queuesIn (fun q => decide (q.st = .waiting))).any (fun e => s.underLimit e.1 &&
    (decide (s.prio e.1 e.2.1 > s.prio c n) ||
      (decide (s.prio e.1 e.2.1 = s.prio c n) && decide (e.2.2.since < (s.queue c n).since)))) ||
  (s.queuesIn (fun q => decide (q.st = .mapped) && decide (q.widx ≠ q.ridx))).any (fun e => decide (s.prio e.1 e.2.1 > s.prio c n))

/-- May a waiting queue displace what a slot holds (R120). -/
def State.displaces (s : State) (c n : Nat) (x : Slot) : Bool :=
  let v := s.queue x.ctx x.queue
  decide (x.st = .active) && (decide (s.prio x.ctx x.queue < s.prio c n) ||
    (decide (s.prio x.ctx x.queue = s.prio c n) && (x.expired || decide (v.st = .blocked) || decide (v.st = .empty))))

/-- QUEUE_LOAD (R120, R122): onto a free slot, which begins to load; with no slot free, the queue of the slot named is
displaced and unloads, unless another slot unloads for the same queue already. -/
def execQueueLoad (c n slot : Nat) (s : State) : Host.Outcome State Fault Refusal :=
  event s (fun s =>
    let q := s.queue c n
    if !s.maps c || decide (q.st ≠ .waiting) || decide (slot ≥ 256) || !s.underLimit c || s.passedBy c n ||
        (s.slotFor c n).isSome then none
    else match fget s.slots slot with
      | none => some ((s.setQueue c n { q with st := .mapped }).setSlot slot ⟨c, n, .loading, s.time, false, none⟩)
      | some x =>
        if s.slots.length < 256 ∨ !s.displaces c n x ∨ s.slots.any (fun e => decide (e.2.taker = some (c, n))) then none
        else
          let v := s.queue x.ctx x.queue
          some ((s.setQueue x.ctx x.queue { v with st := .waiting, since := s.time, head := none }).setSlot slot { x with st := .unloading, taker := some (c, n) }))

/-- Is a descriptor in the layout that a load demands (R116, R118). -/
def descOk (d : List Byte) : Bool :=
  decide (field d 0 8 % 128 = 0) && decide (field d 0 8 / 2 ^ 61 = 0) && decide (2 ≤ field d 8 4) && decide (field d 8 4 ≤ 16) &&
  zeros d 36 64 && decide (bits (field d 12 4) 31 17 = 0) && !(bit (field d 12 4) 16 && decide (bits (field d 12 4) 15 8 > 63))

/-- A slot that loads reads the descriptor and becomes active, or puts the queue into error (R117, R118). -/
def State.finishLoad (s0 : State) (slot : Nat) (x : Slot) : State :=
  let s := s0.descSeen x.ctx x.queue
  match s.desc x.ctx x.queue with
  | none => s.errQueue x.ctx x.queue 2 0
  | some d =>
    if !descOk d then s.errQueue x.ctx x.queue 2 0
    else
      let q := s.queue x.ctx x.queue
      ((s.setSlot slot { x with st := .active }).setQueue x.ctx x.queue
        { q with rbase := field d 0 8, rsize := field d 8 4, ctl := BitVec.ofNat 32 (field d 12 4) }).pollQueue x.ctx x.queue d

/-- QUEUE_POLL (R117): a slot that loads finishes loading; an active one re-reads widx and ctl.en. -/
def execQueuePoll (slot : Nat) (s : State) : Host.Outcome State Fault Refusal :=
  event s (fun s => match fget s.slots slot with
    | none => none
    | some x =>
      if !s.maps x.ctx then none
      else match x.st with
        | .loading => some (s.finishLoad slot x)
        | .active => some (s.see x.ctx x.queue)
        | .unloading => none)

/-- SLICE_EXPIRY (R120): a slice of 100 µs × 2 to the s has passed since the load. -/
def execSliceExpiry (slot : Nat) (s : State) : Host.Outcome State Fault Refusal :=
  event s (fun s => match fget s.slots slot with
    | none => none
    | some x =>
      let len := 100000 * 2 ^ bits (s.queue x.ctx x.queue).ctl.toNat 7 4
      if x.st = .active ∧ !x.expired ∧ s.time ≥ x.start + len then some (s.setSlot slot { x with expired := true }) else none)

/-- A slot writes back ridx, done and qerr and is free (R122, R126). -/
def State.unload (s : State) (slot : Nat) (x : Slot) : State :=
  let q := s.queue x.ctx x.queue
  let s1 := ((s.putDesc x.ctx x.queue 20 q.ridx.toNat).putDesc x.ctx x.queue 24 q.done.toNat).putDesc x.ctx x.queue 28 q.qerr
  { s1 with slots := fdel s1.slots slot }

/-- QUEUE_UNLOAD (R122): a doorbell that was kept is served after it. -/
def execQueueUnload (slot : Nat) (s : State) : Host.Outcome State Fault Refusal :=
  event s (fun s => match fget s.slots slot with
    | none => none
    | some x =>
      if x.st ≠ .unloading then none
      else
        let s1 := s.unload slot x
        if (s.queue x.ctx x.queue).rung ∧ s.sweeps x.ctx then some (s1.see x.ctx x.queue) else some s1)

/-! Completion records (R123, R124). -/

/-- The leading records that are complete, k at most: done and what is left. -/
def advanceDone : Nat → Word → List Nat → Word × List Nat
  | 0, d, l => (d, l)
  | k + 1, d, l => if l.contains d.toNat then advanceDone k (d + 1) (l.filter (fun x => decide (x ≠ d.toNat))) else (d, l)

/-- A record counts as written: done advances over the leading ones and is written back (R118, R123). -/
def State.recordDone (s : State) (c n seq : Nat) : State :=
  let q := s.queue c n
  let (d, l) := advanceDone (q.complete.length + 1) q.done (seq :: q.complete)
  (s.setQueue c n { q with done := d, complete := l }).putDesc c n 24 d.toNat

/-- What a completion record says (R123), and the interrupt it raises. -/
structure Completion where
  queue : Nat
  seq : Nat
  crec : Nat
  status : Nat
  steps : Nat
  info : Nat
  team : Nat
  group : Nat
  lane : Nat
  scope : Nat
  irq : Option Nat
  deriving DecidableEq, Repr

/-- A completion with no use of the fields that most statuses leave zero. -/
def Completion.plain (queue seq crec status steps info : Nat) (irq : Option Nat) : Completion :=
  ⟨queue, seq, crec, status, steps, info, 0, 0, 0, 0, irq⟩

/-- The 32 bytes of a completion record (R123). -/
def Completion.bytes (r : Completion) : List Byte :=
  leBytes 4 r.status ++ leBytes 4 r.seq ++ leBytes 4 r.steps ++ leBytes 4 r.queue ++ leBytes 8 r.info ++ leBytes 4 r.team ++
  leBytes 2 r.group ++ leBytes 1 r.lane ++ leBytes 1 r.scope

/-- A completion record written, done advanced, the interrupt raised; an address that cannot be written puts the queue into
error 0x04 (R118, R123). -/
def State.completeRec (s : State) (c : Nat) (r : Completion) : State :=
  match s.devWrite c r.crec r.bytes with
  | some s1 =>
    let s2 := s1.recordDone c r.queue r.seq
    match r.irq with
    | some v => s2.send (.msix (s.ctx c).fn v)
    | none => s2
  | none => ((s.devWalked c .w r.crec).recordDone c r.queue r.seq).errQueue c r.queue 4 (BitVec.ofNat 32 r.seq)

/-! Records (R119, R121). -/

/-- The valid dependences of a record: queue and sequence. -/
def recDeps (rec : List Byte) : List (Nat × Nat) :=
  ((List.range 4).map (fun i => field rec (40 + 8 * i) 8)).filterMap (fun d =>
    if bit d 63 then some (bits d 47 32, d % 2 ^ 32) else none)

/-- Does a record break its layout (R119). -/
def recBad (rec : List Byte) (count n seq : Nat) : Bool :=
  decide (bits (field rec 20 4) 31 4 ≠ 0) || !zeros rec 72 128 || decide (field rec 12 4 = 0) || decide (field rec 12 4 > 8) ||
  decide (field rec 16 4 = 0) || (List.range 4).any (fun i => decide (bits (field rec (40 + 8 * i) 8) 62 48 ≠ 0)) ||
  (recDeps rec).any (fun d => decide (d.1 ≥ count) || (decide (d.1 = n) && decide (d.2 ≥ seq)))

/-- The interrupt of a record under the ctl that its slot holds (R123). -/
def recIrq (rec : List Byte) (ctl : Word) : Option Nat :=
  if bit (field rec 20 4) 3 ∧ ctl.getLsbD 16 then some (bits ctl.toNat 15 8) else none

/-- The record at the head of a queue is passed: ridx advances and is written back. -/
def State.passHead (s : State) (c n : Nat) : State :=
  let q := s.queue c n
  (s.setQueue c n { q with ridx := q.ridx + 1, head := none, st := if q.st = .blocked then .mapped else q.st }).putDesc c n 20 (q.ridx + 1).toNat

/-- The address of the record at the head of a queue's ring (R119). -/
def Queue.headAt (q : Queue) : Nat := q.rbase + 128 * (q.ridx.toNat % 2 ^ q.rsize)

/-- RECORD_FETCH (R119): the record is copied whole; one that breaks the layout completes at once. -/
def execRecordFetch (slot : Nat) (s0 : State) : Host.Outcome State Fault Refusal :=
  event s0 (fun s0 => match fget s0.slots slot with
    | none => none
    | some x =>
      let c := x.ctx
      let n := x.queue
      let q := s0.queue c n
      if !s0.maps c || decide (x.st ≠ .active) || decide (q.st ≠ .mapped) || q.head.isSome || !q.ctl.getLsbD 0 ||
          decide (q.widx = q.ridx) then none
      else
        let s := s0.devSeen c q.headAt 128
        match s.devRead c q.headAt 128 with
        | none => some (s.errQueue c n 3 q.ridx)
        | some rec =>
          if field rec 32 8 % 32 ≠ 0 then
            some (((s.passHead c n).recordDone c n q.ridx.toNat).errQueue c n 4 q.ridx)
          else if recBad rec (s.ctx c).qtCount n q.ridx.toNat then
            some ((s.passHead c n).completeRec c (Completion.plain n q.ridx.toNat (field rec 32 8) 4 0 0 (recIrq rec q.ctl)))
          else some (s.setQueue c n { q with head := some rec }))

/-- Do a record's dependences, and its serial flag, let it launch (R121). -/
def State.recReady (s : State) (c n : Nat) (rec : List Byte) : Bool :=
  (recDeps rec).all (fun d => decide ((s.queue c d.1).done.toNat > d.2)) &&
  (!bit (field rec 20 4) 2 || decide ((s.queue c n).done = (s.queue c n).ridx))

/-- The grid that a record and a kernel's declaration describe (R119, R128, R132). -/
def gridOf (c n seq : Nat) (x : Ctx) (rec image e : List Byte) (ctl : Word) (order : List Nat) : Grid :=
  let at_ := field rec 0 8
  { ctx := c, queue := n, seqNo := seq, image := at_, kernel := field rec 8 4, dies := field rec 12 4, teams := field rec 16 4,
    residency := field rec 20 4 % 4, gang := field e 24 1, groups := field e 8 2, prod := field e 10 2,
    pregs := field e 12 2, cregs := field e 14 2, ptiles := field e 16 1, ctiles := field e 17 1, nhandles := field e 18 2,
    order := order, spad := field e 20 4, entry := BitVec.ofNat 64 (at_ + field image 24 8 + field e 0 4),
    rodata := BitVec.ofNat 64 ((at_ + field image 40 8) % 2 ^ 61 + 4 * 2 ^ 61), args := BitVec.ofNat 64 (field rec 24 8),
    crec := BitVec.ofNat 64 (field rec 32 8), det := x.pdet, fnver := x.pver,
    irq := (recIrq rec ctl).isSome, vector := (recIrq rec ctl).getD 0, nextTeam := [], lastCore := [], landedD := [],
    landedG := 0, exitG := none, late := none }

/-- The launch checks in their order: a refusal code or the grid (R135). -/
def State.launchCheck (s : State) (c n : Nat) (q : Queue) (rec : List Byte) : Except Nat Grid :=
  match s.readImage c (field rec 0 8) with
  | none => .error 1
  | some image =>
    if field rec 8 4 ≥ field image 16 4 then .error 2
    else
      let e := kernelEntry image (field rec 8 4)
      if !declOk e (field image 32 8) then .error 3
      else match pickVariant e (s.ctx c).sig.toNat with
        | none => .error 4
        | some i =>
          let gr := gridOf c n q.ridx.toNat (s.ctx c) rec image e q.ctl (variantOrder e i)
          if (bit (field e 25 1) 1 ∧ gr.residency < 2) ∨ (bit (field e 25 1) 2 ∧ gr.residency ≠ 3) then .error 5
          else if gr.gang > 1 ∧ gr.teams % gr.gang ≠ 0 then .error 6
          else if !fitsEmpty (s.ctx c).quads gr then .error 7
          else .ok gr

/-- A slot whose queue has been disabled in the meantime stops at this record boundary (R122). -/
def State.boundaryOf (s : State) (c n : Nat) : State :=
  let q := s.queue c n
  if q.ctl.getLsbD 0 ∨ q.st = .error then s else (s.setQueue c n { q with st := .disabled }).stopSlot c n

/-- LAUNCH (R121): the head record waits, is refused, or becomes a grid of the work distributor. -/
def execLaunch (slot : Nat) (s : State) : Host.Outcome State Fault Refusal :=
  event s (fun s => match fget s.slots slot with
    | none => none
    | some x =>
      let c := x.ctx
      let n := x.queue
      let q := s.queue c n
      match q.head with
      | none => none
      | some rec =>
        if !s.maps c || decide (x.st ≠ .active) then none
        else if !s.recReady c n rec then
          (if q.st = .mapped then some (s.setQueue c n { q with st := .blocked }) else none)
        else
          let s := s.imageSeen c (field rec 0 8)
          let s1 := s.passHead c n
          match s.launchCheck c n q rec with
          | .error code =>
            some ((s1.completeRec c (Completion.plain n q.ridx.toNat (field rec 32 8) 3 0 code (recIrq rec q.ctl))).boundaryOf c n)
          | .ok gr => some (({ (s1.setGrid s1.nextGrid gr) with nextGrid := s1.nextGrid + 1 } : State).boundaryOf c n))

/-! The end of a grid (R123). -/

/-- The completion of a grid that has ended. -/
def Grid.completion (gr : Grid) : Completion :=
  let irq := if gr.irq then some gr.vector else none
  match gr.late with
  | some e => ⟨gr.queue, gr.seqNo, gr.crec.toNat, 2, e.count, e.info, e.team, e.group, e.lane, e.scope, irq⟩
  | none => Completion.plain gr.queue gr.seqNo gr.crec.toNat 1 (gr.exitG.getD 0).toNat 0 irq

/-- Is a domain one of a grid. -/
def State.domOf (s : State) (n : Nat) (d : Domain) : Bool := decide (s.domGrid d = some n)

/-- Has a grid ended: every team was placed and has ended, and nothing of it is landing. -/
def State.gridDone (s : State) (n : Nat) (gr : Grid) : Bool :=
  !gr.unplaced && s.teams.all (fun e => decide (e.2.grid ≠ n) || e.2.ended) &&
  s.landings.all (fun l => !s.domOf n l.dom)

/-- GRID_END (R123). -/
def execGridEnd (n : Nat) (s : State) : Host.Outcome State Fault Refusal :=
  event s (fun s => match fget s.grids n with
    | none => none
    | some gr =>
      if !(s.ctx gr.ctx).runs || !s.gridDone n gr then none
      else
        let s1 := { s with
          grids := fdel s.grids n
          teams := s.teams.filter (fun e => decide (e.2.grid ≠ n)) }
        some (s1.completeRec gr.ctx gr.completion))

end Sys2Proof.Machine
end

