-- ==== Sys2Proof/Machine/Context.lean ====
section
/-! DEFINITION. The commands of the context state machine but for those that save and restore, and the hard stop (spec
05_context R95, R106-R108, R111, R395, 06_queue R127, 13_link R290, 23_platform R387). -/
namespace Sys2Proof.Machine

/-- Is a command of `kh_ctl` running in a context (R106). -/
def State.cmdDue (s : State) (c n : Nat) : Bool := (s.ctx c).busy && decide ((s.ctx c).cmd = some n)

/-- The command of a context ends with a result (R106). -/
def State.endCmd (s : State) (c err : Nat) : State := s.setCtx c ((s.ctx c).ended err)

/-! The partition (R95, R387). -/

/-- The quadrants of the bitmap that `kh_pdesc` points to; none where it cannot be read. -/
def State.bitmap (s : State) (c : Nat) : Option (List Nat) :=
  let a := (s.ctx c).pdesc.toNat
  if a % 64 ≠ 0 ∨ !s.installed a 192 then none
  else
    let n := s.readN (s.keyAt c a) a 192
    some ((List.range 1536).filter (bit n))

/-- The bitmap is read. -/
def State.bitmapSeen (s : State) (c : Nat) : State :=
  let a := (s.ctx c).pdesc.toNat
  if a % 64 ≠ 0 ∨ !s.installed a 192 then s else s.seen c (linesOf a 192)

/-- Does a context that is not free, other than c, hold one of some quadrants. -/
def State.overlaps (s : State) (c : Nat) (qs : List Nat) : Bool :=
  s.ctxs.any (fun e => decide (e.1 ≠ c) && decide (e.2.st ≠ .free) && e.2.quads.any qs.contains)

/-- The 16 bytes of a defect-map entry (R387). -/
def Defect.bytes (d : Defect) : List Byte :=
  leBytes 2 d.kind ++ leBytes 2 d.index ++ leBytes 2 d.unit ++ leBytes 2 d.spare ++ List.replicate 8 0

/-- Before another entry of the defect map: kind, then index, unit and spare (R387). -/
def Defect.rank (d : Defect) : Nat := ((d.kind * 2 ^ 16 + d.index) * 2 ^ 16 + d.unit) * 2 ^ 16 + d.spare

/-- An entry put in the map's order. -/
def insDefect (d : Defect) : List Defect → List Defect
  | [] => [d]
  | e :: es => if d.rank < e.rank then d :: e :: es else e :: insDefect d es

/-- The defect map in its order (R387). -/
def State.defectMap (s : State) : List Defect := s.defects.foldl (fun acc d => insDefect d acc) []

/-- The frames that the leaves below a hypervisor table name, n levels above the last. Entries lie in listed bytes only. -/
def State.framesH (s : State) : Nat → Nat → List Nat
  | 0, table => (s.entriesH table).filterMap (fun i => match readEnt 3 (s.readN s.fwKey (table + 8 * i) 8) with
    | .leaf _ f => some f
    | _ => none)
  | n + 1, table => (s.entriesH table).flatMap (fun i => match readEnt (2 - n) (s.readN s.fwKey (table + 8 * i) 8) with
    | .leaf _ f => [f]
    | .table a => s.framesH n a
    | .bad => [])

/-- Is a memory die one of a context's partition: a leaf of its hypervisor stage names a frame there (R259, R387; DEDUCED, log
52). -/
def State.onDie (s : State) (c die : Nat) : Bool := (s.framesH 3 (s.hypRoot c)).any (fun f => decide (bits f 43 42 = die))

/-- The defect-map signature of a context's partition (R387). -/
def State.signature (s : State) (c : Nat) (qs : List Nat) : Dword :=
  let es := s.defectMap.filter (fun d => decide (d.kind = 0) && qs.contains d.index) ++
    s.defectMap.filter (fun d => decide (d.kind = 1) && s.onDie c d.index)
  let n := beNat ((sha384 (es.flatMap Defect.bytes)).drop 40)
  BitVec.ofNat 64 (if n = 0 then 1 else n)

/-- The checks of R395 that BIND and MIGRATE_IN make: an error or the partition. -/
def State.bindCheck (s : State) (c : Nat) : Except Nat (List Nat) :=
  match s.bitmap c with
  | none => .error 4
  | some qs =>
    if qs = [] ∨ s.overlaps c qs then .error 3
    else if (fget s.mgmt.keys ((s.ctx c).memkey.toNat % 64)).isNone then .error 5
    else if (s.ctx c).sarea.toNat % 4096 ≠ 0 then .error 8
    else .ok qs

/-! BIND, RUN, UNBIND (R107). -/

/-- A context with its `ku_`, `ks_` and queue registers at their reset values (R107, R115). -/
def Ctx.freshRegs (x : Ctx) : Ctx :=
  { x with
    pdet := true, pver := 1, swip := false, tvec := 0, pvec := 0, ptbase := 0, scring := 0, scsize := 0, qtBase := 0,
    qtCount := 0, qtErr := 0, queues := [], kept := [], round := none, roundDue := false, incoming := none, move := none }

/-- BIND (R107). -/
def execBind (c : Nat) (s : State) : Host.Outcome State Fault Refusal :=
  event s (fun s =>
    if !s.cmdDue c 1 then none
    else if (s.ctx c).st ≠ .free then some (s.endCmd c 1)
    else
      let s := s.bitmapSeen c
      match s.bindCheck c with
      | .error e => some (s.endCmd c e)
      | .ok qs => some ((s.setCtx c { ((s.ctx c).freshRegs).ended 0 with st := .bound, quads := qs, sig := s.signature c qs }).openStage c))

/-- The descriptors whose doorbells were rung before the scheduler worked on the context are read. -/
def State.seeRung (s : State) (c : Nat) : State :=
  ((s.ctx c).queues.filter (fun e => e.2.rung)).foldl (fun (t : State) e => t.see c e.1) s

/-- RUN (R107): the scheduler starts; its next sweep is that of the next whole millisecond. -/
def execRun (c : Nat) (s : State) : Host.Outcome State Fault Refusal :=
  event s (fun s =>
    let x := s.ctx c
    if !s.cmdDue c 2 then none
    else if x.st ≠ .bound then some (s.endCmd c 1)
    else some ((s.setCtx c { x.ended 0 with st := .running, sweepAt := s.time / 1000000 }).seeRung c))

/-- The grids of a context. -/
def State.ctxGrids (s : State) (c : Nat) : List Nat := (s.grids.filter (fun e => decide (e.2.ctx = c))).map (·.1)

/-- Groups and teams of a context leave the device. -/
def State.dropTeams (s : State) (c : Nat) : State :=
  let gs := s.ctxGrids c
  let tids := (s.teams.filter (fun e => gs.contains e.2.grid)).map (·.1)
  { s with
    groups := s.groups.filter (fun e => !tids.contains e.2.tid), teams := s.teams.filter (fun e => !tids.contains e.1)
    compacts := fdel s.compacts c, landings := s.landings.filter (fun l => !s.landsIn c l)
    sentw := s.sentw.filter (fun w => match w.src with
      | .boundary d _ => !decide (((s.domGrid d).bind (fget s.grids)).map (·.ctx) = some c)
      | .handler gid _ _ => !((fget s.groups gid).any (fun g => tids.contains g.tid))) }

/-- Groups, teams and grids of a context are gone. -/
def State.dropGrids (s : State) (c : Nat) : State :=
  { (s.dropTeams c) with grids := s.grids.filter (fun e => decide (e.2.ctx ≠ c)) }

/-- UNBIND (R107), a command that stays busy until the scrub is done: the partition goes to the scrub engine, lines still to be scrubbed in memory are abandoned, and the
peer and pre-copy entries are reset (R277). -/
def execUnbind (c : Nat) (s : State) : Host.Outcome State Fault Refusal :=
  event s (fun s =>
    let x := s.ctx c
    if !s.cmdDue c 7 then none
    else if x.st ≠ .bound ∧ x.st ≠ .preempted ∧ x.st ≠ .disabled then some (s.endCmd c 1)
    else
      let s1 := s.dropGrids c
      some (s1.setCtx c { x with
        st := .scrubbing, cmd := none, scrub := [], move := none, peers := [], pcBusy := false, pcStat := 0, pcPorts := 0, pcSess := 0, pcSent := 0 }))

/-- SCRUB_DONE (R107): the partition is clean and the context is free; the command that led here ends. -/
def execScrubDone (c : Nat) (s : State) : Host.Outcome State Fault Refusal :=
  event s (fun s =>
    let x := s.ctx c
    if x.st ≠ .scrubbing then none
    else
      let s1 := { (s.dropGrids c) with tlb := s.tlb.filter (fun t => decide (t.ctx ≠ c)) }
      let y := if x.busy then x.ended 0 else x
      some (s1.setCtx c { y with st := .free, quads := [], queues := [], kept := [], incoming := none, round := none }))

/-! Migration (R107, R290). -/

/-- MIGRATE_OUT (R107, R290): snapshot 0, then every mapped page is sent. The sweeps of a context that was pre-empted begin
again at the next whole millisecond (R117). -/
def execMigrateOut (c : Nat) (s : State) : Host.Outcome State Fault Refusal :=
  event s (fun s =>
    let x := s.ctx c
    if !s.cmdDue c 5 then none
    else if x.st ≠ .running ∧ x.st ≠ .preempted then some (s.endCmd c 1)
    else if !s.cutFree c then none
    else
      let s1 := s.setCtx c { x.ended 0 with
        st := .migOut, migRan := decide (x.st = .running), sweepAt := if x.st = .running then x.sweepAt else s.time / 1000000, pcSeq := 0, stage := { x.stage with snap := 0 } }
      let (s2, _) := s1.snapshot c
      let s3 := s2.tablesSeen c
      some (s3.beginRound c (s3.mappedPages c) false))

/-- MIGRATE_IN (R107): BIND's checks, and the stream is awaited. -/
def execMigrateIn (c : Nat) (s : State) : Host.Outcome State Fault Refusal :=
  event s (fun s =>
    if !s.cmdDue c 6 then none
    else if (s.ctx c).st ≠ .free then some (s.endCmd c 1)
    else
      let s := s.bitmapSeen c
      match s.bindCheck c with
      | .error e => some (s.endCmd c e)
      | .ok qs => some ((s.setCtx c { ((s.ctx c).freshRegs).ended 0 with
          st := .migIn, quads := qs, incoming := some ⟨[], [], none⟩ }).openStage c))

/-- CANCEL (R107). -/
def execCancel (c : Nat) (s : State) : Host.Outcome State Fault Refusal :=
  event s (fun s =>
    let x := s.ctx c
    if !s.cmdDue c 9 then none
    else match x.st with
      | .migOut => some (s.setCtx c { x.ended 0 with
          st := if x.migRan then .running else .preempted
          round := none, roundDue := false, pcBusy := false, pcStat := if x.pcBusy then 4 else x.pcStat
          stage := { x.stage with snap := 0 } })
      | .migIn => some (s.setCtx c { x with st := .scrubbing, cmd := none, incoming := none, scrub := [] })
      | _ => some (s.endCmd c 1))

/-! The hard stop (R111, R127). -/

/-- A boundary that had formed before the stop lands whole (R111). -/
def State.landWhole (s : State) (l : Landing) : State :=
  match (s.domGrid l.dom).bind (fget s.grids) with
  | none => s
  | some gr =>
    let s1 := match l.dom with
      | .grid _ => s.applyPeers gr.ctx (fun w => decide (w.id < l.peers))
      | _ => s
    let r := s1.landCells gr.ctx gr.det { l with parts := fmapV (fun _ p => { p with stage := .applied }) l.parts }
    r.1.landRest gr.ctx gr.det (l.baseOf l.contribs.length) l.late r.2.done r.2.verdicts l.contribs

/-- The completion of an unfinished launch on a hard stop (R127). -/
def Grid.disabled (gr : Grid) : Completion :=
  Completion.plain gr.queue gr.seqNo gr.crec.toNat 6 0 0 (if gr.irq then some gr.vector else none)

/-- The hard stop of a context (R111): formed boundaries land, everything else is dropped; `records` is whether its
unfinished launches get their completion status, which a device reset leaves out (R383). -/
def State.hardStop (s : State) (c : Nat) (records : Bool) : State :=
  let s1 := ((s.landings.filter (s.landsIn c)).foldl State.landWhole s).undoMove c
  let s2 := if records then
    ((s1.grids.filter (fun e => decide (e.2.ctx = c))).map (·.2)).foldl (fun (t : State) gr => t.completeRec c gr.disabled) s1
    else s1
  let s3 := { (s2.dropGrids c) with
    slots := s2.slots.filter (fun e => decide (e.2.ctx ≠ c)), tlb := s2.tlb.filter (fun t => decide (t.ctx ≠ c)) }
  let x := s3.ctx c
  s3.setCtx c { x with
    st := .disabled, stop := .none, scrub := [], move := none, incoming := none, kept := []
    round := none, roundDue := false, pcBusy := false, pcStat := if x.pcBusy then 4 else x.pcStat
    queues := fmapV (fun _ q => { q with head := none }) x.queues }

/-- Does a hard stop reach a context (R107). -/
def CtxState.stoppable (x : CtxState) : Bool := decide (x ≠ .free) && decide (x ≠ .scrubbing)

/-- DISABLE (R106, R111). In a context that is being scrubbed it is refused and the scrub goes on. -/
def execDisable (c : Nat) (s : State) : Host.Outcome State Fault Refusal :=
  event s (fun s =>
    let x := s.ctx c
    if !s.cmdDue c 8 then none
    else if x.st.stoppable then
      some ((s.hardStop c true).endCmd c (if x.cutShort then 0x0B else 0))
    else if x.st = .scrubbing ∧ x.cutShort then some (s.setCtx c { x with err := 1, cmd := none, cutShort := false })
    else some (s.endCmd c (if x.cutShort then 0x0B else 1)))

/-- Contexts that a test selects take the hard stop; a command that it cuts short ends with no result of its own. -/
def State.stopWhere (s : State) (p : Ctx → Bool) (records : Bool) : State :=
  (s.ctxs.filter (fun e => p e.2 && e.2.st.stoppable)).foldl (fun (t : State) e =>
    let u := t.hardStop e.1 records
    if e.2.busy then u.endCmd e.1 0 else u) s

/-- VF_ENABLE_CLEAR (R111). -/
def execVfEnableClear (s : State) : Host.Outcome State Fault Refusal :=
  event s (fun s => some (s.stopWhere (fun x => !x.vf.getLsbD 6) true))

/-- FUNCTION_LEVEL_RESET (R111). -/
def execFunctionLevelReset (fn : Nat) (s : State) : Host.Outcome State Fault Refusal :=
  event s (fun s => some (s.stopWhere (fun x => decide (x.fn = fn) && !x.vf.getLsbD 6) true))

end Sys2Proof.Machine
end

