-- ==== Sys2Proof/Machine/Control.lean ====
section
/-! DEFINITION. The control instructions, opcodes 0x000-0x010 and 0x01E (spec 08_group R149, R155, R166-R180,
04_encoding R72, R74, R84). -/
namespace Sys2Proof.Machine

/-! Dividing a split. -/

/-- Does a view's split issue in user mode. -/
def View.user (v : View) : Bool := decide (v.sp.mode = .user)

/-- The next state of a control instruction, or its trap in every active lane. -/
def State.orTrap (s : State) (v : View) (r : Except TrapInfo State) : State :=
  match r with
  | .ok t => t
  | .error t => s.trapSplit v t

/-- One of the splits that a divergence produces: its lanes and its destination, none for the lanes that fall through. A
split whose destination is the rejoin PC waits at the join at once (R155). -/
def kidSplit (sp : Split) (rejoin : Dword) (jmask : LaneMask) (k : LaneMask × Option Dword) : Split :=
  let a := match k.2 with
    | some pc => sp.transfer pc
    | none => sp.advance
  let b := { a with mask := k.1, rejoin := rejoin, jmask := jmask }
  if b.pc = rejoin then { b with st := .join } else b

/-- A set of lanes put before the first with a higher lowest lane. -/
def insKid (k : LaneMask × Option Dword) : List (LaneMask × Option Dword) → List (LaneMask × Option Dword)
  | [] => [k]
  | j :: js => if lowestLane k.1 < lowestLane j.1 then k :: j :: js else j :: insKid k js

/-- Sets of lanes by their lowest lane (R149). -/
def sortKids (ks : List (LaneMask × Option Dword)) : List (LaneMask × Option Dword) := ks.foldr insKid []

/-- The lanes grouped by destination, in the order in which destinations first appear. -/
def byDest (ls : List Nat) (pc : Nat → Dword) : List (LaneMask × Option Dword) :=
  let ds := ls.foldl (fun acc l => if acc.contains (pc l) then acc else acc ++ [pc l]) []
  ds.map (fun d => (maskOf (fun l => ls.contains l && decide (pc l = d)), some d))

/-- A split put into a group under its name: resident, or dormant with its stack spilled. -/
def State.seat (s : State) (v : View) (g : Group) (sid : Nat) (sp : Split) (at? : Option Place) : Except TrapInfo State :=
  let pl := match at? with
    | some p => p
    | none => match g.freeEntry with
      | some n => .resident n
      | none => .dormant
  match pl with
  | .dormant => match s.spill v sp with
    | .ok s1 => .ok (s1.setGroup v.gid (g.setSplit sid { sp with place := .dormant, held := [] }))
    | .error t => .error t
  | p => .ok (s.setGroup v.gid (g.setSplit sid { sp with place := p }))

/-- The splits after the first take new age keys and free entries in order (R149). -/
def State.seatRest (s : State) (v : View) : List Split → Except TrapInfo State
  | [] => .ok s
  | k :: ks => match fget s.groups v.gid with
    | none => .ok s
    | some g =>
      match s.seat v { g with nextId := g.nextId + 1, nextAge := g.nextAge + 1 } g.nextId { k with sid := g.nextId, age := g.nextAge } none with
      | .ok s1 => s1.seatRest v ks
      | .error t => .error t

/-- A split replaced by several, in lane order; the merges are then tested (R149, R156). -/
def State.divide (s : State) (v : View) (kids : List Split) : Except TrapInfo State :=
  match kids, fget s.groups v.gid with
  | k :: ks, some g => match s.seat v g v.sid k (some v.sp.place) with
    | .ok s1 => match s1.seatRest v ks with
      | .ok s2 => .ok ((s2.retest v.gid).promote v.gid)
      | .error t => .error t
    | .error t => .error t
  | _, _ => .ok s

/-- The opening of a divergence (R155): the loop check of R176, the push, the division. -/
def State.diverge (s : State) (v : View) (kids : List (LaneMask × Option Dword)) (rejoin : Dword) (jmask : LaneMask) :
    Except TrapInfo State :=
  if v.sp.loop.isSome ∧ kids.length > 1 then .error ⟨0x14, 0⟩
  else match push s v v.sp ⟨v.sp.rejoin, v.sp.jmask, 1⟩ with
    | .error t => .error t
    | .ok (s1, sp1) => s1.divide v ((sortKids kids).map (kidSplit sp1 rejoin jmask))

/-- Lanes that meet a trap of their own leave; the others do the rest, which may trap them all (R92, R236). -/
def State.withLanes (s : State) (v : View) (bad : List (Nat × TrapInfo)) (op : State → View → Except TrapInfo State) :
    State :=
  let good := v.sp.mask &&& ~~~trapMask bad
  if good = 0 then s.trapLanes v bad
  else
    let vg := { v with sp := { v.sp with mask := good } }
    match op (s.setSplit v.gid v.sid vg.sp) vg with
    | .error t => s.trapLanes v (bad ++ (maskLanes good).map (fun l => (l, t)))
    | .ok s1 =>
      if bad = [] then s1
      else
        let s2 := s.trapLanes v bad
        match s2.viewOf v.gid v.sid with
        | none => s2
        | some v2 => s2.orTrap v2 (op s2 v2)

/-- The traps of lanes whose own PC is no legal target (R174). -/
def State.badPcs (s : State) (v : View) (pc : Nat → Dword) : List (Nat × TrapInfo) :=
  (maskLanes v.sp.mask).filterMap (fun l => (s.checkPc v.c v.user (pc l)).map (fun t => (l, t)))

/-- The traps of lanes whose destination is no legal target (R72). -/
def State.badDests (s : State) (v : View) (dest : Nat → Option Dword) : List (Nat × TrapInfo) :=
  (maskLanes v.sp.mask).filterMap (fun l => ((dest l).bind (s.checkPc v.c v.user)).map (fun t => (l, t)))

/-- The check of the targets an instruction names, and then the rest of it (R72). Lanes that would go to a bad one trap, and
the instruction changes nothing: what is left of the split stands at it still. Where no lane would go to a bad one the first,
in the order given (target, rejoin; a table's entries ascending), traps every active lane: DESIGN CHOICE, for R72 checks those
too and does not say which lanes trap, or which of several is reported (log 44). -/
def State.targets (s : State) (v : View) (pcs : List Dword) (dest : Nat → Option Dword) (k : State → Except TrapInfo State) :
    State :=
  match s.badDests v dest with
  | [] => match s.checkPcs v.c v.user pcs with
    | some t => s.trapSplit v t
    | none => s.orTrap v (k (pcs.foldl (fun t pc => t.touchPc v.c v.user pc) s))
  | bad => s.trapLanes v bad

/-- The first of some lines, named by PCs in them, whose parity fails as it is read for a check: a machine check in every
active lane, the first cause of R91 (R73, R92). -/
def State.parityAt (s : State) (v : View) (pcs : List Dword) : Option TrapInfo :=
  pcs.findSome? (fun pc =>
    if pc.toNat ≥ 2 ^ 57 then none
    else match s.fetchLine v.c v.user pc with
    | .ok (line, _) => if parityOk line then none else some ⟨0x50, lineOf pc⟩
    | .error _ => none)

/-- The issuing split transfers to a PC. -/
def State.goTo (s : State) (v : View) (pc : Dword) : State := s.modSplit v.gid v.sid (fun sp => sp.transfer pc)

/-- A push by an instruction; a dormant split's stack stays spilled (R150, R154). -/
def State.pushAt (s : State) (v : View) (e : StackEntry) : Except TrapInfo State :=
  match push s v v.sp e with
  | .error t => .error t
  | .ok (s1, sp) => match fget s1.groups v.gid with
    | some g => s1.seat v g v.sid sp (some sp.place)
    | none => .ok s1

/-! Conditions (R167). -/

/-- The condition of a lane's register. -/
def Cond.holds (k : Cond) (w : Word) : Bool :=
  match k with
  | .nz => decide (w ≠ 0)
  | .z => decide (w = 0)
  | .neg => w.getLsbD 31
  | .nneg => !w.getLsbD 31

/-- The active lanes for which the condition holds. -/
def View.condMask (v : View) (k : Cond) (r : Nat) : LaneMask :=
  maskOf (fun l => v.sp.mask.getLsbD l && Cond.holds k (v.g.rd r l))

/-! The instructions. -/

/-- `nop` (R169). -/
def execNop (h : Hdr) (s : State) : Host.Outcome State Fault Refusal := issue (.nop h) s (fun s v => s.retire v)

/-- The address of a switch's table line. -/
def tableLine (pc : Dword) : Dword := lineOf pc + 64

/-- Entry n of a table line (R74). -/
def tableEntry (line n : Nat) : Nat := bits line (32 * n + 31) (32 * n)

/-- The PC that a table entry names, from the switch's PC (R74). -/
def entryPc (e : Nat) (pc : Dword) : Dword :=
  lineOf pc + BitVec.ofInt 64 (64 * sextNat 24 (bits e 26 3)) + BitVec.ofNat 64 (12 * bits e 2 0)

/-- The table-line checks of R74 and the read they rest on, and the parity of the lines that its entries name (R73). Bits [31:27] of an entry that is used and bytes 36 to 59 are
ignored: DESIGN CHOICE, for R74 lays them out as zero and names no trap for them (log 43). -/
def switchCheck (n : Nat) (s : State) (v : View) : Option TrapInfo :=
  match s.fetchLine v.c v.user (tableLine v.sp.pc) with
  | .error t => some t
  | .ok (line, e) =>
    if !parityOk line then some ⟨0x50, tableLine v.sp.pc⟩
    else if lineKind line ≠ 1 ∨ bits (lineWord line) 20 0 ≠ 0 ∨ bits (lineWord line) 25 23 ≠ 0 then some ⟨0x01, 0⟩
    else if (List.range 9).any (fun i => if i ≤ n then decide (bits (tableEntry line i) 2 0 > 4) else decide (tableEntry line i ≠ 0))
    then some ⟨0x01, 0⟩
    else (s.fill e).parityAt v ((List.range (n + 1)).map (fun i => entryPc (tableEntry line i) v.sp.pc))

/-- The increments of a loop, in order. -/
def incList (a b c : Option Inc) : List Inc := [a, b, c].filterMap id

/-- The PCs in fields of an instruction at a PC whose lines are read for its checks (R72, R84). -/
def linePcs (i : Instr) (pc : Dword) : List Dword :=
  match i with
  | .bra _ l | .bany _ _ _ l | .ball _ _ _ l | .bnone _ _ _ l | .join _ l | .call _ l => [Target.pcFrom l pc]
  | .bdiv _ _ _ l j => [Target.pcFrom l pc, Target.pcFrom j pc]
  | .loop _ _ _ a b c | .loopr _ _ _ a b c => (incList a b c).map (fun i => seqPc (i.slot + 1) pc)
  | _ => []

/-- What an instruction meets in the lines that its fields name before its own effect and before the owed traps of its lanes:
the first and second place of R91, those of the line that it stands in apart. A parity failure behind a PC that a register or
the stack holds is met where that PC is checked: DEDUCED (log 57). -/
def State.lineFaults (s : State) (i : Instr) (v : View) : Option TrapInfo :=
  match i with
  | .switch _ _ ks => switchCheck ks.length s v
  | _ => s.parityAt v (linePcs i v.sp.pc)

/-- Issuing an instruction that checks lines its fields name. -/
def issueC (i : Instr) (s : State) (body : State → View → State) : Host.Outcome State Fault Refusal :=
  issueE i s (fun s v => s.lineFaults i v) body

/-- A branch of the whole split (R169). -/
def branchIf (i : Instr) (l : Target) (taken : View → Bool) (s : State) : Host.Outcome State Fault Refusal :=
  issueC i s (fun s v =>
    let pc := Target.pcFrom l v.sp.pc
    s.targets v [pc] (fun _ => if taken v then some pc else none) (fun t => .ok (if taken v then t.goTo v pc else t.retire v)))

/-- `bra` (R169). -/
def execBra (h : Hdr) (l : Target) (s : State) : Host.Outcome State Fault Refusal :=
  branchIf (.bra h l) l (fun _ => true) s

/-- `bany` (R169). -/
def execBany (h : Hdr) (k : Cond) (r : Nat) (l : Target) (s : State) : Host.Outcome State Fault Refusal :=
  branchIf (.bany h k r l) l (fun v => decide (v.condMask k r ≠ 0)) s

/-- `ball` (R169). -/
def execBall (h : Hdr) (k : Cond) (r : Nat) (l : Target) (s : State) : Host.Outcome State Fault Refusal :=
  branchIf (.ball h k r l) l (fun v => decide (v.condMask k r = v.sp.mask)) s

/-- `bnone` (R169). -/
def execBnone (h : Hdr) (k : Cond) (r : Nat) (l : Target) (s : State) : Host.Outcome State Fault Refusal :=
  branchIf (.bnone h k r l) l (fun v => decide (v.condMask k r = 0)) s

/-- `bdiv` (R170). -/
def execBdiv (h : Hdr) (k : Cond) (r : Nat) (l j : Target) (s : State) : Host.Outcome State Fault Refusal :=
  issueC (.bdiv h k r l j) s (fun s v =>
    let pl := Target.pcFrom l v.sp.pc
    let pj := Target.pcFrom j v.sp.pc
    let yes := v.condMask k r
    s.targets v [pl, pj] (fun n => if yes.getLsbD n then some pl else none) (fun t =>
      let no := v.sp.mask &&& ~~~yes
      t.diverge v ([(yes, some pl), (no, none)].filter (fun e => decide (e.1 ≠ 0))) pj v.sp.mask))

/-- The entry a lane's value selects: 0 for the default, i for the least matching key i (R171). -/
def switchPick (ks : List Int) (w : Word) : Nat :=
  match ks.findIdx? (fun k => decide (w.toInt = k)) with
  | some i => i + 1
  | none => 0

/-- `switch` (R171). -/
def execSwitch (h : Hdr) (r : Nat) (ks : List Int) (s : State) : Host.Outcome State Fault Refusal :=
  issueC (.switch h r ks) s (fun s v =>
    match s.fetchLine v.c v.user (tableLine v.sp.pc) with
    | .error t => s.trapSplit v t
    | .ok (line, e) =>
      let pc := fun i => entryPc (tableEntry line i) v.sp.pc
      let dest := fun l => pc (switchPick ks (v.g.rd r l))
      (s.fill e).targets v ((List.range (ks.length + 1)).map pc) (fun l => some (dest l)) (fun t =>
        t.diverge v (byDest (maskLanes v.sp.mask) dest) (lineOf v.sp.pc + 128) v.sp.mask))

/-- `join` (R172). -/
def execJoin (h : Hdr) (j : Target) (s : State) : Host.Outcome State Fault Refusal :=
  issueC (.join h j) s (fun s v =>
    let pj := Target.pcFrom j v.sp.pc
    s.targets v [pj] (fun _ => some pj) (fun t =>
      if v.sp.rejoin ≠ pj then .error ⟨0x13, 0⟩
      else if v.sp.depth = 0 then .error ⟨0x11, 0⟩
      else match topEntry t v v.sp with
        | .error f => .error f
        | .ok (e, t1) =>
          if e.kind ≠ 1 then .error ⟨0x11, 0⟩
          else .ok ((t1.modSplit v.gid v.sid (fun sp => { sp.transfer pj with st := .join })).mergeAt v.gid pj v.sp.jmask v.sp.mode)))

/-- `call` (R173). -/
def execCall (h : Hdr) (l : Target) (s : State) : Host.Outcome State Fault Refusal :=
  issueC (.call h l) s (fun s v =>
    let pl := Target.pcFrom l v.sp.pc
    s.targets v [pl] (fun _ => some pl) (fun t => match t.pushAt v ⟨nextPc v.sp.pc, 0, 0⟩ with
      | .ok t1 => .ok (t1.goTo v pl)
      | .error f => .error f))

/-- `callr` (R174): lanes with a legal target open a divergence, one split for each destination. -/
def execCallr (h : Hdr) (d a : Nat) (s : State) : Host.Outcome State Fault Refusal :=
  issue (.callr h d a) s (fun s v =>
    let pc := fun l => v.g.rd64 a l
    s.withLanes v (s.badPcs v pc) (fun t w =>
      let ls := maskLanes w.sp.mask
      let p := nextPc w.sp.pc
      match t.diverge w (byDest ls pc) p w.sp.mask with
      | .error f => .error f
      | .ok t1 => .ok ((ls.foldl (fun u l => u.touchPc w.c w.user (pc l)) t1).modGroup w.gid
          (fun g => g.apply (ls.flatMap (fun l => writesN l d 2 p.toNat))))))

/-- `ret` (R173): the target is checked before the pop. -/
def execRet (h : Hdr) (s : State) : Host.Outcome State Fault Refusal :=
  issue (.ret h) s (fun s v =>
    s.orTrap v (if v.sp.depth = 0 then .error ⟨0x10, 0⟩
    else match topEntry s v v.sp with
      | .error t => .error t
      | .ok (e, s1) =>
        if e.kind ≠ 0 then .error ⟨0x11, 0⟩
        else match s1.checkPc v.c v.user e.pc with
          | some t => .error t
          | none => match pop s1 v v.sp 0 with
            | .error t => .error t
            | .ok (_, s2, sp) => .ok ((s2.touchPc v.c v.user e.pc).setSplit v.gid v.sid (sp.transfer e.pc))))

/-- `retl` (R174): lanes that return to the rejoin PC act as `join`. -/
def execRetl (h : Hdr) (a : Nat) (s : State) : Host.Outcome State Fault Refusal :=
  issue (.retl h a) s (fun s v =>
    let pc := fun l => v.g.rd64 a l
    s.withLanes v (s.badPcs v pc) (fun t w =>
      let ls := maskLanes w.sp.mask
      let kids := byDest ls pc
      let top : Except TrapInfo State :=
        if ls.any (fun l => decide (pc l = w.sp.rejoin)) then
          if w.sp.depth = 0 then .error ⟨0x11, 0⟩
          else match topEntry t w w.sp with
            | .error f => .error f
            | .ok (e, t1) => if e.kind ≠ 1 then .error ⟨0x11, 0⟩ else .ok t1
        else .ok t
      match top with
      | .error f => .error f
      | .ok t1 =>
        if w.sp.loop.isSome ∧ kids.length > 1 then .error ⟨0x14, 0⟩
        else (ls.foldl (fun u l => u.touchPc w.c w.user (pc l)) t1).divide w
          ((sortKids kids).map (kidSplit w.sp w.sp.rejoin w.sp.jmask))))

/-- The format of an opcode (R88); none for an unassigned one. -/
def fmtOf (op : Nat) : Option Char :=
  let is (ranges : List (Nat × Nat)) : Bool := ranges.any (fun r => decide (r.1 ≤ op) && decide (op ≤ r.2))
  if is [(0x001, 0x005), (0x007, 0x008)] then some 'B'
  else if op = 0x006 then some 'S'
  else if is [(0x00C, 0x00D)] then some 'L'
  else if is [(0x00F, 0x014), (0x016, 0x017), (0x019, 0x019), (0x01E, 0x01E), (0x061, 0x061), (0x146, 0x147)] then some 'I'
  else if is [(0x015, 0x015), (0x01A, 0x01B), (0x182, 0x183)] then some 'X'
  else if is [(0x100, 0x107), (0x140, 0x141), (0x144, 0x145), (0x148, 0x148), (0x180, 0x181)] then some 'M'
  else if is [(0x184, 0x18A), (0x18D, 0x18D)] then some 'T'
  else if is [(0x000, 0x000), (0x009, 0x00B), (0x00E, 0x00E), (0x018, 0x018), (0x01C, 0x01D), (0x040, 0x060), (0x080, 0x091),
      (0x0C0, 0x0D4), (0x142, 0x143), (0x149, 0x14B), (0x18B, 0x18C)] then some 'A'
  else none

/-- Does the format of an opcode have the field of an increment, whole and at those bits (R77-R85). A body slot of an
unassigned opcode has no field, so that the loop traps, and a body position in a line that is no code line is read as a slot all
the same: DESIGN CHOICE, for R84 speaks only of a target instruction's format (log 46). -/
def incFits (slot : Nat) (f : IncField) : Bool :=
  match fmtOf (slot % 512) with
  | none => false
  | some k => match f with
    | .f24 => decide (k = 'A' ∨ k = 'I' ∨ k = 'M' ∨ k = 'B' ∨ k = 'S' ∨ k = 'X')
    | .f33 => decide (k = 'A' ∨ k = 'I' ∨ k = 'M')
    | .f42 => decide (k = 'A' ∨ k = 'M')
    | .f51 => decide (k = 'A')
    | .disp => decide (k = 'M')
    | .acc => decide (k = 'T')

/-- The check of one increment at its body instruction (R84), whose line need not be a code line (log 46). -/
def State.incCheck (s : State) (v : View) (i : Inc) : Option TrapInfo :=
  let pc := seqPc (i.slot + 1) v.sp.pc
  match s.fetchLine v.c v.user pc with
  | .error t => some t
  | .ok (line, _) =>
    if !parityOk line then some ⟨0x50, lineOf pc⟩
    else if incFits (lineSlot line (pc.toNat % 64 / 12)) i.field then none
    else some ⟨0x01, 0⟩

/-- The checks of a loop's body lines: parity first, then each increment (R84, R91). -/
def State.loopCheck (s : State) (i : Instr) (incs : List Inc) (v : View) : Option TrapInfo :=
  match s.lineFaults i v with
  | some t => some t
  | none => incs.findSome? (s.incCheck v)

/-- `loop` and `loopr` (R84, R175). -/
def loopOp (i : Instr) (count : View → Word) (len : Nat) (a b c : Option Inc) (s : State) :
    Host.Outcome State Fault Refusal :=
  issueE i s (fun s v => s.loopCheck i (incList a b c) v) (fun s0 v =>
    let s := (incList a b c).foldl (fun t i => t.touchPc v.c v.user (seqPc (i.slot + 1) v.sp.pc)) s0
    if v.sp.loop.isSome then s.trapSplit v ⟨0x15, 0⟩
    else if count v = 0 then s.goTo v (seqPc (len + 1) v.sp.pc)
    else s.modSplit v.gid v.sid (fun sp => { sp.advance with loop := some ⟨sp.pc, count v, 0, len, a, b, c⟩ }))

/-- `loop` (R175). -/
def execLoop (h : Hdr) (n len : Nat) (inc0 inc1 inc2 : Option Inc) (s : State) : Host.Outcome State Fault Refusal :=
  loopOp (.loop h n len inc0 inc1 inc2) (fun _ => BitVec.ofNat 32 n) len inc0 inc1 inc2 s

/-- `loopr` (R175): the count is read in the lowest active lane. -/
def execLoopr (h : Hdr) (r len : Nat) (inc0 inc1 inc2 : Option Inc) (s : State) : Host.Outcome State Fault Refusal :=
  loopOp (.loopr h r len inc0 inc1 inc2) (fun v => v.g.rd r (lowestLane v.sp.mask)) len inc0 inc1 inc2 s

/-- The lanes exit: they leave every split that holds them, and a split with no lane left ends (R177). Their step counts stay
as they were. -/
def Group.exitLanes (g : Group) (p : LaneMask) (x : ExitCounts) : Group :=
  let g1 := { g with
    live := g.live &&& ~~~p
    exits := (maskLanes p).foldl (fun m l => fset m l x) g.exits
    splits := (fmapV (fun _ (sp : Split) => { sp with mask := sp.mask &&& ~~~p }) g.splits).filter
      (fun e => decide (e.2.mask ≠ 0)) }
  g1.dropLevels

/-- `exit` (R177). -/
def execExit (h : Hdr) (s : State) : Host.Outcome State Fault Refusal :=
  issue (.exit h) s (fun s v =>
    let p := v.part h
    if p = 0 then s.retire v
    else
      let s1 := s.setGrid v.tm.grid { v.gr with exitG := some (countMax (v.gr.exitG.getD v.sp.cg) v.sp.cg) }
      let s2 := (s1.modGroup v.gid (fun g => g.exitLanes p ⟨v.sp.ct, v.sp.cd, v.sp.cg⟩)).retire v
      (s2.retest v.gid).promote v.gid)

/-- A trap that resumes at the next PC (R178, R236, R244): the lanes that pass the guard trap, the others go on. -/
def callTrap (i : Instr) (h : Hdr) (code imm : Nat) (s : State) : Host.Outcome State Fault Refusal :=
  issue i s (fun s v =>
    let p := v.part h
    if p = 0 then s.retire v
    else
      let base := v.sp.advance
      (s.takeTrap v.gid v.sid base (trapAll p code base.pc (BitVec.ofNat 64 imm))).retire v)

/-- `brk` (R178). -/
def execBrk (h : Hdr) (imm : Nat) (s : State) : Host.Outcome State Fault Refusal :=
  callTrap (.brk h imm) h 0x38 imm s

/-- The logical identifiers of a lane (R144). -/
def View.ident (v : View) (sel l : Nat) : Nat :=
  match sel with
  | 0 => l
  | 1 => v.g.idx
  | 2 => v.tm.idx
  | 3 => v.tm.slice
  | 4 => v.tm.flat
  | 5 => if v.g.idx < v.gr.prod then 0 else 1
  | 6 => v.gr.groups
  | 7 => v.gr.teams
  | 8 => v.gr.dies
  | 9 => v.tm.idx / v.gr.gang
  | 10 => v.tm.idx % v.gr.gang
  | _ => globalLane v.gr v.tm v.g l

/-- `ids` (R179). -/
def execIds (h : Hdr) (d sel : Nat) (s : State) : Host.Outcome State Fault Refusal :=
  issue (.ids h d sel) s (fun s v =>
    s.finish v ((maskLanes (v.part h)).flatMap (fun l => writesN l d 1 (v.ident sel l))) 0)

/-- `wflag` (R180): the split goes on behind it once the flags that are pending have cleared. -/
def execWflag (h : Hdr) (mask : Nat) (s : State) : Host.Outcome State Fault Refusal :=
  issue (.wflag h mask) s (fun s v =>
    if flagsMeet v.g.pendingFlags mask then
      (s.retire v).modSplit v.gid v.sid (fun sp => { sp with st := .flags mask })
    else s.retire v)

end Sys2Proof.Machine
end

