-- ==== Sys2Proof/Machine/FloatOps.lean ====
section
/-! DEFINITION. The float instructions, opcodes 0x080-0x091 (spec 14_isa_vector R304-R306). -/
namespace Sys2Proof.Machine

/-- `fadd` (R305). -/
def execFadd (h : Hdr) (ty : ElemTy) (rm : Rnd) (d a b : Nat) (s : State) : Host.Outcome State Fault Refusal :=
  alu (.fadd h ty rm d a b) h s (floatN ty d [a, b] (round2 ty.fmt rm (FV.add rm)))

/-- `fsub` (R305). -/
def execFsub (h : Hdr) (ty : ElemTy) (rm : Rnd) (d a b : Nat) (s : State) : Host.Outcome State Fault Refusal :=
  alu (.fsub h ty rm d a b) h s (floatN ty d [a, b] (round2 ty.fmt rm (FV.sub rm)))

/-- `fmul` (R305). -/
def execFmul (h : Hdr) (ty : ElemTy) (rm : Rnd) (d a b : Nat) (s : State) : Host.Outcome State Fault Refusal :=
  alu (.fmul h ty rm d a b) h s (floatN ty d [a, b] (round2 ty.fmt rm FV.mul))

/-- `fma` (R305). -/
def execFma (h : Hdr) (ty : ElemTy) (rm : Rnd) (d a b c : Nat) (s : State) : Host.Outcome State Fault Refusal :=
  alu (.fma h ty rm d a b c) h s (floatN ty d [a, b, c] (round3 ty.fmt rm))

/-- `fdiv` (R305), long-latency. -/
def execFdiv (h : Hdr) (ty : ElemTy) (rm : Rnd) (d a b : Nat) (s : State) : Host.Outcome State Fault Refusal :=
  aluLong (.fdiv h ty rm d a b) h s (fun v => floatN ty d [a, b] (round2 ty.fmt rm FV.div) v.g)

/-- The square root rounded once (R305). -/
def sqrtF (f : Fmt) (rm : Rnd) : FloatOp := fun xs =>
  let r := FV.sqrt (f.decode (xs.getD 0 0))
  let q := f.round rm false r.1
  (q.1, r.2 ||| q.2)

/-- `fsqrt` (R305), long-latency. -/
def execFsqrt (h : Hdr) (ty : ElemTy) (rm : Rnd) (d a : Nat) (s : State) : Host.Outcome State Fault Refusal :=
  aluLong (.fsqrt h ty rm d a) h s (fun v => floatN ty d [a] (sqrtF ty.fmt rm) v.g)

/-- `fmin` (R305, R52). -/
def execFmin (h : Hdr) (ty : ElemTy) (d a b : Nat) (s : State) : Host.Outcome State Fault Refusal :=
  alu (.fmin h ty d a b) h s (floatN ty d [a, b] (pickF ty.fmt FV.minPick))

/-- `fmax` (R305, R52). -/
def execFmax (h : Hdr) (ty : ElemTy) (d a b : Nat) (s : State) : Host.Outcome State Fault Refusal :=
  alu (.fmax h ty d a b) h s (floatN ty d [a, b] (pickF ty.fmt FV.maxPick))

/-- `fabs` (R305). -/
def execFabs (h : Hdr) (ty : ElemTy) (d a : Nat) (s : State) : Host.Outcome State Fault Refusal :=
  alu (.fabs h ty d a) h s (floatN ty d [a] (signF ty.fmt (fun x => x % 2 ^ (ty.fmt.eb + ty.fmt.mb))))

/-- `fneg` (R305). -/
def execFneg (h : Hdr) (ty : ElemTy) (d a : Nat) (s : State) : Host.Outcome State Fault Refusal :=
  alu (.fneg h ty d a) h s (floatN ty d [a] (signF ty.fmt (fun x => x ^^^ 2 ^ (ty.fmt.eb + ty.fmt.mb))))

/-- `fcopysign` on one element (R305). -/
def copysignF (f : Fmt) : FloatOp := fun xs =>
  let a := f.decode (xs.getD 0 0)
  let b := f.decode (xs.getD 1 0)
  (if a.isNaN then f.encNaN
   else xs.getD 0 0 % 2 ^ (f.eb + f.mb) + f.signBit (bit (xs.getD 1 0) (f.eb + f.mb)), flagIf (a.sig || b.sig) fInv)

/-- `fcopysign` (R305). -/
def execFcopysign (h : Hdr) (ty : ElemTy) (d a b : Nat) (s : State) : Host.Outcome State Fault Refusal :=
  alu (.fcopysign h ty d a b) h s (floatN ty d [a, b] (copysignF ty.fmt))

/-- A float comparison: result and invalid flag (R306). -/
def cmpFloat (op : FCond) (sg : Bool) (a b : FV) : Bool × FFlags :=
  let nan := a.isNaN || b.isNaN
  (match op with
    | .eq => !nan && FV.eq a b
    | .ne => nan || !FV.eq a b
    | .lt => !nan && FV.lt a b
    | .le => !nan && !FV.lt b a
    | .gt => !nan && FV.lt b a
    | .ge => !nan && !FV.lt a b
    | .ord => !nan
    | .uno => nan, flagIf (a.sig || b.sig || (sg && nan)) fInv)

/-- `fcmp` (R306). -/
def execFcmp (h : Hdr) (ty : ElemTy) (sg : Bool) (op : FCond) (d a b : Nat) (s : State) :
    Host.Outcome State Fault Refusal :=
  alu (.fcmp h ty sg op d a b) h s (fun g l =>
    let r := cmpFloat op sg (ty.fmt.decode (g.rdT ty a l)) (ty.fmt.decode (g.rdT ty b l))
    (writesN l d 1 (b2n r.1), r.2))

/-- minimumNumber(maximumNumber(a, b), c) (R305). -/
def clampF (f : Fmt) : FloatOp := fun xs =>
  let m := pickF f FV.maxPick [xs.getD 0 0, xs.getD 1 0]
  let r := pickF f FV.minPick [m.1, xs.getD 2 0]
  (r.1, m.2 ||| r.2)

/-- `fclamp` (R305). -/
def execFclamp (h : Hdr) (ty : ElemTy) (d a b c : Nat) (s : State) : Host.Outcome State Fault Refusal :=
  alu (.fclamp h ty d a b c) h s (floatN ty d [a, b, c] (clampF ty.fmt))

/-- Rounding to an integral value in the same type; never inexact, a zero result keeps the sign (R305). -/
def rintF (f : Fmt) (rm : Rnd) : FloatOp := fun xs =>
  let x := xs.getD 0 0
  match f.decode x with
  | .nan sg => (f.encNaN, flagIf sg fInv)
  | .inf _ => (x, 0)
  | .fin neg man exp => ((f.round rm false (.fin neg (roundAt rm neg man (-exp)).1 0)).1, 0)

/-- `frnd` (R305). -/
def execFrnd (h : Hdr) (ty : ElemTy) (rm : Rnd) (d a : Nat) (s : State) : Host.Outcome State Fault Refusal :=
  alu (.frnd h ty rm d a) h s (floatN ty d [a] (rintF ty.fmt rm))

/-- Multiplication by 2 to the n, rounded once. An exponent beyond every format's reach is brought to where the same
rounding, overflow and underflow arise (R305). -/
def scaleF (f : Fmt) (rm : Rnd) (n : Int) : FloatOp := fun xs =>
  match f.decode (xs.getD 0 0) with
  | .nan sg => (f.encNaN, flagIf sg fInv)
  | .inf neg => (f.encInf neg, 0)
  | .fin neg man exp => f.round rm false (.fin neg man (exp + max (-8192) (min n 8192)))

/-- `fscale` (R305). -/
def execFscale (h : Hdr) (ty : ElemTy) (rm : Rnd) (d a b : Nat) (s : State) : Host.Outcome State Fault Refusal :=
  alu (.fscale h ty rm d a b) h s (fun g l => floatN ty d [a] (scaleF ty.fmt rm (g.rd b l).toInt) g l)

/-- floor(log2 |a|) as i32 with the special values of R305. -/
def expF (a : FV) : Nat × FFlags :=
  match a with
  | .nan _ => (0x80000000, fInv)
  | .inf _ => (0x7FFFFFFF, fInv)
  | .fin _ man exp => if man = 0 then (0x80000000, fDvz) else (wrapNat 32 (leadExp man exp), 0)

/-- `fexp` (R305). -/
def execFexp (h : Hdr) (ty : ElemTy) (d a : Nat) (s : State) : Host.Outcome State Fault Refusal :=
  alu (.fexp h ty d a) h s (fun g l =>
    let r := expF (ty.fmt.decode (g.rdT ty a l))
    (writesN l d 1 r.1, r.2))

/-- The mantissa in [1, 2) with the operand's sign (R305). -/
def mantF (f : Fmt) : FloatOp := fun xs =>
  let x := xs.getD 0 0
  match f.decode x with
  | .nan sg => (f.encNaN, flagIf sg fInv)
  | .inf _ => (x, 0)
  | .fin neg man _ => if man = 0 then (x, 0) else ((f.round .rne false (.fin neg man (-(Nat.log2 man : Int)))).1, 0)

/-- `fmant` (R305). -/
def execFmant (h : Hdr) (ty : ElemTy) (d a : Nat) (s : State) : Host.Outcome State Fault Refusal :=
  alu (.fmant h ty d a) h s (floatN ty d [a] (mantF ty.fmt))

/-- The class bit of a value (R305). -/
def classF (f : Fmt) (a : FV) : Nat :=
  match a with
  | .nan sg => if sg then 1 else 2
  | .inf neg => if neg then 4 else 512
  | .fin neg man exp =>
    if man = 0 then (if neg then 32 else 64)
    else if leadExp man exp < f.emin then (if neg then 16 else 128)
    else (if neg then 8 else 256)

/-- `fclass` (R305). -/
def execFclass (h : Hdr) (ty : ElemTy) (d a : Nat) (s : State) : Host.Outcome State Fault Refusal :=
  alu (.fclass h ty d a) h s (fun g l =>
    let x := ty.fmt.decode (g.rdT ty a l)
    (writesN l d 1 (classF ty.fmt x), flagIf x.sig fInv))

end Sys2Proof.Machine
end

