-- ==== Sys2Proof/Machine/Links.lean ====
section
/-! DEFINITION. Traffic with peers and the host: arriving stores and loads, replies, ports, host windows, the link error
record (spec 13_link R277-R288, 05_context R99, 12_page R269, 10_memory R232). -/
namespace Sys2Proof.Machine

/-! Arriving peer traffic (R280, R282). -/

/-- May a peer's context reach a context of this device: the entry is valid, names it and grants the access (R279, R280). -/
def State.peerGrants (s : State) (c dev remoteCtx : Nat) (store : Bool) : Bool :=
  let e := (sget 0 (s.ctx c).peers dev).toNat
  bit e 63 && decide (bits e 5 0 = remoteCtx) && bit e (if store then 62 else 61)

/-- An arriving access translated through both stages of the context; it stays within one page. -/
def State.peerReach (s : State) (c dev remoteCtx va len : Nat) (store : Bool) : Option TlbEntry :=
  if s.peerGrants c dev remoteCtx store && decide (va % 4096 + len ≤ 4096) then
    match s.xlate c false false (if store then .w else .r) (BitVec.ofNat 64 va) va with
    | .ok e => some e
    | .error _ => none
  else none

/-- An arriving access has failed in its walk: the entries of it are pending no more (R274). -/
def State.peerWalked (s : State) (c dev remoteCtx va len : Nat) (store : Bool) : State :=
  if s.peerGrants c dev remoteCtx store && decide (va % 4096 + len ≤ 4096) then
    match s.xlate c false false (if store then .w else .r) (BitVec.ofNat 64 va) va with
    | .ok _ => s
    | .error t => s.walked c t.code va t.tval.toNat
  else s

/-- The number of bytes of a write from its address on to its last enabled byte. -/
def writeSpan (bytes : WriteBytes) : Nat := bytes.foldl (fun m b => max m (b.1 + 1)) 1

/-- PEER_STORE_ARRIVAL (R282): accepted, it awaits the next grid boundary; refused, it is turned away. -/
def execPeerStoreArrival (dev remoteCtx c va : Nat) (bytes : WriteBytes) (msg : Nat) (s : State) :
    Host.Outcome State Fault Refusal :=
  event s (fun s => match s.peerReach c dev remoteCtx va (writeSpan bytes) true with
    | none => some ((s.peerWalked c dev remoteCtx va (writeSpan bytes) true).send (.peerAck dev msg false))
    | some e =>
      let w : PeerWrite := { ctx := c, arrived := s.time, id := s.nextMsg
                             bytes := bytes.map (fun b => (e.ipn, e.dpn * 4096 + va % 4096 + b.1, b.2)) }
      let s1 := { s with inbox := s.inbox ++ [w], nextMsg := s.nextMsg + 1 }
      some (s1.send (.peerAck dev msg true)))

/-- Does a grid of a context run (R282). -/
def State.gridRuns (s : State) (c : Nat) : Bool := (s.ctx c).runs && s.grids.any (fun e => decide (e.2.ctx = c))

/-- PEER_WRITE_APPLY (R282): with no grid of the context running, the oldest arrived write is applied. -/
def execPeerWriteApply (c : Nat) (s : State) : Host.Outcome State Fault Refusal :=
  event s (fun s =>
    if s.gridRuns c then none
    else match s.inbox.find? (fun w => decide (w.ctx = c)) with
      | some w => some (s.applyPeers c (fun x => decide (x.id = w.id)))
      | none => none)

/-- The reply to a store that was sent out noted. -/
def State.answer (s : State) (msg : Nat) (accepted : Bool) : State :=
  { s with sentw := s.sentw.map (fun w => if w.msg = msg ∧ w.reply = none then { w with reply := some accepted } else w) }

/-- Is a store to a peer, or to the host, still without its answer. -/
def State.awaits (s : State) (msg : Nat) (host : Bool) : Bool :=
  s.sentw.any (fun w => decide (w.msg = msg) && decide (w.reply = none) && decide ((s.homeOf w.cell = .fe) = host))

/-- PEER_ACK (R282, R283). -/
def execPeerAck (msg : Nat) (accepted : Bool) (s : State) : Host.Outcome State Fault Refusal :=
  event s (fun s => if s.awaits msg false then some (s.answer msg accepted) else none)

/-- PEER_LOAD_REQUEST (R280): this device serves a peer's load, or refuses it. -/
def execPeerLoadRequest (dev remoteCtx c va len msg : Nat) (s : State) : Host.Outcome State Fault Refusal :=
  event s (fun s => match s.peerReach c dev remoteCtx va len false with
    | none => some ((s.peerWalked c dev remoteCtx va len false).send (.peerReply dev msg none))
    | some e =>
      let at_ := (List.range len).map (fun i => e.dpn * 4096 + va % 4096 + i)
      some ((s.readLocs c (at_.map Loc.dram)).send (.peerReply dev msg (some (at_.map (fun a => s.readByte (s.keyAt c a) a))))))

/-! Replies to this device's loads (R283, R286, R288). -/

/-- The length of the request that a lane's load has sent, to a peer or to the host. -/
def State.asked (s : State) (gid pid lane : Nat) (host : Bool) : Option Nat :=
  s.out.findSome? (fun m => match m with
    | .peerLoad _ _ _ _ n g p l => if !host ∧ g = gid ∧ p = pid ∧ l = lane then some n else none
    | .hostLoad _ n g p l => if host ∧ g = gid ∧ p = pid ∧ l = lane then some n else none
    | _ => none)

/-- A lane's reply put into the pending result: its registers, or the words of a handle. -/
def Pending.fill (p : Pending) (lane value : Nat) (left : List Nat) : Pending :=
  let regs := p.regs.filter (fun r => decide (r.1 = lane))
  { p with
    kind := if left = [] then .unit else .remote left
    writes := p.writes ++ (List.range regs.length).map (fun i =>
      (lane, ((regs[i]?).map (·.2)).getD 384, BitVec.ofNat 32 (value / 2 ^ (32 * i))))
    handle := match p.handle with
      | some (h, _, _) => some (h, true, handleWords value)
      | none => none }

/-- The reply to a lane's load, or its refusal or loss: zero, and a failure of a kind in the link error record (R283). -/
def State.loadReply (s : State) (gid pid lane : Nat) (host : Bool) (kind : Nat) (reply : Option (List Byte)) : Option State :=
  match s.pending? gid pid, fget s.groups gid with
  | some p, some g => match p.kind with
    | .remote ls =>
      match s.asked gid pid lane host with
      | none => none
      | some n =>
        if !ls.contains lane || (match reply with
            | some bs => decide (bs.length ≠ n)
            | none => false) then none
        else
          let q := p.fill lane (leNat (reply.getD [])) (ls.filter (fun l => decide (l ≠ lane)))
          let s1 := s.setGroup gid { g with
            pend := g.pend.map (fun x => if x.pid = pid then q else x)
            far := g.far.map (fun f => if f.pid = pid ∧ f.lane = lane then { f with value := some (leNat (reply.getD [])) } else f) }
          match reply, (fget s.teams g.tid).bind (fun t => fget s.grids t.grid) with
          | none, some gr => some (s1.linkFail gr.ctx kind p.pc)
          | _, _ => some s1
    | _ => none
  | _, _ => none

/-- PEER_LOAD_REPLY (R283). -/
def execPeerLoadReply (gid pid lane : Nat) (reply : Option (List Byte)) (s : State) : Host.Outcome State Fault Refusal :=
  event s (fun s => s.loadReply gid pid lane false 1 reply)

/-- HOST_PATH_RESPONSE (R286): the host answers a partial-line write, or a load. -/
def execHostPathResponse (write : Option Nat) (gid pid lane : Nat) (reply : Option (List Byte)) (s : State) :
    Host.Outcome State Fault Refusal :=
  event s (fun s => match write with
    | some msg => if s.awaits msg true then some (s.answer msg reply.isSome) else none
    | none => s.loadReply gid pid lane true 3 reply)

/-! Ports (R284). -/

/-- A port replaced. -/
def State.setPort (s : State) (n : Nat) (p : PlPort) : State := { s with ports := s.ports.set n p }

/-- A port goes down: the stores it carries are lost, the loads it carries write zero, and the engine operations whose sources
it carries lose them (R283, R284, R340). -/
def State.portDown (s : State) (n : Nat) (p : PlPort) : State :=
  let s1 := s.setPort n { p with up := false }
  let msgs := s.out.filterMap (fun m => match m with
    | .peerStore q _ _ _ _ k => if q = n then some k else none
    | _ => none)
  let loads := s.out.filterMap (fun m => match m with
    | .peerLoad q _ _ _ _ g k l => if q = n then some (g, k, l) else none
    | _ => none)
  let fetches := s.out.filterMap (fun m => match m with
    | .peerFetch q _ _ _ _ tid rec order => if q = n then some (tid, rec, order) else none
    | _ => none)
  let s2 := msgs.foldl (fun t k => t.answer k false) s1
  let s3 := loads.foldl (fun t x => (t.loadReply x.1 x.2.1 x.2.2 false 2 none).getD t) s2
  fetches.foldl (fun t x => t.loseFetch x.1 x.2.1 x.2.2) s3

/-- PROLEN_FLIT_RETRY (R284): the sixteenth failure in a row takes the port down. -/
def execProlenFlitRetry (port : Nat) (ok : Bool) (s : State) : Host.Outcome State Fault Refusal :=
  event s (fun s => match s.ports[port]? with
    | none => none
    | some p =>
      if !p.up then none
      else if ok then some (s.setPort port { p with retries := 0 })
      else if p.retries + 1 ≥ 16 then some (s.portDown port { p with retries := 16 })
      else some (s.setPort port { p with retries := p.retries + 1 }))

/-- PROLEN_LANE_LOSS (R284): the port goes on with four lanes. -/
def execProlenLaneLoss (port : Nat) (s : State) : Host.Outcome State Fault Refusal :=
  event s (fun s => match s.ports[port]? with
    | some p => if p.up then some (s.setPort port { p with lanes := 4 }) else none
    | none => none)

/-- PROLEN_PORT_DOWN (R284). -/
def execProlenPortDown (port : Nat) (s : State) : Host.Outcome State Fault Refusal :=
  event s (fun s => match s.ports[port]? with
    | some p => if p.up then some (s.portDown port p) else none
    | none => none)

/-! The host's windows (R99, R287). -/

/-- The byte of device memory that a host access at an HDM offset reaches: context, IPA page, device address; or the context
that the window's register names, whether the window is valid or not, and 64 past the last window (R287; DEDUCED, log 64). -/
def State.hostByte (s : State) (off : Nat) (write : Bool) : Except Nat (Nat × Nat × Nat) :=
  let w := (sget 0 s.hwin (off / 2 ^ 40)).toNat
  let c := bits w 61 56
  let o := off % 2 ^ 40
  if off / 2 ^ 40 ≥ 16 then .error 64
  else if !bit w 63 ∨ o ≥ (bits w 55 45 + 1) * 2 ^ 30 ∨ (write ∧ !bit w 62) then .error c
  else
    let ipa := bits w 35 18 * 2 ^ 30 + o
    match s.hyp c ipa with
    | .ok (p, dpa) => if permOk p (if write then .w else .r) then .ok (c, ipa / 4096, dpa) else .error c
    | .error _ => .error c

/-- All bytes of a host access, or the context whose record notes its failure; 64 past the last window. -/
def State.hostBytes (s : State) (write : Bool) : List Nat → Except Nat (List (Nat × Nat × Nat))
  | [] => .ok []
  | o :: os => match s.hostByte o write with
    | .error c => .error c
    | .ok x => match s.hostBytes write os with
      | .error c => .error c
      | .ok xs => .ok (x :: xs)

/-- A host access to some offsets has failed: the entries of the walks that failed are pending no more (R274). -/
def State.hostWalked (s : State) (write : Bool) (offs : List Nat) : State :=
  offs.foldl (fun t off =>
    let w := (sget 0 t.hwin (off / 2 ^ 40)).toNat
    let ipa := bits w 35 18 * 2 ^ 30 + off % 2 ^ 40
    if off / 2 ^ 40 < 16 ∧ bit w 63 ∧ (!write ∨ bit w 62) ∧ off % 2 ^ 40 < (bits w 55 45 + 1) * 2 ^ 30 ∧ (t.hyp (bits w 61 56) ipa).toOption.isNone then
      t.walked (bits w 61 56) 0x2A 0 ipa
    else t) s

/-- HOST_MEM_ACCESS (R287): a read of as many bytes as the data it carries, or a write of them. -/
def execHostMemAccess (write : Bool) (off : Nat) (data : List Byte) (s : State) : Host.Outcome State Fault Refusal :=
  let offs := (List.range data.length).map (fun i => off + i)
  event s (fun s => if !s.answers then none else match s.hostBytes write offs with
    | .error c =>
      let s0 := s.hostWalked write offs
      let s1 := if c < 64 then s0.linkFail c 4 0 else s0
      some (if write then s1 else s1.send (.hostRead none))
    | .ok xs =>
      if write then some ((xs.zip data).foldl (fun t x => t.writeLoc x.1.1 x.1.2.1 (.dram x.1.2.2) x.2) s)
      else some ((xs.foldl (fun t x => t.readLocs x.1 [.dram x.2.2]) s).send
        (.hostRead (some (xs.map (fun x => s.readByte (s.keyAt x.1 x.2.2) x.2.2))))))

/-- Is a register one that supervisor rights reach (R94, R98). -/
def PReg.guest : PReg → Bool
  | .kuDet | .kuFnver | .kuTime | .ksStatus | .ksCause | .ksEpc | .ksTval | .ksLmask | .ksAmask | .ksTvec | .ksPvec
  | .ksPtbase | .ksScring | .ksScsize | .ksPhys => true
  | _ => false

/-- The context of a function's window: the physical function's names it, a virtual function's is its own (R99, R103). -/
def State.windowCtx (s : State) (fn : HostFn) (k : PReg) : Option Nat :=
  match fn with
  | .pf c => if c < 64 then some c else none
  | .vf f => if PReg.guest k then (List.range 64).find? (fun c => decide ((s.ctx c).fn = f)) else none

/-- The bits of a window write that a register has. -/
def windowBits (k : PReg) (v : Dword) : Nat := if k.wide then v.toNat else v.toNat % 2 ^ 32

/-- HOST_WINDOW_WRITE (R99): ignored whole when an `mtk` would refuse the value; split registers but for swip ignore it. -/
def execHostWindowWrite (fn : HostFn) (k : PReg) (v : Dword) (s : State) : Host.Outcome State Fault Refusal :=
  event s (fun s => match s.windowCtx fn k with
    | none => none
    | some c =>
      if !s.answers || illegalValue (s.ctx c) k (windowBits k v) then none
      else if isSplitReg k ∧ k ≠ .ksStatus then none
      else some (s.putReg c k (windowBits k v)))

/-- LINK_ERROR_CLEAR (R288): writing 1 to any bit of the count clears the record. -/
def execLinkErrorClear (c : Nat) (v : Dword) (s : State) : Host.Outcome State Fault Refusal :=
  event s (fun s => if v.toNat / 2 ^ 32 = 0 ∨ !s.answers then none else some (s.setCtx c { s.ctx c with linkErr := 0 }))

end Sys2Proof.Machine
end

