-- ==== Sys2Proof/Machine/Traps.lean ====
section
/-! DEFINITION. Calls, the return from a trap, flashback points and `idle`, opcodes 0x015-0x019 and 0x01D (spec
11_traps R243-R247, R252). -/
namespace Sys2Proof.Machine

/-- `sysc` (R244). -/
def execSysc (h : Hdr) (imm : Nat) (s : State) : Host.Outcome State Fault Refusal := callTrap (.sysc h imm) h 0x39 imm s

/-- `trap` (R244). -/
def execTrap (h : Hdr) (imm : Nat) (s : State) : Host.Outcome State Fault Refusal := callTrap (.trap h imm) h 0x3A imm s

/-- `hcall` (R244). -/
def execHcall (h : Hdr) (imm : Nat) (s : State) : Host.Outcome State Fault Refusal := callTrap (.hcall h imm) h 0x3B imm s

/-! Returning from a trap (R243). -/

/-- The split waits until none of its results is pending, and issues the instruction again. -/
def State.drainOwn (s : State) (v : View) : State := s.modSplit v.gid v.sid (fun sp => { sp with st := .drain })

/-- The saved v0-v15 of the lanes for a depth: the writes they make where vK keeps no lane's own value, and the
translations they used, or the first fault (R237, R243). -/
def State.savedLow (s : State) (v : View) (d : Nat) (keep : Nat → Word) : List Nat → Except TrapInfo (RegWrites × List TlbEntry)
  | [] => .ok ([], [])
  | l :: ls =>
    let back (f : Nat → Word) : RegWrites :=
      ((List.range 16).filter (fun i => !(keep l).getLsbD i)).map (fun i => (l, i, f i))
    if d = 1 then match s.savedLow v d keep ls with
      | .ok (ws, es) => .ok (back (fun i => sget 0 v.g.save1 (32 * i + l)) ++ ws, es)
      | .error t => .error t
    else
      let o := 0x400 + 64 * (d - 2)
      match s.privXlate (v.maker v.user l) .r o with
      | .error t => .error t
      | .ok e => match s.savedLow v d keep ls with
        | .ok (ws, es) => .ok (back (fun i => BitVec.ofNat 32
            (s.readN (s.keyAt v.c (e.dpn * 4096)) (e.dpn * 4096 + o % 4096 + 4 * i) 4)) ++ ws, e :: es)
        | .error t => .error t

/-- The saved registers have been read under some translations: these are cached, and the lines are pending no more (R267,
R274). -/
def State.restoredLow (s : State) (c d : Nat) (es : List TlbEntry) : State :=
  (s.fills es).readLocs c (es.map (fun e => Loc.dram (e.dpn * 4096 + (0x400 + 64 * (d - 2)) % 4096)))

/-- The split that a return brings back in the handler's entry (R243). -/
def returned (sp : Split) (g : Group) (lv : TrapLevel) (r : Split) : Split :=
  { r with sid := g.nextId, mask := sp.mask, pc := lv.epc, place := sp.place, entered := true, st := .ready,
           lastIssue := sp.lastIssue, opps := 0, cycles := 0 }

/-- The handler split ends: its lanes return, or the frozen splits resume after a pre-emption (R243, R254). -/
def Group.leaveHandler (g : Group) (sid : Nat) (sp : Split) (lv : TrapLevel) : Group :=
  match lv.ret with
  | some r => ({ g with
      splits := fset (fdel g.splits sid) g.nextId (returned sp g lv r)
      nextId := g.nextId + 1 }).dropLevels
  | none => ({ g with
      mark := .none
      splits := fmapV (fun _ x => { x with frozen := false, entered := true }) (fdel g.splits sid) }).dropLevels

/-- The PC check of a return to another PC than the recorded one (R72, R243). The line is read in the handler's own mode:
DESIGN CHOICE, for R243 does not say whether the user bit of its page is judged for the mode returned to (log 41). -/
def State.returnCheck (s : State) (v : View) (lv : TrapLevel) : Option TrapInfo :=
  if lv.epc = lv.resume then none else s.checkPc v.c v.user lv.epc

/-- `tret` (R243). Its illegal-instruction trap, which depends on the trap level, is met after the checks of R91's third to
sixth places and of R164: DESIGN CHOICE, for R91 does not say at which place it stands (log 58). -/
def execTret (h : Hdr) (a : Nat) (s : State) : Host.Outcome State Fault Refusal :=
  issue (.tret h a) s (fun s v =>
    match v.sp.lv.bind (fget v.g.levels) with
    | none => s.trapSplit v ⟨0x01, 0⟩
    | some lv =>
      if lv.cause = 0x51 ∨ (lv.cause = 0x40 ∧ !lv.idled) then s.trapSplit v ⟨0x01, 0⟩
      else if v.g.ownPending v.sp.lv then s.drainOwn v
      else match s.returnCheck v lv with
        | some t => s.trapSplit v t
        | none => match s.savedLow v v.sp.tdepth (v.g.rd a) (maskLanes v.sp.mask) with
          | .error t => s.trapSplit v t
          | .ok (ws, es) =>
            let s1 := (s.restoredLow v.c v.sp.tdepth es).modGroup v.gid (fun g => (g.apply ws).leaveHandler v.sid v.sp lv)
            (s1.retest v.gid).promote v.gid)

/-! Flashback (R246, R247, R254). -/

/-- The rewind window of a flashback point opens in a split (R247): instructions from issue number `since` on are
discarded by a rewind, and the flag log starts afresh when no window is open. -/
def Group.openWindow (g : Group) (sid : Nat) (sp : Split) (f : FlashPt) : Group :=
  let g1 := if g.anyWindow then g else { g with stickyBase := g.sticky, stickyLog := [] }
  g1.setSplit sid { sp with window := some ⟨f.pc, f.base, f.map, f.stub, sp.loop, g.seq + 1⟩ }

/-- `fbp` (R246): in a user-mode split it opens the rewind window. -/
def execFbp (h : Hdr) (base : Nat) (stub : Target) (map : Nat) (s : State) : Host.Outcome State Fault Refusal :=
  issue (.fbp h base stub map) s (fun s v =>
    let s1 := s.retire v
    if v.user then s1.modGroup v.gid (fun g => match fget g.splits v.sid with
      | some sp => g.openWindow v.sid sp ⟨v.sp.pc, base, BitVec.ofNat 32 map, Target.pcFrom stub v.sp.pc⟩
      | none => g)
    else s1)

/-- `idle` (R252). Its illegal-instruction trap stands where that of `tret` does (DESIGN CHOICE, log 58). -/
def execIdle (h : Hdr) (s : State) : Host.Outcome State Fault Refusal :=
  issue (.idle h) s (fun s v =>
    match v.sp.lv.bind (fget v.g.levels) with
    | none => s.trapSplit v ⟨0x01, 0⟩
    | some lv =>
      if lv.cause ≠ 0x40 ∨ lv.idled then s.trapSplit v ⟨0x01, 0⟩
      else if v.g.ownPending v.sp.lv then s.drainOwn v
      else (s.retire v).modGroup v.gid (fun g =>
        { g with
          levels := fset g.levels lv.lid { lv with idled := true }
          mark := .idled
          splits := fmapV (fun n sp => if n = v.sid then { sp with frozen := true } else sp) g.splits }))

end Sys2Proof.Machine
end

