-- ==== Sys2Proof/Machine/Owed.lean ====
section
/-! DEFINITION. The traps that lanes owe from landings, taken at their next issue: deferred traps and late drain errors
(spec 09_step R200, 11_traps R245, 04_encoding R91). -/
namespace Sys2Proof.Machine

/-- What a lane of the issuing split takes now: the first trap it owes, unless that waits below a handler of an earlier one, or
for the resume of a group that is being saved (R256). `late` selects late drain errors, otherwise deferred traps. -/
def View.due (v : View) (late : Bool) (l : Nat) : Option Owed :=
  match v.g.owed.find? (fun o => decide (o.lane = l)) with
  | some o => if v.g.mark ≠ .handler ∧ v.sp.tdepth < o.below ∧ decide (o.code = 0x41) = late then some o else none
  | none => none

/-- The due traps of the issuing split, one for each lane that has one. -/
def View.dues (v : View) (late : Bool) : List Owed := (maskLanes v.sp.mask).filterMap (v.due late)

/-- A lane's first owed trap is gone, and those after it wait for the `tret` of its handler (R200, R245). -/
def payOwed (l depth : Nat) : List Owed → List Owed
  | [] => []
  | o :: os =>
    if o.lane = l then os.map (fun p => if p.lane = l then { p with below := min p.below (depth + 1) } else p)
    else o :: payOwed l depth os

/-- Two owed traps that one handler split takes together: one cause, one sub-cause, one pair of masks. -/
def Owed.alike (a b : Owed) : Bool :=
  decide (a.code = b.code) && decide (a.sub = b.sub) && decide (a.lmask = b.lmask) && decide (a.amask = b.amask)

/-- One owed trap of each kind, in ascending code. -/
def owedKinds (os : List Owed) : List Owed :=
  [0x30, 0x31, 0x32, 0x41, 0x52].flatMap (fun c => (os.filter (fun o => decide (o.code = c))).foldl
    (fun (acc : List Owed) o => if acc.any o.alike then acc else acc ++ [o]) [])

/-- The lanes that owe take their traps at the instruction about to issue, one handler split for each cause (R200, R236,
R245). -/
def State.takeOwed (s : State) (v : View) (late : Bool) : State :=
  let os := v.dues late
  (owedKinds os).foldl (fun t k =>
    let mine := os.filter k.alike
    (t.modGroup v.gid (fun g => { g with owed := mine.foldl (fun l o => payOwed o.lane v.sp.tdepth l) g.owed })).takeTrap
      v.gid v.sid v.sp ⟨maskOf (fun l => mine.any (fun o => decide (o.lane = l))), k.code, k.sub, v.sp.pc,
        mine.map (fun o => (o.lane, o.tval)), if late then some (k.lmask, k.amask) else none⟩) s

/-- Owed traps taken by the split whose issue this is; nothing is due otherwise. -/
def owedEvent (late : Bool) (s : State) : Host.Outcome State Fault Refusal :=
  event s (fun s => match s.view? with
    | some v => if v.dues late = [] then none else some (s.takeOwed v late)
    | none => none)

/-- DEFERRED_TRAP (R200). -/
def execDeferredTrap (s : State) : Host.Outcome State Fault Refusal := owedEvent false s

/-- ASYNCHRONOUS_TEAM_FAULT (R245). -/
def execAsynchronousTeamFault (s : State) : Host.Outcome State Fault Refusal := owedEvent true s

end Sys2Proof.Machine
end

