-- ==== Sys2Proof/Machine/Save.lean ====
section
/-! DEFINITION. The save area as a writer lays it out (spec 05_context R109, R110, 06_queue R128, 08_group R152, R153,
11_traps R257, R258, 12_page R272, 15_isa_memory R345, 16_isa_matrix R367). What no layout of the spec carries goes into
firmware-private records 0x8000 to 0x8003 (log 10). -/
namespace Sys2Proof.Machine

/-- One record of an area (R109). -/
structure Rec where
  type : Nat
  major : Nat
  minor : Nat
  body : List Byte
  deriving DecidableEq, Repr

/-- A record with its header. -/
def Rec.bytes (r : Rec) : List Byte := leBytes 2 r.type ++ leBytes 1 r.major ++ leBytes 1 r.minor ++ leBytes 4 r.body.length ++ r.body

/-- Zero bytes. -/
def zeroBytes (n : Nat) : List Byte := List.replicate n 0

/-- Bytes filled up with zeros to a length. -/
def padTo (n : Nat) (bs : List Byte) : List Byte := (bs ++ zeroBytes (n - bs.length)).take n

/-- 0 or 1. -/
def bitOf (b : Bool) : Nat := if b then 1 else 0

/-! Splits (R152, R153). -/

/-- The state code of a split entry. -/
def SplitState.code : SplitState → Nat
  | .ready => 0
  | .flags _ | .own | .drain => 1
  | .boundary _ => 2
  | .join => 3
  | .parked _ _ _ _ _ => 4

/-- The 192 bytes of a split entry (R153). -/
def Split.bytes (sp : Split) : List Byte :=
  let lp (f : LoopSt → Nat) : Nat := (sp.loop.map f).getD 0
  leBytes 4 sp.mask.toNat ++ leBytes 4 sp.jmask.toNat ++ leBytes 8 sp.pc.toNat ++ leBytes 8 sp.rejoin.toNat ++
  leBytes 4 sp.ct.toNat ++ leBytes 4 sp.cd.toNat ++ leBytes 4 sp.cg.toNat ++ leBytes 1 sp.st.code ++
  leBytes 1 (sp.mode.code + 4 * sp.tdepth) ++ leBytes 1 sp.depth ++ leBytes 1 (bitOf sp.loop.isSome + 2 * bitOf sp.popDue) ++
  leBytes 8 (lp (·.pc.toNat)) ++ leBytes 4 (lp (·.remaining.toNat)) ++ leBytes 4 (lp (·.pass.toNat)) ++ leBytes 8 sp.age ++
  padTo 128 (if sp.place = .dormant then [] else sp.held.reverse.flatMap StackEntry.bytes)

/-- The splits of a group in the order of its record: resident in table order, the pre-emption handler, dormant oldest
first (R152). -/
def Group.inOrder (g : Group) : List Split :=
  let ds := g.splitsWhere (fun sp => decide (sp.place = .dormant))
  (List.range 8).flatMap (fun n => g.splitsWhere (fun sp => decide (sp.place = .resident n))) ++
  g.splitsWhere (fun sp => decide (sp.place = .ninth)) ++ byAge ds.length ds

/-- The place of a group among the records: grid number, flat team index, group index. -/
def placeBytes (n flat idx : Nat) : List Byte := leBytes 4 n ++ leBytes 4 flat ++ leBytes 2 idx

/-- The body of a type 0x0021 record (R152). -/
def Group.splitRec (g : Group) (n flat : Nat) : List Byte :=
  let count (p : Split → Bool) : Nat := (g.splitsWhere p).length
  placeBytes n flat g.idx ++ leBytes 1 (count (fun sp => sp.entry?.isSome)) ++ leBytes 1 (count (fun sp => decide (sp.place = .dormant))) ++
  leBytes 1 (count (fun sp => decide (sp.place = .ninth))) ++ zeroBytes 3 ++ g.inOrder.flatMap Split.bytes

/-! Groups (R257). -/

/-- Is a spoil entry one that the layout of R257 holds: at most one place for each lane. -/
def Spoil.regular (e : Spoil) : Bool := Sys2Proof.lanes.all (fun l => decide ((e.lanes.filter (fun x => decide (x.lane = l))).length ≤ 1))

/-- The 64-byte header of a spoil entry (R257). -/
def Spoil.head (e : Spoil) : List Byte :=
  let mask := maskOf (fun l => e.lanes.any (fun x => decide (x.lane = l)))
  leBytes 8 e.pc.toNat ++ leBytes 4 e.count.toNat ++ leBytes 4 mask.toNat ++ leBytes 1 e.scope.code ++ leBytes 1 e.rule.code ++
  leBytes 1 e.width.code ++ leBytes 1 (bitOf e.v) ++ leBytes 1 e.sflag ++ zeroBytes 1 ++ leBytes 2 e.vreg ++ zeroBytes 40

/-- A lane slot of a spoil entry (R257). -/
def Spoil.slot (e : Spoil) (l : Nat) : List Byte :=
  match e.lanes.find? (fun x => decide (x.lane = l)) with
  | none => zeroBytes 24
  | some x =>
    let data := x.bytes.map (·.2)
    leBytes 8 x.ea.toNat ++ (if e.rule = .cap then data.take 4 ++ leBytes 4 x.cap.toNat ++ zeroBytes 8 else padTo 16 data)

/-- The 832 bytes of a spoil entry. -/
def Spoil.bytes (e : Spoil) : List Byte := e.head ++ Sys2Proof.lanes.flatMap e.slot

/-- The 24 bytes of a flashback entry. -/
def Split.flashBytes (sp : Split) : List Byte :=
  match sp.flash with
  | none => zeroBytes 24
  | some f => leBytes 8 f.pc.toNat ++ leBytes 8 f.stub.toNat ++ leBytes 2 f.base ++ zeroBytes 2 ++ leBytes 4 f.map.toNat

/-- The index among some splits of the handler split of a level, 255 when it has none. -/
def levelIndex (sps : List Split) (lid : Nat) : Nat := (sps.findIdx? (fun sp => decide (sp.lv = some lid))).getD 255

/-- The 472 bytes of a trap level. -/
def TrapLevel.bytes (lv : TrapLevel) (sps : List Split) : List Byte :=
  (match lv.ret with
    | some r => r.bytes
    | none => zeroBytes 192) ++
  leBytes 4 lv.causeWord ++ leBytes 4 lv.lmask.toNat ++ leBytes 4 lv.amask.toNat ++ leBytes 1 (levelIndex sps lv.lid) ++ zeroBytes 3 ++
  leBytes 8 lv.epc.toNat ++ lanes.flatMap (fun l => leBytes 8 (sget 0 lv.tval l).toNat)

/-- The 24 bytes of a trap that a lane owes. -/
def Owed.bytes (o : Owed) : List Byte :=
  leBytes 1 o.lane ++ leBytes 1 o.code ++ leBytes 1 o.sub ++ zeroBytes 1 ++ leBytes 4 o.lmask.toNat ++ leBytes 8 o.tval.toNat ++
  leBytes 4 o.amask.toNat ++ zeroBytes 4

/-- A register of a group as bytes. -/
def Group.regBytes (g : Group) (r : Nat) : List Byte := lanes.flatMap (fun l => leBytes 4 (g.rd r l).toNat)

/-- The save kind of a group: 0 by flashback, 1 whole. -/
def Group.saveKind (g : Group) : Nat := if g.mark = .idled then 0 else 1

/-- The body of a type 0x0020 record (R257). -/
def Group.stateRec (g : Group) (n flat : Nat) : List Byte :=
  let sps := g.inOrder
  let regs := if g.saveKind = 0 then 16 else g.nregs
  let spoil := g.spoil.filter Spoil.regular
  placeBytes n flat g.idx ++ leBytes 1 g.saveKind ++ leBytes 1 g.levels.length ++ leBytes 4 g.sticky.toNat ++ leBytes 2 regs ++
  leBytes 2 spoil.length ++ leBytes 2 g.owed.length ++ zeroBytes 2 ++
  leBytes 4 (if g.saveKind = 0 then 0 else g.pendingFlags) ++ zeroBytes 4 ++
  (List.range 16).flatMap (fun i => lanes.flatMap (fun l => leBytes 4 (sget 0 g.save1 (32 * i + l)).toNat)) ++
  sps.flatMap Split.flashBytes ++ (g.levels.map (·.2)).flatMap (fun lv => lv.bytes sps) ++
  (List.range regs).flatMap g.regBytes ++ g.owed.flatMap Owed.bytes ++ spoil.flatMap Spoil.bytes

/-- An increment of a loop in 4 bytes; absent, its field is 255. -/
def incBytes (i : Option Inc) : List Byte :=
  match i with
  | some x => leBytes 1 x.field.code ++ leBytes 1 x.slot ++ leBytes 2 (wrapNat 16 x.delta)
  | none => leBytes 1 255 ++ zeroBytes 3

/-- What the state code of a split leaves out: what it is parked on or waits for. -/
def SplitState.detail : SplitState → List Byte
  | .parked x n t m c => leBytes 4 t.toNat ++ leBytes 1 x.code ++ leBytes 1 n ++ leBytes 2 m ++ leBytes 4 c.toNat
  | .boundary x => zeroBytes 4 ++ leBytes 1 x.code ++ zeroBytes 7
  | .flags m => zeroBytes 6 ++ leBytes 2 m ++ zeroBytes 4
  | .own => zeroBytes 5 ++ leBytes 1 1 ++ zeroBytes 6
  | .drain => zeroBytes 5 ++ leBytes 1 2 ++ zeroBytes 6
  | .ready | .join => zeroBytes 12

/-- What the layout of a split leaves out, in 48 bytes (log 10): stack base, level, how many entries it holds, what it waits
for, the body and increments of its loop, and its arrivals by blank steps. -/
def Split.privateBytes (sp : Split) (level : Nat) : List Byte :=
  leBytes 1 sp.sbase ++ leBytes 1 level ++ zeroBytes 1 ++ leBytes 1 sp.held.length ++ sp.st.detail ++
  leBytes 4 ((sp.loop.map (·.len)).getD 0) ++ incBytes (sp.loop.bind (·.inc0)) ++ incBytes (sp.loop.bind (·.inc1)) ++
  incBytes (sp.loop.bind (·.inc2)) ++
  leBytes 4 sp.blank.t.toNat ++ leBytes 4 sp.blank.d.toNat ++ leBytes 4 sp.blank.g.toNat ++ zeroBytes 4

/-- The counts of lanes that have exited, 12 bytes for each lane of a mask that comes first; the flags of completed results
that wait for their completion flag, 8 bytes each, behind their number and filled up to whole 8 bytes (R109, log 10). -/
def Group.laneRec (g : Group) (link : Option Nat → Nat) : List Byte :=
  leBytes 4 (maskOf (fun l => (fget g.exits l).isSome)).toNat ++ leBytes 4 g.heldSticky.length ++
  (lanes.filterMap (fget g.exits)).flatMap (fun e => leBytes 4 e.t.toNat ++ leBytes 4 e.d.toNat ++ leBytes 4 e.g.toNat) ++
  zeroBytes (4 * ((lanes.filterMap (fget g.exits)).length % 2)) ++ g.heldSticky.flatMap (fun x => leBytes 1 x.flag ++ leBytes 1 (link x.lid) ++ zeroBytes 2 ++ leBytes 4 x.event.mask.toNat)

/-- What the layouts of a group leave out (log 10): the private bytes of its splits; the links, resume PCs, handler flags
and return states of its levels; what `laneRec` holds; and the spoil entries of tensor instructions, each with its place. -/
def Group.privateRec (g : Group) (n flat : Nat) : List Byte :=
  let link (o : Option Nat) : Nat := (o.bind (fun lid => g.levels.findIdx? (fun e => decide (e.1 = lid)))).getD 255
  let split (sp : Split) : List Byte := sp.privateBytes (link sp.lv)
  let level (lv : TrapLevel) : List Byte :=
    leBytes 4 (bitOf lv.idled) ++ leBytes 4 lv.hflags.toNat ++ leBytes 8 lv.resume.toNat ++
    (match lv.ret with
      | some r => r.privateBytes (link r.lv)
      | none => zeroBytes 48)
  let place (x : SLane) : List Byte := leBytes 1 x.lane ++ leBytes 1 x.bytes.length ++ zeroBytes 6 ++ leBytes 8 x.ea.toNat ++ padTo 16 (x.bytes.map (·.2))
  let big (i : Nat) : List Byte := match g.spoil[i]? with
    | some e => if e.regular then [] else leBytes 4 i ++ leBytes 4 e.lanes.length ++ e.head ++ e.lanes.flatMap place
    | none => []
  let bigs := (g.spoil.filter (fun e => !e.regular)).length
  placeBytes n flat g.idx ++ leBytes 2 bigs ++ leBytes 2 g.splits.length ++ leBytes 2 g.levels.length ++
  g.inOrder.flatMap split ++ (g.levels.map (·.2)).flatMap level ++ g.laneRec link ++ (List.range g.spoil.length).flatMap big

/-! Teams (R258, R345, R367). -/

/-- The body of a type 0x0030 record (R258). -/
def Team.spadRec (t : Team) (n spad : Nat) : List Byte :=
  leBytes 4 n ++ leBytes 4 t.flat ++ leBytes 4 spad ++ leBytes 1 (bitOf t.ended) ++ zeroBytes 3 ++
  (List.range spad).map (sget 0 t.spad) ++ (List.range (spad / 4096)).flatMap (fun i => leBytes 8 (sget 0 t.tags i).toNat)

/-- A tile entry of a type 0x0031 record (R367). -/
def Group.tileBytes (g : Group) (i : Nat) : List Byte :=
  match fget g.tiles i with
  | none => zeroBytes 8
  | some x =>
    leBytes 2 g.idx ++ leBytes 1 i ++ leBytes 1 (bitOf x.valid + 2 * bitOf (decide (x.tag = .i32))) ++ zeroBytes 4 ++
    (if x.valid then (List.range 1024).flatMap (fun k => leBytes 4 (sget 0 x.vals k).toNat) else [])

/-- The body of a type 0x0031 record (R367). -/
def Team.tileRec (t : Team) (n : Nat) (gs : List Group) : List Byte :=
  leBytes 4 n ++ leBytes 4 t.flat ++ leBytes 4 (gs.map (·.ntiles)).sum ++ zeroBytes 4 ++
  gs.flatMap (fun g => (List.range g.ntiles).flatMap g.tileBytes)

/-- The body of a type 0x0032 record (R367). -/
def Team.handleRec (t : Team) (n handles : Nat) : List Byte :=
  leBytes 4 n ++ leBytes 4 t.flat ++ leBytes 4 handles ++ zeroBytes 4 ++
  (List.range handles).flatMap (fun i => match fget t.handles i with
    | some h => leBytes 1 (bitOf h.valid) ++ zeroBytes 7 ++ (List.range 32).flatMap (fun k => leBytes 4 (sget 0 h.words k).toNat)
    | none => zeroBytes 136)

/-- The kind code of a command record (R345). -/
def EngKind.code : EngKind → Nat
  | .cpy => 0
  | .cpy2d => 1
  | .gth => 2
  | .sct => 3
  | .zfill => 4

/-- The 320 bytes of a command record (R345). -/
def Cmd.bytes (c : Cmd) : List Byte :=
  leBytes 1 3 ++ leBytes 1 c.kind.code ++ leBytes 1 c.ctr ++ leBytes 1 (c.rule.code + 16 * c.width.code) ++ leBytes 1 c.hint.code ++
  leBytes 1 c.lane ++ leBytes 2 c.group ++ leBytes 8 c.pc.toNat ++ leBytes 4 c.order ++ leBytes 4 c.count ++ leBytes 8 c.dst.toNat ++
  leBytes 8 c.src.toNat ++ leBytes 4 c.n ++ leBytes 4 c.rows ++ leBytes 4 (wrapNat 32 c.dstride) ++ leBytes 4 (wrapNat 32 c.sstride) ++
  leBytes 4 c.mask.toNat ++ leBytes 4 c.count ++ lanes.flatMap (fun l => leBytes 8 (sget 0 c.addrs l).toNat)

/-- The pending bytes of a counter: those of its cancelled records (R345). -/
def Team.pendingBytes (t : Team) (k : Nat) : Nat :=
  ((t.cmds.filter (fun e => decide (e.2.ctr = k) && decide (e.2.st = .cancelled))).map (fun e => e.2.count)).sum

/-- The code of a pending update (R345). -/
def UpdKind.code : UpdKind → Nat
  | .tagset => 0
  | .tagclr => 1
  | .ctrset => 2

/-- The 24 bytes of a pending update (R345). -/
def Upd.bytes (u : Upd) : List Byte :=
  leBytes 1 u.kind.code ++ zeroBytes 1 ++ leBytes 2 u.index ++ leBytes 4 u.count.toNat ++ leBytes 8 u.value.toNat ++
  leBytes 2 u.group ++ leBytes 1 u.lane ++ zeroBytes 5

/-- Updates in ascending writer key. -/
def insUpd (u : Upd) : List Upd → List Upd
  | [] => [u]
  | x :: xs => if u.before x then u :: x :: xs else x :: insUpd u xs

/-- The body of a type 0x0033 record (R345). -/
def Team.engineRec (t : Team) (n : Nat) : List Byte :=
  leBytes 4 n ++ leBytes 4 t.flat ++ leBytes 4 t.order ++ leBytes 4 t.upds.length ++
  (List.range 32).flatMap (fun k =>
    let w := (sget 0 t.ctrs k).toNat
    leBytes 4 (w % 2 ^ 32) ++ leBytes 4 (w / 2 ^ 32) ++ leBytes 4 (t.pendingBytes k) ++ zeroBytes 4) ++
  (List.range 16).flatMap (fun i => match fget t.cmds i with
    | some c => c.bytes
    | none => zeroBytes 320) ++
  (t.upds.foldl (fun acc u => insUpd u acc) []).flatMap Upd.bytes

/-! Grids and queues (R128). -/

/-- A grid entry of a type 0x0040 record (R128). -/
def Grid.entryBytes (gr : Grid) : List Byte :=
  let l (f : LateError → Nat) : Nat := (gr.late.map f).getD 0
  leBytes 2 gr.queue ++ leBytes 1 (bitOf gr.det) ++ leBytes 1 gr.fnver ++ leBytes 4 gr.seqNo ++ leBytes 8 gr.crec.toNat ++
  leBytes 8 (l (·.info)) ++ leBytes 4 (l (·.count)) ++ leBytes 4 (l (·.team)) ++ leBytes 2 (l (·.group)) ++ leBytes 1 (l (·.lane)) ++
  leBytes 1 (bitOf gr.late.isSome + 2 * l (·.scope)) ++ leBytes 1 gr.vector ++ leBytes 1 (bitOf gr.irq) ++ zeroBytes 2

/-- What no layout says of a grid (log 10): how it was launched, its declaration, which teams are placed, and the
boundaries that have landed. -/
def Grid.privateRec (gr : Grid) (n : Nat) (teams : List Team) : List Byte :=
  leBytes 4 n ++ leBytes 4 gr.kernel ++ leBytes 8 gr.image ++ leBytes 8 gr.args.toNat ++ leBytes 8 gr.entry.toNat ++
  leBytes 8 gr.rodata.toNat ++ leBytes 4 gr.dies ++ leBytes 4 gr.teams ++ leBytes 1 (gr.residency + 4 * bitOf gr.exitG.isSome) ++ leBytes 1 gr.gang ++
  leBytes 2 gr.groups ++ leBytes 2 gr.prod ++ leBytes 2 gr.pregs ++ leBytes 2 gr.cregs ++ leBytes 1 gr.ptiles ++ leBytes 1 gr.ctiles ++
  leBytes 4 gr.nhandles ++ leBytes 4 gr.spad ++ leBytes 4 gr.landedG.toNat ++ leBytes 4 (gr.exitG.getD 0).toNat ++ leBytes 4 teams.length ++
  (List.range gr.dies).flatMap (fun d => leBytes 4 (sget 0 gr.nextTeam d) ++ leBytes 4 (sget 0 gr.landedD d).toNat) ++
  teams.flatMap (fun t => leBytes 4 t.flat ++ leBytes 4 t.landed.toNat)

/-- The queues that the scheduler has met (log 10): number, indices, error. -/
def Ctx.queueRec (x : Ctx) : List Byte :=
  x.queues.flatMap (fun e => leBytes 4 e.1 ++ leBytes 4 e.2.ridx.toNat ++ leBytes 4 e.2.done.toNat ++ leBytes 4 (bitOf (decide (e.2.st = .error))))

/-- Private bytes that lanes have written, as runs of lane, offset and length (log 10). -/
def privRuns : FMap Bool → List (Nat × Nat) → List (Nat × Nat)
  | [], acc => acc.reverse
  | (k, _) :: m, (a, n) :: acc => if k = a + n then privRuns m ((a, n + 1) :: acc) else privRuns m ((k, 1) :: (a, n) :: acc)
  | (k, _) :: m, [] => privRuns m [(k, 1)]

/-- The body of the record of private bytes of a context. -/
def State.privRec (s : State) (c : Nat) : List Byte :=
  (privRuns (frange s.priv (privKey c 0 0) (privKey (c + 1) 0 0)) []).flatMap (fun r =>
    leBytes 4 (r.1 / 2 ^ 24 % 2 ^ 32) ++ leBytes 4 (r.1 % 2 ^ 24) ++ leBytes 8 r.2)

/-! Context registers (R109). -/

/-- The split registers that a handler split saved whole carries, in ascending number (R98, R109). `ks_phys` is where the split
stands and is not saved. -/
def savedSplitRegs : List PReg := [.ksStatus, .ksCause, .ksEpc, .ksTval, .ksLmask, .ksAmask]

/-- The split registers of the handler splits of a group saved whole; `ks_tval` is that of the lowest lane. -/
def Group.handlerRegs (g : Group) (x : Ctx) : List (List Nat) :=
  if g.mark = .savedWhole then
    g.levels.filterMap (fun e => (g.inOrder.find? (fun sp => decide (sp.lv = some e.1))).map (fun sp =>
      savedSplitRegs.map (fun k => splitReg x g sp k (lowestLane sp.mask))))
  else []

/-- The body of a type 0x0010 record (R109): the registers in ascending number, 8 bytes each; those of handler splits stand
behind the context's `ks_status`. -/
def State.regRec (s : State) (c : Nat) (gs : List Group) : List Byte :=
  let r (ks : List PReg) : List Byte := ks.flatMap (fun k => leBytes 8 (s.ctxReg c k))
  let hs := gs.flatMap (fun g => g.handlerRegs (s.ctx c))
  r [.kuDet, .kuFnver, .ksStatus] ++
  (List.range savedSplitRegs.length).flatMap (fun i => hs.flatMap (fun h => leBytes 8 (h.getD i 0))) ++
  r [.ksTvec, .ksPvec, .ksPtbase, .ksScring, .ksScsize, .khCtl, .khPdesc, .khSarea, .khSalen, .khQos, .khVf, .khPtbase2, .khMemkey,
    .khHvec]

/-! The area (R109, R110). -/

/-- The record types that this firmware reads. -/
def knownType (t : Nat) : Bool :=
  [0x0000, 0x0001, 0x0010, 0x0020, 0x0021, 0x0030, 0x0031, 0x0032, 0x0033, 0x0040, 0x0050, 0x8000, 0x8001, 0x8002, 0x8003].contains t

/-- A record of this firmware's own layout. -/
def Rec.own (t : Nat) (body : List Byte) : Rec := ⟨t, 1, 0, body⟩

/-- The records of a team with their bodies, in the order of their types. -/
def State.teamRecs (s : State) (n : Nat) (gr : Grid) (tid : Nat) (t : Team) : List Rec :=
  let gs := (s.teamGroups tid).map (·.2)
  gs.map (fun g => Rec.own 0x20 (g.stateRec n t.flat)) ++
  (gs.filter (fun g => decide (g.splits ≠ []))).map (fun g => Rec.own 0x21 (g.splitRec n t.flat)) ++
  [Rec.own 0x30 (t.spadRec n gr.spad), Rec.own 0x31 (t.tileRec n gs), Rec.own 0x32 (t.handleRec n gr.nhandles),
   Rec.own 0x33 (t.engineRec n)] ++
  gs.map (fun g => Rec.own 0x8001 (g.privateRec n t.flat))

/-- A record put behind those of its type and of lower types. -/
def insRec (r : Rec) : List Rec → List Rec
  | [] => [r]
  | x :: xs => if r.type < x.type then r :: x :: xs else x :: insRec r xs

/-- What a record is of: the grid, by its number on the device, the team and the group that its body names, as far as its type
has them. `grid` gives the grid of a number of the area. -/
def Rec.owner (r : Rec) (grid : Nat → Nat) : Nat × Nat × Nat :=
  let b := r.body
  match r.type with
  | 0x20 | 0x21 | 0x8001 => (grid (field b 0 4), field b 4 4, field b 8 2)
  | 0x30 | 0x31 | 0x32 | 0x33 => (grid (field b 0 4), field b 4 4, 0)
  | 0x8000 => (grid (field b 0 4), 0, 0)
  | _ => (0, 0, 0)

/-- The kept tail of a newer minor put back behind the record of its type and owner (R110). -/
def restoreTail (kept : List KeptRec) (grid : Nat → Nat) (r : Rec) : Rec :=
  match kept.find? (fun k => decide (k.type = r.type) && decide (k.owner = r.owner grid) && knownType k.type) with
  | some k => { r with minor := k.minor, body := r.body ++ k.bytes }
  | none => r

/-- Grids of a context with their numbers. -/
def State.gridList (s : State) (c : Nat) : List (Nat × Nat × Grid) :=
  let gs := s.grids.filter (fun e => decide (e.2.ctx = c))
  (List.range gs.length).zip gs

/-- The records between the header and the end. -/
def State.saveRecs (s : State) (c : Nat) : List Rec :=
  let x := s.ctx c
  let gl := s.gridList c
  let teamsOf (gid : Nat) : List (Nat × Team) := s.teams.filter (fun e => decide (e.2.grid = gid))
  let groups := gl.flatMap (fun e => (teamsOf e.2.1).flatMap (fun t => (s.teamGroups t.1).map (·.2)))
  let own := [Rec.own 0x10 (s.regRec c groups)] ++
    gl.flatMap (fun e => (teamsOf e.2.1).flatMap (fun t => s.teamRecs e.1 e.2.2 t.1 t.2)) ++
    [Rec.own 0x40 (leBytes 8 x.qtBase.toNat ++ leBytes 4 x.qtCount ++ leBytes 4 gl.length ++ gl.flatMap (fun e => e.2.2.entryBytes)),
     Rec.own 0x50 (leBytes 4 (x.stage.snap - 1) ++ leBytes 4 x.stage.dctl ++ leBytes 4 x.stage.pused ++ leBytes 4 x.sleft)] ++
    gl.map (fun e => Rec.own 0x8000 (e.2.2.privateRec e.1 ((teamsOf e.2.1).map (·.2)))) ++
    [Rec.own 0x8002 x.queueRec, Rec.own 0x8003 (s.privRec c)]
  let sorted := own.foldl (fun acc r => insRec r acc) []
  let tailed := sorted.map (restoreTail x.kept (fun n => ((gl[n]?).map (·.2.1)).getD 0))
  (x.kept.filter (fun k => !knownType k.type)).foldl (fun acc k => insRec ⟨k.type, k.major, k.minor, k.bytes⟩ acc) tailed

/-- The header record, with a checksum (R109), and the tail that a newer minor left in it (R110). -/
def State.headRec (s : State) (c : Nat) (rs : List Rec) (crc : Nat) : Rec :=
  let x := s.ctx c
  let gids := s.ctxGrids c
  let whole := s.groups.any (fun e => decide (e.2.mark = .savedWhole) && (match fget s.teams e.2.tid with
    | some t => gids.contains t.grid
    | none => false))
  let flags := bitOf x.swip + 2 * bitOf whole + 4 * bitOf (decide (x.st = .migOut))
  let rest := (x.kept.find? (fun k => decide (k.type = 1))).map (fun k => (k.minor, k.bytes))
  let total := 48 + ((rest.map (·.2)).getD []).length + (rs.map (fun r => 8 + r.body.length)).sum + 8
  ⟨1, 1, (rest.map (·.1)).getD 0, leBytes 8 s.fwver.toNat ++ leBytes 4 (rs.length + 2) ++ leBytes 4 flags ++ leBytes 8 total ++ leBytes 8 x.sig.toNat ++
    leBytes 4 crc ++ zeroBytes 4 ++ (rest.map (·.2)).getD []⟩

/-- The bytes of the save area of a context (R109, R110). -/
def State.area (s : State) (c : Nat) : List Byte :=
  let rs := s.saveRecs c
  let tail := rs.flatMap Rec.bytes ++ (Rec.own 0 []).bytes
  let crc := crc32c ((s.headRec c rs 0).bytes ++ tail)
  (s.headRec c rs crc).bytes ++ tail

end Sys2Proof.Machine
end

