-- ==== Sys2Proof/Machine/Restore.lean ====
section
/-! DEFINITION. The save area as RESUME reads it (spec 05_context R108-R110, R395, 07_kernel R134, 11_traps R254, R257). -/
namespace Sys2Proof.Machine

/-- Some bytes of a list. -/
def sub (bs : List Byte) (o n : Nat) : List Byte := (bs.drop o).take n

/-! Records (R109). -/

/-- The records of an area up to its end record. -/
def parseRecs : Nat → List Byte → Option (List Rec)
  | 0, _ => none
  | k + 1, bs =>
    let r : Rec := ⟨field bs 0 2, field bs 2 1, field bs 3 1, sub bs 8 (field bs 4 4)⟩
    if bs.length < 8 + field bs 4 4 ∨ field bs 4 4 % 8 ≠ 0 then none
    else if r.type = 0 then (if r.body = [] then some [r] else none)
    else (parseRecs k (bs.drop (8 + field bs 4 4))).map (fun rs => r :: rs)

/-- The area of a context: an error, or its records (R110, R395). -/
def State.readArea (s : State) (c : Nat) : Except Nat (List Rec) :=
  let x := s.ctx c
  let a := x.sarea.toNat
  let len := x.salen.toNat
  if a % 4096 ≠ 0 ∨ !s.installed a len then .error 8
  else
    let total := s.readN s.fwKey (a + 24) 8
    if len < 56 ∨ s.readN s.fwKey a 2 ≠ 1 ∨ total > len ∨ total < 56 then .error 7
    else
      let bs := (List.range total).map (fun i => s.readByte s.fwKey (a + i))
      if crc32c (zeroed bs 40) ≠ field bs 40 4 then .error 7
      else match parseRecs (total / 8) bs with
        | none => .error 7
        | some rs =>
          if (rs.map (fun r => 8 + r.body.length)).sum ≠ total ∨ rs.length ≠ field bs 16 4 ∨ (rs.getD 0 ⟨0, 0, 0, []⟩).body.length < 40 then
            .error 7
          else if rs.any (fun r => knownType r.type && decide (r.major ≠ 1)) then .error 6
          else .ok rs

/-- The area of a context is read: its header, and all of it where the header holds. -/
def State.areaSeen (s : State) (c : Nat) : State :=
  let a := (s.ctx c).sarea.toNat
  let len := (s.ctx c).salen.toNat
  if a % 4096 ≠ 0 ∨ !s.installed a len then s
  else
    let total := s.readN s.fwKey (a + 24) 8
    s.seen c (linesOf a (if len < 56 ∨ s.readN s.fwKey a 2 ≠ 1 ∨ total > len ∨ total < 56 then 56 else total))

/-- The records of a type. -/
def ofType (rs : List Rec) (t : Nat) : List (List Byte) := (rs.filter (fun r => decide (r.type = t))).map (·.body)

/-! Splits. -/

/-- An increment out of its 4 bytes. -/
def incOf (bs : List Byte) : Option Inc :=
  if field bs 0 1 = 255 then none else some ⟨field bs 1 1, .ofCode (field bs 0 1), sextNat 16 (field bs 2 2)⟩

/-- How many stack entries a split entry has room for and uses: none of a dormant split, and none beyond the depth (R153). -/
def entryStack (b : List Byte) (dormant : Bool) : Nat := if dormant then 0 else min 8 (field b 38 1)

/-- Is a stack entry within its layout: a kind, and zeros behind it and in the join mask of a return entry (R153, R154). -/
def stackEntryOk (b : List Byte) : Bool :=
  decide (field b 12 1 ≤ 1) && zeros b 13 16 && (decide (field b 12 1 = 1) || zeros b 8 12)

/-- A split out of its entry and its private bytes (R153); the level is one of those listed. -/
def splitOf (b p : List Byte) (sid : Nat) (place : Place) (lids : List Nat) : Option Split :=
  let st : Option SplitState := match field b 36 1 with
    | 0 => some .ready
    | 1 => some (match field p 9 1 with
      | 1 => .own
      | 2 => .drain
      | _ => .flags (field p 10 2))
    | 2 => some (.boundary (.ofCode (field p 8 1)))
    | 3 => some .join
    | 4 => some (.parked (.ofCode (field p 8 1)) (field p 9 1) (BitVec.ofNat 32 (field p 4 4)) (field p 10 2)
        (BitVec.ofNat 32 (field p 12 4)))
    | _ => none
  let mode : Option Mode := match field b 37 1 % 4 with
    | 0 => some .user
    | 1 => some .sup
    | 2 => some .hyp
    | _ => none
  let held := (List.range (min 8 (field p 3 1))).map (fun i => StackEntry.ofNat (field b (64 + 16 * i) 16))
  let used := entryStack b (decide (place = .dormant))
  match st, mode with
  | some st, some mode =>
    if field b 37 1 ≥ 16 ∨ field b 38 1 > 64 ∨ field b 39 1 ≥ 4 ∨
        !(List.range used).all (fun i => stackEntryOk (sub b (64 + 16 * i) 16)) ∨ !zeros b (64 + 16 * used) 192 then none
    else some
      { sid := sid, mask := BitVec.ofNat 32 (field b 0 4), pc := BitVec.ofNat 64 (field b 8 8), mode := mode
        tdepth := field b 37 1 / 4, rejoin := BitVec.ofNat 64 (field b 16 8), jmask := BitVec.ofNat 32 (field b 4 4)
        held := held.reverse, depth := field b 38 1, sbase := field p 0 1
        loop := if field b 39 1 % 2 = 0 then none else some
          ⟨BitVec.ofNat 64 (field b 40 8), BitVec.ofNat 32 (field b 48 4), BitVec.ofNat 32 (field b 52 4), field p 16 4,
            incOf (sub p 20 4), incOf (sub p 24 4), incOf (sub p 28 4)⟩
        ct := BitVec.ofNat 32 (field b 24 4), cd := BitVec.ofNat 32 (field b 28 4), cg := BitVec.ofNat 32 (field b 32 4)
        blank := ⟨BitVec.ofNat 32 (field p 32 4), BitVec.ofNat 32 (field p 36 4), BitVec.ofNat 32 (field p 40 4)⟩
        age := field b 56 8, st := st, place := place
        entered := true, popDue := decide (field b 39 1 / 2 = 1), lv := lids[field p 1 1]?
        window := none, flash := none, frozen := false, mustIssue := false, lastIssue := 0, opps := 0, cycles := 0 }
  | _, _ => none

/-- All results of a list, or none. -/
def allSome {α : Type} : List (Option α) → Option (List α)
  | [] => some []
  | none :: _ => none
  | some a :: r => (allSome r).map (fun as => a :: as)

/-! Groups. -/

/-- The record of a group with some place and type, among bodies. -/
def groupRec (bs : List (List Byte)) (n flat idx : Nat) : Option (List Byte) :=
  bs.find? (fun b => decide (field b 0 4 = n) && decide (field b 4 4 = flat) && decide (field b 8 2 = idx))

/-- The flashback entry of a split. -/
def flashOf (b : List Byte) : Option FlashPt :=
  if field b 0 8 = 0 then none
  else some ⟨BitVec.ofNat 64 (field b 0 8), field b 16 2, BitVec.ofNat 32 (field b 20 4), BitVec.ofNat 64 (field b 8 8)⟩

/-- Is a splits record within its layout, but for its entries (R152). -/
def splitsHeadOk (sb : List Byte) : Bool :=
  decide (field sb 10 1 ≤ 8) && decide (field sb 11 1 ≤ 24) && decide (field sb 12 1 ≤ 1) && zeros sb 13 16

/-- The splits of a group (R152): the splits record, the flashback entries, the private bytes. Under a pre-emption handler,
all but handler splits are frozen (R251, R255). -/
def splitsOf (sb fl pb : List Byte) (lids : List Nat) (preempted : Bool) : Option (List Split) :=
  let res := field sb 10 1
  let nin := field sb 12 1
  let n := res + nin + field sb 11 1
  if !splitsHeadOk sb then none
  else allSome ((List.range n).map (fun i =>
    let pl : Place := if i < res then .resident i else if i < res + nin then .ninth else .dormant
    if !zeros fl (24 * i + 18) (24 * i + 20) then none
    else (splitOf (sub sb (16 + 192 * i) 192) (sub pb (48 * i) 48) i pl lids).map (fun sp =>
      { sp with flash := flashOf (sub fl (24 * i) 24), frozen := preempted && decide (sp.tdepth = 0) })))

/-- The cause codes of R234. -/
def causeCodes : List Nat :=
  List.range' 0x01 10 ++ List.range' 0x10 6 ++ List.range' 0x18 4 ++ List.range' 0x20 5 ++ List.range' 0x28 4 ++ List.range' 0x30 3 ++
  List.range' 0x38 4 ++ [0x40, 0x41] ++ List.range' 0x50 3 ++ List.range' 0x60 16

/-- Is a trap level within its layout, but for the return state of one that has it: a cause code of R234 and no reserved bit in
`ks_cause`, no mode 3, zeros, those of the return state under cause 0x40 among them, and the index of a split, or 255 for a level
that no split is in (R93, R238, R257, log 10). -/
def levelOk (b : List Byte) (nsp : Nat) : Bool :=
  let w := field b 192 4
  decide (bits w 9 8 ≠ 3) && decide (bits w 11 10 = 0) && decide (bits w 31 16 = 0) && zeros b 205 208 &&
  causeCodes.contains (bits w 7 0) && (decide (bits w 7 0 ≠ 0x40) || zeros b 0 192) &&
  (decide (field b 204 1 < nsp) || decide (field b 204 1 = 255))

/-- A trap level out of its 472 bytes and its private 64. Levels of causes 0x40 and 0x51 have no return state (R236, R251). -/
def trapLevelOf (b p : List Byte) (nsp lid : Nat) (lids : List Nat) : Option TrapLevel :=
  let w := field b 192 4
  let ret : Option (Option Split) :=
    if bits w 7 0 = 0x40 ∨ bits w 7 0 = 0x51 then some none
    else (splitOf (sub b 0 192) (sub p 16 48) 0 (.resident 0) lids).map some
  let mode : Mode := match bits w 9 8 with
    | 0 => .user
    | 1 => .sup
    | _ => .hyp
  if !levelOk b nsp then none
  else ret.map (fun r =>
    { lid := lid, ret := r, cause := bits w 7 0, sub := bits w 15 12, from_ := mode, epc := BitVec.ofNat 64 (field b 208 8)
      resume := BitVec.ofNat 64 (field p 8 8)
      tval := lanes.foldl (fun m l => if field b (216 + 8 * l) 8 = 0 then m else fset m l (BitVec.ofNat 64 (field b (216 + 8 * l) 8))) []
      lmask := BitVec.ofNat 32 (field b 196 4), amask := BitVec.ofNat 32 (field b 200 4), hflags := BitVec.ofNat 32 (field p 4 4)
      idled := decide (field p 0 4 = 1) })

/-- The codes that a lane may owe: deferred traps, late drain errors, and machine checks found while it was being saved
(R113, R200, R245). -/
def owedCodes : List Nat := [0x30, 0x31, 0x32, 0x41, 0x52]

/-- Is a pending trap within its layout (R257). -/
def owedOk (b : List Byte) : Bool := decide (field b 0 1 < 32) && owedCodes.contains (field b 1 1) && zeros b 3 4 && zeros b 20 24

/-- A trap that a lane owes. -/
def owedOf (b : List Byte) : Owed :=
  ⟨field b 0 1, field b 1 1, field b 2 1, BitVec.ofNat 32 (field b 4 4), BitVec.ofNat 32 (field b 16 4), BitVec.ofNat 64 (field b 8 8), 4⟩

/-- The lane slots of a spoil entry, or the places of a tensor's: lane, address, bytes, capacity. -/
abbrev RawLane := Nat × Dword × List Byte × Word

/-- Is the header of a spoil entry within its layout: codes of R80 and R81 that agree, a flag that an instruction can name, a
register, and zeros (R257). -/
def spoilOk (h : List Byte) : Bool :=
  decide (field h 16 1 < 3) && decide (field h 17 1 < 14) && decide (field h 18 1 < 5) &&
  ruleWidthOk (.ofCode (field h 17 1)) (.ofCode (field h 18 1)) && decide (field h 19 1 ≤ 1) &&
  (decide (field h 20 1 < 12) || decide (field h 20 1 = 15)) && zeros h 21 22 && decide (field h 22 2 ≤ 384) && zeros h 24 64

/-- A spoil entry with its places before they are translated. -/
def spoilOf (h : List Byte) (seq sid : Nat) : Spoil :=
  { seq := seq, sid := sid, pc := BitVec.ofNat 64 (field h 0 8), scope := .ofCode (field h 16 1), count := BitVec.ofNat 32 (field h 8 4)
    rule := .ofCode (field h 17 1), width := .ofCode (field h 18 1), v := decide (field h 19 1 = 1), sflag := field h 20 1
    vreg := field h 22 2, lanes := [] }

/-- The bytes of a width. -/
def Width.size (w : Width) : Nat := 2 ^ w.code

/-- The lane slots of an entry of the group's record (R257). -/
def rawSlots (b : List Byte) (e : Spoil) : List RawLane :=
  (maskLanes (BitVec.ofNat 32 (field b 12 4))).map (fun l =>
    let x := sub b (64 + 24 * l) 24
    (l, BitVec.ofNat 64 (field x 0 8), (x.drop 8).take (if e.rule = .cap then 4 else Width.size e.width), BitVec.ofNat 32 (field x 12 4)))

/-- The places of a tensor's entry of the private record. -/
def rawPlaces (b : List Byte) (n : Nat) : List RawLane :=
  (List.range n).map (fun i =>
    let x := sub b (32 * i) 32
    (field x 0 1, BitVec.ofNat 64 (field x 8 8), (x.drop 16).take (field x 1 1), 0))

/-- The spoil entries of a private record: the place of each among all, and the entry with its places. -/
def bigSpoils : Nat → List Byte → Nat → List (Nat × Spoil × List RawLane)
  | 0, _, _ => []
  | k + 1, b, sid =>
    let n := field b 4 4
    (field b 0 4, spoilOf (sub b 8 64) 0 sid, rawPlaces (b.drop 72) n) :: bigSpoils k (b.drop (72 + 32 * n)) sid

/-- Entries put back at their places. -/
def mergeSpoils {α : Type} (bigs : List (Nat × α)) : Nat → List α → Nat → List α
  | 0, _, _ => []
  | k + 1, reg, i => match bigs.find? (fun e => decide (e.1 = i)) with
    | some e => e.2 :: mergeSpoils bigs k reg (i + 1)
    | none => match reg with
      | [] => mergeSpoils bigs k [] (i + 1)
      | x :: xs => x :: mergeSpoils bigs k xs (i + 1)

/-- A place translated as it stands at RESUME; one that no longer translates contributes nothing (log 11). -/
def State.placeLane (s : State) (w : Nat → Who) (e : Spoil) (x : RawLane) : Option SLane :=
  match s.reach (w x.1) (.step e.scope e.rule) x.2.1 x.2.2.1.length 1 with
  | .ok r => some ⟨x.1, x.2.1, r.ipn, r.locs.zip x.2.2.1, x.2.2.2⟩
  | .error _ => none

/-- The pending verdict of a restored entry. -/
def Spoil.pending (e : Spoil) (pid : Nat) : Pending :=
  { Pending.blank e.sflag with pid := pid, seq := e.seq, sid := e.sid, pc := e.pc, kind := .verdict, regs := verdictPend e }

/-- Words put into a group's registers out of 128 bytes each. -/
def regsOf (b : List Byte) (n : Nat) : FMap Word :=
  (List.range n).foldl (fun m r => lanes.foldl (fun m l => sset 0 m (32 * r + l) (BitVec.ofNat 32 (field b (128 * r + 4 * l) 4))) m) []

/-- Is a group record within its layout, but for the parts that have a check of their own: the kind, the registers carried, zeros
(R257). -/
def groupHeadOk (b : List Byte) (nregs : Nat) : Bool :=
  let kind := field b 10 1
  decide (kind ≤ 1) && decide (field b 16 2 = if kind = 0 then 16 else nregs) && zeros b 22 24 && zeros b 28 32 &&
  decide (field b 24 4 < 2 ^ 12) && (decide (kind = 1) || zeros b 24 28)

/-- The counts of exited lanes, and the flags that wait, out of what `Group.laneRec` writes; with the length of it. -/
def lanesOf (b : List Byte) (lids : List Nat) : FMap ExitCounts × List HeldFlags × Nat :=
  let ls := maskLanes (BitVec.ofNat 32 (field b 0 4))
  let n := field b 4 4
  let o := 8 + 12 * ls.length + 4 * (ls.length % 2)
  let w (i : Nat) : Word := BitVec.ofNat 32 (field b i 4)
  ((List.range ls.length).map (fun i => ((ls[i]?).getD 0, ⟨w (8 + 12 * i), w (12 + 12 * i), w (16 + 12 * i)⟩)),
    (List.range n).map (fun i => ⟨field b (o + 8 * i) 1, lids[field b (o + 8 * i + 1) 1]?, ⟨0, 0, true, w (o + 8 * i + 4)⟩⟩),
    o + 8 * n)

/-- A group restored out of its records (R254, R257). A group without a splits record has exited. Its issue numbers go on behind
those of the restored spoil entries and pending updates, so that writer-key order stands (R195, R345). -/
def State.groupOf (s : State) (gr : Grid) (tm : Team) (g0 : Group) (b sb pb : List Byte) : Option Group :=
  let nsp := field sb 10 1 + field sb 11 1 + field sb 12 1
  let nlv := field b 11 1
  let lids := (List.range nlv).map (fun j => nsp + j)
  let oLv := 2080 + 24 * nsp
  let oReg := oLv + 472 * nlv
  let oOwed := oReg + 128 * field b 16 2
  let oSpoil := oOwed + 24 * field b 20 2
  let sid := nsp + nlv
  let nreg := field b 18 2
  let oLanes := 16 + 48 * nsp + 64 * nlv
  let (exits, flags, nLanes) := lanesOf (pb.drop oLanes) lids
  let bigs := bigSpoils (field pb 10 2) (pb.drop (oLanes + nLanes)) sid
  let heads := (List.range nreg).map (fun i => sub b (oSpoil + 832 * i) 64)
  let owed := (List.range (field b 20 2)).map (fun i => sub b (oOwed + 24 * i) 24)
  let preempted := (List.range nlv).any (fun j => decide (field b (oLv + 472 * j + 192) 1 = 0x40))
  match splitsOf sb (sub b 2080 (24 * nsp)) (sub pb 16 (48 * nsp)) lids preempted,
      allSome ((List.range nlv).map (fun j => trapLevelOf (sub b (oLv + 472 * j) 472) (sub pb (16 + 48 * nsp + 64 * j) 64) nsp (nsp + j) lids)) with
  | some sps, some lvs =>
    if !groupHeadOk b g0.nregs ∨ b.length < oSpoil + 832 * nreg ∨ !heads.all spoilOk ∨ !owed.all owedOk then none
    else
      let raws := (List.range nreg).map (fun i =>
        let x := sub b (oSpoil + 832 * i) 832
        let e := spoilOf x 0 sid
        (e, rawSlots x e))
      let all := mergeSpoils bigs (nreg + bigs.length) raws 0
      let spoil := (List.range all.length).zipWith (fun i e =>
        { e.1 with seq := i + 1, lanes := e.2.filterMap (s.placeLane (State.who tm g0.tid gr g0 false) e.1) }) all
      let vs := spoil.filter (fun e => e.v)
      some (Group.wake { g0 with
        regs := regsOf (b.drop oReg) (field b 16 2), live := unionMask sps
        sticky := BitVec.ofNat 32 (field b 12 4), stickyBase := BitVec.ofNat 32 (field b 12 4), stickyLog := []
        pend := (List.range vs.length).zipWith (fun i e => e.pending (sid + 1 + i)) vs
        spoil := spoil, owed := owed.map owedOf, heldSticky := flags, exits := exits
        save1 := regsOf (b.drop 32) 16, levels := lvs.map (fun lv => (lv.lid, lv)), splits := sps.map (fun sp => (sp.sid, sp))
        nextId := sid + 1 + vs.length, nextAge := sps.foldl (fun m sp => max m (sp.age + 1)) 1, seq := all.length + tm.upds.length + 1 })
  | _, _ => none

/-! Teams. -/

/-- The record of a team of a type. -/
def teamRec (rs : List Rec) (t n flat : Nat) : Option (List Byte) :=
  (ofType rs t).find? (fun b => decide (field b 0 4 = n) && decide (field b 4 4 = flat))

/-- Tile entries: group, tile, content (R367). -/
def tilesOf : Nat → List Byte → List (Nat × Nat × Tile)
  | 0, _ => []
  | k + 1, b =>
    let f := field b 3 1
    let vals : FMap Word := if f % 2 = 1 then
      (List.range 1024).foldl (fun m i => sset 0 m i (BitVec.ofNat 32 (field b (8 + 4 * i) 4))) [] else []
    (field b 0 2, field b 2 1, ⟨decide (f % 2 = 1), if f / 2 % 2 = 1 then .i32 else .f32, vals⟩) ::
      tilesOf k (b.drop (if f % 2 = 1 then 4104 else 8))

/-- Are the tile entries of a record those of some groups, each with its declared tiles in order, and within their layout
(R367). -/
def tilesOk : List (Nat × Nat) → List Byte → Bool
  | [], _ => true
  | (g, i) :: rest, b =>
    decide (field b 0 2 = g) && decide (field b 2 1 = i) && decide (field b 3 1 < 4) && zeros b 4 8 &&
    tilesOk rest (b.drop (if field b 3 1 % 2 = 1 then 4104 else 8))

/-- Is a handle entry within its layout (R367). -/
def handleOk (b : List Byte) : Bool := decide (field b 0 1 ≤ 1) && zeros b 1 8

/-- A command record (R345): none where a code is none of the layout's, absent when it is free. -/
def cmdOf (b : List Byte) : Option (Option Cmd) :=
  let kind : Option EngKind := match field b 1 1 with
    | 0 => some .cpy
    | 1 => some .cpy2d
    | 2 => some .gth
    | 3 => some .sct
    | 4 => some .zfill
    | _ => none
  match field b 0 1, kind with
  | 0, _ => some none
  | 3, some k =>
    if field b 3 1 ≥ 128 ∨ field b 3 1 % 16 > 13 ∨ field b 3 1 % 16 = 7 ∨ field b 3 1 / 16 > 4 ∨ field b 4 1 > 3 ∨
        !ruleWidthOk (.ofCode (field b 3 1 % 16)) (.ofCode (field b 3 1 / 16)) ∨ field b 2 1 ≥ 32 then none
    else some (some
      { st := .cancelled, kind := k, ctr := field b 2 1, rule := .ofCode (field b 3 1 % 16), width := .ofCode (field b 3 1 / 16)
        hint := .ofCode (field b 4 1), lane := field b 5 1, group := field b 6 2, pc := BitVec.ofNat 64 (field b 8 8)
        order := field b 16 4, count := field b 20 4, dst := BitVec.ofNat 64 (field b 24 8), src := BitVec.ofNat 64 (field b 32 8)
        n := field b 40 4, rows := field b 44 4, dstride := sextNat 32 (field b 48 4), sstride := sextNat 32 (field b 52 4)
        mask := BitVec.ofNat 32 (field b 56 4)
        addrs := lanes.foldl (fun m l => if field b (64 + 8 * l) 8 = 0 then m else fset m l (BitVec.ofNat 64 (field b (64 + 8 * l) 8))) []
        units := [], writes := [], err := false })
  | _, _ => none

/-- A pending update (R345). -/
def updOf (b : List Byte) (ord : Nat) : Option Upd :=
  let kind : Option UpdKind := match field b 0 1 with
    | 0 => some .tagset
    | 1 => some .tagclr
    | 2 => some .ctrset
    | _ => none
  kind.map (fun k => ⟨k, field b 2 2, BitVec.ofNat 32 (field b 4 4), BitVec.ofNat 64 (field b 8 8), field b 16 2, field b 18 1, ord⟩)

/-- Values put at their indices in a map, the default left out. -/
def listed {α : Type} [DecidableEq α] (d : α) (xs : List α) : FMap α := (List.range xs.length).zip xs |>.filter (fun e => decide (e.2 ≠ d))

/-- A team with what its records hold (R258, R345, R367): those of an ended one still list the handles that its grid declares. -/
def teamOf (rs : List Rec) (n : Nat) (gr : Grid) (t : Team) (tiles : List (Nat × Nat)) (landed : Nat) : Option Team :=
  match teamRec rs 0x30 n t.flat, teamRec rs 0x31 n t.flat, teamRec rs 0x32 n t.flat, teamRec rs 0x33 n t.flat with
  | some p, some tb, some h, some e =>
    let spad := field p 8 4
    let hs := (List.range (field h 8 4)).map (fun i => sub h (16 + 136 * i) 136)
    let us := (List.range (field e 12 4)).map (fun i => updOf (sub e (5648 + 24 * i) 24) i)
    match allSome ((List.range 16).map (fun i => cmdOf (sub e (528 + 320 * i) 320))), allSome us with
    | some cs, some upds =>
      if field p 12 1 > 1 ∨ !zeros p 13 16 ∨ spad ≠ gr.spad ∨ p.length < 16 + spad + spad / 512 ∨
          field tb 8 4 ≠ tiles.length ∨ !zeros tb 12 16 ∨ !tilesOk tiles (tb.drop 16) ∨
          field h 8 4 ≠ gr.nhandles ∨ !zeros h 12 16 ∨ !hs.all handleOk then none
      else some { t with
        spad := listed 0 (sub p 16 spad)
        tags := listed 0 ((List.range (spad / 4096)).map (fun i => BitVec.ofNat 64 (field p (16 + spad + 8 * i) 8)))
        ctrs := listed 0 ((List.range 32).map (fun k =>
          BitVec.ofNat 34 (field e (16 + 16 * k) 4 + field e (20 + 16 * k) 4 * 2 ^ 32)))
        cmds := ((List.range 16).zip cs).filterMap (fun x => x.2.map (fun c => (x.1, c)))
        order := field e 8 4, upds := upds, landed := BitVec.ofNat 32 landed, ended := decide (field p 12 1 = 1)
        handles := ((List.range hs.length).zip hs).filterMap (fun x =>
          let w := listed 0 ((List.range 32).map (fun k => BitVec.ofNat 32 (field x.2 (8 + 4 * k) 4)))
          if field x.2 0 1 = 0 ∧ w = [] then none else some (x.1, ⟨decide (field x.2 0 1 = 1), w⟩)) }
    | _, _ => none
  | _, _, _, _ => none

/-- The groups of a restored team put into the device, from group i on. -/
def State.addGroups (s : State) (rs : List Rec) (n : Nat) (gr : Grid) (tid : Nat) (tm : Team)
    (tiles : List (Nat × Nat × Tile)) : Nat → List Held → Option State
  | _, [] => some s
  | i, h :: hs =>
    let g0 : Group := { Group.blank tid i h with
      birth := s.nextGroup, tiles := (tiles.filter (fun t => decide (t.1 = i))).map (fun t => (t.2.1, t.2.2)) }
    let g : Option Group := match groupRec (ofType rs 0x20) n tm.flat i with
      | none => some g0
      | some b => s.groupOf gr tm g0 b ((groupRec (ofType rs 0x21) n tm.flat i).getD []) ((groupRec (ofType rs 0x8001) n tm.flat i).getD [])
    match g with
    | none => none
    | some g => ({ (s.setGroup s.nextGroup g) with nextGroup := s.nextGroup + 1 } : State).addGroups rs n gr tid tm tiles (i + 1) hs

/-- A team restored on the first core of the new partition that holds it (R134, R137, R254): an error, or the state and the
grid with its core noted. Teams of a gang are placed one by one, without the condition of R139 on their clusters: DESIGN CHOICE,
for no rule says that restored teams must meet it again (log 63). -/
def State.addTeam (s : State) (rs : List Rec) (n gid flat landed : Nat) (gr : Grid) : Except Nat (State × Grid) :=
  let slice := flat / gr.teams
  let ended := (match teamRec rs 0x30 n flat with
    | some p => decide (field p 12 1 = 1)
    | none => false)
  let need : Grid := if ended then { gr with groups := 0, nhandles := 0 } else gr
  match s.res.placeTeam (s.ctx gr.ctx).quads need slice (fget gr.lastCore slice) with
  | none => .error 0x0A
  | some (_, sp) =>
    let tiles := (List.range sp.held.length).flatMap (fun g =>
      (List.range (((sp.held[g]?).map (·.ntiles)).getD 0)).map (fun i => (g, i)))
    match teamOf rs n gr (Team.born gid need slice (flat % gr.teams) sp) tiles landed with
    | none => .error 7
    | some t =>
      let tid := s.nextTeam
      let t1 := { t with flat := flat }
      let tb := (teamRec rs 0x31 n flat).getD []
      match ({ (s.setTeam tid t1) with nextTeam := tid + 1 } : State).addGroups rs n gr tid t1 (tilesOf (field tb 8 4) (tb.drop 16)) 0 sp.held with
      | none => .error 7
      | some s1 => .ok (s1, { gr with lastCore := fset gr.lastCore slice sp.core })

/-! Grids. -/

/-- A late error of a grid entry (R128). -/
def lateOf (b : List Byte) : Option LateError :=
  if field b 35 1 % 2 = 0 then none
  else some ⟨field b 16 8, field b 24 4, field b 28 4, field b 32 2, field b 34 1, field b 35 1 / 2 % 4⟩

/-- A grid out of its entry and its private record. -/
def gridFrom (c : Nat) (b p : List Byte) : Grid :=
  let dies := field p 40 4
  { ctx := c, queue := field b 0 2, seqNo := field b 4 4, image := field p 8 8, kernel := field p 4 4, dies := dies
    teams := field p 44 4, residency := field p 48 1 % 4, gang := field p 49 1, groups := field p 50 2, prod := field p 52 2
    pregs := field p 54 2, cregs := field p 56 2, ptiles := field p 58 1, ctiles := field p 59 1, nhandles := field p 60 4
    order := List.range 48, spad := field p 64 4, entry := BitVec.ofNat 64 (field p 24 8), rodata := BitVec.ofNat 64 (field p 32 8)
    args := BitVec.ofNat 64 (field p 16 8), crec := BitVec.ofNat 64 (field b 8 8), det := decide (field b 2 1 = 1)
    fnver := field b 3 1, irq := decide (field b 37 1 % 2 = 1), vector := field b 36 1
    nextTeam := listed 0 ((List.range dies).map (fun d => field p (80 + 8 * d) 4)), lastCore := []
    landedD := listed 0 ((List.range dies).map (fun d => BitVec.ofNat 32 (field p (84 + 8 * d) 4)))
    landedG := BitVec.ofNat 32 (field p 68 4), exitG := if field p 48 1 / 4 = 1 then some (BitVec.ofNat 32 (field p 72 4)) else none, late := lateOf b }

/-- The address of a grid's kernel declaration and variants in its image (R132). -/
def declAt (gr : Grid) : Nat := gr.image + 64 + 576 * gr.kernel

/-- The order of the variant that the new partition selects (R134). It is the identity where the image no longer reads, and where
no variant has the new signature or 0: DESIGN CHOICE, for R134 refuses launches there and says nothing of a RESUME (log 15). -/
def State.orderFor (s : State) (c : Nat) (gr : Grid) : List Nat :=
  match s.devRead c (declAt gr) 576 with
  | none => List.range 48
  | some e => match pickVariant e (s.ctx c).sig.toNat with
    | some i => if variantOk e i then variantOrder e i else List.range 48
    | none => List.range 48

/-- The teams of a grid restored, with the boundaries that each has landed. -/
def State.addTeams (s : State) (rs : List Rec) (n gid : Nat) (gr : Grid) : List (Nat × Nat) → Except Nat (State × Grid)
  | [] => .ok (s, gr)
  | (flat, landed) :: rest => match s.addTeam rs n gid flat landed gr with
    | .error e => .error e
    | .ok (s1, gr1) => s1.addTeams rs n gid gr1 rest

/-- The grids of an area restored in order, from grid number n on. -/
def State.addGrids (s0 : State) (rs : List Rec) (c : Nat) : Nat → List (List Byte) → Except Nat State
  | _, [] => .ok s0
  | n, b :: bs => match (ofType rs 0x8000).find? (fun p => decide (field p 0 4 = n)) with
    | none => .error 7
    | some p =>
      let g0 := gridFrom c b p
      if g0.teams = 0 ∨ p.length < 80 + 8 * g0.dies + 8 * field p 76 4 then .error 7
      else
        let s := s0.devSeen c (declAt g0) 576
        let gr := { g0 with order := s.orderFor c g0 }
        let gid := s.nextGrid
        let ts := (List.range (field p 76 4)).map (fun i => (field p (80 + 8 * g0.dies + 8 * i) 4, field p (84 + 8 * g0.dies + 8 * i) 4))
        match ({ (s.setGrid gid gr) with nextGrid := gid + 1 } : State).addTeams rs n gid gr ts with
        | .error e => .error e
        | .ok (s1, gr1) => (s1.setGrid gid gr1).addGrids rs c (n + 1) bs

/-! Registers, queues, private bytes (R109, R126, R128). -/

/-- The `ku_` and `ks_` registers of a context out of its record (log 10): they stand before and behind the split
registers. -/
def Ctx.withRegs (x : Ctx) (b : List Byte) (handlers : Nat) : Ctx :=
  let r (i : Nat) : Nat := field b (8 * (if i < 3 then i else i + savedSplitRegs.length * handlers)) 8
  { x with
    pdet := bit (r 0) 8, pver := bits (r 1) 11 8, swip := bit (r 2) 8, tvec := BitVec.ofNat 64 (r 3), pvec := BitVec.ofNat 64 (r 4)
    ptbase := BitVec.ofNat 64 (r 5), scring := BitVec.ofNat 64 (r 6), scsize := BitVec.ofNat 32 (r 7) }

/-- How many handler splits the register record lists: the levels of groups saved whole that have one. -/
def handlerCount (rs : List Rec) : Nat :=
  ((ofType rs 0x20).map (fun b =>
    let sb := (groupRec (ofType rs 0x21) (field b 0 4) (field b 4 4) (field b 8 2)).getD []
    let o := 2080 + 24 * (field sb 10 1 + field sb 11 1 + field sb 12 1)
    if field b 10 1 = 0 then 0
    else ((List.range (field b 11 1)).filter (fun j => decide (field b (o + 472 * j + 204) 1 ≠ 255))).length)).sum

/-- The body length that this firmware knows of a record (R110). -/
def knownLen (rs : List Rec) (r : Rec) : Nat :=
  let b := r.body
  match r.type with
  | 0x01 => 40
  | 0x10 => 8 * (17 + savedSplitRegs.length * handlerCount rs)
  | 0x20 =>
    let sb := (groupRec (ofType rs 0x21) (field b 0 4) (field b 4 4) (field b 8 2)).getD []
    2080 + 24 * (field sb 10 1 + field sb 11 1 + field sb 12 1) + 472 * field b 11 1 + 128 * field b 16 2 + 24 * field b 20 2 +
      832 * field b 18 2
  | 0x21 => 16 + 192 * (field b 10 1 + field b 11 1 + field b 12 1)
  | 0x30 => 16 + field b 8 4 + field b 8 4 / 512
  | 0x31 => 16 + ((tilesOf (field b 8 4) (b.drop 16)).map (fun t => if t.2.2.valid then 4104 else 8)).sum
  | 0x32 => 16 + 136 * field b 8 4
  | 0x33 => 5648 + 24 * field b 12 4
  | 0x40 => 16 + 40 * field b 12 4
  | 0x50 => 16
  | _ => b.length

/-- What the next save puts back unchanged: records of unknown types, and the tails of newer minors (R110). The grids of the area
become those from `first` on. -/
def keptOf (rs : List Rec) (first : Nat) : List KeptRec :=
  rs.filterMap (fun r =>
    if !knownType r.type then some ⟨r.type, r.major, r.minor, (0, 0, 0), r.body⟩
    else if r.minor > 0 ∧ r.type ≠ 0 then some ⟨r.type, r.major, r.minor, r.owner (first + ·), r.body.drop (knownLen rs r)⟩
    else none)

/-- The queues after a restore (R126): those that were met, with the records that are complete although not all before
them are; the descriptors are seen again. -/
def restoredQueues (x : Ctx) (qb : List Byte) (owed : List (Nat × Nat)) : FMap Queue :=
  (List.range (qb.length / 16)).foldl (fun m i =>
    let n := field qb (16 * i) 4
    let ridx := field qb (16 * i + 4) 4
    let done := field qb (16 * i + 8) 4
    let count := (ridx + 2 ^ 32 - done) % 2 ^ 32
    let seqs := (List.range count).map (fun k => (done + k) % 2 ^ 32)
    let base := (fget x.queues n).getD (Queue.ofDesc [])
    fset m n { base with
      st := if field qb (16 * i + 12) 4 = 1 then .error else .disabled
      ridx := BitVec.ofNat 32 ridx, done := BitVec.ofNat 32 done, head := none
      complete := seqs.filter (fun k => !owed.contains (n, k)) }) []

/-- The private bytes of a context that its lanes have written. -/
def State.withPriv (s : State) (c : Nat) (b : List Byte) : State :=
  (List.range (b.length / 16)).foldl (fun (t : State) i =>
    t.markPriv (privKey c (field b (16 * i) 4) (field b (16 * i + 4) 4)) (field b (16 * i + 8) 8))
    { s with priv := fdelRange s.priv (privKey c 0 0) (privKey (c + 1) 0 0) }

/-! An area of another firmware. What its records leave out, and this firmware keeps in records of its own, is found again in
the context's memory: in the code, in the queue's ring and in the image (log 10). -/

/-- The instruction at a PC of a context. -/
def State.instrAt (s : State) (c : Nat) (pc : Dword) : Option Instr :=
  match s.fetchLine c false pc with
  | .ok (line, _) => decodeSlot (lineSlot line (pc.toNat % 64 / 12))
  | .error _ => none

/-- The private bytes of a split entry: what it is parked on and its loop's body are those of the instructions at its PCs, and
a split at a boundary waits for all that its counts name. `reg` reads a saved register of a lane. -/
def State.guessSplit (s : State) (c : Nat) (b : List Byte) (sbase level : Nat) (reg : Nat → Nat → Nat) (stack : Nat) : List Byte :=
  let w (o : Nat) : Word := BitVec.ofNat 32 (field b o 4)
  let st : SplitState := match field b 36 1, s.instrAt c (BitVec.ofNat 64 (field b 8 8)) with
    | 2, _ => .boundary .g
    | 4, some (.yieldc _ x a ctr m) => .parked x ctr (BitVec.ofNat 32 (reg a (lowestLane (w 0)))) m (match x with
        | .t => w 24
        | .d => w 28
        | .g => w 32)
    | 4, _ => .parked .t 0 0 0 (w 24)
    | _, _ => .ready
  let loop : Option LoopSt := match s.instrAt c (BitVec.ofNat 64 (field b 40 8)) with
    | some (.loop _ _ len x y z) | some (.loopr _ _ len x y z) => some ⟨0, 0, 0, len, x, y, z⟩
    | _ => none
  Split.privateBytes { Split.born 0 with sbase := sbase, held := List.replicate stack ⟨0, 0, 0⟩, st := st, loop := loop } level

/-- The private record of a group: a handler split has the level that names its entry, and its stack lies above that of the
split it left. -/
def State.guessGroup (s : State) (c : Nat) (b sb : List Byte) : List Byte :=
  let res := field sb 10 1
  let nsp := res + field sb 11 1 + field sb 12 1
  let nlv := field b 11 1
  let lvl (j : Nat) : List Byte := sub b (2080 + 24 * nsp + 472 * j) 472
  let reg (r l : Nat) : Nat :=
    if r < field b 16 2 then field b (2080 + 24 * nsp + 472 * nlv + 128 * r + 4 * l) 4 else 0
  let split (i : Nat) : List Byte :=
    let e := sub sb (16 + 192 * i) 192
    let j := (List.range nlv).find? (fun j => decide (field (lvl j) 204 1 = i))
    let base := match j with
      | some j => field (lvl j) 38 1
      | none => 0
    s.guessSplit c e base (j.getD 255) reg (entryStack e (decide (i ≥ res + field sb 12 1)))
  let level (j : Nat) : List Byte :=
    let e := lvl j
    leBytes 4 (bitOf (decide (field b 10 1 = 0) && decide (field e 192 1 = 0x40))) ++ zeroBytes 4 ++ leBytes 8 (field e 208 8) ++
    s.guessSplit c e 0 255 reg (entryStack e false)
  sub b 0 10 ++ zeroBytes 2 ++ leBytes 2 nsp ++ leBytes 2 nlv ++ (List.range nsp).flatMap split ++
  (List.range nlv).flatMap level ++ zeroBytes 8

/-- The boundary of a scope that had landed, by the counts of split entries: that of a split which waits for none, otherwise
the one before the least. -/
def landedBy (es : List (List Byte)) (o : Nat) : Nat :=
  let w (e : List Byte) : Nat := field e o 4
  match es.find? (fun e => decide (field e 36 1 ≠ 2) && decide (field e 36 1 ≠ 4)) with
  | some e => w e
  | none => ((leastOf (es.map w)).getD 1) - 1

/-- The split entries of the groups of a grid that a test on the flat team index selects. -/
def entriesOf (rs : List Rec) (n : Nat) (p : Nat → Bool) : List (List Byte) :=
  ((ofType rs 0x21).filter (fun b => decide (field b 0 4 = n) && p (field b 4 4))).flatMap (fun b =>
    (List.range (field b 10 1 + field b 11 1 + field b 12 1)).map (fun i => sub b (16 + 192 * i) 192))

/-- The grid of an entry as the records of its teams and groups show it, where its launch no longer reads: one die slice of the
teams and groups that there are, with the registers, tiles, handles and scratchpad of each. The registers of a group saved by
flashback reach as far as its maps; the code and arguments are unknown (log 10). -/
def bareGrid (c : Nat) (rs : List Rec) (n : Nat) (b : List Byte) : Grid :=
  let mine (t : Nat) : List (List Byte) := (ofType rs t).filter (fun p => decide (field p 0 4 = n))
  let most (xs : List Nat) : Nat := xs.foldl max 0
  let regsOf1 (p : List Byte) : Nat :=
    if field p 10 1 = 1 then field p 16 2
    else
      let sb := (groupRec (ofType rs 0x21) n (field p 4 4) (field p 8 2)).getD []
      let top := most ((List.range (field sb 10 1 + field sb 11 1 + field sb 12 1)).map (fun i => field p (2080 + 24 * i + 16) 2 + 32))
      ([32, 48, 64, 96, 128, 192, 256].find? (fun k => decide (top ≤ k))).getD 384
  let regs (i : Nat) : Nat := max 32 (most (((mine 0x20).filter (fun p => decide (field p 8 2 = i))).map regsOf1))
  let tiles (i : Nat) : Nat := most ((mine 0x31).map (fun p =>
    ((tilesOf (field p 8 4) (p.drop 16)).filter (fun t => decide (t.1 = i))).length))
  let groups := max 1 (most ((mine 0x20).map (fun p => field p 8 2 + 1)))
  let last := groups - 1
  { gridOf c (field b 0 2) (field b 4 4) Ctx.reset [] [] [] 0 [] with
    dies := 1, teams := max 1 (most ((mine 0x30).map (fun p => field p 4 4 + 1))), gang := 1, groups := groups
    prod := ((List.range groups).takeWhile (fun i => decide (regs i = regs 0) && decide (tiles i = tiles 0))).length
    pregs := regs 0, cregs := regs last, ptiles := tiles 0, ctiles := tiles last
    nhandles := most ((mine 0x32).map (fun p => field p 8 4)), spad := most ((mine 0x30).map (fun p => field p 8 4)) }

/-- The address of the record of an entry in its ring, whose descriptor is given. -/
def entryAt (d b : List Byte) : Nat := field d 0 8 + 128 * (field b 4 4 % 2 ^ field d 8 4)

/-- The grid of an entry as its launch, read again from the ring and the image, gives it. -/
def State.relaunched (s : State) (c : Nat) (b : List Byte) : Option Grid :=
  match s.desc c (field b 0 2) with
  | none => none
  | some d => match s.devRead c (entryAt d b) 128 with
    | none => none
    | some rec => (s.readImage c (field rec 0 8)).map (fun image =>
        gridOf c (field b 0 2) (field b 4 4) (s.ctx c) rec image (kernelEntry image (field rec 8 4)) 0 [])

/-- What a relaunch of an entry reads is read. -/
def State.relaunchSeen (s0 : State) (c : Nat) (b : List Byte) : State :=
  let s := s0.descSeen c (field b 0 2)
  match s.desc c (field b 0 2) with
  | none => s
  | some d =>
    let s1 := s.devSeen c (entryAt d b) 128
    match s1.devRead c (entryAt d b) 128 with
    | none => s1
    | some rec => s1.imageSeen c (field rec 0 8)

/-- The private record of a grid: its launch is read again, or told from the records of its teams; the teams of the area were
placed, and those after them were not. -/
def State.guessGrid (s : State) (c : Nat) (rs : List Rec) (n : Nat) (b : List Byte) : List Byte :=
  let g0 := (s.relaunched c b).getD (bareGrid c rs n b)
  let flats := ((ofType rs 0x30).filter (fun p => decide (field p 0 4 = n))).map (fun p => field p 4 4)
  let slice (k : Nat) (f : Nat) : Bool := decide (f / g0.teams = k)
  let w (x : Nat) : Word := BitVec.ofNat 32 x
  let gr : Grid := { g0 with
    nextTeam := (List.range g0.dies).map (fun k =>
      (k, if g0.residency = 3 then g0.teams else ((flats.filter (slice k)).map (fun f => f % g0.teams + 1)).foldl max 0))
    landedD := (List.range g0.dies).map (fun k => (k, w (landedBy (entriesOf rs n (slice k)) 28)))
    landedG := w (landedBy (entriesOf rs n (fun _ => true)) 32) }
  gr.privateRec n (flats.map (fun f =>
    { Team.born 0 gr 0 f ⟨0, 0, []⟩ with flat := f, landed := w (landedBy (entriesOf rs n (fun x => decide (x = f))) 24) }))

/-- The record of the queues that launched grids: their indices as their descriptors give them. -/
def State.guessQueues (s : State) (c : Nat) (entries : List (List Byte)) : List Byte :=
  (distinct (entries.map (fun b => field b 0 2))).flatMap (fun n =>
    let q := Queue.ofDesc ((s.desc c n).getD [])
    leBytes 4 n ++ leBytes 4 q.ridx.toNat ++ leBytes 4 q.done.toNat ++ zeroBytes 4)

/-- The records of an area with those of this firmware that are missing. -/
def State.fillPrivate (s : State) (c : Nat) (rs : List Rec) (entries : List (List Byte)) : List Rec :=
  let grids := (List.range entries.length).filterMap (fun n =>
    if (ofType rs 0x8000).any (fun p => decide (field p 0 4 = n)) then none
    else some (Rec.own 0x8000 (s.guessGrid c rs n (entries.getD n []))))
  let groups := (ofType rs 0x20).filterMap (fun b =>
    if (groupRec (ofType rs 0x8001) (field b 0 4) (field b 4 4) (field b 8 2)).isSome then none
    else some (Rec.own 0x8001 (s.guessGroup c b
      ((groupRec (ofType rs 0x21) (field b 0 4) (field b 4 4) (field b 8 2)).getD []))))
  rs ++ grids ++ groups

/-- Everything restored from the records of an area into a context whose groups are gone (R254). -/
def State.restore (s : State) (c : Nat) (rs : List Rec) : Except Nat State :=
  match ofType rs 0x10, ofType rs 0x40, ofType rs 0x50 with
  | rb :: _, qb :: _, _ :: _ =>
    let n := field qb 12 4
    let entries := (List.range n).map (fun i => sub qb (16 + 40 * i) 40)
    let owed := entries.map (fun b => (field b 0 2, field b 4 4))
    let x := (s.ctx c).withRegs rb (handlerCount rs)
    let x1 := { x with qtBase := BitVec.ofNat 64 (field qb 0 8), qtCount := field qb 8 4, kept := keptOf rs s.nextGrid }
    let y := { x1 with
      queues := restoredQueues x1 (((ofType rs 0x8002).head?).getD ((s.setCtx c x1).guessQueues c entries)) owed }
    let s0 := (s.setCtx c y).withPriv c (((ofType rs 0x8003).head?).getD [])
    let read := (List.range n).filter (fun i => !(ofType rs 0x8000).any (fun p => decide (field p 0 4 = i)))
    let s1 := read.foldl (fun (t : State) i => t.relaunchSeen c (entries.getD i [])) (if (ofType rs 0x8002) = [] then
      entries.foldl (fun (t : State) b => t.descSeen c (field b 0 2)) s0 else s0)
    if qb.length < 16 + 40 * n then .error 7 else s1.addGrids (s1.fillPrivate c rs entries) c 0 entries
  | _, _, _ => .error 7

end Sys2Proof.Machine
end

