-- ==== Sys2Proof/Machine/Preempt.lean ====
section
/-! DEFINITION. Pre-emption by flashback or whole, and RESUME (spec 05_context R107, R112, R113, R395, 06_queue R126,
11_traps R249-R255). -/
namespace Sys2Proof.Machine

/-- The context of a group. -/
def State.groupCtx (s : State) (g : Group) : Option Nat :=
  ((fget s.teams g.tid).bind (fun t => fget s.grids t.grid)).map (·.ctx)

/-- Where a waiting split goes on (R249). -/
def Split.continuation (sp : Split) : Option Dword :=
  match sp.st with
  | .boundary _ => some sp.pc
  | .parked _ _ _ _ _ => some sp.advance.pc
  | .join => some sp.rejoin
  | .ready | .flags _ | .own | .drain => none

/-- The flashback point that the continuation of a waiting split is, if it is an `fbp` (R249). -/
def State.contFbp (s : State) (c : Nat) (sp : Split) : Option FlashPt :=
  match sp.continuation with
  | none => none
  | some pc => match s.fetchLine c true pc with
    | .error _ => none
    | .ok (line, _) => match decodeSlot (lineSlot line (pc.toNat % 64 / 12)) with
      | some (.fbp _ base stub map) => some ⟨pc, base, BitVec.ofNat 32 map, Target.pcFrom stub pc⟩
      | _ => none

/-- Where a split stops under a request: at its open window, or as it waits before an `fbp` (R249). -/
def State.stopPoint (s : State) (c : Nat) (sp : Split) : Option FlashPt :=
  match sp.window with
  | some w => some ⟨w.pc, w.base, w.map, w.stub⟩
  | none => s.contFbp c sp

/-- Does a split wait where no `fbp` follows, so that its group is saved whole (R249). -/
def State.waitsElsewhere (s : State) (c : Nat) (sp : Split) : Bool :=
  sp.window.isNone && sp.continuation.isSome && (s.contFbp c sp).isNone

/-- Does a group hold a handler split. -/
def Group.handled (g : Group) : Bool := g.splits.any (fun e => decide (e.2.tdepth > 0))

/-! Rewinding (R250). -/

/-- Was something issued in the open window of its split, so that a rewind discards it. -/
def Group.inWindow (g : Group) (sid seq : Nat) : Bool :=
  match (fget g.splits sid).bind (·.window) with
  | some w => decide (seq ≥ w.since)
  | none => false

/-- Every split with an open window rewound (R250). -/
def Group.rewind (g : Group) : Group :=
  let w : Word := replaySticky g.stickyBase (g.stickyLog.filter (fun e => !g.inWindow e.sid e.seq))
  let g1 := { g with
    spoil := g.spoil.filter (fun e => !g.inWindow e.sid e.seq), pend := g.pend.filter (fun p => !g.inWindow p.sid p.seq)
    far := [], heldSticky := g.heldSticky.filter (fun x => !g.inWindow x.event.sid x.event.seq)
    sticky := if g.anyWindow then w else g.sticky, stickyBase := if g.anyWindow then w else g.sticky, stickyLog := []
    splits := fmapV (fun _ sp => match sp.window with
      | some x => { sp with
          pc := x.pc, loop := x.loop, window := none, flash := some ⟨x.pc, x.base, x.map, x.stub⟩, st := .ready, entered := true }
      | none => sp) g.splits }
  g1.settle.wake

/-! The pre-emption handler (R251, R253). -/

/-- The designated group of a team: its lowest-indexed group with a live lane (R253). -/
def State.designated (s : State) (tid : Nat) : Option Nat :=
  leastOf (((s.teamGroups tid).filter (fun e => decide (e.2.live ≠ 0))).map (fun e => e.2.idx))

/-- The value that `ks_tval` shows a lane: base register and map of its split's flashback point (R240). -/
def Group.flashWord (g : Group) (l : Nat) : Dword :=
  match (g.splits.find? (fun e => e.2.mask.getLsbD l)).bind (fun e => e.2.flash) with
  | some f => BitVec.ofNat 64 (f.base * 2 ^ 32 + f.map.toNat)
  | none => 0

/-- A split as a pre-emption freezes it: one that waits at a join or is parked has arrived at the next boundary of every
scope, and keeps that while the handler stands for its lanes (R186). -/
def Split.freeze (sp : Split) : Split :=
  match sp.st with
  | .join | .parked _ _ _ _ _ => { sp with frozen := true, blank := ⟨sp.mask, sp.mask, sp.mask⟩ }
  | _ => { sp with frozen := true }

/-- The pre-emption handler split of every live lane, beside the frozen splits (R251). -/
def Group.enterPreempt (g : Group) (pvec : Dword) (sub : Nat) : Group :=
  let sid := g.nextId
  let sps := g.splits.map (·.2)
  let first := sps.headD (Split.born 0)
  let h : Split :=
    { Split.born pvec with
      sid := sid, mask := g.live, mode := .sup, tdepth := 1, sbase := sps.foldl (fun m sp => max m (sp.sbase + sp.depth)) 0
      ct := sps.foldl (fun m sp => countMax m sp.ct) first.ct, cd := sps.foldl (fun m sp => countMax m sp.cd) first.cd
      cg := sps.foldl (fun m sp => countMax m sp.cg) first.cg, age := g.nextAge, place := .ninth, lv := some (sid + 1)
      lastIssue := g.seq }
  let lvl : TrapLevel :=
    { lid := sid + 1, ret := none, cause := 0x40, sub := sub, from_ := .user, epc := 0, resume := 0
      tval := (maskLanes g.live).foldl (fun m l => fset m l (g.flashWord l)) [], lmask := g.live, amask := 0, hflags := 0, idled := false }
  { (g.save1st (maskLanes g.live)) with
    splits := fset (fmapV (fun _ sp => sp.freeze) g.splits) sid h, levels := fset g.levels (sid + 1) lvl
    nextId := sid + 2, nextAge := g.nextAge + 1, mark := .handler }

/-- The flashback points at which the waiting splits of a group stop. -/
def State.markStops (s : State) (c : Nat) (g : Group) : Group :=
  { g with splits := fmapV (fun _ sp => match sp.window with
      | some _ => sp
      | none => { sp with flash := s.contFbp c sp }) g.splits }

/-- Is a group held by a compaction, which completes before the group stops (R143, R256). -/
def State.moves (s : State) (gid : Nat) : Bool := s.compacts.any (fun e => e.2.gids.contains gid)

/-- PREEMPTION_FREEZE (R251): every split of the group has stopped. -/
def execPreemptionFreeze (gid : Nat) (s : State) : Host.Outcome State Fault Refusal :=
  event s (fun s => match fget s.groups gid with
    | none => none
    | some g => match s.groupCtx g with
      | none => none
      | some c =>
        let sps := g.splits.map (·.2)
        if g.mark ≠ .stopping false ∨ g.live = 0 ∨ g.handled ∨ s.moves gid ∨ !sps.all (fun sp => (s.stopPoint c sp).isSome) then none
        else
          let sub := if s.designated g.tid = some g.idx then 1 else 0
          some (s.setGroup gid (((s.markStops c g).rewind).enterPreempt (s.ctx c).pvec sub)))

/-- PREEMPTION_TIMEOUT (R249): a group that has not stopped 20 µs after the request is saved whole. -/
def execPreemptionTimeout (gid : Nat) (s : State) : Host.Outcome State Fault Refusal :=
  event s (fun s => match fget s.groups gid with
    | none => none
    | some g => match s.groupCtx g with
      | none => none
      | some c =>
        if g.mark = .stopping false ∧ s.time ≥ (s.ctx c).reqTime + 20000 ∧ !(g.splits.all (fun e => (s.stopPoint c e.2).isSome)) then
          some (s.setGroup gid { g with mark := .stopping true })
        else none)

/-- FULL_SAVE (R249, R255): a group that is to be saved whole stops; once its results but verdicts are complete, and a
compaction that holds it (R256), it is saved at its instruction boundaries. -/
def execFullSave (gid : Nat) (s : State) : Host.Outcome State Fault Refusal :=
  event s (fun s => match fget s.groups gid with
    | none => none
    | some g => match g.mark, s.groupCtx g with
      | .stopping false, some c =>
        if g.handled || g.splits.any (fun e => s.waitsElsewhere c e.2) then some (s.setGroup gid { g with mark := .stopping true }) else none
      | .stopping true, some _ =>
        if !s.moves gid && g.pend.all (fun p => decide (p.kind = .verdict)) then some (s.setGroup gid { g with mark := .savedWhole }) else none
      | _, _ => none)

/-- Is a group saved, or has it exited (R253). -/
def Group.isSaved (g : Group) : Bool := decide (g.live = 0) || decide (g.mark = .idled) || decide (g.mark = .savedWhole)

/-- TEAM_SAVE (R253): every group is saved, and every result but verdicts is complete, for no record carries one that is still
to come (R257, R367); the engines are quiesced. -/
def execTeamSave (tid : Nat) (s : State) : Host.Outcome State Fault Refusal :=
  event s (fun s => match fget s.teams tid with
    | none => none
    | some t => match (fget s.grids t.grid).map (·.ctx) with
      | none => none
      | some c =>
        let gs := (s.teamGroups tid).map (·.2)
        if (s.ctx c).stop ≠ .preempt ∨ t.saved ∨ !gs.all Group.isSaved ∨ gs.any (fun g => g.pend.any (fun p => decide (p.kind ≠ .verdict))) ∨
            s.landings.any (fun l => l.teams.any (fun e => decide (e.2 = tid))) then none
        else some (s.setTeam tid { t.quiesce with saved := true }))

/-! PREEMPT (R107, R126, R249). -/

/-- The groups of a context with a live lane. -/
def State.liveGroups (s : State) (c : Nat) : List (Nat × Group) :=
  s.groups.filter (fun e => decide (s.groupCtx e.2 = some c) && decide (e.2.live ≠ 0))

/-- Has the request reached every slot and every group of a context. -/
def State.requested (s : State) (c : Nat) : Bool :=
  s.slots.all (fun e => decide (e.2.ctx ≠ c) || decide (e.2.st = .unloading)) && (s.liveGroups c).all (fun e => decide (e.2.mark ≠ .none))

/-- The request reaches the slots, which unload with the record in fetch left unfetched, and the groups (R126, R249). -/
def State.request (s : State) (c : Nat) : State :=
  let x := s.ctx c
  let s1 := s.setCtx c { x with reqTime := s.time, queues := fmapV (fun _ q => { q with head := none }) x.queues }
  { s1 with
    slots := fmapV (fun _ k => if k.ctx = c then { k with st := .unloading } else k) s1.slots
    groups := fmapV (fun _ g => if s.groupCtx g = some c ∧ g.live ≠ 0 ∧ g.mark = .none then { g with mark := .stopping x.swip } else g) s1.groups }

/-- Is everything of a context saved: no slot, no move, nothing landing, every team (R253). -/
def State.allSaved (s : State) (c : Nat) : Bool :=
  s.slots.all (fun e => decide (e.2.ctx ≠ c)) && (fget s.compacts c).isNone && s.cutFree c &&
  s.teams.all (fun e => !(s.ctxGrids c).contains e.2.grid || e.2.saved)

/-- A pre-emption that cannot be written ends with an error, and the groups go on where they stand (log 12). -/
def State.goOn (s : State) (c err : Nat) : State :=
  let s1 := { s with
    groups := fmapV (fun _ g => if s.groupCtx g = some c then
      { g with mark := .none, splits := fmapV (fun _ (sp : Split) => if sp.place = Place.ninth then { sp with frozen := false } else sp) g.splits } else g) s.groups
    teams := fmapV (fun _ (t : Team) => if (s.ctxGrids c).contains t.grid then { t with saved := false } else t) s.teams }
  s1.endCmd c err

/-- The last round of a final stop: the next snapshot and its delta pages (R107, R290). -/
def State.finalRound (s : State) (c : Nat) : State :=
  let (s1, pages) := s.snapshot c
  s1.beginRound c pages true

/-- The save area written and the partition released; a migration goes on to its last round (R107). -/
def State.writeArea (s : State) (c : Nat) : State :=
  let x := s.ctx c
  let bs := s.area c
  if bs.length > x.salen.toNat then s.goOn c 8
  else
    let s1 := (s.writeBytes s.fwKey x.sarea.toNat bs).dropTeams c
    if x.st = .migOut then s1.finalRound c else s1.setCtx c { (s1.ctx c).ended 0 with st := .preempted }

/-- PREEMPT (R107): the request, and, once everything is saved, the save area. -/
def execPreempt (c : Nat) (s : State) : Host.Outcome State Fault Refusal :=
  event s (fun s =>
    let x := s.ctx c
    if !s.cmdDue c 3 then none
    else if x.stop ≠ .preempt then some (s.endCmd c 1)
    else if x.st = .scrubbing ∨ x.round.isSome then none
    else if x.pdesc.toNat % 64 ≠ 0 then some (s.goOn c 4)
    else if x.sarea.toNat % 4096 ≠ 0 ∨ !s.installed x.sarea.toNat x.salen.toNat then some (s.goOn c 8)
    else if x.st = .migOut ∧ !x.migRan then (if s.cutFree c then some (s.finalRound c) else none)
    else if !s.requested c then some (s.request c)
    else if s.allSaved c then some (s.writeArea c)
    else none)

/-! RESUME (R107, R395). -/

/-- Has the incoming stream of a context not landed whole (R290). -/
def Ctx.awaitsStream (x : Ctx) : Bool :=
  decide (x.st = .migIn) && (match x.incoming with
    | some i => !i.whole
    | none => true)

/-- The checks of RESUME in their order, and the state after it. -/
def State.resumeTo (s : State) (c : Nat) : Except Nat State :=
  if (s.ctx c).awaitsStream then .error 9
  else match s.bitmap c with
    | none => .error 4
    | some qs =>
      if qs = [] ∨ s.overlaps c qs then .error 3
      else match s.readArea c with
        | .error e => .error e
        | .ok rs =>
          let s0 := s.dropGrids c
          let s1 := (s0.setCtx c { (s0.ctx c).ended 0 with quads := qs, sig := s.signature c qs, st := .running, incoming := none }).loadStage c
          match s1.restore c rs with
          | .error e => .error e
          | .ok s2 =>
            let s3 := s2.setCtx c { s2.ctx c with sweepAt := s.time / 1000000 }
            .ok ((s3.ctx c).queues.foldl (fun (t : State) e => t.see c e.1) s3)

/-- What the checks of RESUME read is read: the bitmap, and where it passes the area (R274). -/
def State.resumeSeen (s : State) (c : Nat) : State :=
  if (s.ctx c).awaitsStream then s
  else
    let t := s.bitmapSeen c
    match t.bitmap c with
    | none => t
    | some qs => if qs = [] ∨ t.overlaps c qs then t else t.areaSeen c

/-- RESUME (R107): refused, it changes nothing, but that lines it has read are pending no more. -/
def execResume (c : Nat) (s0 : State) : Host.Outcome State Fault Refusal :=
  event s0 (fun s0 =>
    let s := s0.resumeSeen c
    let x := s.ctx c
    if !s0.cmdDue c 4 then none
    else if x.st ≠ .preempted ∧ x.st ≠ .migIn then some (s0.endCmd c 1)
    else match s.resumeTo c with
      | .error e => some (s.endCmd c e)
      | .ok s1 => some s1)

end Sys2Proof.Machine
end

