-- ==== Sys2Proof/Machine/Platform.lean ====
section
/-! DEFINITION. Device registers without a row of their own, the management block, device reset, clock states, soft errors
(spec 00_scope R5, 13_link R277-R279, R287, R289, 23_platform R383-R392). -/
namespace Sys2Proof.Machine

/-- The management block replaced. -/
def State.setMgmt (s : State) (m : Mgmt) : State := { s with mgmt := m }

/-! Register writes (R5, R277). -/

/-- A write of a pre-copy control register: the ports; its command is a step of its own (R289). -/
def State.writePrecopy (s : State) (c v : Nat) : State :=
  if bits v 63 32 ≠ 0 ∨ bits v 30 24 ≠ 0 ∨ bits v 7 4 ≠ 0 then s
  else s.setCtx c { s.ctx c with pcPorts := bits v 15 8 }

/-- A write of `mg_cmd`: a command starts, with the arguments that the mailbox holds now, or is refused as busy (R390-R392). The
RV bits [31:14] of the value are dropped and the command starts: DESIGN CHOICE, for R277's rule on RV bits is that of the link
block, and no rule says what such a write does here (log 53). -/
def Mgmt.start (m : Mgmt) (v : Nat) : Mgmt :=
  if bits v 7 0 = 0 ∨ bits v 7 0 > 7 then m
  else if m.busy then { m with err := 1 }
  else { m with busy := true, err := 0, cmd := some (bits v 7 0, bits v 13 8), args := m.mailbox }

/-- A write of 8 bytes into the mailbox (R390). -/
def Mgmt.fill (m : Mgmt) (off v : Nat) : Mgmt :=
  { m with mailbox := (List.range 8).foldl (fun b i => sset 0 b (off / 8 * 8 + i) (BitVec.ofNat 8 (v / 256 ^ i))) m.mailbox }

/-- A write of a register of the management block; the host port answers it always. -/
def Mgmt.write (m : Mgmt) : DevReg → Nat → Mgmt
  | .mgCmd, v => m.start (v % 2 ^ 32)
  | .mgPwr, v => if bits v 31 16 < 1500 ∨ bits v 31 16 > 3600 then m else { m with cap := bits v 31 16 }
  | .mailbox o, v => if o < 4096 then m.fill o v else m
  | .peerEntry _ _, _ | .hostWindow _, _ | .precopyCtl _, _ | .precopySess _, _ | .precopySent _, _ | .qtStat _, _ | .mgStat, _
  | .mgTemp, _ | .mgErr, _ => m

/-- A write of a register of the link block (R277). -/
def State.writeLink (s : State) : DevReg → Nat → State
  | .peerEntry c p, v =>
    if c ≥ 64 ∨ p ≥ 1024 ∨ bits v 60 6 ≠ 0 then s else s.setCtx c { s.ctx c with peers := sset 0 (s.ctx c).peers p (BitVec.ofNat 64 v) }
  | .hostWindow w, v =>
    if w ≥ 16 ∨ bits v 44 36 ≠ 0 ∨ bits v 17 0 ≠ 0 ∨ bits v 55 45 > 1023 then s else { s with hwin := sset 0 s.hwin w (BitVec.ofNat 64 v) }
  | .precopyCtl c, v => if c ≥ 64 then s else s.writePrecopy c v
  | .precopySess c, v => if c ≥ 64 ∨ bits v 63 6 ≠ 0 then s else s.setCtx c { s.ctx c with pcSess := bits v 5 0 }
  | .precopySent _, _ | .qtStat _, _ | .mgStat, _ | .mgCmd, _ | .mgPwr, _ | .mgTemp, _ | .mgErr, _ | .mailbox _, _ => s

/-- REGISTER_WRITE (R5). -/
def execRegisterWrite (reg : DevReg) (v : Dword) (s : State) : Host.Outcome State Fault Refusal :=
  event s (fun s =>
    let s1 := s.setMgmt (s.mgmt.write reg v.toNat)
    some (if s.answers then s1.writeLink reg v.toNat else s1))

/-! Management commands (R385, R386, R390-R392). -/

/-- The slot of a management command that runs, if it is the n-th. -/
def Mgmt.due (m : Mgmt) (n : Nat) : Option Nat :=
  if m.busy then m.cmd.bind (fun x => if x.1 = n then some x.2 else none) else none

/-- A management command ends with a result. -/
def Mgmt.finish (m : Mgmt) (err : Nat) : Mgmt := { m with busy := false, err := err, cmd := none }

/-- n bytes of a command's arguments, as the mailbox held them when it started (R392). -/
def Mgmt.box (m : Mgmt) (o n : Nat) : List Byte := (List.range n).map (fun i => sget 0 m.args (o + i))

/-- Are the arguments zero from an offset on. -/
def Mgmt.boxZero (m : Mgmt) (o : Nat) : Bool := m.args.all (fun e => decide (e.1 < o))

/-- Bytes put into the mailbox. -/
def Mgmt.putBox (m : Mgmt) (o : Nat) (bs : List Byte) : Mgmt :=
  { m with mailbox := (List.range bs.length).foldl (fun b i => sset 0 b (o + i) (bs.getD i 0)) m.mailbox }

/-- The first 160 bytes of the report (R392). -/
def State.report (s : State) : List Byte :=
  s.mgmt.box 0 48 ++ leBytes 4 s.fwver.toNat ++ leBytes 4 s.mgmt.secver ++ sha384 s.mgmt.running ++
  sha384 (s.defectMap.flatMap Defect.bytes) ++ leBytes 4 (s.mgmt.devnum % 1024) ++ zeroBytes 4

/-- A private key or secret number of the curve out of a free value: from 1 up to the order less 1. -/
def curveKey (n : Nat) : Nat := n % (p384N - 1) + 1

/-- The wrapping key of R386 from the device's ephemeral key, the host's and the nonce: HKDF of the shared point's X (R392). -/
def wrapKey (ephemeral : Nat) (host : Nat × Nat) (nonce : List Byte) : Nat :=
  leNat (hkdf384 nonce (beBytes 48 (((ecMul 384 ephemeral (some host)).map (·.1)).getD 0)) wrapInfo)

/-- ATTEST (R385, R392): the report with the ephemeral public key, its signature by the identity key, and the certificate. The
device's secrets are free values (log 8). -/
def execAttest (s : State) : Host.Outcome State Fault Refusal :=
  event s (fun s =>
    let m := s.mgmt
    match m.due 1 with
    | none => none
    | some _ =>
      let host := ecOf (m.box 48 96)
      if !m.boxZero 144 then some (s.setMgmt (m.finish 6))
      else if !onCurve host then some (s.setMgmt { m.finish 6 with wrap := none })
      else
        let d := curveKey (Config.ephemeralKey s.fresh)
        let body := s.report ++ ecBytes (ecMul 384 d (some p384G))
        let sig := ecdsaSign (curveKey Config.identityKey) (curveKey (Config.signatureSecret s.fresh)) (sha384 body)
        let n := min 3736 Config.certificate.length
        let out := body ++ sig ++ leBytes 4 n ++ zeroBytes 4 ++ Config.certificate.take 3736
        some { (s.setMgmt { (m.finish 0).putBox 0 out with wrap := some (wrapKey d host (m.box 0 48)) }) with fresh := s.fresh + 1 })

/-- Is a memory key slot named by a context that is not free (R386). -/
def State.keyUsed (s : State) (slot : Nat) : Bool :=
  s.ctxs.any (fun e => decide (e.2.st ≠ .free) && decide (e.2.memkey.toNat % 64 = slot))

/-- Is a session slot named by a context that migrates (R386). -/
def State.sessUsed (s : State) (slot : Nat) : Bool :=
  s.ctxs.any (fun e => (decide (e.2.st = .migOut) || decide (e.2.st = .migIn)) && decide (e.2.pcSess = slot))

/-- Material unwrapped under the key of the latest ATTEST: an error, or n bytes (R386, R391). -/
def Mgmt.material (m : Mgmt) (ok : Bool) (n : Nat) : Except Nat (List Byte) :=
  match m.wrap with
  | none => .error 5
  | some k =>
    if !ok then .error 6
    else match (kwUnwrap (nats (leBytes 32 k)) (nats (m.box 8 (n + 8)))).map bytesOf with
      | none => .error 5
      | some bs => if bs.length = n then .ok bs else .error 5

/-- LOADKEY (R386, R392). -/
def execLoadkey (s : State) : Host.Outcome State Fault Refusal :=
  event s (fun s =>
    let m := s.mgmt
    (m.due 2).map (fun slot =>
      if s.keyUsed slot then s.setMgmt (m.finish 4)
      else match m.material (decide (leNat (m.box 0 8) = 72) && m.boxZero 80) 64 with
        | .error e => s.setMgmt (m.finish e)
        | .ok bs => s.setMgmt { m.finish 0 with keys := fset m.keys slot (leNat bs) }))

/-- CLEARKEY (R386). -/
def execClearkey (s : State) : Host.Outcome State Fault Refusal :=
  event s (fun s =>
    let m := s.mgmt
    (m.due 3).map (fun slot =>
      if s.keyUsed slot then s.setMgmt (m.finish 4) else s.setMgmt { m.finish 0 with keys := fdel m.keys slot }))

/-- LOADSESS (R386, R392). -/
def execLoadsess (s : State) : Host.Outcome State Fault Refusal :=
  event s (fun s =>
    let m := s.mgmt
    let n (o k : Nat) : Nat := leNat (m.box o k)
    (m.due 4).map (fun slot =>
      if s.sessUsed slot then s.setMgmt (m.finish 4)
      else match m.material (decide (n 0 8 = 40) && decide (n 52 4 ≤ 1) && decide (n 74 6 = 0) && m.boxZero 80) 32 with
        | .error e => s.setMgmt (m.finish e)
        | .ok bs => s.setMgmt { m.finish 0 with
            sessions := fset m.sessions slot ⟨leNat bs, n 48 4, decide (n 52 4 = 1), n 56 16, n 72 2⟩ }))

/-- Is an image laid out as R384 gives it: header, body, 96 bytes of ECDSA signature, LMS signature; and do its digest and both
signatures verify. -/
def imageOk (img : List Byte) : Bool :=
  let n := 64 + field img 8 8
  let signed := img.take n
  decide (img.length = n + 96 + lmsLen) && decide (sha384 (signed.drop 64) = sub img 16 48) &&
  ecdsaOk Config.imageKey (sha384 signed) (sub img n 96) && lmsOk Config.imageLms signed (img.drop (n + 96))

/-- The last chunk of an image is there: it is verified and stored, or discarded (R391, R392). -/
def Mgmt.store (m : Mgmt) (img : List Byte) : Mgmt :=
  let m1 := { m with partialImg := none }
  if !imageOk img then m1.finish 2
  else if field img 4 4 < m.rollback ∨ field img 4 4 > 255 then m1.finish 3
  else { m1.finish 0 with staged := some img }

/-- STAGEFW (R391, R392). -/
def execStagefw (s : State) : Host.Outcome State Fault Refusal :=
  event s (fun s =>
    let m := s.mgmt
    let off := leNat (m.box 0 4)
    let n := leNat (m.box 4 4)
    let flags := leNat (m.box 8 4)
    (m.due 5).map (fun _ =>
      if n = 0 ∨ n > 4080 ∨ flags > 3 ∨ leNat (m.box 12 4) ≠ 0 ∨ !m.boxZero (16 + n) then s.setMgmt (m.finish 6)
      else
        let before := if flags % 2 = 1 then some [] else m.partialImg
        match before with
        | none => s.setMgmt { m.finish 6 with partialImg := none }
        | some bs =>
          if off ≠ bs.length ∨ off + n > 2 ^ 26 then s.setMgmt { m.finish 6 with partialImg := none }
          else
            let img := bs ++ m.box 16 n
            if flags / 2 = 1 then s.setMgmt (m.store img) else s.setMgmt { m.finish 0 with partialImg := some img }))

/-- CLEARLOG (R390). -/
def execClearlog (s : State) : Host.Outcome State Fault Refusal :=
  event s (fun s => (s.mgmt.due 7).map (fun _ => s.setMgmt { s.mgmt.finish 0 with corr := 0, ctxv := false, ctx := 0 }))

/-! Device reset (R383). -/

/-- May an image run: it verifies and is not too old (R384). -/
def Mgmt.accepts (m : Mgmt) (img : List Byte) : Bool :=
  imageOk img && decide (field img 4 4 ≥ m.rollback) && decide (field img 4 4 ≤ 255)

/-- The image that the boot ROM starts: the staged one, or the running one if none is staged or the staged one does not verify
(R383). -/
def Mgmt.bootImage (m : Mgmt) : Option (List Byte) :=
  match m.staged with
  | some img => if m.accepts img then some img else if m.accepts m.running then some m.running else none
  | none => if m.accepts m.running then some m.running else none

/-- The management block after a reset that an image came up from: it runs, the rollback counter follows it, the firmware key is
new (R383, R384, R386). -/
def Mgmt.rebooted (m : Mgmt) (img : List Byte) : Mgmt :=
  { Mgmt.reset with
    devnum := m.devnum, rollback := max m.rollback (field img 4 4), running := img, secver := field img 4 4, fwgen := m.fwgen + 1 }

/-- A device reset: contexts are stopped without records. If no image verifies the device stays booting, with nothing else of it
reset but the ephemeral key, which every reset ends (R385); otherwise memory keeps its bytes and all else is at its Reset value (R383). -/
def State.resetDevice (s : State) : State :=
  let t := s.stopWhere (fun _ => true) false
  match s.mgmt.bootImage with
  | none => t.setMgmt { t.mgmt.finish 2 with state := 0, wrap := none }
  | some img =>
    { State.reset with
      fwver := BitVec.ofNat 32 (field img 0 4), dieMem := s.dieMem, mem := t.mem, ktag := t.ktag, mgmt := s.mgmt.rebooted img
      defects := s.defects, nextMsg := s.nextMsg, out := t.out, agenda := s.agenda, fresh := t.fresh }

/-- DEVICE_RESET (R383): power-up, or a conventional reset of the port. -/
def execDeviceReset (s : State) : Host.Outcome State Fault Refusal := event s (fun s => some s.resetDevice)

/-- RESET (R383, R390): the command of the management block. -/
def execReset (s : State) : Host.Outcome State Fault Refusal :=
  event s (fun s => (s.mgmt.due 6).map (fun _ => s.resetDevice))

/-- A device-fatal error: every context takes the hard stop, and only RESET leaves the state fault (R389). -/
def State.fatal (s : State) : State :=
  let t := s.stopWhere (fun _ => true) true
  t.setMgmt { t.mgmt with state := 2 }

/-! Power and clock (R388). -/

/-- CLOCK_STATE_CHANGE (R388): a test with a draw in watts and a junction temperature in 1/16 °C; it moves at most one state
per millisecond. At 110 °C the device takes a device-fatal error. -/
def execClockStateChange (draw tj : Nat) (s : State) : Host.Outcome State Fault Refusal :=
  event s (fun s =>
    let m := { s.mgmt with draw := draw % 2 ^ 16, tj := tj % 2 ^ 16 }
    if m.tj ≥ 1760 then some (s.setMgmt m).fatal
    else
    let hot := decide (m.draw * 10 > m.cap * 9) || decide (m.tj > 1440)
    let m1 := if hot then { m with lastHot := s.time } else m
    let may := decide (s.time ≥ m.lastChange + 1000000)
    if may ∧ (m.draw > m.cap ∨ m.tj > 1520) ∧ m.pstate < 3 then
      some (s.setMgmt { m1 with pstate := m.pstate + 1, lastChange := s.time })
    else if may ∧ !hot ∧ s.time ≥ m.lastHot + 10000000 ∧ m.pstate > 0 then
      some (s.setMgmt { m1 with pstate := m.pstate - 1, lastChange := s.time })
    else some (s.setMgmt m1))

/-! Errors (R278, R340, R389). -/

/-- DIE_LINK_FAILURE (R10, R278): one of the five links of a shader die fails, once. -/
def execDieLinkFailure (die dlc : Nat) (s : State) : Host.Outcome State Fault Refusal :=
  event s (fun s =>
    if s.dlcDown.contains (die, dlc) then none else some ({ s with dlcDown := s.dlcDown ++ [(die, dlc)] } : State).fatal)

/-- THERMAL_TRIP (R388, R389). -/
def execThermalTrip (s : State) : Host.Outcome State Fault Refusal := event s (fun s => some s.fatal)

/-- CORRECTABLE_ERROR (R389): the count saturates. -/
def execCorrectableError (s : State) : Host.Outcome State Fault Refusal :=
  event s (fun s => some (s.setMgmt { s.mgmt with corr := min (2 ^ 24 - 1) (s.mgmt.corr + 1) }))

/-- The split that holds a lane of a group and is about to issue, with its view. -/
def State.issuerOf (s : State) (gid l : Nat) : Option View :=
  match fget s.groups gid with
  | none => none
  | some g => (g.splitsWhere (fun sp => sp.mask.getLsbD l)).findSome? (fun sp => match s.viewOf gid sp.sid with
    | some v => if s.canIssue v then some v else none
    | none => none)

/-- The instruction that a split is about to issue. -/
def State.nextInstr (s : State) (v : View) : Option Instr :=
  match s.fetchLine v.c (decide (v.sp.mode = .user)) v.sp.pc with
  | .ok (line, _) => decodeSlot (v.sp.slotOf line)
  | .error _ => none

/-- What a lane reads that can be found uncorrectable: a register, or an address. -/
inductive LaneData where
  | reg (r : Nat)
  | addr (a : Nat)
  deriving DecidableEq, Repr

/-- Does a lane read a register as its split issues: a guard's in every active lane, a uniform operand's in the lowest that
takes part, and another source's in each that does; a register that is only written is not read (R75, R326). The window of
`gsel` is read at the word that the lane names, and `prf` reads nothing that it would stop for (R312, R332). -/
def View.readsReg (v : View) (i : Instr) (l r : Nat) : Bool :=
  match i, i.hdr? with
  | _, none | .prf _ _, _ => false
  | _, some h =>
    let p := v.part h
    let rest := (i.writes (v.recWidth h) ++ i.uniform).foldl List.erase ((v.uses i).drop h.uses.length)
    (v.sp.mask.getLsbD l && h.uses.any (fun u => u.regs.contains r)) ||
    (decide (p ≠ 0) && decide (l = lowestLane p) && i.uniform.any (fun u => u.regs.contains r)) ||
    (p.getLsbD l && rest.any (fun u => match i, u with
      | .gsel _ _ n _ a b, .run _ _ =>
        decide ((v.g.rd b l).toNat < 32 * n) && decide (r = a + (v.g.rd b l).toNat / 32) && u.regs.contains r
      | _, _ => u.regs.contains r))

/-- Does a lane read the byte at an address as its split issues: a load's, at an address that passes its checks; of a line, the
lane's own word; of the handle's line, all, in the lowest lane; and what a tensor instruction comes to (R329, R330, R356). -/
def State.readsAddr (s : State) (v : View) (i : Instr) (l a : Nat) : Bool :=
  let in_ (ea : Dword) (n : Nat) := decide (ea.toNat ≤ a) && decide (a < ea.toNat + n)
  let ok (use : Use) (k : Nat) (ea : Dword) (n : Nat) := (s.reachMx (v.who k) use ea n n).toOption.isSome
  match i with
  | .ld h m => let ea := v.ea m m.aux l
    (v.part h).getLsbD l && ok .load l ea m.width.bytes && in_ ea m.width.bytes
  | .ldl h m => let k := lowestLane (v.part h); let ea := v.ea m 384 k
    (v.part h).getLsbD l && ok .line k ea 128 && in_ (ea + BitVec.ofNat 64 (4 * l)) 4
  | .thld h m => let ea := v.ea m 384 l
    decide (v.part h ≠ 0) && decide (l = lowestLane (v.part h)) && ok .line l ea 128 && in_ ea 128
  | j => v.tensorReads j l (s.probe v in_ l)

/-- Does a lane read some data as its split issues: its instruction, or, where this passes the checks that precede its own
effect, a register or an address (R91, R234, R240, R389). -/
def State.readsData (s : State) (v : View) (i : Instr) (l : Nat) : LaneData → Bool
  | .reg r => decide (v.precheck i = none) && v.readsReg i l r
  | .addr a => decide (a = v.sp.pc.toNat) || (decide (v.precheck i = none) && s.readsAddr v i l a)

/-- The value that `ks_tval` shows of some data (R389). -/
def LaneData.tval : LaneData → Dword
  | .reg r => BitVec.ofNat 64 (0x1E00000000000000 + r)
  | .addr a => BitVec.ofNat 64 a

/-- A lane meets uncorrectable data: a machine check at the instruction that reads it, or, where its group is being saved, one
that it owes until it resumes (R113, R234, R389). -/
def State.laneCheck (s : State) (gid l : Nat) (x : LaneData) : Option State :=
  match s.issuerOf gid l, fget s.groups gid with
  | some v, _ =>
    if (s.nextInstr v).any (fun i => s.readsData v i l x) then
      some (s.trapNow v (trapAll (maskOf (fun k => decide (k = l))) 0x52 v.sp.pc x.tval))
    else none
  | none, some g =>
    if g.mark ≠ .none ∧ g.live.getLsbD l then some (s.setGroup gid (g.owe ⟨l, 0x52, 0, 0, 0, x.tval, 4⟩)) else none
  | none, none => none

/-- A late error noted on the command records of some contributions (R340). -/
def State.spoilCmds (s : State) (cs : List Contrib) : State :=
  (cs.filter Contrib.isEngine).foldl (fun (t : State) c => t.modTeam c.tid (fun m => match fget m.cmds c.eseq with
    | some k => { m with cmds := fset m.cmds c.eseq { k with err := true } }
    | none => m)) s

/-- A cell that a landing reaches and has not updated yet is found uncorrectable: a late drain error, sub 0, for lanes, and a
late error of the engine operations that write it (R245, R340, R389). -/
def State.spoil (s : State) (l : Landing) (cell : Loc) : Option State :=
  if l.done.contains cell then none
  else some ((s.setLanding { l with late := l.late ++ [(cell, 0)] }).spoilCmds (l.contribs.filter (fun c => c.cells.contains cell)))

/-- The cell at a place among those of some contributions. -/
def cellAt (cs : List Contrib) (n : Nat) : Option Loc := (distinct (cs.flatMap Contrib.cells))[n]?

/-- A change of a command record in a state. -/
def State.modCmd (s : State) (tid rec : Nat) (st : CmdState) (f : Cmd → Cmd) : Option State :=
  match fget s.teams tid with
  | none => none
  | some t => match fget t.cmds rec with
    | none => none
    | some k => if k.st = st then some (s.setTeam tid { t with cmds := fset t.cmds rec (f k) }) else none

/-- UNCORRECTABLE_ERROR (R389), by where it is found. -/
def execUncorrectableError (site : ErrSite) (s : State) : Host.Outcome State Fault Refusal :=
  event s (fun s => match site with
    | .laneRegister gid l r => s.laneCheck gid l (.reg r)
    | .laneRead gid l a => s.laneCheck gid l (.addr a)
    | .landing d n => (s.landing? d).bind (fun l => (cellAt l.contribs n).bind (s.spoil l))
    | .engineSource tid rec => s.modCmd tid rec .running Cmd.lose
    | .engineDest tid rec n => (s.landing? (.team tid)).bind (fun l =>
        (cellAt (l.contribs.filter (fun c => c.isEngine && decide (c.tid = tid) && decide (c.eseq = rec))) n).bind (s.spoil l))
    | .contextState c =>
      if !(s.ctx c).st.stoppable then none
      else
        let u := s.hardStop c true
        let t := if (s.ctx c).busy then u.endCmd c 0 else u
        some (t.setMgmt (if t.mgmt.ctxv then t.mgmt else { t.mgmt with ctxv := true, ctx := c }))
    | .deviceState => some s.fatal)

end Sys2Proof.Machine
end

