-- ==== Sys2Proof/Machine/Transc.lean ====
section
/-! DEFINITION. The transcendental instructions, opcodes 0x0CC-0x0D2, by the definitions of function-table versions 1 and 2
(spec 14_isa_vector R316-R325). -/
namespace Sys2Proof.Machine

/-! Helpers of R317: each rounds once to f32 under `.rne`, with no flag. Values are f32 encodings. -/

/-- fma32. -/
def fma32 (a b c : Nat) : Nat := (round3 Fmt.f32 .rne [a, b, c]).1
/-- mul32. -/
def mul32 (a b : Nat) : Nat := (round2 Fmt.f32 .rne FV.mul [a, b]).1
/-- add32. -/
def add32 (a b : Nat) : Nat := (round2 Fmt.f32 .rne (FV.add .rne) [a, b]).1
/-- sub32. -/
def sub32 (a b : Nat) : Nat := (round2 Fmt.f32 .rne (FV.sub .rne) [a, b]).1
/-- div32. -/
def div32 (a b : Nat) : Nat := (round2 Fmt.f32 .rne FV.div [a, b]).1
/-- The f32 with its sign turned. -/
def neg32 (a : Nat) : Nat := a ^^^ 0x80000000
/-- An f32 with a given sign put onto a result. -/
def signed32 (neg : Bool) (a : Nat) : Nat := if neg then neg32 a else a
/-- horner(z; coefficients from the highest down). -/
def horner (z : Nat) : List Nat → Nat
  | [] => 0
  | p :: ps => ps.foldl (fun acc c => fma32 acc z c) p
/-- An exact value as an f32; used where the value is representable. -/
def f32Of (neg : Bool) (man : Nat) (exp : Int) : Nat := (Fmt.f32.round .rne false (.fin neg man exp)).1
/-- An integer as an f32. -/
def f32Int (i : Int) : Nat := f32Of (decide (i < 0)) i.natAbs 0
/-- The nearest integer, ties to even (R317). -/
def rneInt (a : Nat) : Int :=
  match Fmt.f32.decode a with
  | .fin neg man exp => (FV.toIntR .rne neg man exp).1
  | _ => 0

/-- The flags of a result produced by the evaluation path, judged on its final rounding of an exact value (R317). -/
def pathFlags (v : FV) : FFlags :=
  let r := Fmt.f32.round .rne false v
  match v with
  | .fin neg man exp =>
    fInx ||| (r.2 &&& fOvf) ||| flagIf (decide (man ≠ 0) && isTiny 24 Fmt.f32.emin .rne neg man exp) fUnf
  | _ => fInx ||| (r.2 &&& fOvf)

/-- A final rounding: the value and its flags. -/
def final (v : FV) : Nat × FFlags := ((Fmt.f32.round .rne false v).1, pathFlags v)

/-- scale(y, k) as the final rounding (R317). -/
def scaleFinal (neg : Bool) (y : Nat) (k : Int) : Nat × FFlags :=
  match Fmt.f32.decode (signed32 neg y) with
  | .fin n m e => final (.fin n m (e + k))
  | v => final v

/-- The canonical NaN with its flag for a NaN operand (R317). -/
def nanFn (sg : Bool) : Nat × FFlags := (Fmt.f32.encNaN, flagIf sg fInv)

/-- m of decompose as an f32 in [1, 2). -/
def mant32 (man : Nat) : Nat := f32Of false man (-(Nat.log2 man : Int))

/-- Is a mantissa a power of two. -/
def isPow2 (man : Nat) : Bool := decide (man = 2 ^ Nat.log2 man)

/-- n Newton steps of `frcp` (R319). -/
def rcpSteps (m : Nat) : Nat → Nat → Nat
  | 0, y => y
  | n + 1, y => rcpSteps m n (let e := fma32 (neg32 m) y 0x3F800000; fma32 y e y)

/-- `frcp` (R319). -/
def frcpOf (x : Nat) : Nat × FFlags :=
  match Fmt.f32.decode x with
  | .nan sg => nanFn sg
  | .inf neg => (Fmt.f32.signBit neg, 0)
  | .fin neg man exp =>
    if man = 0 then (Fmt.f32.encInf neg, fDvz)
    else
      let e := leadExp man exp
      if isPow2 man ∧ -126 ≤ e ∧ e ≤ 127 then (f32Of neg 1 (-e), 0)
      else
        let m := mant32 man
        scaleFinal neg (rcpSteps m 3 (fma32 0xBEF0F0F1 m 0x3FB4B4B5)) (-e)

/-- n Newton steps of `frsq` (R320). -/
def rsqSteps (m : Nat) : Nat → Nat → Nat
  | 0, y => y
  | n + 1, y =>
    rsqSteps m n (let t := mul32 m y; let e := fma32 (neg32 t) y 0x3F800000; fma32 (mul32 y 0x3F000000) e y)

/-- `frsq` (R320). -/
def frsqOf (x : Nat) : Nat × FFlags :=
  match Fmt.f32.decode x with
  | .nan sg => nanFn sg
  | .inf neg => if neg then (Fmt.f32.encNaN, fInv) else (0, 0)
  | .fin neg man exp =>
    if man = 0 then (Fmt.f32.encInf neg, fDvz)
    else if neg then (Fmt.f32.encNaN, fInv)
    else
      let e := leadExp man exp
      let odd := decide (e % 2 ≠ 0)
      if isPow2 man ∧ !odd then (f32Of false 1 (-(e / 2)), 0)
      else
        let e2 := if odd then e - 1 else e
        let m := f32Of false man (-(Nat.log2 man : Int) + (if odd then 1 else 0))
        scaleFinal false (rsqSteps m 4 (fma32 0xBE2AAAAB m 0x3F955555)) (-(e2 / 2))

/-- The exp2 coefficients, highest first (R318). -/
def exp2Coeffs : List Nat := [0x3921848D, 0x3AAEC3FF, 0x3C1D955B, 0x3D635847, 0x3E75FDF0, 0x3F317218, 0x3F800000]

/-- `fexp2` (R321). -/
def fexp2Of (x : Nat) : Nat × FFlags :=
  match Fmt.f32.decode x with
  | .nan sg => nanFn sg
  | .inf neg => if neg then (0, 0) else (Fmt.f32.encInf false, 0)
  | .fin neg man exp =>
    let v := FV.fin neg man exp
    if !FV.lt v (.fin false 128 0) then (Fmt.f32.encInf false, fOvf ||| fInx)
    else if FV.lt v (.fin true 151 0) then (0, fUnf ||| fInx)
    else
      let r := FV.toIntR .rne neg man exp
      if !r.2 ∧ -149 ≤ r.1 ∧ r.1 ≤ 127 then (f32Of false 1 r.1, 0)
      else scaleFinal false (horner (sub32 x (f32Int r.1)) exp2Coeffs) r.1

/-- `flog2` (R322). -/
def flog2Of (x : Nat) : Nat × FFlags :=
  match Fmt.f32.decode x with
  | .nan sg => nanFn sg
  | .inf neg => if neg then (Fmt.f32.encNaN, fInv) else (Fmt.f32.encInf false, 0)
  | .fin neg man exp =>
    if man = 0 then (Fmt.f32.encInf true, fDvz)
    else if neg then (Fmt.f32.encNaN, fInv)
    else if isPow2 man then (f32Int (leadExp man exp), 0)
    else
      let m0 := mant32 man
      let big := FV.lt (Fmt.f32.decode 0x3FB504F3) (Fmt.f32.decode m0)
      let e := if big then leadExp man exp + 1 else leadExp man exp
      let m := if big then f32Of false man (-(Nat.log2 man : Int) - 1) else m0
      let q := div32 (sub32 m 0x3F800000) (add32 m 0x3F800000)
      let z := mul32 q q
      let y := mul32 q (horner z [0x3EA4258A, 0x3ED30BB1, 0x3F13BB63, 0x3F76384F, 0x4038AA3B])
      final (FV.add .rne (Fmt.f32.decode (f32Int e)) (Fmt.f32.decode y)).1

/-- The exact product as the final rounding. -/
def mulFinal (a b : Nat) : Nat × FFlags := final (FV.mul (Fmt.f32.decode a) (Fmt.f32.decode b)).1

/-- The last step of a Horner evaluation as the final rounding. -/
def hornerFinal (z : Nat) (cs : List Nat) : Nat × FFlags :=
  match cs.reverse with
  | [] => (0, 0)
  | c :: rest => final (FV.fma .rne (Fmt.f32.decode (horner z rest.reverse)) (Fmt.f32.decode z) (Fmt.f32.decode c)).1

/-- sin and cos share one path (R323); `cos` selects which. -/
def sinCosOf (cos : Bool) (x : Nat) : Nat × FFlags :=
  match Fmt.f32.decode x with
  | .nan sg => nanFn sg
  | .inf _ => (Fmt.f32.encNaN, fInv)
  | .fin neg man exp =>
    let r := FV.toIntR .rne neg man (exp + 1)
    let n := r.1
    if !r.2 then
      if n % 2 = 0 then
        if cos then ((if n / 2 % 2 = 0 then 0x3F800000 else 0xBF800000), 0) else (Fmt.f32.signBit neg, 0)
      else if cos then (0, 0)
      else ((if n % 4 = 1 then 0x3F800000 else 0xBF800000), 0)
    else
      let rr := (Fmt.f32.round .rne false (FV.add .rne (.fin neg man exp) (FV.ofInt false (-n) (-1))).1).1
      let q := n % 4
      let z := mul32 rr rr
      let sv := mulFinal rr (horner z [0x3DA83C1A, 0xBF196974, 0x402335E3, 0xC0A55DE7, 0x40490FDB])
      let cv := hornerFinal z [0xBCD368F9, 0x3E70FA83, 0xBFAAE9E4, 0x4081E0F8, 0xC09DE9E6, 0x3F800000]
      let pick := if cos then (if q = 0 then (cv, false) else if q = 1 then (sv, true) else if q = 2 then (cv, true) else (sv, false))
        else (if q = 0 then (sv, false) else if q = 1 then (cv, false) else if q = 2 then (sv, true) else (cv, true))
      (signed32 pick.2 pick.1.1, pick.1.2)

/-- The version 1 path of `ftanh` below NINE (R324). -/
def tanhPath (a : Nat) : Nat × FFlags :=
  let y := mul32 a 0x4038AA3B
  let n := rneInt y
  let f := sub32 y (f32Int n)
  let e := (scaleFinal false (horner f exp2Coeffs) n).1
  final (FV.sub .rne (Fmt.f32.decode 0x3F800000) (Fmt.f32.decode (div32 0x40000000 (add32 e 0x3F800000)))).1

/-- The version 2 path of `ftanh` below HALF (R325). -/
def tanhSmall (a : Nat) : Nat × FFlags :=
  let z := mul32 a a
  let p := horner z [0xBABED1B2, 0x3B6B69E8, 0xBC11371B, 0x3CB327A4, 0xBD5D0DD1, 0x3E088889, 0xBEAAAAAB]
  final (FV.fma .rne (Fmt.f32.decode (mul32 a z)) (Fmt.f32.decode p) (Fmt.f32.decode a)).1

/-- `ftanh` under a function-table version (R324, R325). -/
def ftanhOf (ver : Nat) (x : Nat) : Nat × FFlags :=
  match Fmt.f32.decode x with
  | .nan sg => nanFn sg
  | .inf neg => (signed32 neg 0x3F800000, 0)
  | .fin neg man exp =>
    if man = 0 then (x, 0)
    else
      let v := FV.fin false man exp
      let a := x % 2 ^ 31
      if FV.lt v (Fmt.f32.decode 0x39800000) then (x, fInx)
      else if !FV.lt v (Fmt.f32.decode 0x41100000) then (signed32 neg 0x3F800000, fInx)
      else
        let r := if ver = 2 ∧ FV.lt v (Fmt.f32.decode 0x3F000000) then tanhSmall a else tanhPath a
        (signed32 neg r.1, r.2)

/-- A transcendental instruction: long-latency, one register to one register (R295, R316). -/
def transc (i : Instr) (h : Hdr) (d a : Nat) (s : State) (f : Nat → Nat → Nat × FFlags) :
    Host.Outcome State Fault Refusal :=
  aluLong i h s (fun v l => let r := f v.gr.fnver (v.g.rd a l).toNat; (writesN l d 1 r.1, r.2))

/-- `frcp` (R319). -/
def execFrcp (h : Hdr) (d a : Nat) (s : State) : Host.Outcome State Fault Refusal :=
  transc (.frcp h d a) h d a s (fun _ => frcpOf)
/-- `frsq` (R320). -/
def execFrsq (h : Hdr) (d a : Nat) (s : State) : Host.Outcome State Fault Refusal :=
  transc (.frsq h d a) h d a s (fun _ => frsqOf)
/-- `fexp2` (R321). -/
def execFexp2 (h : Hdr) (d a : Nat) (s : State) : Host.Outcome State Fault Refusal :=
  transc (.fexp2 h d a) h d a s (fun _ => fexp2Of)
/-- `flog2` (R322). -/
def execFlog2 (h : Hdr) (d a : Nat) (s : State) : Host.Outcome State Fault Refusal :=
  transc (.flog2 h d a) h d a s (fun _ => flog2Of)
/-- `fsinpi` (R323). -/
def execFsinpi (h : Hdr) (d a : Nat) (s : State) : Host.Outcome State Fault Refusal :=
  transc (.fsinpi h d a) h d a s (fun _ => sinCosOf false)
/-- `fcospi` (R323). -/
def execFcospi (h : Hdr) (d a : Nat) (s : State) : Host.Outcome State Fault Refusal :=
  transc (.fcospi h d a) h d a s (fun _ => sinCosOf true)
/-- `ftanh` (R324, R325). -/
def execFtanh (h : Hdr) (d a : Nat) (s : State) : Host.Outcome State Fault Refusal :=
  transc (.ftanh h d a) h d a s ftanhOf

end Sys2Proof.Machine
end

