-- ==== Sys2Proof/Machine/Vector.lean ====
section
/-! DEFINITION. The integer and logic instructions, opcodes 0x040-0x061 (spec 14_isa_vector R297-R303). -/
namespace Sys2Proof.Machine

/-- `add` (R298). -/
def execAdd (h : Hdr) (ty : ElemTy) (d a b : Nat) (s : State) : Host.Outcome State Fault Refusal :=
  alu (.add h ty d a b) h s (int2 ty d a b (· + ·))

/-- `sub` (R298). -/
def execSub (h : Hdr) (ty : ElemTy) (d a b : Nat) (s : State) : Host.Outcome State Fault Refusal :=
  alu (.sub h ty d a b) h s (int2 ty d a b (· - ·))

/-- `mul` (R298). -/
def execMul (h : Hdr) (ty : ElemTy) (d a b : Nat) (s : State) : Host.Outcome State Fault Refusal :=
  alu (.mul h ty d a b) h s (int2 ty d a b (· * ·))

/-- `mulh` (R298): the high half of the exact product. -/
def execMulh (h : Hdr) (ty : ElemTy) (d a b : Nat) (s : State) : Host.Outcome State Fault Refusal :=
  alu (.mulh h ty d a b) h s (int2 ty d a b (fun x y => x * y / ((2 ^ ty.width : Nat) : Int)))

/-- `mad` (R298). -/
def execMad (h : Hdr) (ty : ElemTy) (d a b c : Nat) (s : State) : Host.Outcome State Fault Refusal :=
  alu (.mad h ty d a b c) h s (fun g l => int2 ty d a b (fun x y => x * y + ty.toInt (g.rdT ty c l)) g l)

/-- The quotient of R299. -/
def divInt (ty : ElemTy) (x y : Int) : Int := if y = 0 then -1 else if x = ty.minInt ∧ y = -1 then x else x.tdiv y
/-- The remainder of R299. -/
def remInt (ty : ElemTy) (x y : Int) : Int := if y = 0 then x else if x = ty.minInt ∧ y = -1 then 0 else x.tmod y

/-- `div` (R299), long-latency. -/
def execDiv (h : Hdr) (ty : ElemTy) (d a b : Nat) (s : State) : Host.Outcome State Fault Refusal :=
  aluLong (.div h ty d a b) h s (fun v => int2 ty d a b (divInt ty) v.g)

/-- `rem` (R299), long-latency. -/
def execRem (h : Hdr) (ty : ElemTy) (d a b : Nat) (s : State) : Host.Outcome State Fault Refusal :=
  aluLong (.rem h ty d a b) h s (fun v => int2 ty d a b (remInt ty) v.g)

/-- `abs` (R298): the most negative value gives itself. -/
def execAbs (h : Hdr) (ty : ElemTy) (d a : Nat) (s : State) : Host.Outcome State Fault Refusal :=
  alu (.abs h ty d a) h s (int1 ty d a (fun x => if x < 0 then -x else x))

/-- `neg` (R298). -/
def execNeg (h : Hdr) (ty : ElemTy) (d a : Nat) (s : State) : Host.Outcome State Fault Refusal :=
  alu (.neg h ty d a) h s (int1 ty d a (fun x => -x))

/-- `min` (R298). -/
def execMin (h : Hdr) (ty : ElemTy) (d a b : Nat) (s : State) : Host.Outcome State Fault Refusal :=
  alu (.min h ty d a b) h s (int2 ty d a b (fun x y => if x ≤ y then x else y))

/-- `max` (R298). -/
def execMax (h : Hdr) (ty : ElemTy) (d a b : Nat) (s : State) : Host.Outcome State Fault Refusal :=
  alu (.max h ty d a b) h s (int2 ty d a b (fun x y => if x ≤ y then y else x))

/-- `clamp` (R300): min(max(a, b), c), isat where the result differs from a. -/
def execClamp (h : Hdr) (ty : ElemTy) (d a b c : Nat) (s : State) : Host.Outcome State Fault Refusal :=
  alu (.clamp h ty d a b c) h s (fun g l =>
    let x := ty.toInt (g.rdT ty a l)
    let t := if x ≤ ty.toInt (g.rdT ty b l) then ty.toInt (g.rdT ty b l) else x
    let r := if t ≤ ty.toInt (g.rdT ty c l) then t else ty.toInt (g.rdT ty c l)
    (writesT ty l d (ty.ofInt r), flagIf (decide (r ≠ x)) fIsat))

/-- `addsat` (R300). -/
def execAddsat (h : Hdr) (ty : ElemTy) (d a b : Nat) (s : State) : Host.Outcome State Fault Refusal :=
  alu (.addsat h ty d a b) h s (sat2 ty d a b (· + ·))

/-- `subsat` (R300). -/
def execSubsat (h : Hdr) (ty : ElemTy) (d a b : Nat) (s : State) : Host.Outcome State Fault Refusal :=
  alu (.subsat h ty d a b) h s (sat2 ty d a b (· - ·))

/-- `and` (R298). -/
def execAnd (h : Hdr) (ty : ElemTy) (d a b : Nat) (s : State) : Host.Outcome State Fault Refusal :=
  alu (.and h ty d a b) h s (bits2 ty d a b (· &&& ·))

/-- `or` (R298). -/
def execOr (h : Hdr) (ty : ElemTy) (d a b : Nat) (s : State) : Host.Outcome State Fault Refusal :=
  alu (.or h ty d a b) h s (bits2 ty d a b (· ||| ·))

/-- `xor` (R298). -/
def execXor (h : Hdr) (ty : ElemTy) (d a b : Nat) (s : State) : Host.Outcome State Fault Refusal :=
  alu (.xor h ty d a b) h s (bits2 ty d a b (· ^^^ ·))

/-- The complement of a value in n bits. -/
def notN (n x : Nat) : Nat := 2 ^ n - 1 - x % 2 ^ n

/-- `not` (R298). -/
def execNot (h : Hdr) (ty : ElemTy) (d a : Nat) (s : State) : Host.Outcome State Fault Refusal :=
  alu (.not h ty d a) h s (bits1 ty d a (notN ty.width))

/-- `andn` (R298). -/
def execAndn (h : Hdr) (ty : ElemTy) (d a b : Nat) (s : State) : Host.Outcome State Fault Refusal :=
  alu (.andn h ty d a b) h s (bits2 ty d a b (fun x y => x &&& notN ty.width y))

/-- `shl` (R301). -/
def execShl (h : Hdr) (ty : ElemTy) (d a b : Nat) (s : State) : Host.Outcome State Fault Refusal :=
  alu (.shl h ty d a b) h s (bitsN ty d a b (fun x n => if n < ty.width then x * 2 ^ n else 0))

/-- `shr` (R301). -/
def execShr (h : Hdr) (ty : ElemTy) (d a b : Nat) (s : State) : Host.Outcome State Fault Refusal :=
  alu (.shr h ty d a b) h s (bitsN ty d a b (fun x n => if n < ty.width then x / 2 ^ n else 0))

/-- `sar` (R301): the arithmetic shift, all sign bits from the width on. -/
def execSar (h : Hdr) (ty : ElemTy) (d a b : Nat) (s : State) : Host.Outcome State Fault Refusal :=
  alu (.sar h ty d a b) h s (bitsN ty d a b (fun x n =>
    wrapNat ty.width (sextNat ty.width x / ((2 ^ (min n ty.width) : Nat) : Int))))

/-- `rol` (R301). -/
def execRol (h : Hdr) (ty : ElemTy) (d a b : Nat) (s : State) : Host.Outcome State Fault Refusal :=
  alu (.rol h ty d a b) h s (bitsN ty d a b (fun x n =>
    x * 2 ^ (n % ty.width) + x / 2 ^ (ty.width - n % ty.width)))

/-- The bits a field operation takes: position and number, none when the length is 0 or the position outside (R302). -/
def fieldOf (w ctl : Nat) : Option (Nat × Nat) :=
  let p := ctl % 256
  let len := ctl / 256 % 256
  if len = 0 ∨ p ≥ w then none else some (p, min len (w - p))

/-- `bfx` (R302). -/
def execBfx (h : Hdr) (ty : ElemTy) (d a b : Nat) (s : State) : Host.Outcome State Fault Refusal :=
  alu (.bfx h ty d a b) h s (bitsN ty d a b (fun x ctl => match fieldOf ty.width ctl with
    | none => 0
    | some (p, n) =>
      let f := x / 2 ^ p % 2 ^ n
      if ty.signed then wrapNat ty.width (sextNat n f) else f))

/-- `bfi` (R302). -/
def execBfi (h : Hdr) (ty : ElemTy) (d a b c : Nat) (s : State) : Host.Outcome State Fault Refusal :=
  alu (.bfi h ty d a b c) h s (fun g l => bitsN ty d a b (fun x ctl =>
    let y := g.rdT ty c l
    match fieldOf ty.width ctl with
    | none => y
    | some (p, n) => y - y / 2 ^ p % 2 ^ n * 2 ^ p + x % 2 ^ n * 2 ^ p) g l)

/-- `pop` (R298). -/
def execPop (h : Hdr) (ty : ElemTy) (d a : Nat) (s : State) : Host.Outcome State Fault Refusal :=
  alu (.pop h ty d a) h s (count1 ty d a (fun x => ((List.range ty.width).filter (bit x)).length))

/-- `clz` (R298). -/
def execClz (h : Hdr) (ty : ElemTy) (d a : Nat) (s : State) : Host.Outcome State Fault Refusal :=
  alu (.clz h ty d a) h s (count1 ty d a (fun x => if x = 0 then ty.width else ty.width - 1 - Nat.log2 x))

/-- `ctz` (R298). -/
def execCtz (h : Hdr) (ty : ElemTy) (d a : Nat) (s : State) : Host.Outcome State Fault Refusal :=
  alu (.ctz h ty d a) h s (count1 ty d a (fun x => ((List.range ty.width).find? (bit x)).getD ty.width))

/-- `brev` (R298). -/
def execBrev (h : Hdr) (ty : ElemTy) (d a : Nat) (s : State) : Host.Outcome State Fault Refusal :=
  alu (.brev h ty d a) h s (bits1 ty d a (fun x =>
    (List.range ty.width).foldl (fun acc i => 2 * acc + (if bit x i then 1 else 0)) 0))

/-- `sel` (R298). -/
def execSel (h : Hdr) (ty : ElemTy) (d a b c : Nat) (s : State) : Host.Outcome State Fault Refusal :=
  alu (.sel h ty d a b c) h s (fun g l => (writesT ty l d (g.rdT ty (if g.rd c l ≠ 0 then a else b) l), 0))

/-- An integer comparison (R298). -/
def cmpInt (op : CmpOp) (x y : Int) : Bool :=
  match op with
  | .eq => decide (x = y)
  | .ne => decide (x ≠ y)
  | .lt => decide (x < y)
  | .le => decide (x ≤ y)
  | .gt => decide (x > y)
  | .ge => decide (x ≥ y)

/-- `cmp` (R298). -/
def execCmp (h : Hdr) (ty : ElemTy) (op : CmpOp) (d a b : Nat) (s : State) : Host.Outcome State Fault Refusal :=
  alu (.cmp h ty op d a b) h s (fun g l =>
    (writesN l d 1 (b2n (cmpInt op (ty.toInt (g.rdT ty a l)) (ty.toInt (g.rdT ty b l)))), 0))

/-- Is the type an unsigned integer, for the index of `lea` (R303). -/
def unsignedIdx : ElemTy → Bool
  | .n8 | .n16 | .n32 | .n64 => true
  | _ => false

/-- `lea` (R303). -/
def execLea (h : Hdr) (ty : ElemTy) (d a b : Nat) (s : State) : Host.Outcome State Fault Refusal :=
  alu (.lea h ty d a b) h s (fun g l =>
    let idx : Int := if unsignedIdx ty then (g.rd b l).toNat else (g.rd b l).toInt
    (writesN l d 2 (wrapNat 64 (((g.rdN a 2 l : Nat) : Int) + idx * ((ty.width / 8 : Nat) : Int))), 0))

/-- `mov` (R298). -/
def execMov (h : Hdr) (ty : ElemTy) (d a : Nat) (s : State) : Host.Outcome State Fault Refusal :=
  alu (.mov h ty d a) h s (fun g l => (writesT ty l d (g.rdT ty a l), 0))

/-- The value `movi` writes: sign-extended for `.i`, zero-extended for the others, placed per R47 (R298). -/
def moviBits (ty : ElemTy) (imm : Nat) : Nat :=
  if ty.signed then ty.ofInt (sextNat 32 imm) else imm % 2 ^ ty.width

/-- `movi` (R298). -/
def execMovi (h : Hdr) (ty : ElemTy) (d imm : Nat) (s : State) : Host.Outcome State Fault Refusal :=
  alu (.movi h ty d imm) h s (fun _ l => (writesT ty l d (moviBits ty imm), 0))

end Sys2Proof.Machine
end

