-- ==== Sys2Proof/Machine/Dispatch.lean ====
section
/-! DEFINITION. The one dispatch from an instruction or device step to its meaning. -/
namespace Sys2Proof.Machine

/-- The meaning of each instruction and device step of the opcode table. -/
def exec (i : Instr) (s : State) : Host.Outcome State Fault Refusal :=
  match i with
  | .nop h => Sys2Proof.Machine.execNop h s
  | .bra h l => Sys2Proof.Machine.execBra h l s
  | .bany h k r l => Sys2Proof.Machine.execBany h k r l s
  | .ball h k r l => Sys2Proof.Machine.execBall h k r l s
  | .bnone h k r l => Sys2Proof.Machine.execBnone h k r l s
  | .bdiv h k r l j => Sys2Proof.Machine.execBdiv h k r l j s
  | .switch h r ks => Sys2Proof.Machine.execSwitch h r ks s
  | .join h j => Sys2Proof.Machine.execJoin h j s
  | .call h l => Sys2Proof.Machine.execCall h l s
  | .callr h d a => Sys2Proof.Machine.execCallr h d a s
  | .ret h => Sys2Proof.Machine.execRet h s
  | .retl h a => Sys2Proof.Machine.execRetl h a s
  | .loop h n len inc0 inc1 inc2 => Sys2Proof.Machine.execLoop h n len inc0 inc1 inc2 s
  | .loopr h r len inc0 inc1 inc2 => Sys2Proof.Machine.execLoopr h r len inc0 inc1 inc2 s
  | .exit h => Sys2Proof.Machine.execExit h s
  | .brk h imm => Sys2Proof.Machine.execBrk h imm s
  | .ids h d sel => Sys2Proof.Machine.execIds h d sel s
  | .wflag h mask => Sys2Proof.Machine.execWflag h mask s
  | .step h x => Sys2Proof.Machine.execStep h x s
  | .yieldc h x a ctr mask => Sys2Proof.Machine.execYieldc h x a ctr mask s
  | .stepn h x n => Sys2Proof.Machine.execStepn h x n s
  | .stepto h x a => Sys2Proof.Machine.execStepto h x a s
  | .fbp h base stub map => Sys2Proof.Machine.execFbp h base stub map s
  | .sysc h imm => Sys2Proof.Machine.execSysc h imm s
  | .trap h imm => Sys2Proof.Machine.execTrap h imm s
  | .hcall h imm => Sys2Proof.Machine.execHcall h imm s
  | .tret h a => Sys2Proof.Machine.execTret h a s
  | .mfk h d k => Sys2Proof.Machine.execMfk h d k s
  | .mtk h r k => Sys2Proof.Machine.execMtk h r k s
  | .tlbinv h k a => Sys2Proof.Machine.execTlbinv h k a s
  | .idle h => Sys2Proof.Machine.execIdle h s
  | .add h ty d a b => Sys2Proof.Machine.execAdd h ty d a b s
  | .sub h ty d a b => Sys2Proof.Machine.execSub h ty d a b s
  | .mul h ty d a b => Sys2Proof.Machine.execMul h ty d a b s
  | .mulh h ty d a b => Sys2Proof.Machine.execMulh h ty d a b s
  | .mad h ty d a b c => Sys2Proof.Machine.execMad h ty d a b c s
  | .div h ty d a b => Sys2Proof.Machine.execDiv h ty d a b s
  | .rem h ty d a b => Sys2Proof.Machine.execRem h ty d a b s
  | .abs h ty d a => Sys2Proof.Machine.execAbs h ty d a s
  | .neg h ty d a => Sys2Proof.Machine.execNeg h ty d a s
  | .min h ty d a b => Sys2Proof.Machine.execMin h ty d a b s
  | .max h ty d a b => Sys2Proof.Machine.execMax h ty d a b s
  | .clamp h ty d a b c => Sys2Proof.Machine.execClamp h ty d a b c s
  | .addsat h ty d a b => Sys2Proof.Machine.execAddsat h ty d a b s
  | .subsat h ty d a b => Sys2Proof.Machine.execSubsat h ty d a b s
  | .and h ty d a b => Sys2Proof.Machine.execAnd h ty d a b s
  | .or h ty d a b => Sys2Proof.Machine.execOr h ty d a b s
  | .xor h ty d a b => Sys2Proof.Machine.execXor h ty d a b s
  | .not h ty d a => Sys2Proof.Machine.execNot h ty d a s
  | .andn h ty d a b => Sys2Proof.Machine.execAndn h ty d a b s
  | .shl h ty d a b => Sys2Proof.Machine.execShl h ty d a b s
  | .shr h ty d a b => Sys2Proof.Machine.execShr h ty d a b s
  | .sar h ty d a b => Sys2Proof.Machine.execSar h ty d a b s
  | .rol h ty d a b => Sys2Proof.Machine.execRol h ty d a b s
  | .bfx h ty d a b => Sys2Proof.Machine.execBfx h ty d a b s
  | .bfi h ty d a b c => Sys2Proof.Machine.execBfi h ty d a b c s
  | .pop h ty d a => Sys2Proof.Machine.execPop h ty d a s
  | .clz h ty d a => Sys2Proof.Machine.execClz h ty d a s
  | .ctz h ty d a => Sys2Proof.Machine.execCtz h ty d a s
  | .brev h ty d a => Sys2Proof.Machine.execBrev h ty d a s
  | .sel h ty d a b c => Sys2Proof.Machine.execSel h ty d a b c s
  | .cmp h ty op d a b => Sys2Proof.Machine.execCmp h ty op d a b s
  | .lea h ty d a b => Sys2Proof.Machine.execLea h ty d a b s
  | .mov h ty d a => Sys2Proof.Machine.execMov h ty d a s
  | .movi h ty d imm => Sys2Proof.Machine.execMovi h ty d imm s
  | .fadd h ty rm d a b => Sys2Proof.Machine.execFadd h ty rm d a b s
  | .fsub h ty rm d a b => Sys2Proof.Machine.execFsub h ty rm d a b s
  | .fmul h ty rm d a b => Sys2Proof.Machine.execFmul h ty rm d a b s
  | .fma h ty rm d a b c => Sys2Proof.Machine.execFma h ty rm d a b c s
  | .fdiv h ty rm d a b => Sys2Proof.Machine.execFdiv h ty rm d a b s
  | .fsqrt h ty rm d a => Sys2Proof.Machine.execFsqrt h ty rm d a s
  | .fmin h ty d a b => Sys2Proof.Machine.execFmin h ty d a b s
  | .fmax h ty d a b => Sys2Proof.Machine.execFmax h ty d a b s
  | .fabs h ty d a => Sys2Proof.Machine.execFabs h ty d a s
  | .fneg h ty d a => Sys2Proof.Machine.execFneg h ty d a s
  | .fcopysign h ty d a b => Sys2Proof.Machine.execFcopysign h ty d a b s
  | .fcmp h ty sig op d a b => Sys2Proof.Machine.execFcmp h ty sig op d a b s
  | .fclamp h ty d a b c => Sys2Proof.Machine.execFclamp h ty d a b c s
  | .frnd h ty rm d a => Sys2Proof.Machine.execFrnd h ty rm d a s
  | .fscale h ty rm d a b => Sys2Proof.Machine.execFscale h ty rm d a b s
  | .fexp h ty d a => Sys2Proof.Machine.execFexp h ty d a s
  | .fmant h ty d a => Sys2Proof.Machine.execFmant h ty d a s
  | .fclass h ty d a => Sys2Proof.Machine.execFclass h ty d a s
  | .cvt h dt st rm sat d a => Sys2Proof.Machine.execCvt h dt st rm sat d a s
  | .pack h dt st rm sat d a => Sys2Proof.Machine.execPack h dt st rm sat d a s
  | .unpack h dt st rm sat d a => Sys2Proof.Machine.execUnpack h dt st rm sat d a s
  | .shuf h ty d a b => Sys2Proof.Machine.execShuf h ty d a b s
  | .shufup h ty d a b => Sys2Proof.Machine.execShufup h ty d a b s
  | .shufdn h ty d a b => Sys2Proof.Machine.execShufdn h ty d a b s
  | .shufx h ty d a b => Sys2Proof.Machine.execShufx h ty d a b s
  | .gsel h ty n d a b => Sys2Proof.Machine.execGsel h ty n d a b s
  | .bcast h ty d a b => Sys2Proof.Machine.execBcast h ty d a b s
  | .vote h op d a => Sys2Proof.Machine.execVote h op d a s
  | .redu h ty op d a => Sys2Proof.Machine.execRedu h ty op d a s
  | .scan h ty op d a => Sys2Proof.Machine.execScan h ty op d a s
  | .frcp h d a => Sys2Proof.Machine.execFrcp h d a s
  | .frsq h d a => Sys2Proof.Machine.execFrsq h d a s
  | .fexp2 h d a => Sys2Proof.Machine.execFexp2 h d a s
  | .flog2 h d a => Sys2Proof.Machine.execFlog2 h d a s
  | .fsinpi h d a => Sys2Proof.Machine.execFsinpi h d a s
  | .fcospi h d a => Sys2Proof.Machine.execFcospi h d a s
  | .ftanh h d a => Sys2Proof.Machine.execFtanh h d a s
  | .fflg h d => Sys2Proof.Machine.execFflg h d s
  | .fclr h a => Sys2Proof.Machine.execFclr h a s
  | .ld h m => Sys2Proof.Machine.execLd h m s
  | .ldl h m => Sys2Proof.Machine.execLdl h m s
  | .ldt h m => Sys2Proof.Machine.execLdt h m s
  | .sst h m => Sys2Proof.Machine.execSst h m s
  | .sstl h m => Sys2Proof.Machine.execSstl h m s
  | .sstt h m => Sys2Proof.Machine.execSstt h m s
  | .pst h m => Sys2Proof.Machine.execPst h m s
  | .prf h m => Sys2Proof.Machine.execPrf h m s
  | .cpy h m => Sys2Proof.Machine.execCpy h m s
  | .cpy2d h m => Sys2Proof.Machine.execCpy2d h m s
  | .cpyq h d => Sys2Proof.Machine.execCpyq h d s
  | .cpyre h a b => Sys2Proof.Machine.execCpyre h a b s
  | .gth h m => Sys2Proof.Machine.execGth h m s
  | .sct h m => Sys2Proof.Machine.execSct h m s
  | .ctr h d k => Sys2Proof.Machine.execCtr h d k s
  | .ctrset h k a => Sys2Proof.Machine.execCtrset h k a s
  | .zfill h m => Sys2Proof.Machine.execZfill h m s
  | .tagq h d a => Sys2Proof.Machine.execTagq h d a s
  | .tagset h a b => Sys2Proof.Machine.execTagset h a b s
  | .tagclr h a => Sys2Proof.Machine.execTagclr h a s
  | .thld h m => Sys2Proof.Machine.execThld h m s
  | .thst h m => Sys2Proof.Machine.execThst h m s
  | .thset h th w r => Sys2Proof.Machine.execThset h th w r s
  | .thget h d th w => Sys2Proof.Machine.execThget h d th w s
  | .thinv h th => Sys2Proof.Machine.execThinv h th s
  | .plnz h thA thB => Sys2Proof.Machine.execPlnz h thA thB s
  | .unpln h thA thB => Sys2Proof.Machine.execUnpln h thA thB s
  | .mma h ty zero scaled dirA dirB acc thA thB k => Sys2Proof.Machine.execMma h ty zero scaled dirA dirB acc thA thB k s
  | .mmz h ty acc => Sys2Proof.Machine.execMmz h ty acc s
  | .mmld h ty acc thC => Sys2Proof.Machine.execMmld h ty acc thC s
  | .mmst h acc thC => Sys2Proof.Machine.execMmst h acc thC s
  | .mmrd h d a acc => Sys2Proof.Machine.execMmrd h d a acc s
  | .mmwr h acc a b => Sys2Proof.Machine.execMmwr h acc a b s
  | .mmfl h acc => Sys2Proof.Machine.execMmfl h acc s
  | .deferredTrap => Sys2Proof.Machine.execDeferredTrap s
  | .asynchronousTeamFault => Sys2Proof.Machine.execAsynchronousTeamFault s
  | .longLatencyComplete gid pid => Sys2Proof.Machine.execLongLatencyComplete gid pid s
  | .splitSwap gid => Sys2Proof.Machine.execSplitSwap gid s
  | .boundaryForm dom => Sys2Proof.Machine.execBoundaryForm dom s
  | .boundaryLanded dom => Sys2Proof.Machine.execBoundaryLanded dom s
  | .mergeBufferPart dom part => Sys2Proof.Machine.execMergeBufferPart dom part s
  | .drainEndMark dom home tid => Sys2Proof.Machine.execDrainEndMark dom home tid s
  | .crusherPart dom part => Sys2Proof.Machine.execCrusherPart dom part s
  | .orderedReplay dom home => Sys2Proof.Machine.execOrderedReplay dom home s
  | .engineComplete tid rec reply => Sys2Proof.Machine.execEngineComplete tid rec reply s
  | .bind ctx => Sys2Proof.Machine.execBind ctx s
  | .run ctx => Sys2Proof.Machine.execRun ctx s
  | .preempt ctx => Sys2Proof.Machine.execPreempt ctx s
  | .preemptionFreeze gid => Sys2Proof.Machine.execPreemptionFreeze gid s
  | .preemptionTimeout gid => Sys2Proof.Machine.execPreemptionTimeout gid s
  | .fullSave gid => Sys2Proof.Machine.execFullSave gid s
  | .teamSave tid => Sys2Proof.Machine.execTeamSave tid s
  | .resume ctx => Sys2Proof.Machine.execResume ctx s
  | .migrateOut ctx => Sys2Proof.Machine.execMigrateOut ctx s
  | .migrateIn ctx => Sys2Proof.Machine.execMigrateIn ctx s
  | .unbind ctx => Sys2Proof.Machine.execUnbind ctx s
  | .disable ctx => Sys2Proof.Machine.execDisable ctx s
  | .cancel ctx => Sys2Proof.Machine.execCancel ctx s
  | .scrubDone ctx => Sys2Proof.Machine.execScrubDone ctx s
  | .vfEnableClear => Sys2Proof.Machine.execVfEnableClear s
  | .functionLevelReset fn => Sys2Proof.Machine.execFunctionLevelReset fn s
  | .qtBaseWrite ctx v => Sys2Proof.Machine.execQtBaseWrite ctx v s
  | .qtCountWrite ctx v => Sys2Proof.Machine.execQtCountWrite ctx v s
  | .doorbell ctx queue => Sys2Proof.Machine.execDoorbell ctx queue s
  | .queuePoll slot => Sys2Proof.Machine.execQueuePoll slot s
  | .queueSweep ctx => Sys2Proof.Machine.execQueueSweep ctx s
  | .queueLoad ctx queue slot => Sys2Proof.Machine.execQueueLoad ctx queue slot s
  | .sliceExpiry slot => Sys2Proof.Machine.execSliceExpiry slot s
  | .queueUnload slot => Sys2Proof.Machine.execQueueUnload slot s
  | .recordFetch slot => Sys2Proof.Machine.execRecordFetch slot s
  | .launch slot => Sys2Proof.Machine.execLaunch slot s
  | .teamPlacement ctx => Sys2Proof.Machine.execTeamPlacement ctx s
  | .compaction ctx => Sys2Proof.Machine.execCompaction ctx s
  | .teamEnd tid => Sys2Proof.Machine.execTeamEnd tid s
  | .gridEnd grid => Sys2Proof.Machine.execGridEnd grid s
  | .mstatPoll ctx => Sys2Proof.Machine.execMstatPoll ctx s
  | .pageMoveCut ctx => Sys2Proof.Machine.execPageMoveCut ctx s
  | .pageMoveDone ctx => Sys2Proof.Machine.execPageMoveDone ctx s
  | .scrubLine ctx => Sys2Proof.Machine.execScrubLine ctx s
  | .round ctx => Sys2Proof.Machine.execRound ctx s
  | .abort ctx sent early => Sys2Proof.Machine.execAbort ctx sent early s
  | .precopyRoundEnd ctx stat sent early => Sys2Proof.Machine.execPrecopyRoundEnd ctx stat sent early s
  | .precopyRecord ctx page snap seq body tag last => Sys2Proof.Machine.execPrecopyRecord ctx page snap seq body tag last s
  | .peerStoreArrival dev remoteCtx ctx va bytes msg => Sys2Proof.Machine.execPeerStoreArrival dev remoteCtx ctx va bytes msg s
  | .peerWriteApply ctx => Sys2Proof.Machine.execPeerWriteApply ctx s
  | .peerAck msg accepted => Sys2Proof.Machine.execPeerAck msg accepted s
  | .peerLoadRequest dev remoteCtx ctx va len msg => Sys2Proof.Machine.execPeerLoadRequest dev remoteCtx ctx va len msg s
  | .peerLoadReply gid pid lane reply => Sys2Proof.Machine.execPeerLoadReply gid pid lane reply s
  | .prolenFlitRetry port ok => Sys2Proof.Machine.execProlenFlitRetry port ok s
  | .prolenLaneLoss port => Sys2Proof.Machine.execProlenLaneLoss port s
  | .prolenPortDown port => Sys2Proof.Machine.execProlenPortDown port s
  | .dieLinkFailure die dlc => Sys2Proof.Machine.execDieLinkFailure die dlc s
  | .hostMemAccess write off data => Sys2Proof.Machine.execHostMemAccess write off data s
  | .hostWindowWrite fn reg v => Sys2Proof.Machine.execHostWindowWrite fn reg v s
  | .linkErrorClear ctx v => Sys2Proof.Machine.execLinkErrorClear ctx v s
  | .registerWrite reg v => Sys2Proof.Machine.execRegisterWrite reg v s
  | .attest => Sys2Proof.Machine.execAttest s
  | .loadkey => Sys2Proof.Machine.execLoadkey s
  | .clearkey => Sys2Proof.Machine.execClearkey s
  | .loadsess => Sys2Proof.Machine.execLoadsess s
  | .stagefw => Sys2Proof.Machine.execStagefw s
  | .reset => Sys2Proof.Machine.execReset s
  | .clearlog => Sys2Proof.Machine.execClearlog s
  | .deviceReset => Sys2Proof.Machine.execDeviceReset s
  | .clockStateChange draw tj => Sys2Proof.Machine.execClockStateChange draw tj s
  | .thermalTrip => Sys2Proof.Machine.execThermalTrip s
  | .correctableError => Sys2Proof.Machine.execCorrectableError s
  | .uncorrectableError site => Sys2Proof.Machine.execUncorrectableError site s
  | .compactionComplete ctx => Sys2Proof.Machine.execCompactionComplete ctx s
  | .hostPathResponse write gid pid lane reply => Sys2Proof.Machine.execHostPathResponse write gid pid lane reply s

end Sys2Proof.Machine
end

