-- ==== Sys2Proof/Machine/Issue.lean ====
section
/-! DEFINITION. One issue of a split: what comes before an instruction's own meaning (spec 04_encoding R71, R73, R74, R84,
R91, 08_group R163, R393, 11_traps R254, 12_page R263). -/
namespace Sys2Proof.Machine

/-- A decoded slot is executed; one that is no instruction traps in every active lane (R90). -/
def State.runSlot (s : State) (v : View) (slot : Nat) : Host.Outcome State Fault Refusal :=
  match decodeSlot slot with
  | some i => exec i s
  | none => .next (s.trapSplit v ⟨0x01, 0⟩)

/-- What a slot about to issue meets before the owed traps of its lanes: the first and second place of R91 in the lines that
its fields name. -/
def State.beforeOwed (s : State) (v : View) (slot : Nat) : Option TrapInfo :=
  match decodeSlot slot with
  | some i => s.lineFaults i v
  | none => none

/-- Lanes that owe traps take them, and what is left of the split issues (R91). -/
def State.afterOwed (s : State) (v : View) (line : Nat) : Host.Outcome State Fault Refusal :=
  if v.dues false = [] ∧ v.dues true = [] then s.runSlot v (v.sp.slotOf line)
  else match s.beforeOwed v (v.sp.slotOf line) with
  | some t => .next (s.trapSplit v t)
  | none =>
    match exec .deferredTrap s with
    | .next s1 => match exec .asynchronousTeamFault s1 with
      | .next s2 => match s2.view? with
        | some w => s2.runSlot w (w.sp.slotOf line)
        | none => .next s2
      | r => r
    | r => r

/-- A line read for issue: parity, kind, the wait at its entry (R71, R73, R74, R163). Reserved bits [25:23] of the line word
of a code line are ignored: DESIGN CHOICE, for no rule names a trap for them (log 42). -/
def State.inLine (s : State) (v : View) (line : Nat) : Host.Outcome State Fault Refusal :=
  if !parityOk line then .next (s.trapSplit v ⟨0x50, lineOf v.sp.pc⟩)
  else if lineKind line ≠ 0 then .next (s.trapSplit v ⟨0x01, 0⟩)
  else if v.sp.entered ∧ flagsMeet v.g.pendingFlags (lineWait line) then
    .next (s.setSplit v.gid v.sid { v.sp with st := .flags (lineWait line), entered := false })
  else
    let sp := { v.sp with entered := false }
    (s.setSplit v.gid v.sid sp).afterOwed { v with sp := sp, g := v.g.setSplit v.sid sp } line

/-- The fetch of the line at the PC (R263). -/
def State.fetchIssue (s : State) (v : View) : Host.Outcome State Fault Refusal :=
  match s.fetchLine v.c v.user v.sp.pc with
  | .error t => .next (s.trapSplit v t)
  | .ok (line, e) => ((s.fill e).readLocs v.c [.dram (e.dpn * 4096 + v.sp.pc.toNat % 4096)]).inLine v line

/-- The entry into the backfill stub of a flashback point (R72, R254). -/
def State.enterStub (s : State) (v : View) (f : FlashPt) : State :=
  match s.checkPc v.c v.user f.stub with
  | some t => s.trapSplit v t
  | none => (s.touchPc v.c v.user f.stub).modGroup v.gid (fun g =>
      g.openWindow v.sid { (v.sp.transfer f.stub) with flash := none, loop := v.sp.loop } f)

/-- The pop that a merge left due is completed before the first issue at J, or its fault is raised there (R393). -/
def State.popNow (s : State) (v : View) : State :=
  match pop s v v.sp 1 with
  | .error t => s.trapSplit v t
  | .ok (e, s1, sp) => s1.setSplit v.gid v.sid { sp with rejoin := e.pc, jmask := e.jmask, popDue := false }

/-- One issue of a split (R160); a split that cannot issue is passed over. -/
def State.issueTurn (s : State) (gid sid : Nat) : Host.Outcome State Fault Refusal :=
  match s.viewOf gid sid with
  | none => .next s
  | some v =>
    if !s.canIssue v then .next s
    else
      let s1 := { s with cur := some (gid, sid) }
      if v.sp.popDue then .next (s1.popNow v)
      else match v.sp.flash with
        | some f => if f.pc = v.sp.pc then .next (s1.enterStub v f) else s1.fetchIssue v
        | none => s1.fetchIssue v

end Sys2Proof.Machine
end

