-- ==== Sys2Proof/Machine/Schedule.lean ====
section
/-! DEFINITION. Which agent moves next when the agenda says nothing: one schedule among those the spec allows (spec
08_group R160, R161; log 2). Steps that only the world outside can cause are never chosen. -/
namespace Sys2Proof.Machine

/-! Steps of the device on its own. -/

/-- Steps that a group can be due for. -/
def State.groupEvents (_s : State) (gid : Nat) (g : Group) : List Instr :=
  (g.pend.filter (fun p => match p.kind with
    | .unit | .sent _ => true
    | .verdict | .remote _ => false)).map (fun p => .longLatencyComplete gid p.pid) ++
  [.splitSwap gid, .preemptionFreeze gid, .preemptionTimeout gid, .fullSave gid]

/-- Steps that a landing can be due for. -/
def Landing.events (l : Landing) : List Instr :=
  l.parts.map (fun q => .mergeBufferPart l.dom q.1) ++ l.parts.map (fun q => .crusherPart l.dom q.1) ++
  (distinct (l.parts.map (fun q => q.2.home))).flatMap (fun h =>
    l.teams.map (fun t => .drainEndMark l.dom h t.2) ++ [.orderedReplay l.dom h]) ++ [.boundaryLanded l.dom]

/-- Does something wait for the next boundary of a domain: a lane that reached it by a step of its own, a contribution or
update that would land, or a `yieldc` whose test would pass (R190, R394). A boundary that nothing waits for need not form. -/
def State.wanted (s : State) (d : Domain) : Bool :=
  let b := s.landed d + 1
  let gs := s.domGroups d
  gs.any (fun e => e.2.splits.any (fun q => countGe (q.2.count (domScope d)) b)) || decide (s.dueContribs d b ≠ []) ||
  (match d with
    | .team tid => match fget s.teams tid with
      | some t => decide (t.upds ≠ []) || t.cmds.any (fun e => decide (e.2.st = .completed)) ||
          (match fget s.grids t.grid with
            | some gr => gs.any (fun e => e.2.splits.any (fun q => e.2.resumes gr t q.2.st))
            | none => false)
      | none => false
    | _ => false)

/-- The forming of a boundary, when something waits for it. -/
def State.formEvent (s : State) (d : Domain) : List Instr := if s.wanted d then [.boundaryForm d] else []

/-- Steps that a team can be due for. -/
def State.teamEvents (s : State) (tid : Nat) (t : Team) : List Instr :=
  (t.cmds.filter (fun e => decide (e.2.st = .running) && decide (e.2.farSources = []))).map (fun e => .engineComplete tid e.1 none) ++
  s.formEvent (.team tid) ++ [.teamSave tid, .teamEnd tid]

/-- Steps that a grid can be due for. -/
def State.gridEvents (s : State) (n : Nat) (gr : Grid) : List Instr :=
  (List.range gr.dies).flatMap (fun d => s.formEvent (.die n d)) ++ s.formEvent (.grid n) ++ [.gridEnd n]

/-- The slots that a waiting queue may take: the lowest that is free, or any when none is (R120). -/
def State.loadSlots (s : State) : List Nat :=
  match (List.range 256).find? (fun k => (fget s.slots k).isNone) with
  | some k => [k]
  | none => List.range 256

/-- Steps that a context can be due for. -/
def State.ctxEvents (s : State) (c : Nat) (x : Ctx) : List Instr :=
  [.bind c, .run c, .preempt c, .resume c, .migrateOut c, .migrateIn c, .unbind c, .disable c, .cancel c, .scrubDone c,
   .queueSweep c, .teamPlacement c, .compactionComplete c, .compaction c, .peerWriteApply c, .mstatPoll c, .pageMoveCut c,
   .pageMoveDone c, .scrubLine c] ++
  (if x.roundDue then [.round c] else []) ++
  (x.queues.filter (fun q => decide (q.2.st = .waiting))).flatMap (fun q => s.loadSlots.map (fun k => .queueLoad c q.1 k))

/-- Steps that a hardware slot can be due for. -/
def slotEvents (k : Nat) : List Instr := [.queueUnload k, .queuePoll k, .recordFetch k, .launch k, .sliceExpiry k]

/-- Every step that the device can make on its own accord. -/
def State.events (s : State) : List Instr :=
  s.groups.flatMap (fun e => s.groupEvents e.1 e.2) ++ s.landings.flatMap Landing.events ++
  s.teams.flatMap (fun e => s.teamEvents e.1 e.2) ++ s.grids.flatMap (fun e => s.gridEvents e.1 e.2) ++
  s.ctxs.flatMap (fun e => s.ctxEvents e.1 e.2) ++ s.slots.flatMap (fun e => slotEvents e.1) ++
  [.attest, .loadkey, .clearkey, .loadsess, .stagefw, .reset, .clearlog]

/-- The state after a step, if it changes anything. -/
def State.try (s : State) (i : Instr) : Option State :=
  match exec i s with
  | .next t => if t = s then none else some t
  | .fault _ => none
  | .refused _ => none

/-! Issue (R160, R161). -/

/-- A split that may issue, with what R160 ranks it by. -/
structure Candidate where
  gid : Nat
  sid : Nat
  quad : Nat
  waited : Nat
  opps : Nat
  cycles : Nat
  mode : Nat
  birth : Nat
  last : Nat
  deriving DecidableEq, Repr

/-- The splits that may issue. -/
def State.candidates (s : State) : List Candidate :=
  s.groups.flatMap (fun e => (e.2.splits.map (·.2)).filterMap (fun sp => match s.viewOf e.1 sp.sid with
    | none => none
    | some v =>
      if s.canIssue v then some ⟨e.1, sp.sid, e.2.quad, e.2.waited, sp.opps, sp.cycles, sp.mode.code, e.2.birth, sp.lastIssue⟩
      else none))

/-- Is one that has missed w turns of those that must come within a bound of turns: some of them, which have missed as many as
it at most, leave no turn to any other. -/
def mustGo (bound : Nat) (ws : List Nat) (w : Nat) : Bool :=
  let tight := ws.filter (fun x => decide (x + (ws.filter (fun y => decide (y ≥ x))).length ≥ bound))
  decide (tight ≠ []) && tight.all (fun x => decide (x ≤ w))

/-- Must a candidate issue before its siblings, for one of 64 opportunities of its group to be its own (R161). -/
def owedInGroup (cs : List Candidate) (c : Candidate) : Bool :=
  mustGo 64 ((cs.filter (fun d => decide (d.gid = c.gid))).map (·.opps)) c.opps

/-- How many cycles of its quadrant a group has waited with a split that stays ready. -/
def groupWait (cs : List Candidate) (gid : Nat) : Nat :=
  ((cs.filter (fun d => decide (d.gid = gid))).map (·.cycles)).foldl max 0

/-- How far the promises of R161 require a candidate of a quadrant to issue: 2, as the one or one of those that keep the bound of
512 cycles for its group, and its siblings' bounds; 1, as one that must go before its siblings; otherwise 0. -/
def owedRank (cs : List Candidate) (c : Candidate) : Nat :=
  let gids := distinct (cs.map (·.gid))
  let mine := cs.filter (fun d => decide (d.gid = c.gid))
  if mustGo 512 (gids.map (groupWait cs)) (groupWait cs c.gid) ∧ (owedInGroup cs c ∨ mine.all (fun d => !owedInGroup cs d)) then 2
  else if owedInGroup cs c then 1
  else 0

/-- The order of R160 within a quadrant: promises of R161, higher mode, older group, oldest last issue. -/
def Candidate.before (cs : List Candidate) (a b : Candidate) : Bool :=
  if owedRank cs a ≠ owedRank cs b then decide (owedRank cs a > owedRank cs b)
  else if a.mode ≠ b.mode then decide (a.mode > b.mode)
  else if a.birth ≠ b.birth then decide (a.birth < b.birth)
  else decide (a.last < b.last)

/-- The first of some candidates by an order. -/
def firstBy (before : Candidate → Candidate → Bool) : List Candidate → Option Candidate
  | [] => none
  | a :: as => match firstBy before as with
    | none => some a
    | some b => if before b a then some b else some a

/-- The candidate that issues: the quadrant that has stood by the longest goes next, and chooses in the order of R160. -/
def firstOf (cs : List Candidate) : Option Candidate :=
  (firstBy (fun a b => decide (a.waited > b.waited)) cs).bind (fun q =>
    let mine := cs.filter (fun c => decide (c.quad = q.quad))
    firstBy (Candidate.before mine) mine)

/-- What a split of some group has stood by for, once the one chosen issues: nothing unless it was a candidate as well. -/
def Split.noted (sp : Split) (n : Nat) (g : Group) (cs : List Candidate) (x : Candidate) : Split :=
  if !cs.any (fun c => decide (c.gid = n) && decide (c.sid = sp.sid)) ∨ (n = x.gid ∧ sp.sid = x.sid) then { sp with opps := 0, cycles := 0 }
  else if n = x.gid then { sp with opps := sp.opps + 1, cycles := 0 }
  else if g.quad = x.quad then { sp with cycles := sp.cycles + 1 }
  else sp

/-- The splits and groups that were ready and not chosen have waited one issue more (R161). -/
def State.noteIssue (s : State) (cs : List Candidate) (x : Candidate) : State :=
  { s with groups := fmapV (fun n g => { g with
      waited := if g.quad ≠ x.quad ∧ cs.any (fun c => decide (c.gid = n)) then g.waited + 1 else 0
      splits := fmapV (fun _ sp => sp.noted n g cs x) g.splits }) s.groups }

/-- Time passes: the reference clock advances, and pre-copy rounds go on (R100, R290). -/
def State.pass (s : State) (ns : Nat) : State := ({ s with time := s.time + ns } : State).streamOn

/-- The step that the device makes with an empty agenda: a step that is due, otherwise an issue, otherwise time passes. -/
def State.autoStep (s : State) : Host.Outcome State Fault Refusal :=
  match s.events.findSome? s.try with
  | some t => .next t
  | none =>
    let cs := s.candidates
    match firstOf cs with
    | some c => (s.noteIssue cs c).issueTurn c.gid c.sid
    | none => .next (s.pass 1)

/-- A step that the agenda names. An instruction of a slot is none: it comes only with a split that issues. -/
def State.eventTurn (s : State) (i : Instr) : Host.Outcome State Fault Refusal := if i.isSlot then .next s else exec i s

/-- One step: the first turn of the agenda, or one of the device's own accord. -/
def State.turn (s : State) : Host.Outcome State Fault Refusal :=
  match s.agenda with
  | [] => { s with cur := none }.autoStep
  | .issue gid sid :: rest => { s with agenda := rest, cur := none }.issueTurn gid sid
  | .event i :: rest => { s with agenda := rest, cur := none }.eventTurn i
  | .tick ns :: rest => .next ({ s with agenda := rest, cur := none }.pass ns)

/-! A program's first instruction (log 13). -/

/-- A line that holds one instruction in its first slot and `nop` in the others, with its parity bits and its target bits
(R70, R71, R73). -/
def lineWith (slot : Nat) : Nat :=
  let slots := slot + (List.range 4).foldl (fun m i => m + 0x1E00 * 2 ^ (96 * (i + 1))) 0
  let par := (List.range 5).foldl (fun m i => m + if parity 96 (slots / 2 ^ (96 * i) % 2 ^ 96) then 2 ^ (26 + i) else 0) 0
  let w := 0x1F000 + par
  slots + (w + if parity 31 w then 2 ^ 31 else 0) * 2 ^ 480

/-- The grid that the first instruction belongs to: one team of one group with every resource a group can have. -/
def bootGrid : Grid :=
  { ctx := 0, queue := 0, seqNo := 0, image := 0, kernel := 0, dies := 1, teams := 1, residency := 3, gang := 1, groups := 1, prod := 0,
    pregs := 384, cregs := 384, ptiles := 16, ctiles := 16, nhandles := 64, order := List.range 48, spad := 4096,
    entry := 0x90000000#64, rodata := 0x8000000090000000#64, args := 0x90001000#64, crec := 0x90002000#64, det := true, fnver := 1,
    irq := false, vector := 0, nextTeam := [(0, 1)], lastCore := [], landedD := [], landedG := 0, exitG := none, late := none }

/-- Context 0 running in quadrant 0, its guest stage off, its hypervisor stage at 0x8000_0000. -/
def bootCtx (x : Ctx) : Ctx :=
  { x with
    st := .running, busy := false, cmd := none, stop := .none, quads := [0], ptbase := 0, ptbase2 := 0x80000000#64, memkey := 0
    scrub := [] }

/-- A state with one group about to issue the instruction of a slot: the hypervisor stage maps the IPAs of 0x8000_0000 to
0xBFFF_FFFF onto the same device addresses, and the code line lies at 0x9000_0000 under the key of slot 0. -/
def State.boot (s : State) (slot : Nat) : State :=
  let s1 := (s.setCtx 0 (bootCtx (s.ctx 0))).setMgmt { s.mgmt with keys := fset s.mgmt.keys 0 1 }
  let s2 := (s1.putRaw s1.fwKey 0x80000000 (leBytes 8 0x80002001)).putRaw s1.fwKey 0x80002010 (leBytes 8 0x800000F3)
  let s3 := s2.putRaw (s2.keyOf 0) 0x90000000 (leBytes 64 (lineWith slot))
  let s4 := { (s3.setGrid s3.nextGrid bootGrid) with nextGrid := s3.nextGrid + 1 }
  let s5 := s4.bornTeam s3.nextGrid bootGrid 0 0 ⟨0, 0, [⟨0, 0, 0, 0, 384, 16⟩]⟩
  { s5 with tlb := s5.tlb.filter (fun e => decide (e.ctx ≠ 0)), compacts := fdel s5.compacts 0, agenda := .issue s4.nextGroup 0 :: s5.agenda }

end Sys2Proof.Machine
end

