-- ==== Sys2Proof/Machine/Step.lean ====
section
/-! DEFINITION. One step of the device, and where its next instruction is fetched. -/
namespace Sys2Proof.Machine

/-- One step: the agent that the agenda names moves, or one that the device's own schedule chooses (log 2). -/
def step (s : State) : Host.Outcome State Fault Refusal := s.turn

/-- A state whose next step fetches and runs an instruction (log 13). -/
def State.withFetchWord (s : State) (nbits w : Nat) : State := s.boot (w % 2 ^ nbits)

end Sys2Proof.Machine
end

