-- ==== Sys2Proof/Machine/HostPort.lean ====
section
/-! DEFINITION. What the host port maps: the registers at each offset of BAR0, BAR2 and BAR4, what a read returns, and which step
a write is (spec 00_scope R5, 05_context R99, 06_queue R114, 13_link R277, R279, R287-R289, 23_platform R390). -/
namespace Sys2Proof.Machine

/-- A register that the host port maps. -/
inductive HostReg where
  | dev (r : DevReg)
  | priv (c : Nat) (k : PReg)
  | qtBase (c : Nat)
  | qtCount (c : Nat)
  | doorbell (c q : Nat)
  | linkErr (c : Nat)
  deriving DecidableEq, Repr

/-- The regions through which the host reaches registers. -/
inductive Bar where
  | bar0 | bar2 | bar4
  deriving DecidableEq, Repr

/-- The register of the management block at an offset below 0x10_0000 (R390). -/
def mgmtReg (off : Nat) : Option HostReg :=
  match off with
  | 0x00 => some (.dev .mgStat)
  | 0x08 => some (.dev .mgCmd)
  | 0x10 => some (.dev .mgPwr)
  | 0x18 => some (.dev .mgTemp)
  | 0x20 => some (.dev .mgErr)
  | _ => if 0x1000 ≤ off ∧ off < 0x2000 then some (.dev (.mailbox (off - 0x1000))) else none

/-- The register at an offset of a context's queue window (R114). -/
def queueReg (c off : Nat) : Option HostReg :=
  match off with
  | 0x00 => some (.qtBase c)
  | 0x08 => some (.qtCount c)
  | 0x10 => some (.dev (.qtStat c))
  | _ => if 0x80000 ≤ off ∧ off < 0x100000 then some (.doorbell c ((off - 0x80000) / 8)) else none

/-- The register at an offset of the link block (R277). -/
def linkReg (off : Nat) : Option HostReg :=
  if off < 0x80000 then some (.dev (.peerEntry (off / 0x2000) (off % 0x2000 / 8)))
  else if off < 0x80080 then some (.dev (.hostWindow ((off - 0x80000) / 8)))
  else if 0x90000 ≤ off ∧ off < 0x94000 then
    match (off - 0x90000) % 0x100 with
    | 0x00 => some (.dev (.precopyCtl ((off - 0x90000) / 0x100)))
    | 0x08 => some (.dev (.precopySess ((off - 0x90000) / 0x100)))
    | 0x10 => some (.dev (.precopySent ((off - 0x90000) / 0x100)))
    | _ => none
  else if 0xA0000 ≤ off ∧ off < 0xA0200 then some (.linkErr ((off - 0xA0000) / 8))
  else none

/-- The register that an aligned access of a function reaches in a region: the physical function (0) reaches the management
block, the windows of all contexts and the link block, a virtual function those of its own context (R99, R114, R277, R390). -/
def State.regAt (s : State) (fn : Nat) (bar : Bar) (off : Nat) : Option HostReg :=
  let own := (List.range 64).find? (fun c => decide ((s.ctx c).fn = fn))
  if off % 8 ≠ 0 then none
  else match bar with
    | .bar0 =>
      if fn = 0 then
        if off < 0x100000 then mgmtReg off
        else if off < 0x300000 then (PReg.ofCode ((off - 0x100000) % 0x8000 / 8)).map (fun k => .priv ((off - 0x100000) / 0x8000) k)
        else none
      else match PReg.ofCode (off / 8), own with
        | some k, some c => if PReg.guest k then some (.priv c k) else none
        | _, _ => none
    | .bar2 =>
      if fn = 0 then (if off < 64 * 0x100000 then queueReg (off / 0x100000) (off % 0x100000) else none)
      else own.bind (fun c => queueReg c off)
    | .bar4 => if fn = 0 then linkReg off else none

/-- A device register as a read returns it: RO, RW and W1C fields show their state, WO and RV fields read zero (R5, R114, R279,
R287, R289, R390). -/
def State.readDev (s : State) : DevReg → Nat
  | .mgStat => 2 ^ 31 * b2n s.mgmt.busy + 2 ^ 16 * s.mgmt.err + 2 ^ 14 * s.mgmt.pstate + 2 ^ 12 * s.mgmt.state + s.mgmt.devnum % 1024
  | .mgCmd => 0
  | .mgPwr => 2 ^ 16 * s.mgmt.cap + s.mgmt.draw
  | .mgTemp => s.mgmt.tj
  | .mgErr => 2 ^ 8 * s.mgmt.corr + 2 ^ 7 * b2n s.mgmt.ctxv + s.mgmt.ctx % 64
  | .mailbox o => leNat ((List.range 8).map (fun i => sget 0 s.mgmt.mailbox (o / 8 * 8 + i)))
  | .peerEntry c p => (sget 0 (s.ctx c).peers p).toNat
  | .hostWindow w => (sget 0 s.hwin w).toNat
  | .precopyCtl c => 2 ^ 31 * b2n (s.ctx c).pcBusy + 2 ^ 16 * (s.ctx c).pcStat + 2 ^ 8 * (s.ctx c).pcPorts
  | .precopySess c => (s.ctx c).pcSess
  | .precopySent c => (s.ctx c).pcSent
  | .qtStat c => (s.ctx c).qtErr

/-- A mapped register as a read returns it; a doorbell is write-only and reads zero (R99, R114, R288). -/
def State.readHostReg (s : State) : HostReg → Nat
  | .dev r => s.readDev r
  | .priv c k => s.windowRead c k
  | .qtBase c => (s.ctx c).qtBase.toNat
  | .qtCount c => (s.ctx c).qtCount
  | .doorbell _ _ => 0
  | .linkErr c => (s.ctx c).linkErr.toNat

/-- What an 8-byte read of a region returns: every other offset reads zero. While the device is booting the host port answers the
management block alone (R383). -/
def State.hostRead (s : State) (fn : Nat) (bar : Bar) (off : Nat) : Option Nat :=
  let r := s.regAt fn bar off
  let mine := match bar with
    | .bar0 => decide (fn = 0) && decide (off < 0x100000)
    | .bar2 | .bar4 => false
  if s.answers || mine then some ((r.map s.readHostReg).getD 0) else none

/-- The steps that a write of a mapped register can be; the commands of the pre-copy control register are steps of their own,
beside the write of its ports, unless the write sets an RV bit (R277, R289). An ABORT ends the round where it stands. -/
def State.writeStep (s : State) (r : HostReg) (v : Dword) : List Instr :=
  match r with
  | .dev (.precopyCtl c) =>
    let gone := ((s.ctx c).round.map (fun r => (r.sent, r.early))).getD (0, 0)
    .registerWrite (.precopyCtl c) v ::
      (if bits v.toNat 63 32 ≠ 0 ∨ bits v.toNat 30 24 ≠ 0 ∨ bits v.toNat 7 4 ≠ 0 then []
        else if bits v.toNat 3 0 = 1 then [.round c] else if bits v.toNat 3 0 = 2 then [.abort c gone.1 gone.2] else [])
  | .dev d => [.registerWrite d v]
  | .priv c k => [.hostWindowWrite (.pf c) k v]
  | .qtBase c => [.qtBaseWrite c v]
  | .qtCount c => [.qtCountWrite c v]
  | .doorbell c q => [.doorbell c q]
  | .linkErr c => [.linkErrorClear c v]

/-- The steps that an 8-byte write of a region is; every other offset ignores it (R99, R114, R277, R390). -/
def State.writeSteps (s : State) (fn : Nat) (bar : Bar) (off : Nat) (v : Dword) : List Instr :=
  ((s.regAt fn bar off).map (fun r => s.writeStep r v)).getD []

end Sys2Proof.Machine
end

