-- ==== Sys2Proof/Safety.lean ====
section
/-! DEFINITION. The terms in which claims about the machine are stated: when an instruction passes its checks, what an
instruction that retires leaves, the invariant of the device's state. -/
namespace Sys2Proof.Machine

/-! The invariant. -/

/-- Memory, its key tags, the marks of written private bytes, the host windows, the cached lines, and the maps of contexts, slots, grids,
teams and groups are in canonical form, so that equal contents are equal data; there are sixteen ports. -/
def State.Inv (s : State) : Prop :=
  (Memory.wf s.mem = true ∧ fwf s.ktag = true ∧ swf false s.priv = true ∧ swf 0 s.hwin = true ∧ swf false s.cache = true) ∧
  (swf Ctx.reset s.ctxs = true ∧ fwf s.slots = true ∧ fwf s.grids = true ∧ fwf s.teams = true ∧ fwf s.groups = true) ∧
  s.ports.length = 16

/-- The names that a group has given: each split stands under its own name, each level and each pending result under a
name that the group has given, and no two pending results share one. -/
def Group.Named (g : Group) : Prop :=
  fwf g.splits = true ∧ fwf g.levels = true ∧ (∀ e ∈ g.splits, e.2.sid = e.1 ∧ e.1 < g.nextId) ∧
  (∀ e ∈ g.levels, e.1 < g.nextId) ∧ (∀ p ∈ g.pend, p.pid < g.nextId) ∧ g.pend.Pairwise (fun p q => p.pid ≠ q.pid)

/-- Every group's names are in order, and groups, teams and grids stand under names that the device has given. -/
def State.Named (s : State) : Prop :=
  (∀ e ∈ s.groups, e.2.Named ∧ e.1 < s.nextGroup) ∧ (∀ e ∈ s.teams, e.1 < s.nextTeam) ∧ (∀ e ∈ s.grids, e.1 < s.nextGrid)

/-! An instruction at issue. -/

/-- The instruction passes every check that R91 makes of it before its own effect: an issuing split is named, the term is
one that an encoding admits, the mode may run it, its operands exist and fit, no float sum asks for a verdict, an
MX-class instruction finds every live lane active, and no operand is pending. -/
abbrev Ready (i : Instr) (s : State) (v : View) : Prop :=
  s.view? = some v ∧ i.wf = true ∧ modeOk v.sp.mode i = true ∧
  (∀ u ∈ v.uses i, u.ok v.g.nregs v.g.ntiles v.gr.nhandles = true) ∧ sumVerdict i = false ∧
  (i.isMX = true → v.sp.mask = v.g.live) ∧ (∀ u ∈ v.uses i, v.unsync i u = none)

/-- The split as its instruction issues: the issue is counted, and a closing instruction closes the rewind window (R160,
R247). -/
def View.issued (v : View) (i : Instr) : Split :=
  { v.sp with lastIssue := v.g.seq + 1, mustIssue := false, window := if i.closes then none else v.sp.window }

/-- The group of an instruction that has issued, its split replaced. -/
def View.with (v : View) (sp : Split) : Group :=
  { v.g with seq := v.g.seq + 1, splits := fset v.g.splits v.sid sp }

/-- The group after an instruction that has retired with no effect but the next PC (R72, R175). -/
def View.retired (v : View) (i : Instr) : Group := v.with (v.issued i).advance

/-- The state that the instruction's own effect finds, its issue counted. -/
def State.issuing (s : State) (v : View) (i : Instr) : State := s.setGroup v.gid (v.with (v.issued i))
/-- The view of the instruction's own effect. -/
def View.begun (v : View) (i : Instr) : View := { v with g := v.with (v.issued i), sp := v.issued i }

/-- The instruction takes a trap as it stands: `takeTrap` from the split it issues in. -/
def Traps (i : Instr) (s : State) (v : View) (r : TrapReq) : Prop :=
  exec i s = .next ((s.issuing v i).takeTrap v.gid v.sid (v.issued i) r)

/-- The state after an instruction whose whole effect is on its group. -/
def Leaves (i : Instr) (s : State) (v : View) (g : Group) : Prop := exec i s = .next (s.setGroup v.gid g)

/-- The state after an instruction whose whole effect is on its group and on the translations that its line reads cached. -/
def LeavesRead (i : Instr) (s : State) (v : View) (g : Group) : Prop :=
  ∃ t : State, exec i s = .next t ∧ t = { s.setGroup v.gid g with tlb := t.tlb }

/-- The state after an instruction that has read bytes of this device, which from u on has its effect on its group and the
translations cached, and, only where a line that it read was still to be scrubbed, that line scrubbed (R267, R274). -/
def LeavesLoadFrom (u : State) (i : Instr) (s : State) (v : View) (ls : List Loc) (g : Group) : Prop :=
  ∃ t : State, exec i s = .next t ∧
    t = { u.setGroup v.gid g with tlb := t.tlb, mem := t.mem, ktag := t.ktag, ctxs := t.ctxs, cache := t.cache } ∧
    ((∀ a, Loc.dram a ∈ ls → u.scrubPending (64 * (a / 64)) = false) →
      t.mem = u.mem ∧ t.ktag = u.ktag ∧ t.ctxs = u.ctxs ∧ t.cache = u.cache)

/-- The same of an instruction that has its whole effect in the state it issues in. -/
abbrev LeavesLoad (i : Instr) (s : State) (v : View) (ls : List Loc) (g : Group) : Prop := LeavesLoadFrom s i s v ls g

/-- Some lines that waited to be scrubbed have been read, so that they are zero and wait no more; nothing else has changed but
the counts of such lines, and where none waited nothing has (R274). -/
def State.Scrubs (s u : State) : Prop :=
  u = { s with mem := u.mem, ktag := u.ktag, ctxs := u.ctxs, cache := u.cache } ∧
  (∀ c, u.ctx c = { s.ctx c with scrub := (u.ctx c).scrub }) ∧ (∀ a, u.scrubPending a = true → s.scrubPending a = true) ∧
  ((∀ e ∈ s.ctxs, e.2.scrub = []) → u = s)

/-- The line of an address does not stand enciphered under an earlier material of a key's slot, so that what the key reads
there does not depend on the line's being cached (R273). -/
def State.Plain (s : State) (k : Key) (a : Nat) : Prop := ∀ w, fget s.ktag (a / 64) = some w → w.slot = k.slot → w = k

/-- The instruction takes one trap in every active lane. -/
def TrapsAll (i : Instr) (s : State) (v : View) (f : TrapInfo) : Prop :=
  Traps i s v (trapAll v.sp.mask f.code v.sp.pc f.tval)

/-- The same after line reads that its own checks made. -/
def TrapsRead (i : Instr) (s : State) (v : View) (f : TrapInfo) : Prop :=
  ∃ t : State, t = { s.issuing v i with tlb := t.tlb } ∧
    exec i s = .next (t.takeTrap v.gid v.sid (v.issued i) (trapAll v.sp.mask f.code v.sp.pc f.tval))

/-- The line of a PC is read and fails its parity (R73). -/
def ParityLost (s : State) (v : View) (pc : Dword) : Prop :=
  ∃ line e, s.fetchLine v.c v.user pc = .ok (line, e) ∧ parityOk line = false

/-- A PC that a transfer of the issuing split may go to (R72). -/
def Legal (s : State) (v : View) (pc : Dword) : Prop := s.checkPc v.c v.user pc = none

/-- The group of an instruction that has transferred its split (R72, R176). -/
def View.goes (v : View) (i : Instr) (pc : Dword) : Group := v.with ((v.issued i).transfer pc)

/-- No split of the group waits at a join, and none is dormant. -/
def Group.Settled (g : Group) : Prop := ∀ e ∈ g.splits, e.2.st ≠ .join ∧ e.2.place ≠ .dormant

/-- The split has an entry of the table and a push of its own stack needs no spill (R150, R154). -/
def Split.Roomy (sp : Split) : Prop := sp.place ≠ .dormant ∧ sp.held.length < 8 ∧ sp.sbase + sp.depth < 64

/-- The entries of the split table that no split holds. -/
def Group.free (g : Group) : Nat :=
  (List.range 8).countP (fun n => g.splits.all (fun e => decide (e.2.place ≠ .resident n)))

/-- The split with an entry pushed. -/
def Split.pushed (sp : Split) (e : StackEntry) : Split := { sp with held := e :: sp.held, depth := sp.depth + 1 }

/-! Results. -/

/-- What register r of lane l holds afterwards: in a participating lane, the words of its value in the n registers from
d up, and otherwise what it held; nothing is written at vz (R47, R76, R293). -/
def View.after (v : View) (p : LaneMask) (d n : Nat) (val : Nat → Nat) (r l : Nat) : Word :=
  if p.getLsbD l = true ∧ d ≤ r ∧ r < d + n ∧ r < 384 then BitVec.ofNat 32 (val l / 2 ^ (32 * (r - d))) else v.g.rd r l

/-- The sticky flag word that the split's flags belong to has taken flags up, and no other has changed (R60-R63). -/
def View.Flagged (v : View) (f : FFlags) (g : Group) : Prop :=
  g.sticky = (if v.lid = none then v.g.sticky ||| BitVec.setWidth 32 f else v.g.sticky) ∧
  ∀ k, fget g.levels k = (fget v.g.levels k).map (fun lv =>
    if v.lid = some k then { lv with hflags := lv.hflags ||| BitVec.setWidth 32 f } else lv)

/-- The instruction answers a next state in which n registers from d up hold its result in every lane of p, its flags are
taken up, its split is past it, and nothing else has changed. -/
def Computes (i : Instr) (s : State) (v : View) (p : LaneMask) (d n : Nat) (val : Nat → Nat) (f : FFlags) : Prop :=
  ∃ g, Leaves i s v g ∧ (∀ r l, l < 32 → g.rd r l = v.after p d n val r l) ∧ v.Flagged f g ∧
    g = { v.retired i with
          regs := g.regs, sticky := g.sticky, stickyBase := g.stickyBase, stickyLog := g.stickyLog, levels := g.levels }

/-- The flags of several lanes together (R60). -/
def flagsOf (p : LaneMask) (f : Nat → FFlags) : FFlags := (maskLanes p).foldr (fun l a => f l ||| a) 0

/-- A flag that any lane of a mask raises. -/
def flagWhere (p : LaneMask) (c : Nat → Bool) (f : FFlags) : FFlags := if (maskLanes p).any c then f else 0

/-- The writes of a result into n registers from d up in every lane of a mask. -/
def laneWrites (p : LaneMask) (d n : Nat) (val : Nat → Nat) : RegWrites := (maskLanes p).flatMap (fun l => writesN l d n (val l))

/-- The group after an instruction whose result p comes later: it is pending under its flag, and without a flag the split
waits for it (R75, R162). -/
def View.pends (v : View) (i : Instr) (p : Pending) : Group :=
  { v.with (if p.flag = 15 then { (v.issued i).advance with st := .own } else (v.issued i).advance) with
    nextId := v.g.nextId + 1
    pend := v.g.pend ++ [{ p with
      pid := v.g.nextId, seq := v.g.seq + 1, sid := v.sid, pc := v.sp.pc, lid := v.lid }] }

/-- The group after a long-latency instruction: its destination registers and its flags are pending (R62, R295); with
neither it only retires. -/
def View.owing (v : View) (i : Instr) (flag : Nat) (ws : RegWrites) (f : FFlags) : Group :=
  if ws = [] ∧ f = 0 then v.retired i
  else v.pends i { Pending.blank flag with regs := ws.map (fun w => (w.1, w.2.1)), writes := ws, flags := f }

/-- The instruction takes one trap in the lanes that pass its guard, with one value. -/
def TrapsPart (i : Instr) (s : State) (v : View) (h : Hdr) (f : TrapInfo) : Prop :=
  Traps i s v (trapAll (v.part h) f.code v.sp.pc f.tval)

/-- The lanes that pass the guard take one trap, and the others go on. -/
def TrapsSome (i : Instr) (s : State) (v : View) (h : Hdr) (f : TrapInfo) : Prop :=
  exec i s = .next (((s.issuing v i).takeTrap v.gid v.sid (v.issued i) (trapAll (v.part h) f.code v.sp.pc f.tval)).modSplit
    v.gid v.sid Split.advance)

/-- The instruction retires, and of its team and the translation caches changes what is said. -/
def LeavesTeam (i : Instr) (s : State) (v : View) (tm : Team) : Prop :=
  ∃ t : State, exec i s = .next t ∧ t = { s.setGroup v.gid (v.retired i) with teams := fset s.teams v.tid tm, tlb := t.tlb }

/-- The group after an instruction that opened a spoil entry (R194, R213): the entry is last, and the registers of its
verdict, if it asks for one, are pending. -/
def View.opens (v : View) (i : Instr) (e : Spoil) : Group :=
  { (if e.v then v.pends i { Pending.blank e.sflag with kind := .verdict, regs := verdictPend e } else v.retired i) with
    spoil := v.g.spoil ++ [e] }

/-- The spoil entry of a store by its lanes (R194, R213). -/
def View.entry (v : View) (h : Hdr) (m : FM) (lanes : List SLane) : Spoil :=
  { seq := v.g.seq + 1, sid := v.sid, pc := v.sp.pc, scope := m.scope, count := v.sp.count m.scope, rule := m.rule,
    width := m.width, v := m.v, sflag := h.sflag, vreg := if m.v then m.aux else 384, lanes := lanes }

/-- A store takes effect: its entry opens (R194), at depth 0; a handler's lands at once (R201). -/
def StoresEntry (i : Instr) (s : State) (v : View) (e : Spoil) : Prop :=
  (v.sp.tdepth = 0 → LeavesRead i s v (v.opens i e)) ∧
  (0 < v.sp.tdepth → ∃ u : State, u = { s.issuing v i with tlb := u.tlb } ∧ exec i s = .next (u.openEntry (v.begun i) e))

/-- The group once the replies that its split awaited for one tensor instruction are used up (R329, R358). -/
def View.unfar (v : View) (g : Group) : Group := { g with far := v.g.far.filter (fun f => decide (f.sid ≠ v.sid)) }

/-- The state once the lines that a tensor instruction reads wait to be scrubbed no more (R274). -/
def State.fetched (s : State) (v : View) (i : Instr) : State := s.readBy v i (v.tensorReads i)

/-- The state that the own effect of a tensor instruction finds that reads memory. -/
def State.issuingMx (s : State) (v : View) (i : Instr) : State :=
  (s.fetched v i).setGroup v.gid (v.unfar (v.with (v.issued i)))

/-- The state after such an instruction whose further effect is on its group. -/
def LeavesMx (i : Instr) (s : State) (v : View) (g : Group) : Prop := exec i s = .next ((s.fetched v i).setGroup v.gid g)

/-- Such an instruction asks for reads that it misses, and will issue again. -/
def AsksMx (i : Instr) (s : State) (v : View) (ms : List (Nat × TrapInfo)) : Prop :=
  exec i s = .next (((s.fetched v i).issuing v i).askFar (v.begun i) ms)

/-- Such an instruction takes one trap in the lanes that pass its guard, with one value. -/
def TrapsMx (i : Instr) (s : State) (v : View) (h : Hdr) (f : TrapInfo) : Prop :=
  exec i s = .next ((s.issuingMx v i).takeTrap v.gid v.sid (v.issued i) (trapAll (v.part h) f.code v.sp.pc f.tval))

/-- A float instruction: in each participating lane, an operation on the encodings of its sources, on each half of a
packed pair, and the flags of every lane (R52, R60, R293). -/
def ComputesFloat (i : Instr) (s : State) (v : View) (h : Hdr) (ty : ElemTy) (d : Nat) (srcs : List Nat) (op : FloatOp) :
    Prop :=
  let r := fun l => perHalf ty op (srcs.map (fun a => v.g.rdT ty a l))
  Computes i s v (v.part h) d (if ty.isPair then 2 else 1) (fun l => (r l).1) (flagsOf (v.part h) (fun l => (r l).2))

/-- The same of a long-latency float instruction (R295). -/
def OwesFloat (i : Instr) (s : State) (v : View) (h : Hdr) (ty : ElemTy) (d : Nat) (srcs : List Nat) (op : FloatOp) : Prop :=
  let r := fun l => perHalf ty op (srcs.map (fun a => v.g.rdT ty a l))
  Leaves i s v (v.owing i h.sflag (laneWrites (v.part h) d (if ty.isPair then 2 else 1) (fun l => (r l).1))
    (flagsOf (v.part h) (fun l => (r l).2)))

/-! Values of the element types (R47, R49). -/

/-- An element of a register as a bit vector of its type's width. -/
def View.elem (v : View) (t : ElemTy) (r l : Nat) : BitVec t.width := BitVec.ofNat t.width (v.g.rdT t r l)

end Sys2Proof.Machine

namespace Sys2Proof

/-- The registers of an element type's value. -/
def ElemTy.regs (t : ElemTy) : Nat := if t.isPair then 2 else 1

/-- A result of a type as its registers hold it: an 8- or 16-bit result is extended to 32 bits by its signedness (R47). -/
def ElemTy.place (t : ElemTy) (x : BitVec t.width) : Nat :=
  if t.width < 32 ∧ t.signed then (x.signExtend 32).toNat else x.toNat

/-- A value extended to twice its width by its signedness, so that a product of two is exact. -/
def ElemTy.wide (t : ElemTy) (x : BitVec t.width) : BitVec (2 * t.width) :=
  if t.signed then x.signExtend (2 * t.width) else x.setWidth (2 * t.width)

/-- A value of another width brought to that of the type, by the type's signedness. -/
def ElemTy.fit {n : Nat} (t : ElemTy) (x : BitVec n) : BitVec t.width :=
  if t.signed then x.signExtend t.width else x.setWidth t.width

/-- n ones from bit p up. -/
def onesAt (w p n : Nat) : BitVec w := (BitVec.allOnes n).setWidth w <<< p

/-- The integer that an element stands for. -/
def ElemTy.int (t : ElemTy) (x : BitVec t.width) : Int := if t.signed then x.toInt else (x.toNat : Int)

/-! Float encodings (R48, R50). -/

/-- The exact value of an operation rounded once into a format, with the flags of both. -/
def Fmt.rounded (f : Fmt) (rm : Rnd) (x : FV × FFlags) : Nat × FFlags :=
  ((f.round rm false x.1).1, x.2 ||| (f.round rm false x.1).2)

/-! Rounding, said of a number that a comparison places on the line: `c a` compares a quarter-units with it. A format's
magnitudes are whole units, so that the points between them that matter are whole quarter-units (R50, R51). -/

/-- The place of man times 2 to the exp among quarters of 2 to the u. -/
def placeOf (man : Nat) (exp u : Int) (a : Nat) : Ordering :=
  compare (a * 2 ^ (u - exp).toNat) (4 * man * 2 ^ (exp - u).toNat)

/-- Does a mode round a magnitude away from zero, where it is not exact and is no case of the nearest mode. -/
def Rnd.away (rm : Rnd) (neg : Bool) : Bool :=
  match rm with
  | .rne | .rtz => false
  | .rup => !neg
  | .rdn => neg

/-- Of two magnitudes next to each other, the lower one's number being lo, the number of that which a mode delivers; `odd`
says which neighbour a tie goes to (R50). -/
def Rnd.pick (rm : Rnd) (neg : Bool) (mag : Nat → Nat) (c : Nat → Ordering) (odd : Bool) (lo : Nat) : Nat :=
  let half := c (2 * (mag lo + mag (lo + 1)))
  let up : Bool := match rm with
    | .rne => decide (half = .lt) || (decide (half = .eq) && odd)
    | r => decide (c (4 * mag lo) ≠ .eq) && r.away neg
  if up then lo + 1 else lo

/-- The magnitude lies just below or at the number. -/
def Below (mag : Nat → Nat) (c : Nat → Ordering) (lo : Nat) : Prop := c (4 * mag lo) ≠ .gt ∧ c (4 * mag (lo + 1)) = .gt

/-- Does a number, rounded at m mantissa bits with an unbounded exponent, stay below the smallest normal magnitude, which is
2 to the m units (R51). -/
def Rnd.tiny (rm : Rnd) (neg : Bool) (m : Nat) (c : Nat → Ordering) : Bool :=
  match rm with
  | .rne => decide (c (2 ^ (m + 2) - 1) = .gt)
  | r => if r.away neg then decide (c (2 ^ (m + 2) - 2) ≠ .lt) else decide (c (2 ^ (m + 2)) = .gt)

/-- The flags of a rounded result in range (R51). -/
def Rnd.flags (rm : Rnd) (neg : Bool) (m : Nat) (c : Nat → Ordering) (inexact : Bool) : FFlags :=
  flagIf inexact fInx ||| flagIf (inexact && rm.tiny neg m c) fUnf

/-- The magnitude of the n-th encoding of e and m bits, in units of the smallest subnormal; the numbers go on past the
largest one as if the exponent did (R48, R56). -/
def magOf (m n : Nat) : Nat := if n / 2 ^ m = 0 then n else (2 ^ m + n % 2 ^ m) * 2 ^ (n / 2 ^ m - 1)

/-- The exponent of the smallest subnormal. -/
def Fmt.unit (f : Fmt) : Int := f.emin - f.mb

/-- A non-zero number rounded once into a format: the neighbour that the mode names, with inexact and underflow; what
overflows gives an infinity or the largest finite value (R50, R51). -/
def Fmt.Rounds (f : Fmt) (rm : Rnd) (sat neg : Bool) (c : Nat → Ordering) (res : Nat × FFlags) : Prop :=
  let top := (2 ^ f.eb - 1) * 2 ^ f.mb
  let sign := if neg then 2 ^ (f.eb + f.mb) else 0
  let huge := (sign + (if !sat && (decide (rm = .rne) || rm.away neg) then top else top - 1), fOvf ||| fInx)
  (c (4 * magOf f.mb top) ≠ .gt → res = huge) ∧
  ∀ lo < top, Below (magOf f.mb) c lo →
    let k := rm.pick neg (magOf f.mb) c (decide (lo % 2 = 1)) lo
    (k = top → res = huge) ∧
    (k < top → res = (sign + k, rm.flags neg f.mb c (decide (c (4 * magOf f.mb lo) ≠ .eq))))

/-- The number of the largest finite magnitude of a narrow format (R56). -/
def QRec.most (q : QRec) : Nat :=
  if q.e = 0 then (if q.s = 1 then 2 ^ (q.w - 1) - 1 else 2 ^ q.w - 1)
  else if q.mode = 1 then (2 ^ q.e - 1) * 2 ^ q.m - 1
  else if q.mode = 2 then 2 ^ (q.e + q.m) - 2
  else 2 ^ (q.e + q.m) - 1

/-- What an overflow or an infinity of a sign gives in a narrow format that has the sign (R57). -/
def QRec.over (q : QRec) (rm : Rnd) (sat neg : Bool) : Nat :=
  let sign := if neg then 2 ^ (q.w - 1) else 0
  if q.e = 0 then (if neg then 2 ^ (q.w - 1) else q.most)
  else if sat then sign + q.most
  else if q.mode = 1 then sign + (if rm = .rne ∨ rm.away neg = true then q.most + 1 else q.most)
  else if q.mode = 2 then sign + 2 ^ (q.e + q.m) - 1
  else sign + q.most

/-- A non-zero finite number rounded into a narrow format (R57), c placing it among quarters of the format's unit. Where there is
no mantissa bit a tie goes away from zero, but for that between zero and the smallest normal value (log 54). -/
def QRec.Rounds (q : QRec) (rm : Rnd) (sat neg : Bool) (c : Nat → Ordering) (res : Nat × FFlags) : Prop :=
  let mag := if q.e = 0 then id else magOf q.m
  let odd := fun lo => if q.e ≠ 0 ∧ q.m = 0 then decide (lo ≠ 0) else decide (lo % 2 = 1)
  let k := fun lo => rm.pick neg mag c (odd lo) lo
  let huge := (q.over rm sat neg, fNov ||| fInx)
  let lost := neg = true ∧ q.s = 0
  (lost → ∀ lo, Below mag c lo → res = (0, if k lo = 0 then fInx ||| fUnf else fNov ||| fInx)) ∧
  (¬ lost → q.e = 0 → ∀ lo, Below mag c lo →
    let inexact := decide (c (4 * lo) ≠ .eq)
    ((if neg then 2 ^ (q.w - 1) else q.most) < k lo → res = huge) ∧
    (k lo ≤ (if neg then 2 ^ (q.w - 1) else q.most) → res = (if neg then (2 ^ q.w - k lo) % 2 ^ q.w else k lo,
      flagIf inexact fInx ||| flagIf (inexact && decide (k lo = 0)) fUnf))) ∧
  (¬ lost → q.e ≠ 0 →
    (q.most = 0 ∨ c (4 * mag (q.most + 1)) ≠ .gt → res = huge) ∧
    (q.most ≠ 0 → ∀ lo ≤ q.most, Below mag c lo →
      (k lo = q.most + 1 → res = huge) ∧
      (k lo ≤ q.most → res = ((if neg then 2 ^ (q.w - 1) else 0) + k lo, rm.flags neg q.m c (decide (c (4 * mag lo) ≠ .eq))))))

/-- The sign of an encoding. -/
def Fmt.sgn (f : Fmt) (n : Nat) : Bool := bit n (f.eb + f.mb)
/-- Its biased exponent. -/
def Fmt.expo (f : Fmt) (n : Nat) : Nat := bits n (f.eb + f.mb - 1) f.mb
/-- Its mantissa. -/
def Fmt.mant (f : Fmt) (n : Nat) : Nat := n % 2 ^ f.mb

/-- Is an encoding a NaN. -/
def Fmt.nan (f : Fmt) (n : Nat) : Bool := decide (f.expo n = 2 ^ f.eb - 1) && decide (f.mant n ≠ 0)
/-- Is it a signalling one. -/
def Fmt.snan (f : Fmt) (n : Nat) : Bool := f.nan n && !bit n (f.mb - 1)

/-- An encoding with another sign. -/
def Fmt.withSign (f : Fmt) (neg : Bool) (n : Nat) : Nat := n % 2 ^ (f.eb + f.mb) + (if neg then 2 ^ (f.eb + f.mb) else 0)

/-- A node of the canonical tree of sums, by its height and its place from the left: a lane's value, or the rounded sum of
its two halves, of which an absent one leaves the other (R64). -/
def sumTree (f : Fmt) (x : Nat → Nat) (m : Nat → Bool) : Nat → Nat → Option (Nat × FFlags)
  | 0, l => if m l then some (x l, 0) else none
  | h + 1, n => match sumTree f x m h (2 * n), sumTree f x m h (2 * n + 1) with
    | none, r => r
    | r, none => r
    | some y, some z =>
      let q := f.rounded .rne (FV.add .rne (f.decode y.1) (f.decode z.1))
      some (q.1, y.2 ||| z.2 ||| q.2)

end Sys2Proof
end

