-- ==== Sys2Proof/Certificates/Slice0/Obligations.lean ====
section
/-! DEFINITION. The statements for the provers. Each docstring names the rules of the spec that its statement formalises;
a statement that rests on a choice of the model names the row of the assumption log. -/
open Sys2Proof Sys2Proof.Machine

/-! Integer and logic instructions (14_isa_vector R293-R303, 03_numbers R47-R49). -/

/-- `add`, `sub`, `mul`, `mulh`, `mad`, `neg` and `abs` (R298): each participating lane gets the result modulo 2 to the width,
placed as R47 says, `mulh` the high half of the exact product, `abs` of the most negative value that value; no flag, and nothing
else changes. `min`, `max`, `clamp`, `addsat` and `subsat` (R298, R300): the comparison is by the type's signedness; a
saturating sum or difference is the exact one clamped to the range of the type; isat is set where the clamp changed a lane's
value. -/
def Obligations.IntegerArithmeticIsExact : Prop :=
  (∀ (s : State) (v : View) (h : Hdr) (ty : ElemTy) (d a b c : Nat),
     (Ready (.add h ty d a b) s v → Computes (.add h ty d a b) s v (v.part h) d ty.regs
       (fun l => ty.place (v.elem ty a l + v.elem ty b l)) 0) ∧
     (Ready (.sub h ty d a b) s v → Computes (.sub h ty d a b) s v (v.part h) d ty.regs
       (fun l => ty.place (v.elem ty a l - v.elem ty b l)) 0) ∧
     (Ready (.mul h ty d a b) s v → Computes (.mul h ty d a b) s v (v.part h) d ty.regs
       (fun l => ty.place (v.elem ty a l * v.elem ty b l)) 0) ∧
     (Ready (.mulh h ty d a b) s v → Computes (.mulh h ty d a b) s v (v.part h) d ty.regs
       (fun l => ty.place (((ty.wide (v.elem ty a l) * ty.wide (v.elem ty b l)) >>> ty.width).setWidth ty.width)) 0) ∧
     (Ready (.mad h ty d a b c) s v → Computes (.mad h ty d a b c) s v (v.part h) d ty.regs
       (fun l => ty.place (v.elem ty a l * v.elem ty b l + v.elem ty c l)) 0) ∧
     (Ready (.neg h ty d a) s v → Computes (.neg h ty d a) s v (v.part h) d ty.regs
       (fun l => ty.place (-(v.elem ty a l))) 0) ∧
     (Ready (.abs h ty d a) s v → Computes (.abs h ty d a) s v (v.part h) d ty.regs
       (fun l => ty.place (v.elem ty a l).abs) 0)) ∧
  (∀ (s : State) (v : View) (h : Hdr) (ty : ElemTy) (d a b c : Nat),
     let x := fun l => ty.int (v.elem ty a l)
     let y := fun l => ty.int (v.elem ty b l)
     let z := fun l => ty.int (v.elem ty c l)
     let out := fun (i : Int) => decide (i < ty.minInt ∨ ty.maxInt < i)
     let put := fun (i : Int) => ty.place (BitVec.ofInt ty.width i)
     (Ready (.min h ty d a b) s v →
       Computes (.min h ty d a b) s v (v.part h) d ty.regs (fun l => put (min (x l) (y l))) 0) ∧
     (Ready (.max h ty d a b) s v →
       Computes (.max h ty d a b) s v (v.part h) d ty.regs (fun l => put (max (x l) (y l))) 0) ∧
     (Ready (.clamp h ty d a b c) s v →
       Computes (.clamp h ty d a b c) s v (v.part h) d ty.regs (fun l => put (min (max (x l) (y l)) (z l)))
         (flagWhere (v.part h) (fun l => decide (min (max (x l) (y l)) (z l) ≠ x l)) fIsat)) ∧
     (Ready (.addsat h ty d a b) s v →
       Computes (.addsat h ty d a b) s v (v.part h) d ty.regs (fun l => put (max ty.minInt (min ty.maxInt (x l + y l))))
         (flagWhere (v.part h) (fun l => out (x l + y l)) fIsat)) ∧
     (Ready (.subsat h ty d a b) s v →
       Computes (.subsat h ty d a b) s v (v.part h) d ty.regs (fun l => put (max ty.minInt (min ty.maxInt (x l - y l))))
         (flagWhere (v.part h) (fun l => out (x l - y l)) fIsat)))

/-- `and`, `or`, `xor`, `not`, `andn` and the shifts (R298, R301): a shift count is the whole 32-bit register, unsigned; from the
width on `shl` and `shr` give zero and `sar` all sign bits; `rol` takes the count modulo the width. `bfx`, `bfi` and the bit
counts (R298, R302): the control register gives position and length in its two low bytes; a length of 0 or a position from the
width on extracts zero and inserts nothing, and a field that would leave the width is cut at it; `pop`, `clz` and `ctz` write
one 32-bit register. `sel`, `cmp`, `lea`, `mov` and `movi` (R298, R303): a select by one 32-bit register, a comparison by the
type's signedness that writes 1 or 0, an address sum modulo 2 to the 64 with the index scaled by the element's bytes, a copy, a
constant. -/
def Obligations.LogicShiftsAndMoves : Prop :=
  (∀ (s : State) (v : View) (h : Hdr) (ty : ElemTy) (d a b : Nat),
     let x := fun l => v.elem ty a l
     let y := fun l => v.elem ty b l
     let n := fun l => (v.g.rd b l).toNat
     (Ready (.and h ty d a b) s v → Computes (.and h ty d a b) s v (v.part h) d ty.regs (fun l => (x l &&& y l).toNat) 0) ∧
     (Ready (.or h ty d a b) s v → Computes (.or h ty d a b) s v (v.part h) d ty.regs (fun l => (x l ||| y l).toNat) 0) ∧
     (Ready (.xor h ty d a b) s v → Computes (.xor h ty d a b) s v (v.part h) d ty.regs (fun l => (x l ^^^ y l).toNat) 0) ∧
     (Ready (.not h ty d a) s v → Computes (.not h ty d a) s v (v.part h) d ty.regs (fun l => (~~~(x l)).toNat) 0) ∧
     (Ready (.andn h ty d a b) s v →
       Computes (.andn h ty d a b) s v (v.part h) d ty.regs (fun l => (x l &&& ~~~(y l)).toNat) 0) ∧
     (Ready (.shl h ty d a b) s v → Computes (.shl h ty d a b) s v (v.part h) d ty.regs (fun l => (x l <<< n l).toNat) 0) ∧
     (Ready (.shr h ty d a b) s v → Computes (.shr h ty d a b) s v (v.part h) d ty.regs (fun l => (x l >>> n l).toNat) 0) ∧
     (Ready (.sar h ty d a b) s v →
       Computes (.sar h ty d a b) s v (v.part h) d ty.regs (fun l => ((x l).sshiftRight (n l)).toNat) 0) ∧
     (Ready (.rol h ty d a b) s v →
       Computes (.rol h ty d a b) s v (v.part h) d ty.regs (fun l => ((x l).rotateLeft (n l)).toNat) 0)) ∧
  (∀ (s : State) (v : View) (h : Hdr) (ty : ElemTy) (d a b c : Nat),
     let x := fun l => v.elem ty a l
     let pos := fun l => (v.g.rd b l).toNat % 256
     let len := fun l => min ((v.g.rd b l).toNat / 256 % 256) (ty.width - pos l)
     let m := fun l => onesAt ty.width (pos l) (len l)
     (Ready (.bfx h ty d a b) s v →
       Computes (.bfx h ty d a b) s v (v.part h) d ty.regs (fun l => (ty.fit ((x l).extractLsb' (pos l) (len l))).toNat) 0) ∧
     (Ready (.bfi h ty d a b c) s v →
       Computes (.bfi h ty d a b c) s v (v.part h) d ty.regs
         (fun l => ((v.elem ty c l &&& ~~~(m l)) ||| ((x l <<< pos l) &&& m l)).toNat) 0) ∧
     (Ready (.pop h ty d a) s v →
       Computes (.pop h ty d a) s v (v.part h) d 1 (fun l => (List.range ty.width).countP (x l).getLsbD) 0) ∧
     (Ready (.clz h ty d a) s v → Computes (.clz h ty d a) s v (v.part h) d 1 (fun l => (x l).clz.toNat) 0) ∧
     (Ready (.ctz h ty d a) s v → Computes (.ctz h ty d a) s v (v.part h) d 1 (fun l => (x l).reverse.clz.toNat) 0) ∧
     (Ready (.brev h ty d a) s v → Computes (.brev h ty d a) s v (v.part h) d ty.regs (fun l => (x l).reverse.toNat) 0)) ∧
  (∀ (s : State) (v : View) (h : Hdr) (ty : ElemTy) (op : CmpOp) (d a b c imm : Nat),
     let x := fun l => ty.int (v.elem ty a l)
     let y := fun l => ty.int (v.elem ty b l)
     let holds := fun l => match op with
       | .eq => decide (x l = y l)
       | .ne => decide (x l ≠ y l)
       | .lt => decide (x l < y l)
       | .le => decide (x l ≤ y l)
       | .gt => decide (y l < x l)
       | .ge => decide (y l ≤ x l)
     let idx : Nat → BitVec 64 := fun l =>
       if unsignedIdx ty then (v.g.rd b l).setWidth 64 else (v.g.rd b l).signExtend 64
     (Ready (.sel h ty d a b c) s v → Computes (.sel h ty d a b c) s v (v.part h) d ty.regs
       (fun l => if v.g.rd c l ≠ 0 then v.g.rdT ty a l else v.g.rdT ty b l) 0) ∧
     (Ready (.cmp h ty op d a b) s v →
       Computes (.cmp h ty op d a b) s v (v.part h) d 1 (fun l => if holds l then 1 else 0) 0) ∧
     (Ready (.lea h ty d a b) s v → Computes (.lea h ty d a b) s v (v.part h) d 2
       (fun l => (v.g.rd64 a l + idx l * BitVec.ofNat 64 (ty.width / 8)).toNat) 0) ∧
     (Ready (.mov h ty d a) s v → Computes (.mov h ty d a) s v (v.part h) d ty.regs (fun l => v.g.rdT ty a l) 0) ∧
     (Ready (.movi h ty d imm) s v → Computes (.movi h ty d imm) s v (v.part h) d ty.regs
       (fun _ => ty.place (ty.fit (BitVec.ofNat 32 imm))) 0))

/-- `div` and `rem` (R299): truncation towards zero; a divisor of zero gives all ones and the dividend; the most negative value by
-1 gives itself and 0. Both are long-latency: the registers are pending until the unit completes (R162, R295). -/
def Obligations.DivisionTruncates : Prop :=
  ∀ (s : State) (v : View) (h : Hdr) (ty : ElemTy) (d a b : Nat),
    let x := fun l => v.elem ty a l
    let y := fun l => v.elem ty b l
    (Ready (.div h ty d a b) s v → Leaves (.div h ty d a b) s v (v.owing (.div h ty d a b) h.sflag
      (laneWrites (v.part h) d ty.regs (fun l => ty.place (if y l = 0 then BitVec.allOnes ty.width
        else if ty.signed then (x l).sdiv (y l) else (x l).udiv (y l)))) 0)) ∧
    (Ready (.rem h ty d a b) s v → Leaves (.rem h ty d a b) s v (v.owing (.rem h ty d a b) h.sflag
      (laneWrites (v.part h) d ty.regs (fun l => ty.place (if y l = 0 then x l
        else if ty.signed then (x l).srem (y l) else (x l).umod (y l)))) 0))

/-! Float instructions (14_isa_vector R304-R306, 03_numbers R48-R52). -/

/-- `fadd`, `fsub`, `fmul` and `fma` (R305, R50): the exact result of the operands' values is rounded once in the instruction's
mode, on each half of a packed pair; the flags are those of the operation and of its rounding. `fdiv` and `fsqrt` (R305, R50):
the exact quotient or root rounded once; both are long-latency (R295). The rounding itself (R48, R50-R52): an encoding stands for
its sign and its whole number of units, subnormals at full value; a sum, a product, a quotient and a root are exact, and the
neighbour that the mode names is delivered, ties to even, with inexact, underflow where the result is tiny, and what an
overflow gives in each mode; infinities stay, a NaN gives the canonical one, and the invalid operations and the division by zero
set their flags. A product that is then added to is the exact one. -/
def Obligations.FloatOperationsRoundOnce : Prop :=
  (∀ (s : State) (v : View) (h : Hdr) (ty : ElemTy) (rm : Rnd) (d a b c : Nat),
     let f := ty.fmt
     let x := fun (xs : List Nat) => f.decode (xs.getD 0 0)
     let y := fun (xs : List Nat) => f.decode (xs.getD 1 0)
     let z := fun (xs : List Nat) => f.decode (xs.getD 2 0)
     (Ready (.fadd h ty rm d a b) s v → ComputesFloat (.fadd h ty rm d a b) s v h ty d [a, b]
       (fun xs => f.rounded rm (FV.add rm (x xs) (y xs)))) ∧
     (Ready (.fsub h ty rm d a b) s v → ComputesFloat (.fsub h ty rm d a b) s v h ty d [a, b]
       (fun xs => f.rounded rm (FV.sub rm (x xs) (y xs)))) ∧
     (Ready (.fmul h ty rm d a b) s v → ComputesFloat (.fmul h ty rm d a b) s v h ty d [a, b]
       (fun xs => f.rounded rm (FV.mul (x xs) (y xs)))) ∧
     (Ready (.fma h ty rm d a b c) s v → ComputesFloat (.fma h ty rm d a b c) s v h ty d [a, b, c]
       (fun xs => f.rounded rm (FV.fma rm (x xs) (y xs) (z xs))))) ∧
  (∀ (s : State) (v : View) (h : Hdr) (ty : ElemTy) (rm : Rnd) (d a b : Nat),
     let f := ty.fmt
     (Ready (.fdiv h ty rm d a b) s v → OwesFloat (.fdiv h ty rm d a b) s v h ty d [a, b]
       (fun xs => f.rounded rm (FV.div (f.decode (xs.getD 0 0)) (f.decode (xs.getD 1 0))))) ∧
     (Ready (.fsqrt h ty rm d a) s v → OwesFloat (.fsqrt h ty rm d a) s v h ty d [a]
       (fun xs => f.rounded rm (FV.sqrt (f.decode (xs.getD 0 0)))))) ∧
  (∀ (f : Fmt) (rm : Rnd) (sat neg sig : Bool) (man : Nat) (exp : Int),
     let top := (2 ^ f.eb - 1) * 2 ^ f.mb
     f ∈ [Fmt.f16, Fmt.bf16, Fmt.f32, Fmt.f64] →
     (man ≠ 0 → f.Rounds rm sat neg (placeOf man exp f.unit) (f.round rm sat (.fin neg man exp))) ∧
     f.round rm sat (.fin neg 0 exp) = (if neg then 2 ^ (f.eb + f.mb) else 0, 0) ∧
     f.round rm sat (.inf neg) = (top + (if neg then 2 ^ (f.eb + f.mb) else 0), 0) ∧
     f.round rm sat (.nan sig) = (top + 2 ^ (f.mb - 1), 0) ∧
     ∀ n < 2 ^ (f.eb + f.mb),
       let x := n + (if neg then 2 ^ (f.eb + f.mb) else 0)
       (n < top → ∃ m e, f.decode x = .fin neg m e ∧ f.unit ≤ e ∧ m * 2 ^ (e - f.unit).toNat = magOf f.mb n) ∧
       (n = top → f.decode x = .inf neg) ∧ (top < n → f.decode x = .nan (decide (n < top + 2 ^ (f.mb - 1))))) ∧
  (∀ (f : Fmt) (rm : Rnd) (na nb : Bool) (ma mb : Nat) (ea eb e0 : Int) (x y z : FV),
     let a := FV.fin na ma ea
     let b := FV.fin nb mb eb
     let inv := (FV.nan false, fInv)
     let invalid := flagIf (x.sig || y.sig) fInv
     let int := fun (neg : Bool) (m : Nat) (e : Int) => (if neg then -1 else 1) * ((m * 2 ^ (e - e0).toNat : Nat) : Int)
     (e0 ≤ ea → e0 ≤ eb → ∃ n m e, FV.add rm a b = (.fin n m e, 0) ∧ (m ≠ 0 → e0 ≤ e) ∧
       (if m = 0 then 0 else int n m e) = int na ma ea + int nb mb eb ∧
       (m = 0 → n = if ma = 0 ∧ mb = 0 ∧ na = nb then na else decide (rm = .rdn))) ∧
     FV.mul a b = (.fin (xor na nb) (ma * mb) (ea + eb), 0) ∧ FV.sub rm x y = FV.add rm x y.neg ∧
     FV.add rm (.inf na) (.inf nb) = (if na = nb then (.inf na, 0) else inv) ∧
     FV.add rm (.inf na) b = (.inf na, 0) ∧ FV.add rm a (.inf nb) = (.inf nb, 0) ∧
     FV.mul (.inf na) (.inf nb) = (.inf (xor na nb), 0) ∧
     FV.mul (.inf na) b = (if mb = 0 then inv else (.inf (xor na nb), 0)) ∧
     FV.mul a (.inf nb) = (if ma = 0 then inv else (.inf (xor na nb), 0)) ∧
     FV.div (.inf na) (.inf nb) = inv ∧ FV.div (.inf na) b = (.inf (xor na nb), 0) ∧
     FV.div a (.inf nb) = (.fin (xor na nb) 0 0, 0) ∧
     (mb = 0 → FV.div a b = if ma = 0 then inv else (.inf (xor na nb), fDvz)) ∧
     (mb ≠ 0 → ma = 0 → FV.div a b = (.fin (xor na nb) 0 0, 0)) ∧
     (f ∈ [Fmt.f16, Fmt.bf16, Fmt.f32, Fmt.f64] → mb ≠ 0 → ma ≠ 0 → (FV.div a b).2 = 0 ∧
       f.Rounds rm false (xor na nb) (fun k => compare (k * mb * 2 ^ (f.unit - (ea - eb)).toNat) (4 * ma * 2 ^ (ea - eb - f.unit).toNat))
         (f.round rm false (FV.div a b).1)) ∧
     FV.sqrt (.inf na) = (if na then inv else (.inf false, 0)) ∧ (ma = 0 → FV.sqrt a = (.fin na 0 0, 0)) ∧
     (ma ≠ 0 → na = true → FV.sqrt a = inv) ∧
     (f ∈ [Fmt.f16, Fmt.bf16, Fmt.f32, Fmt.f64] → ma ≠ 0 → na = false → (FV.sqrt a).2 = 0 ∧
       f.Rounds rm false false (fun k => compare (k * k * 2 ^ (2 * f.unit - ea).toNat) (16 * ma * 2 ^ (ea - 2 * f.unit).toNat))
         (f.round rm false (FV.sqrt a).1)) ∧
     (x.isNaN = true ∨ y.isNaN = true → FV.add rm x y = (.nan false, invalid) ∧ FV.mul x y = (.nan false, invalid) ∧
       FV.div x y = (.nan false, invalid)) ∧
     (x.isNaN = true → FV.sqrt x = (.nan false, flagIf x.sig fInv)) ∧
     ((x.isZero = true ∧ y.isInf = true) ∨ (x.isInf = true ∧ y.isZero = true) → FV.fma rm x y z = inv) ∧
     (¬ ((x.isZero = true ∧ y.isInf = true) ∨ (x.isInf = true ∧ y.isZero = true)) →
       (x.isNaN = true ∨ y.isNaN = true ∨ z.isNaN = true → FV.fma rm x y z = (.nan false, flagIf (x.sig || y.sig || z.sig) fInv)) ∧
       (x.isNaN = false → y.isNaN = false → z.isNaN = false → FV.fma rm x y z = FV.add rm (FV.mul x y).1 z)))

/-- `fmin`, `fmax` and `fclamp` (R305, R52): a NaN beside a number is left out, two NaNs give the canonical one, -0 lies below +0,
and a signalling NaN sets invalid; the clamp is the minimum of the maximum. `fabs`, `fneg`, `fcopysign`, `fcmp` and `fclass` on
the bits of the encodings (R305, R306, R48, R52). -/
def Obligations.FloatBitsAndComparisons : Prop :=
  (∀ (s : State) (v : View) (h : Hdr) (ty : ElemTy) (d a b c : Nat),
     let f := ty.fmt
     let less := fun (x y : Nat) => FV.lt (f.decode x) (f.decode y) ||
       (FV.eq (f.decode x) (f.decode y) && f.sgn x && !f.sgn y)
     let pick := fun (turn : Bool) (x y : Nat) =>
       ((if f.nan x then (if f.nan y then f.encNaN else y)
         else if f.nan y then x
         else if (if turn then less x y else less y x) then y else x),
         flagIf (f.snan x || f.snan y) fInv)
     (Ready (.fmin h ty d a b) s v → ComputesFloat (.fmin h ty d a b) s v h ty d [a, b]
       (fun xs => pick false (xs.getD 0 0) (xs.getD 1 0))) ∧
     (Ready (.fmax h ty d a b) s v → ComputesFloat (.fmax h ty d a b) s v h ty d [a, b]
       (fun xs => pick true (xs.getD 0 0) (xs.getD 1 0))) ∧
     (Ready (.fclamp h ty d a b c) s v → ComputesFloat (.fclamp h ty d a b c) s v h ty d [a, b, c]
       (fun xs =>
         let m := pick true (xs.getD 0 0) (xs.getD 1 0)
         let r := pick false m.1 (xs.getD 2 0)
         (r.1, m.2 ||| r.2)))) ∧
  (∀ (s : State) (v : View) (h : Hdr) (ty : ElemTy) (sg : Bool) (op : FCond) (d a b : Nat),
     let f := ty.fmt
     let bitsOf := fun r l => v.g.rdT ty r l
     let quiet := fun (x y : Nat) => !f.nan x && !f.nan y
     let holds := fun (x y : Nat) => match op with
       | .eq => quiet x y && FV.eq (f.decode x) (f.decode y)
       | .ne => !(quiet x y && FV.eq (f.decode x) (f.decode y))
       | .lt => quiet x y && FV.lt (f.decode x) (f.decode y)
       | .le => quiet x y && !FV.lt (f.decode y) (f.decode x)
       | .gt => quiet x y && FV.lt (f.decode y) (f.decode x)
       | .ge => quiet x y && !FV.lt (f.decode x) (f.decode y)
       | .ord => quiet x y
       | .uno => !quiet x y
     let class_ := fun (x : Nat) =>
       if f.nan x then (if f.snan x then 0 else 1)
       else if f.expo x = 2 ^ f.eb - 1 then (if f.sgn x then 2 else 9)
       else if f.expo x ≠ 0 then (if f.sgn x then 3 else 8)
       else if f.mant x ≠ 0 then (if f.sgn x then 4 else 7)
       else (if f.sgn x then 5 else 6)
     (Ready (.fabs h ty d a) s v → ComputesFloat (.fabs h ty d a) s v h ty d [a]
       (fun xs => let x := xs.getD 0 0
         (if f.nan x then f.encNaN else f.withSign false x, flagIf (f.snan x) fInv))) ∧
     (Ready (.fneg h ty d a) s v → ComputesFloat (.fneg h ty d a) s v h ty d [a]
       (fun xs => let x := xs.getD 0 0
         (if f.nan x then f.encNaN else f.withSign (!f.sgn x) x, flagIf (f.snan x) fInv))) ∧
     (Ready (.fcopysign h ty d a b) s v → ComputesFloat (.fcopysign h ty d a b) s v h ty d [a, b]
       (fun xs => let x := xs.getD 0 0
         let y := xs.getD 1 0
         (if f.nan x then f.encNaN else f.withSign (f.sgn y) x, flagIf (f.snan x || f.snan y) fInv))) ∧
     (Ready (.fcmp h ty sg op d a b) s v → Computes (.fcmp h ty sg op d a b) s v (v.part h) d 1
       (fun l => if holds (bitsOf a l) (bitsOf b l) then 1 else 0)
       (flagWhere (v.part h) (fun l => f.snan (bitsOf a l) || f.snan (bitsOf b l) ||
         (sg && !quiet (bitsOf a l) (bitsOf b l))) fInv)) ∧
     (Ready (.fclass h ty d a) s v → Computes (.fclass h ty d a) s v (v.part h) d 1
       (fun l => 2 ^ class_ (bitsOf a l)) (flagWhere (v.part h) (fun l => f.snan (bitsOf a l)) fInv)))

/-- `frnd`, `fscale`, `fexp` and `fmant` (R305): an integral value in the instruction's mode, never inexact; a product with a power
of two rounded once; floor(log2) and the mantissa in [1, 2) of a finite non-zero value, subnormals included. The integral value
is the neighbour that the mode names, ties to even (R50). -/
def Obligations.FloatIntegralScaleAndParts : Prop :=
  (∀ (rm : Rnd) (neg : Bool) (man lo : Nat) (exp : Int),
     Below id (placeOf man exp 0) lo → roundAt rm neg man (-exp) =
       (rm.pick neg id (placeOf man exp 0) (decide (lo % 2 = 1)) lo, decide (placeOf man exp 0 (4 * lo) ≠ .eq))) ∧
  ∀ (s : State) (v : View) (h : Hdr) (ty : ElemTy) (rm : Rnd) (d a b : Nat),
    let f := ty.fmt
    let nan := fun (sig : Bool) => (f.encNaN, flagIf sig fInv)
    (Ready (.frnd h ty rm d a) s v → ComputesFloat (.frnd h ty rm d a) s v h ty d [a]
      (fun xs => match f.decode (xs.getD 0 0) with
        | .nan sig => nan sig
        | .inf neg => (f.encInf neg, 0)
        | .fin neg man exp => ((f.round rm false (.fin neg (roundAt rm neg man (-exp)).1 0)).1, 0))) ∧
    (Ready (.fscale h ty rm d a b) s v → Computes (.fscale h ty rm d a b) s v (v.part h) d (if ty.isPair then 2 else 1)
      (fun l => match f.decode (v.g.rdT ty a l) with
        | .nan _ => f.encNaN
        | .inf neg => f.encInf neg
        | .fin neg man exp => (f.round rm false (.fin neg man (exp + (v.g.rd b l).toInt))).1)
      (flagsOf (v.part h) (fun l => match f.decode (v.g.rdT ty a l) with
        | .nan sig => flagIf sig fInv
        | .inf _ => 0
        | .fin neg man exp => (f.round rm false (.fin neg man (exp + (v.g.rd b l).toInt))).2))) ∧
    (Ready (.fexp h ty d a) s v → Computes (.fexp h ty d a) s v (v.part h) d 1
      (fun l => match f.decode (v.g.rdT ty a l) with
        | .nan _ => 0x80000000
        | .inf _ => 0x7FFFFFFF
        | .fin _ man exp => if man = 0 then 0x80000000 else (BitVec.ofInt 32 (Nat.log2 man + exp)).toNat)
      (flagsOf (v.part h) (fun l => match f.decode (v.g.rdT ty a l) with
        | .nan _ | .inf _ => fInv
        | .fin _ man _ => if man = 0 then fDvz else 0))) ∧
    (Ready (.fmant h ty d a) s v → ComputesFloat (.fmant h ty d a) s v h ty d [a]
      (fun xs => match f.decode (xs.getD 0 0) with
        | .nan sig => nan sig
        | .inf neg => (f.encInf neg, 0)
        | .fin neg man _ => if man = 0 then (f.signBit neg, 0)
          else ((f.round .rne false (.fin neg man (-(Nat.log2 man : Int)))).1, 0)))

/-- The transcendental instructions (R316-R325): one register gives one register by the function of the grid's table version, and
the result is long-latency (R295). The special values of the transcendental functions (R319-R325), on every f32 encoding: NaNs,
infinities, zeros, negative operands, exact powers of two, half-integers and the saturated ends, with their flags. -/
def Obligations.TranscendentalsAreLongLatency : Prop :=
  (∀ (s : State) (v : View) (h : Hdr) (d a : Nat),
     let owes := fun (i : Instr) (f : Nat → Nat × FFlags) =>
       Leaves i s v (v.owing i h.sflag (laneWrites (v.part h) d 1 (fun l => (f (v.g.rd a l).toNat).1))
         (flagsOf (v.part h) (fun l => (f (v.g.rd a l).toNat).2)))
     (Ready (.frcp h d a) s v → owes (.frcp h d a) frcpOf) ∧
     (Ready (.frsq h d a) s v → owes (.frsq h d a) frsqOf) ∧
     (Ready (.fexp2 h d a) s v → owes (.fexp2 h d a) fexp2Of) ∧
     (Ready (.flog2 h d a) s v → owes (.flog2 h d a) flog2Of) ∧
     (Ready (.fsinpi h d a) s v → owes (.fsinpi h d a) (sinCosOf false)) ∧
     (Ready (.fcospi h d a) s v → owes (.fcospi h d a) (sinCosOf true)) ∧
     (Ready (.ftanh h d a) s v → owes (.ftanh h d a) (ftanhOf v.gr.fnver))) ∧
  (∀ (x : Nat), x < 2 ^ 32 →
     let f := Fmt.f32
     let nan := (f.encNaN, flagIf (f.snan x) fInv)
     let inv := (f.encNaN, fInv)
     let one := 0x3F800000
     (f.nan x → frcpOf x = nan ∧ frsqOf x = nan ∧ fexp2Of x = nan ∧ flog2Of x = nan ∧ sinCosOf false x = nan ∧
       sinCosOf true x = nan ∧ ∀ n, ftanhOf n x = nan) ∧
     ((f.decode x).isInf →
       frcpOf x = (f.signBit (f.sgn x), 0) ∧ frsqOf x = (if f.sgn x then inv else (0, 0)) ∧
       fexp2Of x = (if f.sgn x then (0, 0) else (f.encInf false, 0)) ∧
       flog2Of x = (if f.sgn x then inv else (f.encInf false, 0)) ∧ sinCosOf false x = inv ∧ sinCosOf true x = inv ∧
       ∀ n, ftanhOf n x = (f.withSign (f.sgn x) one, 0)) ∧
     ((f.decode x).isZero →
       frcpOf x = (f.encInf (f.sgn x), fDvz) ∧ frsqOf x = (f.encInf (f.sgn x), fDvz) ∧ fexp2Of x = (one, 0) ∧
       flog2Of x = (f.encInf true, fDvz) ∧ sinCosOf false x = (x, 0) ∧ sinCosOf true x = (one, 0) ∧
       ∀ n, ftanhOf n x = (x, 0)) ∧
     (f.sgn x ∧ !f.nan x ∧ !(f.decode x).isZero → frsqOf x = inv ∧ flog2Of x = inv) ∧
     (0x43000000 ≤ x ∧ x < 0x7F800000 → fexp2Of x = (f.encInf false, fOvf ||| fInx)) ∧
     (0xC3170000 < x ∧ x < 0xFF800000 → fexp2Of x = (0, fUnf ||| fInx)) ∧
     (f.expo x < 255 ∧ 0x41100000 ≤ x % 2 ^ 31 → ∀ n, ftanhOf n x = (f.withSign (f.sgn x) one, fInx)) ∧
     (0 < x % 2 ^ 31 ∧ x % 2 ^ 31 < 0x39800000 → ∀ n, ftanhOf n x = (x, fInx)) ∧
     (∀ (neg : Bool) (man : Nat) (exp n : Int), f.decode x = .fin neg man exp →
       (0 ≤ exp + 1 → n.natAbs = man * 2 ^ (exp + 1).toNat) → (exp + 1 < 0 → n.natAbs * 2 ^ (-(exp + 1)).toNat = man) →
       (if neg then n ≤ 0 else 0 ≤ n) →
       sinCosOf false x = (if n % 2 = 0 then f.signBit neg else if n % 4 = 1 then one else f.withSign true one, 0) ∧
       sinCosOf true x = (if n % 2 ≠ 0 then 0 else if n / 2 % 2 = 0 then one else f.withSign true one, 0))) ∧
  (∀ (neg : Bool) (e : Int), -149 ≤ e → e ≤ 127 →
     let enc := fun (i : Int) => (Fmt.f32.round .rne false (.fin (decide (i < 0)) i.natAbs 0)).1
     let two := fun (neg : Bool) (e : Int) => (Fmt.f32.round .rne false (.fin neg 1 e)).1
     (-126 ≤ e → frcpOf (two neg e) = (two neg (-e), 0)) ∧
     (-74 ≤ e → e ≤ 63 → frsqOf (two false (2 * e)) = (two false (-e), 0)) ∧
     fexp2Of (enc e) = (two false e, 0) ∧ flog2Of (two false e) = (enc e, 0))

/-! Conversions (14_isa_vector R307-R309, 03_numbers R53-R57). -/

/-- `cvt`, `pack` and `unpack` (R308, R309, R55): where no record is named, or the lanes that take part read one valid record, each
lane converts its elements, packed elements lowest first; otherwise trap 0x08 is taken in those lanes, with the record each lane
read as its value. One element (R53, R56, R57): a float is rounded into another format once, and a signalling NaN is invalid; an
integer becomes the float nearest by the mode; a float becomes the rounded integer, clamped to the type's range with invalid,
or saturation under `.sat`, a NaN 0 with invalid; an integer keeps its low bits or its value, or under `.sat` is clamped; and
into a narrow format the rows of R57 hold, its NaNs, its infinities, negative values without a sign bit, overflow with narrow
overflow, and rounding, ties without a mantissa bit by log 54's choice. What a float infinity gives under `.sat` is log 55's. -/
def Obligations.ConversionsAndTheirRecords : Prop :=
  (∀ (rm : Rnd) (sat : Bool) (d t : ElemTy) (q : QRec) (n : Nat),
     let x := BitVec.ofNat t.width n
     let float := fun (v : FV) => ((d.fmt.round rm sat v).1, flagIf v.sig fInv ||| (d.fmt.round rm sat v).2)
     let whole := fun (v : FV) (res : Nat × FFlags) =>
       let wide := fun (i : Int) (f : FFlags) => res = (d.place (BitVec.ofInt d.width i), f)
       let least : Int := if d.signed then -(2 ^ (d.width - 1) : Int) else 0
       let most : Int := if d.signed then 2 ^ (d.width - 1) - 1 else 2 ^ d.width - 1
       let out := if sat then fIsat else fInv
       (v.isNaN = true → wide 0 fInv) ∧ (∀ neg, v = .inf neg → wide (if neg then least else most) out) ∧
       ∀ neg man exp lo, v = .fin neg man exp → Below id (placeOf man exp 0) lo →
         let k := rm.pick neg id (placeOf man exp 0) (decide (lo % 2 = 1)) lo
         let i : Int := if neg then -(k : Int) else k
         (i < least → wide least out) ∧ (most < i → wide most out) ∧
         (least ≤ i → i ≤ most → wide i (flagIf (decide (placeOf man exp 0 (4 * lo) ≠ .eq)) fInx))
     let narrow := fun (v : FV) (res : Nat × FFlags) =>
       let lost := fun (neg : Bool) => neg = true ∧ q.s = 0
       (∀ sig, v = .nan sig → res = if q.e = 0 ∨ q.mode = 0 then (0, fInv) else
         ((2 ^ q.e - 1) * 2 ^ q.m + (if q.mode = 1 then 2 ^ (q.m - 1) else 2 ^ q.m - 1), flagIf sig fInv)) ∧
       (∀ neg, v = .inf neg → (lost neg → res = (0, fNov)) ∧ (¬ lost neg → res = (q.over rm sat neg, fNov))) ∧
       (∀ neg exp, v = .fin neg 0 exp → res = (if neg = true ∧ q.s = 1 ∧ q.e ≠ 0 then 2 ^ (q.w - 1) else 0, 0)) ∧
       ∀ neg man exp, v = .fin neg man exp → man ≠ 0 →
         q.Rounds rm sat neg (placeOf man exp (if q.e = 0 then -q.bias else 1 - q.bias - q.m)) res
     q.valid = true →
     (t.isFloat = true → d.isFloat = true → convert (.el d) (.el t) rm sat n = float (t.fmt.decode x.toNat)) ∧
     (t.isFloat = true → d.isFloat = false → whole (t.fmt.decode x.toNat) (convert (.el d) (.el t) rm sat n)) ∧
     (t.isFloat = true → narrow (t.fmt.decode x.toNat) (convert (.q q) (.el t) rm sat n)) ∧
     (t.isFloat = false →
       let i := t.int x
       let exact := FV.fin (decide (i < 0)) i.natAbs 0
       (d.isFloat = true → convert (.el d) (.el t) rm sat n = float exact) ∧ narrow exact (convert (.q q) (.el t) rm sat n) ∧
       (d.isFloat = false → sat = true → whole exact (convert (.el d) (.el t) rm true n)) ∧
       (d.isFloat = false → sat = false → convert (.el d) (.el t) rm false n = (d.place (BitVec.ofInt d.width i), 0))) ∧
     (d.isFloat = true → convert (.el d) (.q q) rm sat n = float (q.decode (n % 2 ^ q.w))) ∧
     (d.isFloat = false → whole (q.decode (n % 2 ^ q.w)) (convert (.el d) (.q q) rm sat n)) ∧
     (q.e = 0 → ∃ neg m, q.decode (n % 2 ^ q.w) = .fin neg m (-q.bias) ∧ (if neg then -(m : Int) else m) =
       (if q.s = 1 ∧ bit n (q.w - 1) = true then ((n % 2 ^ q.w : Nat) : Int) - 2 ^ q.w else (n % 2 ^ q.w : Nat))) ∧
     (q.e ≠ 0 →
       let k := n % 2 ^ (q.e + q.m)
       let neg := decide (q.s = 1) && bit n (q.w - 1)
       let top := (2 ^ q.e - 1) * 2 ^ q.m
       (q.mode = 1 → top = k → q.decode (n % 2 ^ q.w) = .inf neg) ∧
       (q.mode = 1 → top < k → q.decode (n % 2 ^ q.w) = .nan (decide (k < top + 2 ^ (q.m - 1)))) ∧
       (q.mode = 2 → k = 2 ^ (q.e + q.m) - 1 → q.decode (n % 2 ^ q.w) = .nan false) ∧
       (k ≤ q.most → ∃ m e, q.decode (n % 2 ^ q.w) = .fin neg m e ∧ 1 - q.bias - q.m ≤ e ∧
         m * 2 ^ (e - (1 - q.bias - q.m)).toNat = magOf q.m k))) ∧
  ∀ (s : State) (v : View) (h : Hdr) (dt st : ConvTy) (rm : Rnd) (sat : Bool) (d a : Nat),
    let rs := recsOf v.g (maskLanes (v.part h)) dt st
    let r := (rs.headD (0, 0)).2
    let agree := ∀ e ∈ rs, e.2 = r ∧ e.2 < 2 ^ 16 ∧ (QRec.of e.2).valid = true
    let bad : TrapReq := ⟨v.part h, 0x08, 0, v.sp.pc, rs.map (fun e => (e.1, BitVec.ofNat 64 e.2)), none⟩
    let x := ConvSide.of r dt
    let y := ConvSide.of r st
    let regs := fun (z : ConvSide) => match z with
      | .el t => if t.isPair then 2 else 1
      | .q _ => 1
    let one := fun l => convert x y rm sat (v.g.rdN a (regs y) l)
    let packed := fun l => (List.range x.packed.2.2).map (fun n => convert x.packed.1 y rm sat (v.g.rd (a + n) l).toNat)
    let unpacked := fun l => (List.range y.packed.2.2).map (fun n =>
      convert x y.packed.1 rm sat ((v.g.rd a l).toNat / 2 ^ (y.packed.2.1 * n) % 2 ^ y.packed.2.1))
    let flags := fun (f : Nat → List (Nat × FFlags)) =>
      flagsOf (v.part h) (fun l => (f l).foldr (fun e acc => e.2 ||| acc) 0)
    (Ready (.cvt h dt st rm sat d a) s v →
      (agree → Computes (.cvt h dt st rm sat d a) s v (v.part h) d (regs x) (fun l => (one l).1)
        (flagsOf (v.part h) (fun l => (one l).2))) ∧
      (¬ agree → Traps (.cvt h dt st rm sat d a) s v bad)) ∧
    (Ready (.pack h dt st rm sat d a) s v →
      (agree → Computes (.pack h dt st rm sat d a) s v (v.part h) d 1
        (fun l => (packed l).foldr (fun e acc => e.1 % 2 ^ x.packed.2.1 + 2 ^ x.packed.2.1 * acc) 0) (flags packed)) ∧
      (¬ agree → Traps (.pack h dt st rm sat d a) s v bad)) ∧
    (Ready (.unpack h dt st rm sat d a) s v →
      (agree → Computes (.unpack h dt st rm sat d a) s v (v.part h) d y.packed.2.2
        (fun l => (unpacked l).foldr (fun e acc => e.1 % 2 ^ 32 + 2 ^ 32 * acc) 0) (flags unpacked)) ∧
      (¬ agree → Traps (.unpack h dt st rm sat d a) s v bad))

/-! Across lanes (14_isa_vector R310-R315, 03_numbers R64-R66). -/

/-- The shuffles and `gsel` (R311, R312): each participating lane takes the value of the source lane its form names, or keeps its
own where that lane does not take part; `gsel` takes one word of the window of n registers as the whole group holds it, and 0
outside it; a register of the window pending in any lane of the group traps the lanes that take part, 0x07. -/
def Obligations.ShufflesMoveLanes : Prop :=
  ∀ (s : State) (v : View) (h : Hdr) (ty : ElemTy) (n d a b : Nat),
    let p := v.part h
    let low := (v.g.rd b (lowestLane p)).toNat
    let sized := if ty.isPair then 2 else 1
    let takes := fun (i : Instr) (src : Nat → Int) => Ready i s v → Computes i s v p d sized
      (fun l => v.g.rdT ty a (if 0 ≤ src l ∧ src l < 32 ∧ p.getLsbD (src l).toNat then (src l).toNat else l)) 0
    takes (.shuf h ty d a b) (fun l => ((v.g.rd b l).toNat % 32 : Nat)) ∧
    takes (.shufup h ty d a b) (fun l => l - (low % 64 : Nat)) ∧
    takes (.shufdn h ty d a b) (fun l => l + (low % 64 : Nat)) ∧
    takes (.shufx h ty d a b) (fun l => ((l ^^^ (low % 32) : Nat) : Int)) ∧
    takes (.bcast h ty d a b) (fun _ => (low % 32 : Nat)) ∧
    (Ready (.gsel h ty n d a b) s v →
      let waits := v.g.pendingReg (List.range 32) (OpUse.run a n).regs
      (waits = none → Computes (.gsel h ty n d a b) s v p d 1
        (fun l => let j := (v.g.rd b l).toNat
          if j < 32 * n then (v.g.rd (a + j / 32) (j % 32)).toNat else 0) 0) ∧
      ∀ r, waits = some r → (p = 0 → Leaves (.gsel h ty n d a b) s v (v.retired (.gsel h ty n d a b))) ∧
        (p ≠ 0 → TrapsSome (.gsel h ty n d a b) s v h ⟨0x07, BitVec.ofNat 64 r⟩))

/-- `vote`, `redu` and `scan` (R313, R314, R66): votes over the participating lanes; for the integer types the reduction is the sum
modulo 2 to the width, the least, the greatest, or the bitwise combination of their elements, and the scan that of the
participating lanes up to its own. `redu` and `scan` of floats (R314, R64-R66): the sum goes up the canonical tree of pairs over
the thirty-two positions, an absent position leaving the other side; the least and the greatest are taken in ascending lane
order; one lane alone gives its own value, canonical when it is NaN. -/
def Obligations.VotesAndReductions : Prop :=
  (∀ (s : State) (v : View) (h : Hdr) (ty : ElemTy) (vo : VoteOp) (op : ReduOp) (d a : Nat),
     let p := v.part h
     let x := fun l => v.elem ty a l
     let comb := fun (x y : BitVec ty.width) => match op with
       | .sum => x + y
       | .min => if (if ty.signed then x.sle y else x.ule y) then x else y
       | .max => if (if ty.signed then x.sle y else x.ule y) then y else x
       | .and => x &&& y
       | .or => x ||| y
       | .xor => x ^^^ y
     let all := fun (ls : List Nat) => match ls with
       | [] => 0
       | l :: ls => ls.foldl (fun acc k => comb acc (x k)) (x l)
     (Ready (.vote h vo d a) s v → Computes (.vote h vo d a) s v p d 1 (fun _ => match vo with
       | .any => if ∃ l ∈ maskLanes p, v.g.rd a l ≠ 0 then 1 else 0
       | .all => if ∀ l ∈ maskLanes p, v.g.rd a l ≠ 0 then 1 else 0
       | .ballot => (maskOf (fun l => p.getLsbD l && decide (v.g.rd a l ≠ 0))).toNat
       | .uni => if ∀ k ∈ maskLanes p, ∀ l ∈ maskLanes p, v.g.rd a k = v.g.rd a l then 1 else 0) 0) ∧
     (Ready (.redu h ty op d a) s v → ty.isFloat = false → Computes (.redu h ty op d a) s v p d ty.regs
       (fun _ => (all (maskLanes p)).toNat) 0) ∧
     (Ready (.scan h ty op d a) s v → ty.isFloat = false → Computes (.scan h ty op d a) s v p d ty.regs
       (fun l => (all ((maskLanes p).filter (fun k => decide (k ≤ l)))).toNat) 0)) ∧
  (∀ (s : State) (v : View) (h : Hdr) (ty : ElemTy) (op : ReduOp) (d a : Nat),
     let f := ty.fmt
     let p := v.part h
     let x := fun l => v.g.rdT ty a l
     let pick := fun (m : Nat → Bool) => match lanes.filter m with
       | [] => (0, 0)
       | l :: ls => ls.foldl (fun acc k =>
           let r := pickF f (if op = ReduOp.min then FV.minPick else FV.maxPick) [acc.1, x k]
           (r.1, acc.2 ||| r.2)) (x l, 0)
     let res := fun (m : Nat → Bool) => match lanes.filter m with
       | [l] => if f.nan (x l) then (f.encNaN, flagIf (f.snan (x l)) fInv) else (x l, 0)
       | _ => if op = ReduOp.sum then (sumTree f x m 5 0).getD (0, 0) else pick m
     let upTo := fun l k => p.getLsbD k && decide (k ≤ l)
     ty.isFloat = true →
     (Ready (.redu h ty op d a) s v → Computes (.redu h ty op d a) s v p d ty.regs (fun _ => (res p.getLsbD).1)
       (if p = 0 then 0 else (res p.getLsbD).2)) ∧
     (Ready (.scan h ty op d a) s v → Computes (.scan h ty op d a) s v p d ty.regs (fun l => (res (upTo l)).1)
       (flagsOf p (fun l => (res (upTo l)).2))))

/-! Sticky flags, identifiers and special registers (R63, R144, R179, R315, 05_context R98-R104). -/

/-- `fflg`, `fclr` and `ids` (R315, R63, R179, R144): the sticky word of the group, or of the trap level in a handler, is read; its
low seven bits are cleared where the lowest participating lane's register has ones, and nothing when no lane takes part; the
identifiers are those of the table of R144. `mfk` (R98-R104, R238): each participating lane reads the register; the split
registers give the lane's own trap level, or zero without one, `ku_det` and `ku_fnver` the grid's value below the context's, and
the `kh_` registers are those of the context that `kh_csel` selects. -/
def Obligations.SpecialRegisterReads : Prop :=
  (∀ (s : State) (v : View) (h : Hdr) (d a sel : Nat),
     let ident : Nat → Nat := fun l => match sel with
       | 0 => l
       | 1 => v.g.idx
       | 2 => v.tm.idx
       | 3 => v.tm.slice
       | 4 => v.tm.flat
       | 5 => if v.g.idx < v.gr.prod then 0 else 1
       | 6 => v.gr.groups
       | 7 => v.gr.teams
       | 8 => v.gr.dies
       | 9 => v.tm.idx / v.gr.gang
       | 10 => v.tm.idx % v.gr.gang
       | _ => v.tm.flat * (v.gr.groups * 32) + v.g.idx * 32 + l
     (Ready (.ids h d sel) s v → Computes (.ids h d sel) s v (v.part h) d 1 ident 0) ∧
     (Ready (.fflg h d) s v → Computes (.fflg h d) s v (v.part h) d 1 (fun _ => v.stickyWord.toNat) 0) ∧
     (Ready (.fclr h a) s v → ∃ g, Leaves (.fclr h a) s v g ∧
       (let m := if v.part h = 0 then 0 else v.g.rd a (lowestLane (v.part h)) &&& 0x7F#32
        g.sticky = (if v.lid = none then v.g.sticky &&& ~~~m else v.g.sticky) ∧
        (∀ k, fget g.levels k = (fget v.g.levels k).map (fun lv =>
          if v.lid = some k then { lv with hflags := lv.hflags &&& ~~~m } else lv)) ∧
        g = { v.retired (.fclr h a) with
              sticky := g.sticky, stickyBase := g.stickyBase, stickyLog := g.stickyLog, levels := g.levels }))) ∧
  (∀ (s : State) (v : View) (h : Hdr) (d : Nat) (k : PReg),
     let x := s.ctx v.c
     let y := s.ctx s.csel
     let lv := v.sp.lv.bind (fget v.g.levels)
     let value : Nat → Nat := fun l => match k with
       | .kuDet => 2 ^ 8 * b2n x.pdet + b2n v.gr.det
       | .kuFnver => 2 ^ 8 * x.pver + v.gr.fnver
       | .kuTime => s.time % 2 ^ 64
       | .ksStatus => 2 ^ 8 * b2n x.swip + 4 * v.sp.tdepth + v.sp.mode.code
       | .ksCause => (lv.map (fun t => 2 ^ 12 * t.sub + 2 ^ 8 * t.from_.code + t.cause)).getD 0
       | .ksEpc => (lv.map (fun t => t.epc.toNat)).getD 0
       | .ksTval => (lv.map (fun t => (sget 0 t.tval l).toNat)).getD 0
       | .ksLmask => (lv.map (fun t => t.lmask.toNat)).getD 0
       | .ksAmask => (lv.map (fun t => t.amask.toNat)).getD 0
       | .ksTvec => x.tvec.toNat
       | .ksPvec => x.pvec.toNat
       | .ksPtbase => x.ptbase.toNat
       | .ksScring => x.scring.toNat
       | .ksScsize => x.scsize.toNat
       | .ksPhys => 2 ^ 21 * v.g.slot + v.g.quad
       | .khCtl => 2 ^ 31 * b2n y.busy + 2 ^ 16 * y.err + 2 ^ 8 * y.st.code
       | .khCsel => s.csel
       | .khPdesc => y.pdesc.toNat
       | .khSarea => y.sarea.toNat
       | .khSalen => y.salen.toNat
       | .khQos => y.qos.toNat
       | .khVf => y.vf.toNat
       | .khPtbase2 => y.ptbase2.toNat
       | .khMemkey => y.memkey.toNat
       | .khHvec => y.hvec.toNat
       | .khFwver => s.fwver.toNat
     Ready (.mfk h d k) s v → Computes (.mfk h d k) s v (v.part h) d (if k.wide then 2 else 1) value 0)

/-- `mtk` (R104, R99, R106): the lowest participating lane gives the value; an illegal value takes trap 0x05 in the participating
lanes; a legal one leaves the register's RW fields as written, read back through its window, and every other register as it was.
`ks_epc` goes to the split's own trap level, and `kh_ctl` starts its command. `tlbinv` (R268): the translations of the form's
scope are gone from every lookaside buffer, and nothing else changes; a page's scope is the 1 GiB that holds it, the largest
leaf there is (log 6: which entries go beside the named page's is the model's choice). -/
def Obligations.SpecialRegisterWrites : Prop :=
  (∀ (s : State) (v : View) (h : Hdr) (r : Nat) (k : PReg),
     let i := Instr.mtk h r k
     let p := v.part h
     let x := v.g.rdN r (if k.wide then 2 else 1) (lowestLane p)
     let c := s.regCtx v k
     let y := s.ctx c
     let cmd := bits x 3 0
     Ready i s v →
     (p = 0 → Leaves i s v (v.retired i)) ∧
     (p ≠ 0 → illegalValue y k x = true → Traps i s v (trapAll p 0x05 v.sp.pc 0)) ∧
     (p ≠ 0 → illegalValue y k x = false → k ≠ .ksEpc → k ≠ .khCtl → ∃ t, exec i s = .next t ∧
       t = { s.setGroup v.gid (v.retired i) with ctxs := t.ctxs, csel := t.csel } ∧
       t.ctxReg c k &&& rwMask k = x &&& rwMask k ∧
       ∀ c' k', k' ≠ k ∨ (c' ≠ c ∧ k ≠ .khCsel) → t.ctxReg c' k' = s.ctxReg c' k') ∧
     (p ≠ 0 → k = .ksEpc → ∃ g, Leaves i s v g ∧ g = { v.retired i with levels := g.levels } ∧
       ∀ n, fget g.levels n = (fget v.g.levels n).map (fun lv =>
         if v.sp.lv = some n then { lv with epc := BitVec.ofNat 64 x } else lv)) ∧
     (p ≠ 0 → k = .khCtl → illegalValue y k x = false → ∃ t, exec i s = .next t ∧
       t = { s.setGroup v.gid (v.retired i) with ctxs := t.ctxs } ∧ (∀ c', c' ≠ c → t.ctx c' = s.ctx c') ∧
       t.ctx c = (if cmd = 0 then y
         else if y.busy ∧ cmd ≠ 8 then { y with err := 2 }
         else { y with busy := true, err := 0, cmd := some cmd, cutShort := y.busy, reqTime := s.time,
                       stop := if cmd = 3 ∧ (y.st = .running ∨ y.st = .migOut) then .preempt else y.stop }))) ∧
  (∀ (s : State) (v : View) (h : Hdr) (k : TlbKind) (a : Nat),
     let named := fun l => (v.g.rd64 a l).toNat % 2 ^ 57 / 2 ^ 30
     let ipaNamed := fun l => (v.g.rd64 a l).toNat / 2 ^ 30
     let gone := fun (e : TlbEntry) => match k with
       | .all => e.ctx = v.c
       | .va => e.ctx = v.c ∧ ∃ l ∈ maskLanes v.sp.mask, named l = e.vpn / 2 ^ 18
       | .ipa => e.ctx = s.csel ∧ ∃ l ∈ maskLanes v.sp.mask, ipaNamed l = e.ipn / 2 ^ 18
       | .ctx => e.ctx = s.csel
     Ready (.tlbinv h k a) s v → ∃ t, exec (.tlbinv h k a) s = .next t ∧
       t = { s.setGroup v.gid (v.retired (.tlbinv h k a)) with tlb := t.tlb } ∧
       ∀ e, e ∈ t.tlb ↔ e ∈ s.tlb ∧ ¬ gone e)

/-! Control (08_group R146-R157, R166-R180, 04_encoding R72, R74, R84). -/

/-- The check of a transfer's target (R72): it lies below 2 to the 57, its line can be fetched and passes its parity, is an
instruction line, and the slot there is marked as a target; otherwise the fetch's trap, 0x50 or 0x02. `bra`, `bany`, `ball` and
`bnone` (R169, R167): the whole split goes to the target or on; an illegal target traps every active lane whether or not the
branch is taken, in the order of R91: a line of bad parity before any other check. That all active lanes trap, and on which check,
is the model's choice (log 44), as are the IPA as the value of a hypervisor fault (log 45) and that parity is found only where it
is checked (log 57). `nop`, `prf` and `wflag` (R169, R332, R180): the first two only go on; the last goes on when none of its flags
is pending, and otherwise waits behind itself until they are clear. -/
def Obligations.UniformTransfers : Prop :=
  (∀ (s : State) (c : Nat) (user : Bool) (pc : Dword),
     (2 ^ 57 ≤ pc.toNat → s.checkPc c user pc = some ⟨0x02, pc⟩) ∧
     (pc.toNat < 2 ^ 57 →
       (∀ f, s.fetchLine c user pc = .error f → s.checkPc c user pc = some f) ∧
       (∀ line e, s.fetchLine c user pc = .ok (line, e) →
         (parityOk line = false → s.checkPc c user pc = some ⟨0x50, BitVec.ofNat 64 (pc.toNat / 64 * 64)⟩) ∧
         (parityOk line = true → s.checkPc c user pc =
           if bits line 502 501 = 0 ∧ pc.toNat % 64 % 12 = 0 ∧ pc.toNat % 64 ≤ 48 ∧ bit line (492 + pc.toNat % 64 / 12) = true
           then none else some ⟨0x02, pc⟩)))) ∧
  (∀ (s : State) (v : View) (pc : Dword) (pcs : List Dword),
     s.parityAt v [] = none ∧ (¬ ParityLost s v pc → s.parityAt v (pc :: pcs) = s.parityAt v pcs) ∧
     (ParityLost s v pc → s.parityAt v (pc :: pcs) = some ⟨0x50, BitVec.ofNat 64 (pc.toNat / 64 * 64)⟩)) ∧
  (∀ (s : State) (v : View) (h : Hdr) (k : Cond) (r : Nat) (l : Target),
     let pc := Target.pcFrom l v.sp.pc
     let yes := fun n => match k with
       | .nz => v.g.rd r n ≠ 0
       | .z => v.g.rd r n = 0
       | .neg => (v.g.rd r n).toInt < 0
       | .nneg => 0 ≤ (v.g.rd r n).toInt
     let active := fun n => n < 32 ∧ v.sp.mask.getLsbD n = true
     let branch := fun (i : Instr) (taken : Prop) => Ready i s v →
       (Legal s v pc → taken → LeavesRead i s v (v.goes i pc)) ∧
       (Legal s v pc → ¬ taken → LeavesRead i s v (v.retired i)) ∧
       ∀ f, s.checkPc v.c v.user pc = some f →
         (ParityLost s v pc → exec i s = .next (s.trapSplit v f)) ∧ (¬ ParityLost s v pc → TrapsAll i s v f)
     branch (.bra h l) True ∧
     branch (.bany h k r l) (∃ n, active n ∧ yes n) ∧
     branch (.ball h k r l) (∀ n, active n → yes n) ∧
     branch (.bnone h k r l) (¬ ∃ n, active n ∧ yes n)) ∧
  (∀ (s : State) (v : View) (h : Hdr) (m : FM) (mask : Nat),
     let busy := ∃ n < 12, bit mask n = true ∧ ∃ p ∈ v.g.pend, p.flag = n
     (Ready (.nop h) s v → Leaves (.nop h) s v (v.retired (.nop h))) ∧
     (Ready (.prf h m) s v → Leaves (.prf h m) s v (v.retired (.prf h m))) ∧
     (Ready (.wflag h mask) s v →
       (¬ busy → Leaves (.wflag h mask) s v (v.retired (.wflag h mask))) ∧
       (busy → Leaves (.wflag h mask) s v (v.with { (v.issued (.wflag h mask)).advance with st := .flags mask }))))

/-- `bdiv`, `switch` and `callr` (R170, R171, R174, R155): each opens a divergence: the rejoin entry is pushed and the split is
divided by destination, the lanes of the lowest lane keeping its place (`divide`, of which another statement says what it
leaves). Of `bdiv` only the lanes that would go to a bad target trap; a bad rejoin field, or a bad target to which no lane goes,
traps them all, by the model's choice (log 44). More than one destination in an active loop traps 0x14, and a full stack 0x12. What a division leaves (R149, R148): the
first of the new splits keeps the name, the place and the age of the one that is divided; the others, in order, take new names,
new age keys and the lowest free entries. Where no split waits at a join and none is dormant, nothing else changes. -/
def Obligations.DivergenceDividesTheSplit : Prop :=
  (∀ (s : State) (v : View) (h : Hdr) (k : Cond) (r d a : Nat) (l j : Target) (ks : List Int) (line : Nat) (e : TlbEntry),
     let lanes := maskLanes v.sp.mask
     let opens := fun (i : Instr) (kids : List (LaneMask × Option Dword)) (rejoin : Dword) (u : State) =>
       ∃ t : State, t = { s.issuing v i with tlb := t.tlb } ∧
         t.divide (v.begun i) ((sortKids kids).map (kidSplit
           ((v.issued i).pushed ⟨v.sp.rejoin, v.sp.jmask, 1⟩) rejoin v.sp.mask)) = .ok u
     let shape := fun (i : Instr) (kids : List (LaneMask × Option Dword)) (rejoin : Dword) (legal : Prop)
         (after : State → State) => Ready i s v → legal →
       (v.sp.Roomy → kids.length ≤ v.g.free + 1 → (v.sp.loop = none ∨ kids.length ≤ 1) →
         ∃ t u : State, opens i kids rejoin u ∧ exec i s = .next t ∧ t = { after u with tlb := t.tlb }) ∧
       (v.sp.loop ≠ none → 1 < kids.length → TrapsRead i s v ⟨0x14, 0⟩) ∧
       ((v.sp.loop = none ∨ kids.length ≤ 1) → 64 ≤ v.sp.sbase + v.sp.depth → TrapsRead i s v ⟨0x12, 0⟩)
     let yes := maskOf (fun n => v.sp.mask.getLsbD n && Machine.Cond.holds k (v.g.rd r n))
     let pl := Target.pcFrom l v.sp.pc
     let pj := Target.pcFrom j v.sp.pc
     let entry := fun n => entryPc (tableEntry line n) v.sp.pc
     shape (.bdiv h k r l j) ([(yes, some pl), (v.sp.mask &&& ~~~yes, none)].filter (fun x => decide (x.1 ≠ 0))) pj
       (Legal s v pl ∧ Legal s v pj) id ∧
     (∀ f, Ready (.bdiv h k r l j) s v → ¬ ParityLost s v pl → ¬ ParityLost s v pj →
       (yes ≠ 0 → s.checkPc v.c v.user pl = some f → exec (.bdiv h k r l j) s = .next
         ((s.issuing v (.bdiv h k r l j)).trapLanes (v.begun (.bdiv h k r l j)) ((maskLanes yes).map (fun n => (n, f))))) ∧
       (Legal s v pl → s.checkPc v.c v.user pj = some f → TrapsAll (.bdiv h k r l j) s v f) ∧
       (yes = 0 → s.checkPc v.c v.user pl = some f → TrapsAll (.bdiv h k r l j) s v f)) ∧
     (s.fetchLine v.c v.user (lineOf v.sp.pc + 64) = .ok (line, e) → switchCheck ks.length s v = none →
       shape (.switch h r ks) (byDest lanes (fun n => entry (match ks.findIdx? (fun x => decide ((v.g.rd r n).toInt = x)) with
         | some x => x + 1
         | none => 0))) (lineOf v.sp.pc + 128) (∀ n ≤ ks.length, Legal (s.fill e) v (entry n)) id) ∧
     shape (.callr h d a) (byDest lanes (v.g.rd64 a)) (nextPc v.sp.pc) (lanes ≠ [] ∧ ∀ n ∈ lanes, Legal s v (v.g.rd64 a n))
       (fun u => u.modGroup v.gid (fun g => g.apply (laneWrites v.sp.mask d 2 (fun _ => (nextPc v.sp.pc).toNat))))) ∧
  (∀ (s : State) (v : View) (k : Split) (ks : List Split),
     let freeEntries := (List.range 8).filter (fun n => v.g.splits.all (fun e => decide (e.2.place ≠ .resident n)))
     let rest := (List.range ks.length).map (fun n =>
       ({ (ks.getD n k) with sid := v.g.nextId + n, age := v.g.nextAge + n, place := .resident (freeEntries.getD n 0) } : Split))
     fget s.groups v.gid = some v.g → fget v.g.splits v.sid = some v.sp → v.sp.place ≠ .dormant →
     ks.length ≤ freeEntries.length → v.g.Settled → (∀ x ∈ k :: ks, x.st ≠ .join) → (∀ e ∈ v.g.splits, e.1 < v.g.nextId) →
     s.divide v (k :: ks) = .ok (s.setGroup v.gid { v.g with
       splits := rest.foldl (fun m x => fset m x.sid x) (fset v.g.splits v.sid { k with place := v.sp.place })
       nextId := v.g.nextId + ks.length
       nextAge := v.g.nextAge + ks.length }))

/-- `join` (R172, R156): at its rejoin PC with a rejoin entry on top the split waits at the join, and the merge is tested there;
another rejoin PC traps 0x13, and no rejoin entry on top 0x11. While a live lane of the join mask is not waiting, nothing
merges. The merge (R156): once every live lane of the join mask waits there, the waiting splits become one, named by the one
with the lowest lane: all their lanes, at the rejoin PC, the counts the greatest of theirs, the oldest's age, the loop kept only
if all agree, and the rejoin entry popped into its rejoin PC and join mask. -/
def Obligations.JoinsAndMerges : Prop :=
  (∀ (s : State) (v : View) (h : Hdr) (j : Target),
     let i := Instr.join h j
     let pc := Target.pcFrom j v.sp.pc
     let waiting := v.with { (v.issued i).transfer pc with st := .join }
     let there := unionMask (waiting.joinParts pc v.sp.jmask v.sp.mode)
     Ready i s v → Legal s v pc →
     (v.sp.rejoin ≠ pc → TrapsAll i s v ⟨0x13, 0⟩) ∧
     (v.sp.rejoin = pc → v.sp.depth = 0 → TrapsAll i s v ⟨0x11, 0⟩) ∧
     (∀ e es, v.sp.rejoin = pc → v.sp.depth ≠ 0 → v.sp.held = e :: es →
       (e.kind ≠ 1 → TrapsAll i s v ⟨0x11, 0⟩) ∧
       (e.kind = 1 → (∃ t u : State, t = { s.setGroup v.gid waiting with tlb := t.tlb } ∧ exec i s = .next u ∧
           u = t.mergeAt v.gid pc v.sp.jmask v.sp.mode) ∧
         ((v.sp.jmask &&& v.g.live) &&& ~~~there ≠ 0 → LeavesRead i s v waiting)))) ∧
  (∀ (s : State) (gid : Nat) (g : Group) (tm : Team) (gr : Grid) (pc : Dword) (jmask : LaneMask) (mode : Mode) (base : Split)
       (e : StackEntry) (es : List StackEntry),
     let parts := g.joinParts pc jmask mode
     fget s.groups gid = some g → fget s.teams g.tid = some tm → fget s.grids tm.grid = some gr →
     lowestSplit parts = some base → (jmask &&& g.live) &&& ~~~(unionMask parts) = 0 →
     base.held = e :: es → base.depth = es.length + 1 → (∀ x ∈ g.splits, x.2.place ≠ .dormant) →
     ∃ g' m, s.mergeAt gid pc jmask mode = s.setGroup gid g' ∧ fget g'.splits base.sid = some m ∧
       g' = { g with splits := g'.splits } ∧
       (∀ n, n ≠ base.sid → (∃ x ∈ parts, x.sid = n) → fget g'.splits n = none) ∧
       (∀ n, n ≠ base.sid → (¬ ∃ x ∈ parts, x.sid = n) → fget g'.splits n = fget g.splits n) ∧
       m.mask = unionMask parts ∧ m.pc = base.rejoin ∧ m.st = .ready ∧ m.rejoin = e.pc ∧ m.jmask = e.jmask ∧
       m.held = es ∧ m.depth = es.length ∧ m.mode = base.mode ∧
       (∀ x ∈ parts, (oldest parts).map (·.age) = some m.age ∧ (x.loop ≠ base.loop → m.loop = none)) ∧
       m.ct = parts.foldl (fun c x => countMax c x.ct) base.ct ∧ m.cd = parts.foldl (fun c x => countMax c x.cd) base.cd ∧
       m.cg = parts.foldl (fun c x => countMax c x.cg) base.cg)

/-- `call` and `ret` (R173, R154): the next PC is pushed as a return entry and popped again as the target; an empty stack traps
0x10, another kind of entry on top 0x11, a full stack 0x12. `retl` (R174): lanes go to the PCs they hold, one split for each,
without a push; more than one in an active loop traps 0x14; a lane that returns to the rejoin PC asks for a rejoin entry on top
of the stack, trap 0x11 without one. -/
def Obligations.CallsAndReturns : Prop :=
  (∀ (s : State) (v : View) (h : Hdr) (l : Target),
     let pc := Target.pcFrom l v.sp.pc
     (Ready (.call h l) s v → Legal s v pc →
       (v.sp.Roomy → LeavesRead (.call h l) s v
         (v.with (((v.issued (.call h l)).pushed ⟨nextPc v.sp.pc, 0, 0⟩).transfer pc))) ∧
       (64 ≤ v.sp.sbase + v.sp.depth → TrapsAll (.call h l) s v ⟨0x12, 0⟩)) ∧
     (Ready (.ret h) s v →
       (v.sp.depth = 0 → TrapsAll (.ret h) s v ⟨0x10, 0⟩) ∧
       (∀ e es, v.sp.held = e :: es → v.sp.depth ≠ 0 →
         (e.kind ≠ 0 → TrapsAll (.ret h) s v ⟨0x11, 0⟩) ∧
         (e.kind = 0 → ∀ f, s.checkPc v.c v.user e.pc = some f → TrapsAll (.ret h) s v f) ∧
         (e.kind = 0 → Legal s v e.pc → v.sp.depth = es.length + 1 → LeavesRead (.ret h) s v
           (v.with (({ v.issued (.ret h) with held := es, depth := es.length } : Split).transfer e.pc)))))) ∧
  (∀ (s : State) (v : View) (h : Hdr) (a : Nat),
     let i := Instr.retl h a
     let lanes := maskLanes v.sp.mask
     let kids := byDest lanes (v.g.rd64 a)
     let back := ∃ n ∈ lanes, v.g.rd64 a n = v.sp.rejoin
     Ready i s v → lanes ≠ [] → (∀ n ∈ lanes, Legal s v (v.g.rd64 a n)) → (v.sp.held = [] → v.sp.depth = 0) →
     (back → v.sp.depth = 0 ∨ (∃ e es, v.sp.held = e :: es ∧ e.kind ≠ 1) → TrapsAll i s v ⟨0x11, 0⟩) ∧
     ((back → v.sp.depth ≠ 0 ∧ ∃ e es, v.sp.held = e :: es ∧ e.kind = 1) →
       (v.sp.loop ≠ none → 1 < kids.length → TrapsAll i s v ⟨0x14, 0⟩) ∧
       ((v.sp.loop = none ∨ kids.length ≤ 1) → v.sp.place ≠ .dormant → kids.length ≤ v.g.free + 1 →
         ∃ t u : State, t = { s.issuing v i with tlb := t.tlb } ∧ exec i s = .next u ∧
           t.divide (v.begun i) ((sortKids kids).map (kidSplit (v.issued i) v.sp.rejoin v.sp.jmask)) = .ok u)))

/-- `loop` and `loopr` (R175, R84): a count of zero goes past the body; another enters it with the whole count remaining, at pass 0;
an active loop traps 0x15, and an increment that its body instruction has no field for traps 0x01, one of an unassigned opcode
or in a line that is no code line too by the model's choice (log 46); bad parity of a body line comes before all that (R91). The next PC and the replay of
a loop (R72, R175): slot by slot, then to the next line; after the last position of the body the loop goes round again while
more than one pass remains, and ends with the last. The slot that a pass decodes (R175, R84): each field that the increments of
its position name holds the encoded value plus the number of the pass times their steps, modulo 2 to its width, increments of
one field adding up, and every other bit is as it was encoded; outside the body, and without a loop, the slot is as encoded. -/
def Obligations.LoopsAdvance : Prop :=
  (∀ (s : State) (v : View) (h : Hdr) (n r len : Nat) (a b c : Option Inc),
     let faults := (s.parityAt v ((incList a b c).map (fun x => seqPc (x.slot + 1) v.sp.pc))).or
       ((incList a b c).findSome? (s.incCheck v))
     let begins := fun (i : Instr) (count : Word) => Ready i s v → faults = none →
       (v.sp.loop ≠ none → TrapsRead i s v ⟨0x15, 0⟩) ∧
       (v.sp.loop = none → count = 0 → LeavesRead i s v (v.goes i (seqPc (len + 1) v.sp.pc))) ∧
       (v.sp.loop = none → count ≠ 0 → LeavesRead i s v
         (v.with { (v.issued i).advance with loop := some ⟨v.sp.pc, count, 0, len, a, b, c⟩ }))
     begins (.loop h n len a b c) (BitVec.ofNat 32 n) ∧
     begins (.loopr h r len a b c) (v.g.rd r (lowestLane v.sp.mask)) ∧
     (∀ f, s.view? = some v → faults = some f →
       exec (.loop h n len a b c) s = .next (s.trapSplit v f) ∧ exec (.loopr h r len a b c) s = .next (s.trapSplit v f)) ∧
     (∀ (x : Inc) (line : Nat) (e : TlbEntry),
       let pc := seqPc (x.slot + 1) v.sp.pc
       (∀ f, s.fetchLine v.c v.user pc = .error f → s.incCheck v x = some f) ∧
       (s.fetchLine v.c v.user pc = .ok (line, e) → parityOk line = true → s.incCheck v x =
         if incFits (lineSlot line (pc.toNat % 64 / 12)) x.field = true then none else some ⟨0x01, 0⟩))) ∧
  (∀ (sp : Split) (lp : LoopSt),
     (∀ pc : Dword, pc.toNat % 64 % 12 = 0 → pc.toNat % 64 < 48 → nextPc pc = pc + 12) ∧
     (∀ pc : Dword, pc.toNat % 64 = 48 → (nextPc pc).toNat % 64 = 0 ∧ nextPc pc = pc + 16) ∧
     (sp.loop = none → sp.advance.pc = nextPc sp.pc ∧ sp.advance.loop = none) ∧
     (sp.loop = some lp → sp.pc ≠ seqPc lp.len lp.pc → sp.advance.pc = nextPc sp.pc ∧ sp.advance.loop = some lp) ∧
     (sp.loop = some lp → sp.pc = seqPc lp.len lp.pc →
       (1 < lp.remaining.toNat → sp.advance.pc = nextPc lp.pc ∧
         sp.advance.loop = some { lp with remaining := lp.remaining - 1, pass := lp.pass + 1 }) ∧
       (lp.remaining.toNat ≤ 1 → sp.advance.pc = nextPc sp.pc ∧ sp.advance.loop = none)) ∧
     sp.advance = { sp with pc := sp.advance.pc, entered := sp.advance.entered, loop := sp.advance.loop }) ∧
  (∀ (sp : Split) (lp : LoopSt) (line : Nat),
     let n := sp.pc.toNat % 64 / 12
     let slot := bits line (96 * n + 95) (96 * n)
     let here := (incList lp.inc0 lp.inc1 lp.inc2).filter (fun x => decide (sp.pc = seqPc (x.slot + 1) lp.pc) && decide (x.slot < lp.len))
     let low := fun (x : Inc) => match x.field with
       | .f24 => 24
       | .f33 => 33
       | .f42 => 42
       | .f51 => 51
       | .disp => 51
       | .acc => 24
     let width := fun (x : Inc) => match x.field with
       | .disp => 24
       | .acc => 5
       | _ => 9
     (sp.loop = none → sp.slotOf line = slot) ∧
     (sp.loop = some lp → here = [] → sp.slotOf line = slot) ∧
     (sp.loop = some lp → (∀ x ∈ here, ∀ y ∈ here, x.field ≠ y.field → low x + width x ≤ low y ∨ low y + width y ≤ low x) →
       (∀ k, (∀ x ∈ here, k < low x ∨ low x + width x ≤ k) → (sp.slotOf line).testBit k = slot.testBit k) ∧
       ∀ x ∈ here, ((sp.slotOf line / 2 ^ low x % 2 ^ width x : Nat) : Int) =
         ((slot / 2 ^ low x % 2 ^ width x : Nat) + lp.pass.toNat * ((here.filter (fun y => decide (y.field = x.field))).map
           (·.delta)).sum) % 2 ^ width x))

/-- `exit` (R177): the lanes that pass the guard leave every split of the group and are live no more, and a split without a lane
ends; their step counts stay as they were at the exit, and the grid keeps the greatest count at which a lane exited. The lanes
of the issuing split that do not pass go on at the next PC, and with no lane that passes it only goes on. -/
def Obligations.ExitEndsLanes : Prop :=
  ∀ (s : State) (v : View) (h : Hdr),
    let i := Instr.exit h
    let p := v.part h
    Ready i s v →
    (p = 0 → Leaves i s v (v.retired i)) ∧
    (p ≠ 0 → v.g.Settled → ∃ (t : State) (g : Group), exec i s = .next t ∧
      t = { s.setGroup v.gid g with grids := fset s.grids v.tm.grid { v.gr with exitG := some (countMax (v.gr.exitG.getD v.sp.cg) v.sp.cg) } } ∧
      g = { v.g with seq := v.g.seq + 1, live := v.g.live &&& ~~~p, splits := g.splits, levels := g.levels, exits := g.exits } ∧
      (∀ l, fget g.exits l = if l < 32 ∧ p.getLsbD l = true then some ⟨v.sp.ct, v.sp.cd, v.sp.cg⟩ else fget v.g.exits l) ∧
      (∀ e ∈ g.splits, e.2.mask ≠ 0 ∧ e.2.mask &&& p = 0) ∧
      (fwf v.g.splits = true → fget g.splits v.sid = if v.sp.mask &&& ~~~p = 0 then none
        else some { (v.issued i).advance with mask := v.sp.mask &&& ~~~p }) ∧
      (∀ n sp, n ≠ v.sid → fwf v.g.splits = true → fget v.g.splits n = some sp →
        fget g.splits n = if sp.mask &&& ~~~p = 0 then none else some { sp with mask := sp.mask &&& ~~~p }))

/-! Traps (11_traps R234-R254, 04_encoding R89-R92). -/

/-- `brk`, `sysc`, `trap` and `hcall` (R178, R244): the lanes that pass the guard take their trap, resuming at the next PC, with the
immediate as each lane's value; the others go on, and with no lane at all the instruction only goes on. The trap entry of the
first level (R235-R238): the lanes leave their split, which ends when none is left; a handler split of the mode and at the
vector that the cause gives holds them at depth 1 with the counts of the one they left; its level keeps the cause, the modes,
the resume PC, the masks, each lane's value and the split to return to; v0-v15 of the lanes are saved, and no register and no
byte of memory changes, but that lines still to be scrubbed which the entry has read are pending no more (R274). A trap that cannot be saved (R242): at a depth of three the entry becomes the nesting machine check 0x51
in hypervisor mode at its vector, with the cause it replaces as each lane's value and nothing to return to. -/
def Obligations.TrapEntrySavesAndVectors : Prop :=
  (∀ (s : State) (v : View) (h : Hdr) (imm : Nat),
     let p := v.part h
     let calls := fun (i : Instr) (code : Nat) => Ready i s v →
       let next := (v.issued i).advance
       (p = 0 → Leaves i s v (v.retired i)) ∧
       (p ≠ 0 → ∃ t, t = (s.issuing v i).takeTrap v.gid v.sid next
           ⟨p, code, 0, next.pc, (maskLanes p).map (fun l => (l, BitVec.ofNat 64 imm)), none⟩ ∧
         exec i s = .next (t.modSplit v.gid v.sid Split.advance))
     calls (.brk h imm) 0x38 ∧ calls (.sysc h imm) 0x39 ∧ calls (.trap h imm) 0x3A ∧ calls (.hcall h imm) 0x3B) ∧
  (∀ (s : State) (gid sid n : Nat) (v : View) (base : Split) (req : TrapReq),
     let all : Prop := v.sp.mask &&& ~~~req.lanes = 0
     let hyp := [0x2A, 0x2B, 0x3B, 0x50, 0x52].contains req.code || decide (base.mode ≠ .user)
     let u := s.trapReads v req
     let x := u.ctx v.c
     s.viewOf gid sid = some v → base.tdepth = 0 → req.code ≠ 0x40 → req.code ≠ 0x51 → (all ∨ v.g.freeEntry = some n) →
     (∀ e ∈ v.g.splits, e.1 < v.g.nextId) →
     ∃ (g : Group) (h : Split) (lv : TrapLevel), (s.Inv → s.Scrubs u) ∧ s.takeTrap gid sid base req = u.setGroup gid g ∧
       g = { v.g with save1 := g.save1, splits := g.splits, levels := g.levels, nextId := v.g.nextId + 2, nextAge := v.g.nextAge + 1 } ∧
       (∀ l i, l < 32 → i < 16 → req.lanes.getLsbD l = true → sget 0 g.save1 (32 * i + l) = v.g.rd i l) ∧
       (∀ k, k ≠ sid → k ≠ v.g.nextId → fget g.splits k = fget v.g.splits k) ∧
       (fget g.splits sid = if v.sp.mask &&& ~~~req.lanes = 0 then none
         else some { v.sp with mask := v.sp.mask &&& ~~~req.lanes, window := none }) ∧
       (∀ k, k ≠ v.g.nextId + 1 → fget g.levels k = fget v.g.levels k) ∧
       fget g.splits v.g.nextId = some h ∧ fget g.levels (v.g.nextId + 1) = some lv ∧
       h.mask = req.lanes ∧ h.mode = (if hyp then .hyp else .sup) ∧ h.pc = (if hyp then x.hvec else x.tvec) ∧
       h.tdepth = 1 ∧ h.st = .ready ∧ h.depth = 0 ∧ h.held = [] ∧ h.sbase = base.sbase + base.depth ∧ h.loop = none ∧
       h.rejoin = pcNone ∧ h.jmask = 0 ∧ h.ct = base.ct ∧ h.cd = base.cd ∧ h.cg = base.cg ∧ h.age = v.g.nextAge ∧
       h.lv = some (v.g.nextId + 1) ∧ (all → h.place = v.sp.place) ∧ (¬ all → h.place = .resident n) ∧
       lv.cause = req.code ∧ lv.sub = req.sub ∧ lv.from_ = base.mode ∧ lv.epc = req.resume ∧ lv.hflags = 0 ∧
       (req.masks = none → lv.lmask = req.lanes ∧ lv.amask = v.sp.mask) ∧
       lv.tval = req.tval.foldl (fun m e => fset m e.1 e.2) [] ∧
       (lv.ret.map (fun r => (r.mask, r.pc, r.mode, r.tdepth, r.held, r.depth)) =
         some (req.lanes, req.resume, base.mode, 0, base.held, base.depth))) ∧
  (∀ (s : State) (gid sid n : Nat) (v : View) (base : Split) (req : TrapReq),
     let all : Prop := v.sp.mask &&& ~~~req.lanes = 0
     s.viewOf gid sid = some v → 3 ≤ base.tdepth → req.code ≠ 0x51 → (all ∨ v.g.freeEntry = some n) →
     (∀ e ∈ v.g.splits, e.1 < v.g.nextId) →
     ∃ (g : Group) (h : Split) (lv : TrapLevel), (s.Inv → s.Scrubs (s.trapReads v req)) ∧
       s.takeTrap gid sid base req = (s.trapReads v req).setGroup gid g ∧
       g = { v.g with splits := g.splits, levels := g.levels, nextId := v.g.nextId + 2, nextAge := v.g.nextAge + 1 } ∧
       fget g.splits v.g.nextId = some h ∧ fget g.levels (v.g.nextId + 1) = some lv ∧ h.mask = req.lanes ∧
       h.mode = .hyp ∧ h.pc = ((s.trapReads v req).ctx v.c).hvec ∧ h.tdepth = 3 ∧ lv.cause = 0x51 ∧ lv.epc = v.sp.pc ∧ lv.ret = none ∧
       ∀ l < 32, req.lanes.getLsbD l = true → sget 0 lv.tval l = BitVec.ofNat 64 req.code)

/-- The checks of an issue in their order (R91, R92, R164): an illegal instruction 0x01, a mode that may not run it 0x03, an illegal
operand 0x04, an MX-class instruction with a live lane missing 0x06, an operand still pending 0x07; each is raised in every
active lane (which places of R91 `tret` and `idle` take for their own 0x01 is the model's choice, log 58, and not stated here), before the instruction counts as issued and with none of its effect. -/
def Obligations.IssueChecksInOrder : Prop :=
  ∀ (s : State) (v : View) (i : Instr),
    let traps := fun (code : Nat) (tval : Dword) => exec i s = .next (s.trapSplit v ⟨code, tval⟩)
    let legal := i.wf = true
    let mode := modeOk v.sp.mode i = true
    let operands := (∀ u ∈ v.uses i, u.ok v.g.nregs v.g.ntiles v.gr.nhandles = true) ∧ sumVerdict i = false
    let full := i.isMX = true → v.sp.mask = v.g.live
    s.view? = some v → i.isSlot = true →
    (∀ h r ks, i ≠ .switch h r ks) → (∀ h n len a b c, i ≠ .loop h n len a b c) → (∀ h r len a b c, i ≠ .loopr h r len a b c) →
    (¬ legal → traps 0x01 0) ∧
    (legal → ¬ mode → traps 0x03 0) ∧
    (legal → mode → ¬ operands → traps 0x04 0) ∧
    (legal → mode → operands → ¬ full → traps 0x06 0) ∧
    (legal → mode → operands → full → ∀ k, (v.uses i).findSome? (v.unsync i) = some k →
      traps 0x07 (BitVec.ofNat 64 k))

/-- `tret` (R243): outside a handler, in a nesting machine check and in a pre-emption not yet idled it is illegal, 0x01; while a
result of its own is pending the split waits; a return PC that was changed is checked as a target, in the mode of the handler by
the model's choice (log 41), and the illegal cases come behind the common checks by that of log 58. Otherwise v0-v15 of its lanes
come back where the lane's register has no bit set for them, and the lanes go on at `ks_epc` in the split they left. -/
def Obligations.TrapReturnRestores : Prop :=
  ∀ (s : State) (v : View) (h : Hdr) (a : Nat),
    let i := Instr.tret h a
    Ready i s v →
    (v.sp.lv.bind (fget v.g.levels) = none → TrapsAll i s v ⟨0x01, 0⟩) ∧
    ∀ lv, v.sp.lv.bind (fget v.g.levels) = some lv →
      let own := ∃ p ∈ v.g.pend, p.lid = v.sp.lv
      let bad := lv.cause = 0x51 ∨ (lv.cause = 0x40 ∧ lv.idled = false)
      let same := lv.epc = lv.resume
      (bad → TrapsAll i s v ⟨0x01, 0⟩) ∧
      (¬ bad → own → Leaves i s v (v.with { v.issued i with st := .drain })) ∧
      (¬ bad → ¬ own → ¬ same → ∀ f, s.checkPc v.c v.user lv.epc = some f → TrapsAll i s v f) ∧
      (¬ bad → ¬ own → same ∨ Legal s v lv.epc → v.sp.tdepth = 1 → v.g.Settled → (∀ e ∈ v.g.splits, e.1 < v.g.nextId) →
        ∃ g, Leaves i s v g ∧
          (∀ r l, l < 32 → g.rd r l = if v.sp.mask.getLsbD l = true ∧ r < 16 ∧ (v.g.rd a l).getLsbD r = false
            then sget 0 v.g.save1 (32 * r + l) else v.g.rd r l) ∧
          g = { v.g with seq := v.g.seq + 1, regs := g.regs, splits := g.splits, levels := g.levels, nextId := g.nextId, mark := g.mark } ∧
          fget g.splits v.sid = none ∧
          (∀ r, lv.ret = some r → g.mark = v.g.mark ∧
            fget g.splits v.g.nextId = some { r with
              sid := v.g.nextId, mask := v.sp.mask, pc := lv.epc, place := v.sp.place, entered := true, st := .ready,
              lastIssue := v.g.seq + 1 } ∧
            ∀ n, n ≠ v.sid → n ≠ v.g.nextId → fget g.splits n = fget v.g.splits n) ∧
          (lv.ret = none → g.mark = .none ∧ ∀ n, n ≠ v.sid →
            fget g.splits n = (fget v.g.splits n).map (fun sp => { sp with frozen := false, entered := true })))

/-- `idle` and `fbp` (R252, R246): `idle` ends a pre-emption handler, freezing its split and marking its level, and is illegal
elsewhere; `fbp` opens the rewind window of a user-mode split, with the base and map of its live registers and its stub, from
the next issue on, and does nothing above user mode. -/
def Obligations.IdleAndFlashbackPoints : Prop :=
  ∀ (s : State) (v : View) (h : Hdr) (base map : Nat) (stub : Target),
    let i := Instr.idle h
    let j := Instr.fbp h base stub map
    let own := ∃ p ∈ v.g.pend, p.lid = v.sp.lv
    (Ready i s v →
      (v.sp.lv.bind (fget v.g.levels) = none → TrapsAll i s v ⟨0x01, 0⟩) ∧
      ∀ lv, v.sp.lv.bind (fget v.g.levels) = some lv →
        (lv.cause ≠ 0x40 ∨ lv.idled = true → TrapsAll i s v ⟨0x01, 0⟩) ∧
        (lv.cause = 0x40 → lv.idled = false → own → Leaves i s v (v.with { v.issued i with st := .drain })) ∧
        (lv.cause = 0x40 → lv.idled = false → ¬ own → ∃ g, Leaves i s v g ∧
          g = { v.retired i with levels := fset v.g.levels lv.lid { lv with idled := true }, mark := .idled, splits := g.splits } ∧
          ∀ n, fget g.splits n = if n = v.sid then some { (v.issued i).advance with frozen := true }
            else fget v.g.splits n)) ∧
    (Ready j s v →
      (v.sp.mode ≠ .user → Leaves j s v (v.retired j)) ∧
      (v.sp.mode = .user → ∃ g, Leaves j s v g ∧
        g = { v.with { (v.issued j).advance with window := some ⟨v.sp.pc, base, BitVec.ofNat 32 map,
                Target.pcFrom stub v.sp.pc, (v.issued j).advance.loop, v.g.seq + 2⟩ } with
              stickyBase := g.stickyBase, stickyLog := g.stickyLog } ∧
        (v.g.anyWindow = false → g.stickyBase = v.g.sticky ∧ g.stickyLog = []) ∧
        (v.g.anyWindow = true → g.stickyBase = v.g.stickyBase ∧ g.stickyLog = v.g.stickyLog)))

/-! The step (09_step R182-R184, R210, R211). -/

/-- `step`, `stepn`, `stepto` and `yieldc` (R210, R211, R183): in a handler they trap 0x19, at a scope the grid's residency does not
admit 0x18, with a stride of 2 to the 31 or more 0x1A; a stride of 0 only goes on. Otherwise the counts of the scope and of
every narrower one rise by the stride, and the split waits for the boundary, `yieldc` parked at its own PC. -/
def Obligations.StepsRaiseTheCounts : Prop :=
  ∀ (s : State) (v : View) (h : Hdr) (x : Scope) (k a ctr mask : Nat),
    let admits := match x with
      | .t => True
      | .d => 2 ≤ v.gr.residency
      | .g => v.gr.residency = 3
    let counts := fun (sp : Split) (n : Word) => ({ sp with
      ct := sp.ct + n
      cd := (match x with
        | .t => sp.cd
        | _ => sp.cd + n)
      cg := (match x with
        | .g => sp.cg + n
        | _ => sp.cg)
      blank := (match x with
        | .t => { sp.blank with t := 0 }
        | .d => { sp.blank with t := 0, d := 0 }
        | .g => .none) } : Split)
    let low := v.g.rd a (lowestLane v.sp.mask)
    let now := match x with
      | .t => v.sp.ct
      | .d => v.sp.cd
      | .g => v.sp.cg
    let steps := fun (i : Instr) (n : Nat) => Ready i s v →
      (0 < v.sp.tdepth → TrapsAll i s v ⟨0x19, 0⟩) ∧
      (v.sp.tdepth = 0 → ¬ admits → TrapsAll i s v ⟨0x18, 0⟩) ∧
      (v.sp.tdepth = 0 → admits → 2 ^ 31 ≤ n → TrapsAll i s v ⟨0x1A, 0⟩) ∧
      (v.sp.tdepth = 0 → admits → n = 0 → Leaves i s v (v.retired i)) ∧
      (v.sp.tdepth = 0 → admits → 0 < n → n < 2 ^ 31 →
        Leaves i s v (v.with { (counts (v.issued i) (BitVec.ofNat 32 n)).advance with st := .boundary x }))
    steps (.step h x) 1 ∧ steps (.stepn h x k) k ∧ steps (.stepto h x a) (low - now).toNat ∧
    (Ready (.yieldc h x a ctr mask) s v →
      (0 < v.sp.tdepth → TrapsAll (.yieldc h x a ctr mask) s v ⟨0x19, 0⟩) ∧
      (v.sp.tdepth = 0 → ¬ admits → TrapsAll (.yieldc h x a ctr mask) s v ⟨0x18, 0⟩) ∧
      (v.sp.tdepth = 0 → admits → Leaves (.yieldc h x a ctr mask) s v
        (v.with { counts (v.issued (.yieldc h x a ctr mask)) 1 with st := .parked x ctr low mask (now + 1) })))

/-! Memory (10_memory R216-R228, 15_isa_memory R326-R346, 09_step R193-R201, R212-R214). -/

/-- One byte of device memory (R216, R273, R274): a byte that waits to be scrubbed reads zero, and after a read of its line nothing
of the line waits; where nothing waits, what was written under a key reads back under it, whatever the line was before, and
every other byte reads under that key as it did, but for a line that an earlier material of the key's slot wrote, which the
write may move out of the cache. The same of several bytes of a landing, each under the key of its place, where the context is
untracked; a landing's bytes of a scratchpad stand there, the last of each place, and the other bytes as they were. -/
def Obligations.MemoryReadsBackWhatWasWritten : Prop :=
  ∀ (s : State) (k : Key) (a b : Nat) (x : Byte),
    (s.scrubPending a = true → s.readByte k a = 0) ∧
    ((∀ e ∈ s.ctxs, e.2.scrub = []) →
      (s.writeByte k a x).readByte k a = x ∧ (b ≠ a → s.Plain k b → (s.writeByte k a x).readByte k b = s.readByte k b)) ∧
    (s.writeByte k a x).groups = s.groups ∧ (s.writeByte k a x).tlb = s.tlb ∧
    (s.scrubPending (64 * (a / 64)) = true → swf Ctx.reset s.ctxs = true →
      (s.readLine k (a / 64)).scrubPending (64 * (a / 64)) = false ∧
      ∀ i < 64, sget 0 (s.readLine k (a / 64)).mem (64 * (a / 64) + i) = 0) ∧
    (∀ (c ipn : Nat) (bs : List (Loc × Byte)), s.writeLocs c ipn bs = s.landWrites c (bs.map (fun y => (ipn, y.1, y.2)))) ∧
    (∀ (c : Nat) (ws : List (Nat × Loc × Byte)), (∀ e ∈ s.ctxs, e.2.scrub = []) →
      (s.ctx c).stage.track = false → (s.ctx c).stage.snap = 0 →
      (∀ n i y, ws[n]? = some (i, .dram a, y) → (∀ m j z, n < m → ws[m]? ≠ some (j, .dram a, z)) →
        (∀ m j d z, n ≤ m → ws[m]? = some (j, .dram d, z) → d / 64 = a / 64 → (s.landWrites c (ws.take m)).keyAt c d = k) →
        (s.landWrites c ws).readByte k a = y) ∧
      ((∀ i d z, (i, .dram d, z) ∈ ws → d / 64 ≠ a / 64) → s.Plain k a →
        (s.landWrites c ws).readByte k a = s.readByte k a) ∧
      (s.landWrites c ws).ctxs = s.ctxs ∧ (s.landWrites c ws).groups = s.groups) ∧
    (∀ (c tid off : Nat) (ws : List (Nat × Loc × Byte)) (tm : Team), fget s.teams tid = some tm →
      ∃ tm', fget (s.landWrites c ws).teams tid = some tm' ∧ tm' = { tm with spad := tm'.spad } ∧
        sget 0 tm'.spad off = match ws.reverse.find? (fun w => decide (w.2.1 = .spad tid off)) with
          | some w => w.2.2
          | none => sget 0 tm.spad off)

/-- The checks of one access in their order (R218): a malformed address 0x20, misalignment 0x21, an offset beyond the scratchpad or
a team beyond the grid's 0x22, a path that does not take the access 0x23 for a load and 0x24 for a store, a neighbour's
scratchpad below residency 2 0x18; then the translation's own fault; a path without translation reaches its storage. The tensor
instructions make the same checks, and all of them give the failing address (R365). The translation (R259-R263): level by level
an entry is read at its table's address plus 8 times the index; it is a next table above level 3, a leaf below level 0 aligned
to its page, of a level-3 leaf with c one of sixteen that form a 64 KiB page, and otherwise the walk fails; a hypervisor table or
page lies in installed memory, and an entry of the guest stage is itself read through the hypervisor stage, which must let it be
read, and leads to an IPA of 48 bits. Where no cached entry holds the page, a guest failure is 0x28 and a refusal by its leaf
0x29, with the address of the access; a hypervisor failure is 0x2A and a refusal 0x2B, with the IPA; the rights of both stages
must allow the access. With the guest stage off the address is the IPA. -/
def Obligations.AccessChecksInOrder : Prop :=
  (∀ (s : State) (c ipa va n table e : Nat) (ea : Dword) (group : Nat → Nat),
     let level := 3 - n
     let size := 2 ^ (12 + 9 * n)
     let next := bits e 51 12 * 4096
     let valid := fun (e level : Nat) => bit e 0 = true ∧ bits e 63 60 = 0 ∧ bits e 11 9 = 0 ∧ bits e 3 2 = 0 ∧
       (bit e 8 = true → level = 3)
     let isTable := valid e level ∧ bit e 1 = false ∧ level ≠ 3
     let isLeaf := valid e level ∧ bit e 1 = true ∧ level ≠ 0 ∧ next % size = 0
     let forms := (∀ j < 16, valid (group j) 3 ∧ bit (group j) 1 = true ∧ bit (group j) 8 = true ∧
       bits (group j) 7 4 = bits (group 0) 7 4 ∧ bits (group j) 51 12 = bits (group 0) 51 12 + j) ∧ bits (group 0) 51 12 % 16 = 0
     let read := fun (a : Nat) => s.readN s.fwKey a 8
     let h := s.walkH ipa n table
     let hi := ipa / size % 512
     let guestAt := fun (a : Nat) => s.guestEntry c a
     let g := s.walkG c ea va n table
     let gi := if n = 3 then va / 2 ^ 39 else va / size % 512
     let fault : Except TrapInfo (Nat × Nat) := .error ⟨0x28, ea⟩
     let x := s.ctx c
     n ≤ 3 →
     (read (table + 8 * hi) = e →
       (isTable → h = if s.installed next 4096 = true then s.walkH ipa (n - 1) next else none) ∧
       (isLeaf → bit e 8 = true → (∀ j < 16, read (table + 8 * (hi / 16 * 16 + j)) = group j) → ¬ forms → h = none) ∧
       (isLeaf → (bit e 8 = true → (∀ j < 16, read (table + 8 * (hi / 16 * 16 + j)) = group j) ∧ forms) →
         let a := next + ipa % size
         h = if s.installed (a / 4096 * 4096) 4096 = true then some (bits e 7 4, a) else none) ∧
       (¬ isTable → ¬ isLeaf → h = none)) ∧
     (2 ^ 44 ≤ next → s.installed next 4096 = false) ∧
     (∀ r, s.walkH ipa 3 (bits x.ptbase2.toNat 51 13 * 2 ^ 13) = some r → s.hyp c ipa = .ok r) ∧
     (s.walkH ipa 3 (bits x.ptbase2.toNat 51 13 * 2 ^ 13) = none → s.hyp c ipa = .error ⟨0x2A, BitVec.ofNat 64 ipa⟩) ∧
     (∀ p a, s.hyp c ipa = .ok (p, a) → s.guestEntry c ipa =
       if bit p 1 = true then .ok (s.readN (s.keyAt c a) a 8) else .error ⟨0x2B, BitVec.ofNat 64 ipa⟩) ∧
     (∀ f, s.hyp c ipa = .error f → s.guestEntry c ipa = .error f) ∧
     (∀ f, guestAt (table + 8 * gi) = .error f → g = .error f) ∧
     (guestAt (table + 8 * gi) = .ok e →
       (isTable → g = if next < 2 ^ 48 then s.walkG c ea va (n - 1) next else fault) ∧
       (isLeaf → 2 ^ 48 ≤ next → g = fault) ∧
       (isLeaf → next < 2 ^ 48 → bit e 8 = true → (∀ j < 16, guestAt (table + 8 * (gi / 16 * 16 + j)) = .ok (group j)) →
         ¬ forms → g = fault) ∧
       (isLeaf → next < 2 ^ 48 → (bit e 8 = true → (∀ j < 16, guestAt (table + 8 * (gi / 16 * 16 + j)) = .ok (group j)) ∧ forms) →
         g = .ok (bits e 7 4, next + va % size)) ∧
       (¬ isTable → ¬ isLeaf → g = fault)) ∧
     (x.ptbase.getLsbD 0 = true → s.guest c ea va = s.walkG c ea va 3 (bits x.ptbase.toNat 51 21 * 2 ^ 21)) ∧
     (x.ptbase.getLsbD 0 = false → s.guest c ea va = if va < 2 ^ 48 then .ok (15, va) else fault)) ∧
  (∀ (s : State) (c va ipa gp hp dpa : Nat) (user priv : Bool) (acc : Acc) (ea : Dword) (e : TlbEntry),
     let r := s.xlate c user priv acc ea va
     let right := fun (p : Nat) => bit p (match acc with
       | .r => 1
       | .w => 2
       | .x => 3) = true
     let guestOk := fun (p : Nat) => right p ∧ (user = true → bit p 0 = true) ∧ (va < 2 ^ 56 ∨ priv = true)
     let cached := fun (e : TlbEntry) => e.ctx = c ∧ e.vpn = va / 4096
     ((∀ e ∈ s.tlb, ¬ cached e) →
       (∀ f, s.guest c ea va = .error f → r = .error f) ∧
       (s.guest c ea va = .ok (gp, ipa) →
         (¬ guestOk gp → r = .error ⟨0x29, ea⟩) ∧
         (guestOk gp → ∀ f, s.hyp c ipa = .error f → r = .error f) ∧
         (guestOk gp → s.hyp c ipa = .ok (hp, dpa) →
           (¬ right hp → r = .error ⟨0x2B, BitVec.ofNat 64 ipa⟩) ∧
           (right hp → r = .ok ⟨c, va / 4096, gp, ipa / 4096, hp, dpa / 4096⟩)))) ∧
     (s.tlb.find? (fun e => decide (e.ctx = c) && decide (e.vpn = va / 4096)) = some e →
       (¬ guestOk e.gperm → r = .error ⟨0x29, ea⟩) ∧
       (guestOk e.gperm → ¬ right e.hperm → r = .error ⟨0x2B, BitVec.ofNat 64 (e.ipn * 4096 + va % 4096)⟩) ∧
       (guestOk e.gperm → right e.hperm → r = .ok { e with ctx := c, vpn := va / 4096 }))) ∧
  ∀ (s : State) (w : Who) (use : Use) (ea : Dword) (n align : Nat),
    let a := ea.toNat
    let path := bits a 63 61
    let o := bits a 21 0
    let formed := formOk ea = true
    let aligned := a % align = 0
    let inside := ¬ ((path = 2 ∨ path = 3) ∧ w.spad < o + n) ∧ ¬ (path = 3 ∧ w.teams ≤ bits a 56 32)
    let taken := pathOk path use = true
    (¬ formed → s.reach w use ea n align = .error ⟨0x20, ea⟩) ∧
    (formed → ¬ aligned → s.reach w use ea n align = .error ⟨0x21, ea⟩) ∧
    (formed → aligned → ¬ inside → s.reach w use ea n align = .error ⟨0x22, ea⟩) ∧
    (formed → aligned → inside → ¬ taken → s.reach w use ea n align = .error ⟨(match use with
      | .load | .line | .engSrc => 0x23
      | _ => 0x24), ea⟩) ∧
    (formed → aligned → inside → taken →
      (path = 3 → w.wide = false → s.reach w use ea n align = .error ⟨0x18, if use.engine then ea else 0⟩) ∧
      (path = 2 → ∃ r, s.reach w use ea n align = .ok r ∧
        r.locs = (List.range n).map (fun i => .spad w.tid (viewOff (bit a 22) (o + i)))) ∧
      (path ≤ 1 ∨ path = 4 →
        (∀ f, s.xlate w.c w.user false use.acc ea (bits a 56 0) = .error f → s.reach w use ea n align = .error f) ∧
        (∀ e, s.xlate w.c w.user false use.acc ea (bits a 56 0) = .ok e → ∃ r, s.reach w use ea n align = .ok r ∧
          r.locs = (List.range n).map (fun i => .dram (e.dpn * 4096 + a % 4096 + i))))) ∧
    (∀ f, s.reach w use ea n align = .error f →
      s.reachMx w use ea n align = .error (if f.code = 0x18 then ⟨0x18, ea⟩ else f)) ∧
    (∀ r, s.reach w use ea n align = .ok r → s.reachMx w use ea n align = .ok r)

/-- `ld` and `ldl` (R329, R330): each participating lane reads its bytes at its own address at once, which is the model's choice of the instant (log 6), and they are pending until the
unit completes; `ldl` checks one line and lane l takes its word l. A lane whose bytes lie beyond the device sends a request and
waits for the reply; when every lane of the split fails its access, each takes its own trap (R92). A line read that was still
to be scrubbed is scrubbed (R274). -/
def Obligations.LoadsReadTheirBytes : Prop :=
  ∀ (s : State) (v : View) (h : Hdr) (m : FM) (r : Nat → Reach) (q : Nat → OutMsg) (f : Nat → TrapInfo) (x : Reach),
    let p := v.part h
    let lanes := maskLanes p
    let n := m.width.bytes
    let words := (n + 3) / 4
    let i := Instr.ld h m
    let j := Instr.ldl h m
    let reach := fun l => s.reach (v.who l) .load (v.ea m m.aux l) n n
    let line := s.reach (v.who (lowestLane p)) .line (v.ea m 384 (lowestLane p)) 128 128
    (Ready i s v → (∀ l ∈ lanes, reach l = .ok (r l)) →
      ((∀ l ∈ lanes, (r l).remote = false) →
        LeavesLoad i s v (lanes.flatMap (fun l => (r l).locs))
          (v.owing i h.sflag (laneWrites p m.data words (fun l => s.readReach v.c (r l))) 0)) ∧
      (p ≠ 0 → m.data < 384 → (∀ l ∈ lanes, (r l).remote = true ∧ s.askRemote v v.g.nextId l (r l) = some (q l)) →
        ∃ t : State, exec i s = .next t ∧
          t = { s.setGroup v.gid (v.pends i { Pending.blank h.sflag with
                  kind := .remote lanes
                  regs := lanes.flatMap (fun l => (List.range words).map (fun k => (l, m.data + k))) }) with
                out := s.out ++ lanes.map q, tlb := t.tlb })) ∧
    (Ready i s v → v.sid < v.g.nextId → p = v.sp.mask → (∀ l ∈ lanes, reach l = .error (f l)) → p ≠ 0 →
      exec i s = .next ((s.issuing v i).trapLanes (v.begun i) (lanes.map (fun l => (l, f l))))) ∧
    (Ready j s v →
      (p = 0 → Leaves j s v (v.retired j)) ∧
      (p ≠ 0 → line = .ok x → x.remote = false → LeavesLoad j s v x.locs (v.owing j h.sflag
        (laneWrites p m.data 1 (fun l => s.readReach v.c { x with locs := (x.locs.drop (4 * l)).take 4 })) 0)) ∧
      (p ≠ 0 → ∀ g, line = .error g → TrapsPart j s v h g))

/-- `sst` and `sstl` (R212-R214, R194, R201): with no participating lane they only go on; a scope the residency does not admit traps
0x18; where every lane's access passes, one entry opens in the spoil buffer with each lane's address and bytes, and nothing is
stored before its boundary lands; a full buffer traps 0x1B. A handler's store lands at once. `pst` (R331, R220): each
participating lane's bytes are written to its private space at retirement, each under the key of its place, and count as
written. Where nothing is tracked or waits to be scrubbed, every byte of device memory outside the lines of those addresses
reads as before (of the bytes beside them in their lines the statement on device memory speaks). -/
def Obligations.StoresOfThreads : Prop :=
  (∀ (s : State) (v : View) (h : Hdr) (m : FM) (r : Nat → Reach) (x : Reach),
     let p := v.part h
     let lanes := maskLanes p
     let n := m.width.bytes
     let i := Instr.sst h m
     let j := Instr.sstl h m
     let ea := v.ea m (if m.v then 384 else m.aux)
     let line := v.ea m 384 (lowestLane p)
     let admits := 0 < v.sp.tdepth ∨ (match m.scope with
       | .t => True
       | .d => 2 ≤ v.gr.residency
       | .g => v.gr.residency = 3)
     let room := 0 < v.sp.tdepth ∨ v.g.spoil.length < 64
     let data := fun l => v.g.rdN m.data ((n + 3) / 4) l
     let cap := fun l => if m.rule = .cap then v.g.rdN m.data 2 l / 2 ^ 32 else 0
     (Ready i s v →
       (p = 0 → Leaves i s v (v.retired i)) ∧
       (p ≠ 0 → ¬ admits → TrapsAll i s v ⟨0x18, 0⟩) ∧
       (p ≠ 0 → admits → (∀ l ∈ lanes, s.reach (v.who l) (.step m.scope m.rule) (ea l) n n = .ok (r l)) →
         (¬ room → TrapsSome i s v h ⟨0x1B, 0⟩) ∧
         (room → StoresEntry i s v (v.entry h m (lanes.map (fun l =>
           ⟨l, ea l, (r l).ipn, (r l).locs.zip (leBytes (r l).locs.length (data l)), BitVec.ofNat 32 (cap l)⟩)))))) ∧
     (Ready j s v →
       (p = 0 → Leaves j s v (v.retired j)) ∧
       (p ≠ 0 → ¬ admits → TrapsAll j s v ⟨0x18, 0⟩) ∧
       (p ≠ 0 → admits → s.reach (v.who (lowestLane p)) (.step m.scope m.rule) line 128 128 = .ok x →
         (¬ room → TrapsSome j s v h ⟨0x1B, 0⟩) ∧
         (room → StoresEntry j s v (v.entry h m (lanes.map (fun l =>
           let locs := (x.locs.drop (4 * l)).take 4
           ⟨l, line + BitVec.ofNat 64 (4 * l), x.ipn, locs.zip (leBytes locs.length (v.g.rd m.data l).toNat), 0⟩))))) ∧
       (p ≠ 0 → admits → ∀ g, s.reach (v.who (lowestLane p)) (.step m.scope m.rule) line 128 128 = .error g →
         TrapsPart j s v h g))) ∧
  (∀ (s : State) (v : View) (h : Hdr) (m : FM) (r : Nat → Reach),
     let lanes := maskLanes (v.part h)
     let n := m.width.bytes
     let i := Instr.pst h m
     let data := fun l => v.g.rdN m.data ((n + 3) / 4) l
     Ready i s v → (∀ l ∈ lanes, s.reach (v.who l) .pst (v.ea m m.aux l) n n = .ok (r l)) →
     ∃ t u : State, exec i s = .next (t.setGroup v.gid (v.retired i)) ∧ u = { s.issuing v i with tlb := u.tlb } ∧
       t = lanes.foldl (fun w l => (w.writeLocs v.c (r l).ipn ((r l).locs.zip (leBytes (r l).locs.length (data l)))).markPriv
         ((r l).priv.getD 0) n) u ∧
       t.groups = u.groups ∧ t.teams = u.teams ∧ t.grids = u.grids ∧
       ((∀ e ∈ s.ctxs, e.2.scrub = []) → (s.ctx v.c).stage.track = false → (s.ctx v.c).stage.snap = 0 →
         t.ctxs = s.ctxs ∧
         ∀ k a, (∀ l ∈ lanes, ∀ d, Loc.dram d ∈ (r l).locs → d / 64 ≠ a / 64) → s.Plain k a →
           t.readByte k a = s.readByte k a))

/-! Engine operations, counters and the tag table. -/

/-- `cpy`, `zfill`, `cpy2d`, `gth` and `sct` (R335-R337): each lane's count is checked, 0x61; a count of 0 forks nothing; a lane's
operation that passes the checks of its ranges takes the lowest free command record, in lane order; sixteen records at most,
else 0x60. `gth` and `sct` fork one operation for all the lanes that take part, over the uniform range and each lane's own; a
uniform range that fails traps them all, with the first failure's cause and value, and `sct` looks at its lanes' own ranges first;
which failure stands for the lanes is the model's choice (log 48). The bytes of a forked operation that lie beyond the device are asked for (`fetchFrom`,
which does nothing where there are none). `cpyq` and `cpyre` (R341, R342): the
first cancels every record that runs or has completed and gives the mask of cancelled ones, as a pending result; the second
re-issues the cancelled records its first mask names, each with a new order number after the checks of its ranges, and drops
those that only its second mask names. -/
def Obligations.EngineOperationsFork : Prop :=
  (∀ (s : State) (v : View) (h : Hdr) (m : FM) (units : Nat → List EngUnit) (es : Nat → List TlbEntry)
       (own slice : Nat → List (Nat × Loc)) (us : List TlbEntry),
     let p := v.part h
     let lanes := maskLanes p
     let w := m.width.bytes
     let count := fun l => (v.g.rd m.data l).toNat
     let reg := fun k l => v.g.rd (m.data + k) l
     let linear := fun (kind : EngKind) l => ({ blankCmd kind m l v.g.idx v.sp.pc with
       count := count l, n := count l, dst := v.g.rd64 m.base l, src := if kind = .zfill then 0 else v.g.rd64 m.aux l } : Cmd)
     let rows := fun l => ({ blankCmd .cpy2d m l v.g.idx v.sp.pc with
       count := (reg 0 l).toNat * (reg 1 l).toNat, n := (reg 0 l).toNat, rows := (reg 1 l).toNat
       dst := v.g.rd64 m.base l, src := v.g.rd64 m.aux l, dstride := (reg 2 l).toInt, sstride := (reg 3 l).toInt } : Cmd)
     let low := lowestLane p
     let many := fun (kind : EngKind) => ({ blankCmd kind m low v.g.idx v.sp.pc with
       n := count low, count := count low * lanes.length, mask := p
       dst := if kind = .gth then v.g.rd64 m.base low else 0
       src := if kind = .gth then 0 else v.g.rd64 m.aux low
       addrs := lanes.foldl (fun a l => sset 0 a l (v.g.rd64 (if kind = .gth then m.aux else m.base) l)) []
       units := lanes.flatMap (fun l => if kind = .gth then runUnits w (slice l) (own l) else runUnits w (own l) (slice l)) } : Cmd)
     let legal := fun l => count l ≤ 2 ^ 24 ∧ count l % w = 0
     let legal2 := fun l => 1 ≤ (reg 0 l).toNat ∧ 1 ≤ (reg 1 l).toNat ∧ (reg 0 l).toNat * (reg 1 l).toNat ≤ 2 ^ 24 ∧
       (reg 0 l).toNat % w = 0 ∧ (reg 2 l).toInt % w = 0 ∧ (reg 3 l).toInt % w = 0
     let checked := fun (c : Nat → Cmd) l => s.reachRuns (v.who l) w (c l).runs = .ok (units l, es l)
     let forks := fun (i : Instr) (cs : List Cmd) =>
       (cs = [] → Leaves i s v (v.retired i)) ∧
       (cs ≠ [] → v.tm.cmds.length + cs.length ≤ 16 → ∃ u : State, exec i s = .next (u.fetchFrom v.tid v.tm.order) ∧
         u = { s.setGroup v.gid (v.retired i) with teams := fset s.teams v.tid (cs.foldl Team.fork v.tm), tlb := u.tlb }) ∧
       (cs ≠ [] → 16 < v.tm.cmds.length + cs.length → TrapsSome i s v h ⟨0x60, 0⟩)
     let perLane := fun (i : Instr) (c : Nat → Cmd) (ok : Nat → Prop) (some_ : Nat → Bool) => Ready i s v →
       ((∀ l ∈ lanes, some_ l = true → ok l ∧ checked c l) →
         forks i ((lanes.filter some_).map (fun l => { c l with units := units l }))) ∧
       (p ≠ 0 → (∀ l ∈ lanes, some_ l = true ∧ ¬ ok l) → TrapsSome i s v h ⟨0x61, 0⟩)
     let perSplit := fun (i : Instr) (kind : EngKind) (mine all : Use) => Ready i s v →
       let u := if kind = .gth then v.g.rd64 m.base low else v.g.rd64 m.aux low
       let legal := count low ≤ 4096 ∧ count low % w = 0
       let uniform := s.reachAll (v.who low) all w (lanes.map (fun l => (u + BitVec.ofNat 64 (count low * l), count low)))
       let ownOk := ∀ l ∈ lanes, ∃ e, s.reachRange (v.who l) mine (v.g.rd64 (if kind = .gth then m.aux else m.base) l)
         (count low) w = .ok (own l, e)
       (p = 0 → Leaves i s v (v.retired i)) ∧
       (p ≠ 0 → ¬ legal → TrapsSome i s v h ⟨0x61, 0⟩) ∧
       (p ≠ 0 → legal → count low = 0 → Leaves i s v (v.retired i)) ∧
       (p ≠ 0 → legal → count low ≠ 0 →
         (kind = .gth ∨ ownOk → formOk u = false → TrapsSome i s v h ⟨0x20, u⟩) ∧
         (kind = .gth ∨ ownOk → formOk u = true → u.toNat % w ≠ 0 → TrapsSome i s v h ⟨0x21, u⟩) ∧
         (∀ f, kind = .sct → f.code < 256 → (∀ l ∈ lanes, s.reachRange (v.who l) mine (v.g.rd64 m.base l) (count low) w = .error f) →
           TrapsSome i s v h f) ∧
         (formOk u = true → u.toNat % w = 0 → kind = .gth ∨ ownOk → ∀ f, uniform = .error f → f.code < 256 →
           TrapsSome i s v h f) ∧
         (formOk u = true → u.toNat % w = 0 → ownOk → uniform = .ok (lanes.map slice, us) → forks i [many kind]))
     perLane (.cpy h m) (linear .cpy) legal (fun l => decide (count l ≠ 0)) ∧
     perLane (.zfill h m) (linear .zfill) legal (fun l => decide (count l ≠ 0)) ∧
     perLane (.cpy2d h m) rows legal2 (fun _ => true) ∧
     perSplit (.gth h m) .gth .engSrc .engDst ∧ perSplit (.sct h m) .sct .engDst .engSrc) ∧
  (∀ (s : State) (tid n : Nat) (t : Team), fget s.teams tid = some t →
     (∀ e ∈ t.cmds, n ≤ e.2.order → ∀ x ∈ e.2.units, ∀ l ∈ x.src, l.remote = false) → s.fetchFrom tid n = s) ∧
  (∀ (s : State) (v : View) (h : Hdr) (d a b : Nat) (units : Nat → List EngUnit) (es : Nat → List TlbEntry),
     let p := v.part h
     let i := Instr.cpyq h d
     let j := Instr.cpyre h a b
     let cancelled := fmapV (fun _ (c : Cmd) => if c.st = .running ∨ c.st = .completed
       then { c with st := .cancelled, writes := [], err := false } else c) v.tm.cmds
     let mask := ((List.range 16).filter (fun n => decide ((fget cancelled n).map (·.st) = some .cancelled))).foldl
       (fun x n => x + 2 ^ n) 0
     let r := (v.g.rd a (lowestLane p)).toNat
     let gone := (v.g.rd b (lowestLane p)).toNat
     let again := v.tm.cmds.filter (fun e => decide (e.1 < 16) && bit r e.1 && decide (e.2.st = .cancelled))
     (Ready i s v →
       (p = 0 → Leaves i s v (v.retired i)) ∧
       (p ≠ 0 → ∃ t : State, exec i s = .next t ∧
         t = { s.setGroup v.gid (v.owing i h.sflag (laneWrites p d 1 (fun _ => mask)) 0) with
               teams := fset s.teams v.tid { v.tm with cmds := cancelled } })) ∧
     (Ready j s v → (∀ e ∈ v.tm.cmds, e.1 < 16) →
       (p = 0 → Leaves j s v (v.retired j)) ∧
       (p ≠ 0 → (∀ e ∈ again, s.reachRuns (v.who e.2.lane) e.2.width.bytes e.2.runs = .ok (units e.1, es e.1)) →
         ∃ (u : State) (tm : Team), exec j s = .next (u.fetchFrom v.tid v.tm.order) ∧
           u = { s.setGroup v.gid (v.retired j) with teams := fset s.teams v.tid tm, tlb := u.tlb } ∧
           tm = { v.tm with cmds := tm.cmds, order := v.tm.order + again.length } ∧
           (fwf v.tm.cmds = true → ∀ n c, fget v.tm.cmds n = some c →
             (c.st ≠ .cancelled → fget tm.cmds n = some c) ∧
             (c.st = .cancelled → bit r n = true → ∃ o, fget tm.cmds n =
               some { c with units := units n, st := .running, order := o } ∧ v.tm.order ≤ o) ∧
             (c.st = .cancelled → bit r n = false →
               fget tm.cmds n = if bit gone n = true then none else some c)))))

/-- `ctr` and `ctrset` (R343, R333): a counter's value, its col and err bits above it, is read as a pending pair; a count is set
from the lowest participating lane, in a handler at once with both bits clear, otherwise as an update that waits for the next
team boundary. `tagq`, `tagset` and `tagclr` (R344, R225, R226): the least entry that holds the page gives its aux bits and its
number, and all ones say a miss; an entry beyond the scratchpad's pages or with RV bits set traps 0x62; the updates wait for the
next team boundary, and in a handler are made at once, the least lane standing for an entry. -/
def Obligations.CountersAndTags : Prop :=
  (∀ (s : State) (v : View) (h : Hdr) (d k a : Nat),
     let p := v.part h
     let l := lowestLane p
     let i := Instr.ctr h d k
     let j := Instr.ctrset h k a
     (Ready i s v → Leaves i s v
       (v.owing i h.sflag (laneWrites p d 2 (fun _ => (sget 0 v.tm.ctrs k).toNat)) 0)) ∧
     (Ready j s v →
       (p = 0 → Leaves j s v (v.retired j)) ∧
       (p ≠ 0 → 0 < v.sp.tdepth →
         LeavesTeam j s v { v.tm with ctrs := sset 0 v.tm.ctrs k (BitVec.setWidth 34 (v.g.rd a l)) }) ∧
       (p ≠ 0 → v.sp.tdepth = 0 → LeavesTeam j s v { v.tm with
         upds := v.tm.upds ++ [⟨.ctrset, k, v.sp.ct, BitVec.setWidth 64 (v.g.rd a l), v.g.idx, l, v.g.seq + 1⟩] }))) ∧
  (∀ (s : State) (v : View) (h : Hdr) (d a b : Nat),
     let p := v.part h
     let lanes := maskLanes p
     let pages := v.gr.spad / 4096
     let entry := fun n => (sget 0 v.tm.tags n).toNat
     let key := fun l => bits (v.g.rd64 a l).toNat 56 12
     let found := fun l => (List.range pages).find? (fun n => bit (entry n) 63 && decide (bits (entry n) 56 12 = key l))
     let i := Instr.tagq h d a
     let update := fun (j : Instr) (kind : UpdKind) (value : Nat → Dword) => Ready j s v →
       let legal := fun l => (v.g.rd a l).toNat < pages ∧ bits (value l).toNat 62 57 = 0
       ((∀ l ∈ lanes, legal l) →
         (v.sp.tdepth = 0 → LeavesTeam j s v { v.tm with upds := v.tm.upds ++ lanes.map (fun l =>
           ⟨kind, (v.g.rd a l).toNat, v.sp.ct, value l, v.g.idx, l, v.g.seq + 1⟩) }) ∧
         (0 < v.sp.tdepth → ∃ tags, LeavesTeam j s v { v.tm with tags := tags } ∧
           ∀ n, sget 0 tags n = match lanes.find? (fun l => decide ((v.g.rd a l).toNat = n)) with
             | some l => value l
             | none => sget 0 v.tm.tags n)) ∧
       (v.sid < v.g.nextId → p = v.sp.mask → p ≠ 0 → (∀ l ∈ lanes, ¬ legal l) → TrapsPart j s v h ⟨0x62, 0⟩)
     (Ready i s v → Leaves i s v (v.owing i h.sflag (laneWrites p d 1 (fun l => match found l with
       | some n => 2 ^ 16 * bits (entry n) 11 0 + n
       | none => 2 ^ 32 - 1)) 0)) ∧
     update (.tagset h a b) .tagset (v.g.rd64 b) ∧ update (.tagclr h a) .tagclr (fun _ => 0))

/-! Tensors (16_isa_matrix R347-R366, 03_numbers R67, R68). -/

/-- `thset`, `thget`, `thinv`, `thld` and `thst` (R356, R347): one word of a handle is set, which makes it valid, or read, zero
where it is invalid; a handle is made invalid; thirty-two words are read from one line at its issue (the model's choice of the instant, log 6), the handle pending until they arrive;
and stored from all thirty-two lanes in one entry. -/
def Obligations.HandlesAreSetAndRead : Prop :=
  ∀ (s : State) (v : View) (h : Hdr) (m : FM) (d th w a : Nat) (x : Reach),
    let p := v.part h
    let low := lowestLane p
    let handle := (fget v.tm.handles th).getD ⟨false, []⟩
    let words := if handle.valid then handle.words else []
    let line := v.ea m 384 low
    let stored := (fget v.tm.handles m.data).getD ⟨false, []⟩
    let word := fun l => (sget 0 (if stored.valid then stored.words else []) l).toNat
    let load := s.reachMx (v.who low) .line line 128 128
    let store := s.reachMx (v.who low) (.step m.scope .low) line 128 128
    (Ready (.thset h th w a) s v → LeavesTeam (.thset h th w a) s v { v.tm with
      handles := fset v.tm.handles th ⟨true, sset 0 words w (v.g.rd a low)⟩ }) ∧
    (Ready (.thget h d th w) s v → Computes (.thget h d th w) s v p d 1 (fun _ => (sget 0 words w).toNat) 0) ∧
    (Ready (.thinv h th) s v → LeavesTeam (.thinv h th) s v { v.tm with handles := fset v.tm.handles th ⟨false, []⟩ }) ∧
    (Ready (.thld h m) s v →
      (p = 0 → Leaves (.thld h m) s v (v.retired (.thld h m))) ∧
      (p ≠ 0 → load = .ok x → x.remote = false → LeavesLoad (.thld h m) s v x.locs (v.pends (.thld h m)
        { Pending.blank h.sflag with
          handles := [m.data], handle := some (m.data, true, handleWords (s.readReach v.c x)) })) ∧
      (p ≠ 0 → ∀ f, load = .error f → TrapsPart (.thld h m) s v h f)) ∧
    (Ready (.thst h m) s v →
      (p = 0 → Leaves (.thst h m) s v (v.retired (.thst h m))) ∧
      (p ≠ 0 → storeScopeOk v m = true → ∀ f, store = .error f → TrapsPart (.thst h m) s v h f) ∧
      (p ≠ 0 → storeScopeOk v m = true → store = .ok x →
        (v.sp.tdepth = 0 → 64 ≤ v.g.spoil.length → TrapsPart (.thst h m) s v h ⟨0x1B, 0⟩) ∧
        (0 < v.sp.tdepth ∨ v.g.spoil.length < 64 → StoresEntry (.thst h m) s v
          { seq := v.g.seq + 1, sid := v.sid, pc := v.sp.pc, scope := m.scope, count := v.sp.count m.scope, rule := .low
            width := .b32, v := false, sflag := 15, vreg := 384
            lanes := lanes.map (fun l => ⟨l, line + BitVec.ofNat 64 (4 * l), x.ipn,
              ((x.locs.drop (4 * l)).take 4).zip (leBytes 4 (word l)), 0⟩) })))

/-- `ldt` and `sstt` (R357, R358, R365): each lane finds its element by the coordinates it holds and reads its bits at its issue (the model's choice of the instant, log 6), zero where none
is stored, or puts its value into one entry; a handle that is not fit traps 0x09 in the participating lanes with its number, a
coordinate out of bounds 0x22 in its own lane, and for `sstt` an implied position 0x64; a lane whose reads lie beyond the device
asks for them and the split waits. Where an element stands (R350, R351): level by level a dense one scales the position, a
compressed one finds the index in its run, a singleton or 2:4 block passes or says that the element is implied, and a
coordinate from the extent on is out of bounds; the position's bits lie in bytes of their own, in a packed word, or one to each
word of a plane block. -/
def Obligations.TensorElementsLoadAndStore : Prop :=
  (∀ (s : State) (v : View) (i : Instr), s.Inv → s.Scrubs (s.fetched v i)) ∧
  (∀ (s : State) (v : View) (h : Hdr) (m : FM) (d : Desc) (val : Nat → Nat ⊕ Reach) (r : Nat → Dword × Reach) (f : Nat → TrapInfo),
     let p := v.part h
     let lanes := maskLanes p
     let words := (m.width.bytes + 3) / 4
     let i := Instr.ldt h m
     let j := Instr.sstt h m
     let u := s.fetched v i
     let w := s.fetched v j
     let near := lanes.filterMap (fun l => match val l with
       | .inr x => some (l, u.readReach v.c x)
       | .inl _ => none)
     let known := lanes.filterMap (fun l => match val l with
       | .inl n => some (l, n)
       | .inr _ => none)
     let fit := m.width.bytes * 8 = d.w ∧ d.packedElem = false ∧ ruleElemOk m.rule d.elem = true
     let badHandle : TrapInfo := ⟨0x09, BitVec.ofNat 64 (0x1000 + m.base)⟩
     let traps := fun (i : Instr) => p = v.sp.mask → v.sid < v.g.nextId → (∀ l ∈ lanes, (f l).code < farCode) →
       exec i s = .next ((s.issuingMx v i).trapLanes (v.begun i) (lanes.map (fun l => (l, f l))))
     let asks := fun (i : Instr) (ms : List (Nat × TrapInfo)) => ms ≠ [] → AsksMx i s v ms
     (Ready i s v →
       (p = 0 → LeavesMx i s v (v.unfar (v.retired i))) ∧
       (p ≠ 0 → v.tm.desc m.base = none → TrapsMx i s v h badHandle) ∧
       (p ≠ 0 → v.tm.desc m.base = some d → ¬ (m.width = .b64 ↔ d.w = 64) → TrapsMx i s v h badHandle) ∧
       (p ≠ 0 → v.tm.desc m.base = some d → (m.width = .b64 ↔ d.w = 64) →
         ((∀ l ∈ lanes, u.ldtLane v d m.aux l = .ok (val l)) → (∀ l ∈ lanes, ∀ x, val l = .inr x → x.remote = false) →
           LeavesLoadFrom u i s v (lanes.flatMap (fun l => match val l with
             | .inr x => x.locs
             | .inl _ => [])) (v.unfar (v.owing i h.sflag ((near ++ known).flatMap (fun e => writesN e.1 m.data words e.2)) 0))) ∧
         ((∀ l ∈ lanes, u.ldtLane v d m.aux l = .error (f l)) → traps i) ∧
         asks i (missing (failed (lanes.map (fun l => (l, u.ldtLane v d m.aux l)))))) ∧
       ∀ l x c, d.resolve (s.reader v l) (v.coords d m.aux l) = .ok x →
         (x = .implied c → s.ldtLane v d m.aux l = .ok (.inl 0)) ∧
         (x = .outside c → s.ldtLane v d m.aux l = .error ⟨0x22, BitVec.ofNat 64 c⟩)) ∧
     (Ready j s v →
       (p = 0 → LeavesMx j s v (v.unfar (v.retired j))) ∧
       (p ≠ 0 → storeScopeOk v m = true → v.tm.desc m.base = none → TrapsMx j s v h badHandle) ∧
       (p ≠ 0 → storeScopeOk v m = true → v.tm.desc m.base = some d → ¬ fit → TrapsMx j s v h badHandle) ∧
       (p ≠ 0 → storeScopeOk v m = true → v.tm.desc m.base = some d → fit →
         let e := v.entry h m (lanes.map (fun l =>
           ⟨l, (r l).1, (r l).2.ipn, (r l).2.locs.zip (leBytes (r l).2.locs.length (v.g.rdN m.data words l)), 0⟩))
         ((∀ l ∈ lanes, w.ssttLane v m d l = .ok (r l)) →
           (v.sp.tdepth = 0 → v.g.spoil.length < 64 →
             ∃ t : State, exec j s = .next t ∧ t = { w.setGroup v.gid (v.unfar (v.opens j e)) with tlb := t.tlb }) ∧
           (v.sp.tdepth = 0 → 64 ≤ v.g.spoil.length → exec j s = .next (((s.issuingMx v j).takeTrap v.gid v.sid (v.issued j)
             (trapAll p 0x1B v.sp.pc 0)).modSplit v.gid v.sid Split.advance)) ∧
           (0 < v.sp.tdepth → ∃ u : State, u = { s.issuingMx v j with tlb := u.tlb } ∧
             exec j s = .next (u.openEntry { v.begun j with g := v.unfar (v.begun j).g } e))) ∧
         ((∀ l ∈ lanes, w.ssttLane v m d l = .error (f l)) → traps j) ∧
         asks j (missing (failed (lanes.map (fun l => (l, w.ssttLane v m d l)))))) ∧
       ∀ l x c, d.resolve (s.reader v l) (v.coords d m.aux l) = .ok x →
         (x = .implied c → s.ssttLane v m d l = .error ⟨0x64, BitVec.ofNat 64 c⟩) ∧
         (x = .outside c → s.ssttLane v m d l = .error ⟨0x22, BitVec.ofNat 64 c⟩))) ∧
  (∀ (d : Desc) (rd : Reader) (lv : Level) (ls : List Level) (cs : List Nat) (c p x y lo hi : Nat) (idx : Nat → Nat),
     let go := resolveFrom rd d ls cs
     let here := resolveFrom rd d (lv :: ls) (c :: cs) p
     let byte := fun (a : Nat) => rd (BitVec.ofNat 64 a) 1
     let word := fun (a : Nat) => rd (BitVec.ofNat 64 a) 4
     let b := p * (lv.ext / 2) + 2 * (c / 4)
     resolveFrom rd d [] cs p = .ok (.at p) ∧ (lv.ext ≤ c → here = .ok (.outside c)) ∧
     (c < lv.ext →
       (lv.ty = .dense → here = go (p * (if ls = [] then d.effPitch else lv.ext) + c)) ∧
       (lv.ty = .singleton → word (lv.lbase + 4 * p) = .ok x → here = if x = c then go p else .ok (.implied c)) ∧
       (lv.ty = .blocked → byte (lv.lbase + b) = .ok x → byte (lv.lbase + b + 1) = .ok y →
         here = if x = c % 4 then go b else if y = c % 4 then go (b + 1) else .ok (.implied c)) ∧
       (lv.ty = .compressed → word (lv.lbase + 4 * p) = .ok lo → word (lv.lbase + 4 * (p + 1)) = .ok hi →
         (∀ q, lo ≤ q → q < hi → word (lv.lbase + lv.ioff + 4 * q) = .ok (idx q)) →
         (∀ q k, lo ≤ q → q < k → k < hi → idx q < idx k) →
         (∀ q, lo ≤ q → q < hi → idx q = c → here = go q) ∧
         ((∀ q, lo ≤ q → q < hi → idx q ≠ c) → here = .ok (.implied c))))) ∧
  (∀ (d : Desc) (rd : Reader) (cs : List Nat) (p q x : Nat) (words : Nat → Nat),
     let at_ := fun (o : Nat) => BitVec.ofNat 64 (d.vbase + o) ||| (if d.layout = .diagonal then 0x400000#64 else 0)
     let pitch := fun (n : Nat) => if d.pitch = 0 then n else d.pitch
     (resolveFrom rd d d.levels cs 0 = .ok (.at p) → d.resolve rd cs = .ok (.at (if d.layout = .column
       then cs.getD 1 0 * pitch (d.ext 0) + cs.getD 0 0 else p))) ∧
     (d.layout ≠ .column → d.effPitch = pitch (d.ext (d.levels.length - 1))) ∧
     (d.layout ≠ .plane → 8 ≤ d.w → d.raw rd q = rd (at_ (d.w / 8 * q)) (d.w / 8)) ∧
     (d.layout ≠ .plane → 0 < d.w → d.w < 8 → rd (at_ (4 * (q / (32 / d.w)))) 4 = .ok x →
       d.raw rd q = .ok (bits x (d.w * (q % (32 / d.w)) + d.w - 1) (d.w * (q % (32 / d.w))))) ∧
     (d.layout = .plane → (∀ b < d.w, rd (at_ (4 * d.w * (q / 32)) + BitVec.ofNat 64 (4 * b)) 4 = .ok (words b)) →
       ∃ n, d.raw rd q = .ok n ∧ n < 2 ^ d.w ∧ ∀ b < d.w, bit n b = bit (words b) (q % 32)))

/-- `mmz`, `mmfl`, `mmrd` and `mmwr` (R363, R364): a tile becomes valid and zero under its type's tag; a tile becomes invalid; each
lane reads the word its index names, modulo 1024, as a pending result, or writes it, the lowest lane standing for a word;
reading or writing an invalid tile traps 0x0A. `mma` and `mmld` (R360-R363, R365): the tile's words are computed from the
operands as they are read at the issue (the model's choice of the instant, log 6), in chunks of thirty-two products, and the tile is pending with their flags; unfit handles trap 0x09
and drop the tile, an invalid accumulator traps 0x0A and one of the other type 0x63; a read that fails traps, and one that lies
beyond the device is asked for. -/
def Obligations.TileWordsAndProducts : Prop :=
  (∀ (s : State) (v : View) (h : Hdr) (ty : AccTy) (d a b acc : Nat),
     let p := v.part h
     let lanes := maskLanes p
     let tile := (fget v.g.tiles acc).getD ⟨false, .f32, []⟩
     let tag := match ty with
       | .f32 => TileTag.f32
       | .i32 => TileTag.i32
     let idx := fun l => (v.g.rd a l).toNat % 1024
     let bad : TrapInfo := ⟨0x0A, BitVec.ofNat 64 (0x1000 + acc)⟩
     let i := Instr.mmrd h d a acc
     let j := Instr.mmwr h acc a b
     (Ready (.mmz h ty acc) s v → Leaves (.mmz h ty acc) s v { v.retired (.mmz h ty acc) with
       tiles := fset v.g.tiles acc ⟨true, tag, []⟩ }) ∧
     (Ready (.mmfl h acc) s v → Leaves (.mmfl h acc) s v { v.retired (.mmfl h acc) with
       tiles := fset v.g.tiles acc ⟨false, tile.tag, []⟩ }) ∧
     (Ready i s v →
       (p = 0 → Leaves i s v (v.retired i)) ∧
       (p ≠ 0 → tile.valid = false → TrapsPart i s v h bad) ∧
       (p ≠ 0 → tile.valid = true →
         Leaves i s v (v.owing i h.sflag (laneWrites p d 1 (fun l => (sget 0 tile.vals (idx l)).toNat)) 0))) ∧
     (Ready j s v →
       (p = 0 → Leaves j s v (v.retired j)) ∧
       (p ≠ 0 → tile.valid = false → TrapsPart j s v h bad) ∧
       (p ≠ 0 → tile.valid = true → ∃ vals, Leaves j s v { v.retired j with tiles := fset v.g.tiles acc { tile with vals := vals } } ∧
         ∀ n, sget 0 vals n = match lanes.find? (fun l => decide (idx l = n)) with
           | some l => v.g.rd b l
           | none => sget 0 tile.vals n))) ∧
  (∀ (s : State) (v : View) (h : Hdr) (ty : AccTy) (zero scaled dirA dirB : Bool) (acc a b k : Nat) (x y : Desc)
       (as bs : List (List (Option FV))) (xs : List (Option Nat)) (f : TrapInfo),
     let i := Instr.mma h ty zero scaled dirA dirB acc a b k
     let j := Instr.mmld h ty acc a
     let tile := v.g.tile acc
     let rd := fun (i : Instr) => (s.fetched v i).reader v (lowestLane (v.part h))
     let k0 := (v.g.rd k (lowestLane (v.part h))).toNat % 2 ^ 16
     let kn := (v.g.rd k (lowestLane (v.part h))).toNat / 2 ^ 16
     let rowsA := operandRows (fun r n => if dirA then x.operand (rd i) scaled (x.row0 + k0 + n) (x.col0 + r)
       else x.operand (rd i) scaled (x.row0 + r) (x.col0 + k0 + n)) kn
     let rowsB := operandRows (fun c n => if dirB then y.operand (rd i) scaled (y.row0 + c) (y.col0 + k0 + n)
       else y.operand (rd i) scaled (y.row0 + k0 + n) (y.col0 + c)) kn
     let product := tileOf (fun r c => mmaChunks ty (kn / 32 + 1) ((as.getD r []).zip (bs.getD c []))
       (if zero then 0 else sget 0 tile.vals (32 * r + c), 0))
     let loaded := tileOf (fun r c => match xs.getD (32 * r + c) none with
       | some n => loadedWord ty x.elem n
       | none => (0, 0))
     let puts := fun (i : Instr) (r : FMap Word × FFlags) => LeavesMx i s v (v.unfar
       { v.pends i { Pending.blank h.sflag with tiles := [acc], mx := true, flags := r.2 } with
         tiles := fset v.g.tiles acc ⟨true, accTag ty, r.1⟩ })
     let meets := fun (i : Instr) (f : TrapInfo) => (f.code < farCode → TrapsMx i s v h f) ∧
       (farCode ≤ f.code → AsksMx i s v [(lowestLane (v.part h), f)])
     let drops := fun (i : Instr) (f : TrapInfo) => exec i s = .next
       (((s.issuingMx v i).modGroup v.gid (fun g => g.dropTile acc)).takeTrap v.gid v.sid (v.issued i)
         (trapAll (v.part h) f.code v.sp.pc f.tval))
     (Ready i s v →
       (v.mmaPair ty dirA a b = .error f → (f.code = 0x09 → drops i f) ∧ (f.code ≠ 0x09 → TrapsMx i s v h f)) ∧
       (v.mmaPair ty dirA a b = .ok (x, y) →
         (zero = false → tile.valid = false → TrapsMx i s v h ⟨0x0A, BitVec.ofNat 64 (0x1000 + acc)⟩) ∧
         (zero = false → tile.valid = true → tile.tag ≠ accTag ty →
           TrapsMx i s v h ⟨0x63, BitVec.ofNat 64 (0x1000 + acc)⟩) ∧
         (zero = true ∨ (tile.valid = true ∧ tile.tag = accTag ty) →
           (rowsA = .ok as → rowsB = .ok bs → puts i product) ∧ (rowsA = .error f → meets i f) ∧
           (rowsA = .ok as → rowsB = .error f → meets i f)))) ∧
     (Ready j s v →
       (v.tm.desc a = none → drops j (handleTrap a)) ∧
       (v.tm.desc a = some x → (x.flat && x.elem.mmldOk ty) = false → drops j (handleTrap a)) ∧
       (v.tm.desc a = some x → (x.flat && x.elem.mmldOk ty) = true →
         let all := mapE (fun e => x.read (rd j) [x.row0 + e / 32, x.col0 + e % 32]) (List.range 1024)
         (all = .ok xs → puts j loaded) ∧ (all = .error f → meets j f))))

/-- The product of integer operands (R67, R360): whatever the chunks, the word is the accumulator plus the exact sum of the
products, modulo 2 to the 32, an operand that is not stored counting as zero, and no flag is raised. -/
def Obligations.IntegerProductsAreExact : Prop :=
  ∀ (n : Nat) (ps : List (Option Int × Option Int)) (acc : Word),
    ps.length ≤ 32 * n →
    mmaChunks .i32 n (ps.map (fun p => (p.1.map FV.fromInt, p.2.map FV.fromInt))) (acc, 0) =
      (acc + BitVec.ofInt 32 (ps.map (fun p => p.1.getD 0 * p.2.getD 0)).sum, 0)

/-- `plnz`, `unpln` and `mmst` (R359, R363): every element of the source tensor, or of the tile within the destination's bounds, is
read at the issue (the model's choice of the instant, log 6) and put into the containers of the destination, in one spoil entry under `.low` in the group's lowest live lane; handles that do not
fit trap 0x09 and a full buffer 0x1B. -/
def Obligations.WholeTensorsAreWritten : Prop :=
  ∀ (s : State) (v : View) (h : Hdr) (a b : Nat) (x y : Desc) (es : List (Nat × Nat)) (ls : List SLane) (f : TrapInfo),
    let p := v.part h
    let rd := fun (i : Instr) => (s.fetched v i).reader v (lowestLane p)
    let checked := fun (u : State) (d : Desc) (es : List (Nat × Nat)) => mapE (fun c =>
      match u.reach (v.who (lowestLane p)) (.step .t .low) c.addr c.size c.size with
      | .ok r => (.ok ⟨lowestLane v.g.live, c.addr, r.ipn, r.locs.zip (leBytes r.locs.length c.val), 0⟩ : Except TrapInfo SLane)
      | .error t => .error t) (d.containers es) = .ok ls
    let entry : Spoil :=
      { seq := v.g.seq + 1, sid := v.sid, pc := v.sp.pc, scope := .t, count := v.sp.ct, rule := .low, width := .b32
        v := false, sflag := 15, vreg := 384, lanes := ls }
    let writes := fun (u : State) (i : Instr) (g : Group) (full : Prop) =>
      (ls = [] → exec i s = .next (u.setGroup v.gid { g with splits := (v.retired i).splits })) ∧
      (v.sp.tdepth = 0 → ls ≠ [] → 64 ≤ v.g.spoil.length → full) ∧
      (v.sp.tdepth = 0 → ls ≠ [] → v.g.spoil.length < 64 → exec i s = .next (u.setGroup v.gid { g with
        spoil := v.g.spoil ++ [entry], splits := (v.retired i).splits })) ∧
      (0 < v.sp.tdepth → ls ≠ [] → exec i s = .next ((u.setGroup v.gid g).openEntry (v.begun i) entry))
    let layouts := fun (i : Instr) (plane : Bool) => Ready i s v →
      (v.planePair plane a b = .error f → TrapsMx i s v h f) ∧
      (v.planePair plane a b = .ok (x, y) →
        mapE (fun (e : Nat × Nat) => match y.raw (rd i) (y.place e.1 e.2) with
          | .ok n => (.ok (x.place e.1 e.2, n) : Except TrapInfo (Nat × Nat))
          | .error t => .error t) x.pairs = .ok es →
        checked (s.fetched v i) x (es ++ x.padding.map (fun q => (q, 0))) → writes (s.fetched v i) i (v.unfar (v.with (v.issued i))) (TrapsMx i s v h ⟨0x1B, 0⟩))
    let tile := v.g.tile a
    let src := match tile.tag with
      | .f32 => ConvSide.el .f32
      | .i32 => ConvSide.el .i32
    let inside := (List.range 1024).filter (fun e => decide (x.row0 + e / 32 < x.ext 0) && decide (x.col0 + e % 32 < x.ext 1))
    let made := fun e => convert x.elem src .rne false (sget 0 tile.vals e).toNat
    let st := Instr.mmst h a b
    layouts (.plnz h a b) true ∧ layouts (.unpln h a b) false ∧
    (Ready st s v →
      (v.tm.desc b = none → TrapsPart st s v h (handleTrap b)) ∧
      (v.tm.desc b = some x → x.mmstOk = false → TrapsPart st s v h (handleTrap b)) ∧
      (v.tm.desc b = some x → x.mmstOk = true → tile.valid = false → TrapsPart st s v h ⟨0x0A, BitVec.ofNat 64 (0x1000 + a)⟩) ∧
      (v.tm.desc b = some x → x.mmstOk = true → tile.valid = true →
        checked s x (inside.map (fun e => (x.place (x.row0 + e / 32) (x.col0 + e % 32), (made e).1))) →
        writes s st ((v.with (v.issued st)).setFlags v.lid v.sid (inside.foldl (fun f e => f ||| (made e).2) 0))
          (TrapsPart st s v h ⟨0x1B, 0⟩)))

/-! Results that complete, owed traps and the drain (08_group R150, R162, 09_step R184-R209, 11_traps R245). -/

/-- LONG_LATENCY_COMPLETE, ENGINE_COMPLETE and SPLIT_SWAP (R162, R347, R334, R340, R150): a pending result's registers and handle
are written and it is pending no more; a running command that has read its sources, or has met a lost source, is complete, its bytes read then by the
model's choice of the instant (logs 6 and 48); a free entry takes the oldest ready dormant split, and with none free that split takes the entry of the oldest resident one that has
issued since it came in, when no resident one can issue. Each does nothing when it is not due. The flags of a result enter the
sticky word once no result that marked its completion flag is pending (R62). DEFERRED_TRAP and ASYNCHRONOUS_TEAM_FAULT (R200,
R245): at its next issue a lane that owes a trap takes it, with the cause, sub-cause and value it owes, and for a late error
with the masks of R240; with nothing owed they do nothing. Of several that it owes a lane takes the first, and the others wait
below the handler's depth until its return; those of landings stand in ascending address, whatever landing they came
from, and never before a late error that was owed earlier (the model's choice of the order, log 32);
lanes that owe alike take theirs together. -/
def Obligations.LatentResultsAndOwedTraps : Prop :=
  (∀ (s : State) (gid pid tid rec n : Nat) (g : Group) (tm : Team) (gr : Grid) (p : Pending) (c : Cmd) (d : Split) (bs : List Byte),
     let i := Instr.longLatencyComplete gid pid
     let j := fun (x : Option (List Byte)) => Instr.engineComplete tid rec x
     let k := Instr.splitSwap gid
     let done := fun (c' : Cmd) => (s.readLocs gr.ctx (c.units.flatMap (·.src))).setTeam tid
       { tm with cmds := fset tm.cmds rec { c' with st := .completed } }
     let mates := g.pend.any (fun q => decide (q.pid ≠ pid) && decide (q.flag = p.flag)) && decide (p.flag < 12)
     let resident := (g.splits.map (·.2)).filter (fun sp => sp.entry?.isSome)
     (s.pending? gid pid = none → exec i s = .next s) ∧
     (fget s.groups gid = some g → s.pending? gid pid = some p → p.kind = .unit →
       ∃ t g', exec i s = .next t ∧ fget t.groups gid = some g' ∧ t.mem = s.mem ∧
         (∀ r l, l < 32 → g'.rd r l = (g.apply p.writes).rd r l) ∧
         g'.pend = g.pend.filter (fun q => decide (q.pid ≠ pid)) ∧ g'.tiles = g.tiles ∧ g'.spoil = g.spoil ∧
         (∀ x tm, p.handle = some x → fget s.teams g.tid = some tm →
           ∃ tm', fget t.teams g.tid = some tm' ∧ fget tm'.handles x.1 = some ⟨x.2.1, x.2.2⟩) ∧
         (p.flags ≠ 0 → p.lid = none → g.heldSticky = [] →
           (mates = false → g'.sticky = g.sticky ||| BitVec.setWidth 32 p.flags ∧ g'.heldSticky = []) ∧
           (mates = true → g'.sticky = g.sticky ∧ g'.heldSticky =
             [⟨p.flag, none, ⟨p.sid, p.seq, true, BitVec.setWidth 32 p.flags⟩⟩]))) ∧
     (s.pending? gid pid = some p → (p.kind = .verdict ∨ ∃ ls, p.kind = .remote ls) → exec i s = .next s) ∧
     (∀ ls, fget s.groups gid = some g → s.pending? gid pid = some p → p.kind = .sent ls →
       ((∃ w ∈ s.sentw, w.isOf gid pid = true ∧ w.reply = none) → exec i s = .next s) ∧
       ((∀ w ∈ s.sentw, w.isOf gid pid = true → w.reply = some true) → ∃ t g', exec i s = .next t ∧ fget t.groups gid = some g' ∧
         (∀ r l, l < 32 → g'.rd r l = (g.apply p.writes).rd r l) ∧ g'.pend = g.pend.filter (fun q => decide (q.pid ≠ pid)) ∧
         t.mem = s.mem ∧ t.sentw = s.sentw.filter (fun w => !w.isOf gid pid))) ∧
     (fget s.teams tid = some tm → fget tm.cmds rec = some c → fget s.grids tm.grid = some gr →
       (c.st ≠ .running → ∀ x, exec (j x) s = .next s) ∧
       (c.st = .running → c.farSources = [] → ∀ x, exec (j x) s =
         .next (done { c with writes := s.readUnits gr.ctx c.units [] })) ∧
       (c.st = .running → c.farSources ≠ [] →
         exec (j none) s = .next (done { c with writes := [], err := true }) ∧
         (bs.length = c.farSources.length → exec (j (some bs)) s =
           .next (done { c with writes := s.readUnits gr.ctx c.units bs })) ∧
         (bs.length ≠ c.farSources.length → exec (j (some bs)) s = .next s))) ∧
     (fget s.groups gid = some g →
       (g.dormantReady = none → exec k s = .next s) ∧
       (g.dormantReady = some d → g.freeEntry = some n → fget g.splits d.sid = some d → (s.viewOf gid d.sid).isSome = true →
         ∃ g' e, exec k s = .next (s.setGroup gid g') ∧ g' = { g with splits := fset g.splits d.sid e } ∧
           e = { d with place := .resident n, held := e.held, entered := true, mustIssue := true }) ∧
       (g.dormantReady = some d → g.freeEntry = none →
         ((∃ sp ∈ resident, g.cannotIssue sp = false) → exec k s = .next s) ∧
         (∀ o, (∀ sp ∈ resident, g.cannotIssue sp = true) → oldest (resident.filter (fun sp => !sp.mustIssue)) = some o →
           o.place = .resident n → o.held = [] → fget g.splits o.sid = some o → fget g.splits d.sid = some d →
           (s.viewOf gid o.sid).isSome = true →
           ∃ g' e, exec k s = .next (s.setGroup gid g') ∧
             g' = { g with splits := fset (fset g.splits o.sid { o with place := .dormant }) d.sid e } ∧
             e = { d with place := .resident n, held := e.held, entered := true, mustIssue := true })))) ∧
  (∀ (s : State) (v : View) (o : Owed) (late : Bool),
     let i := if late then Instr.asynchronousTeamFault else Instr.deferredTrap
     s.view? = some v →
     (v.dues late = [] → exec i s = .next s) ∧
     (v.dues late = [o] → o.code ∈ [0x30, 0x31, 0x32, 0x41, 0x52] → o.lane < 32 → exec i s = .next
       ((s.modGroup v.gid (fun g => { g with owed := payOwed o.lane v.sp.tdepth g.owed })).takeTrap v.gid v.sid v.sp
         ⟨BitVec.ofNat 32 (2 ^ o.lane), o.code, o.sub, v.sp.pc, [(o.lane, o.tval)],
           if late then some (o.lmask, o.amask) else none⟩)) ∧
     (∀ os, v.dues late = o :: os → o.code ∈ [0x30, 0x31, 0x32, 0x41, 0x52] →
       (∀ p ∈ os, p.code = o.code ∧ p.sub = o.sub ∧ p.lmask = o.lmask ∧ p.amask = o.amask) → exec i s = .next
       ((s.modGroup v.gid (fun g => { g with owed := (o :: os).foldl (fun l p => payOwed p.lane v.sp.tdepth l) g.owed })).takeTrap
         v.gid v.sid v.sp ⟨maskOf (fun l => (o :: os).any (fun p => decide (p.lane = l))), o.code, o.sub, v.sp.pc,
           (o :: os).map (fun p => (p.lane, p.tval)), if late then some (o.lmask, o.amask) else none⟩)) ∧
     (∀ l, v.due late l = match v.g.owed.filter (fun p => decide (p.lane = l)) with
       | [] => none
       | p :: _ => if v.g.mark ≠ .handler ∧ v.sp.tdepth < p.below ∧ (p.code = 0x41 ↔ late = true) then some p else none)) ∧
  (∀ (o : Owed) (os : List Owed) (l depth : Nat),
     let ofLane := fun (n : Nat) (ps : List Owed) => ps.filter (fun p => decide (p.lane = n))
     let rising := fun (ps : List Owed) => (ps.map (·.tval.toNat)).Pairwise (· ≤ ·)
     (∀ n, n ≠ l → ofLane n (payOwed l depth os) = ofLane n os) ∧
     ofLane l (payOwed l depth os) = ((ofLane l os).drop 1).map (fun p => { p with below := min p.below (depth + 1) }) ∧
     (insOwed o os).Perm (o :: os) ∧ (∀ n, n ≠ o.lane → ofLane n (insOwed o os) = ofLane n os) ∧
     (∀ before cells : List Owed, ofLane o.lane os = before ++ cells → (∀ p ∈ cells, 0x30 ≤ p.code ∧ p.code ≤ 0x32) →
       (∀ p, before.getLast? = some p → p.code < 0x30 ∨ 0x32 < p.code) → rising cells →
       ∃ after, ofLane o.lane (insOwed o os) = before ++ after ∧ after.Perm (o :: cells) ∧ rising after))

/-- BOUNDARY_FORM (R185-R190): the next boundary of a domain forms when its context runs and is not asked to stop, no earlier one is
still landing, every team of the domain is placed and the splits of every group have arrived; it takes the contributions of its
interval in writer-key order, and nothing is written yet. Otherwise nothing happens; a ready split short of the boundary whose
lanes have not arrived before, a context that waits for a cut, and a device that has met a fatal error are such cases. The drain
(R202-R205): a part leaves its core for the merge buffer of its die link, which takes it up, or passes it on when its 64 entries
are taken; a float sum leaves the buffer behind its team's mark. At its home a part is refused when its cell is blocked, applied
when order does not matter or its turn has come, held while the holding buffer has room, and refused otherwise; a team's mark
follows its last part, and releases what waited for it; with every mark there, the ordered replay applies the refused cells.
Each does nothing when it is not due. BOUNDARY_LANDED (R187, R194, R196, R198, R199, R211): only when every part is applied or
answered; then what the contributions that were not updated before resolve to is written, over the memory as it stands, the
verdict registers of all are filled, the boundary counts as landed, its landing is over and its spoil entries are gone, and a
split that waits at a boundary goes on once every boundary that its counts name has landed; a cell is updated before that when
all parts of it and of those joined to it are applied. -/
def Obligations.BoundariesFormDrainAndLand : Prop :=
  (∀ (s : State) (d : Domain) (n : Nat) (gr : Grid),
     let b := s.landed d + 1
     let x := domScope d
     let c := s.ctx gr.ctx
     s.domGrid d = some n → fget s.grids n = some gr →
     (s.mayForm d gr b = false → exec (.boundaryForm d) s = .next s) ∧
     (c.stop = .preempt ∨ s.mgmt.state = 2 ∨ c.roundDue = true ∨ (c.busy = true ∧ c.cmd = some 5) ∨
       (s.landing? d).isSome = true ∨ (d = .grid n ∧ ∃ k < gr.dies, sget 0 gr.nextTeam k < gr.teams) ∨
       (∃ m ∈ s.landings, m.dom ≠ d ∧ m.done ≠ [] ∧ s.landsIn gr.ctx m = true) ∨
       (∃ e ∈ s.domGroups d, ∃ sp ∈ e.2.members, sp.st = .ready ∧ countGe (sp.count x) b = false ∧
         sp.mask &&& ~~~(sp.blank.at x) ≠ 0) → s.mayForm d gr b = false) ∧
     (s.mayForm d gr b = true → ∃ (t : State) (l : Landing), exec (.boundaryForm d) s = .next t ∧
       t.landings = s.landings ++ [l] ∧ l.dom = d ∧ l.b = b ∧ l.contribs = sortC (s.dueContribs d b) ∧ l.marks = [] ∧
       l.teams = (s.domTeams d).map (fun e => (e.2.flat, e.1)) ∧ l.done = [] ∧ l.verdicts = [] ∧
       (∀ q ∈ l.parts, q.2.stage = .core) ∧
       t.mem = s.mem ∧ t.ctxs = s.ctxs ∧ t.tlb = s.tlb ∧ t.grids = s.grids ∧
       ∀ k g, fget s.groups k = some g →
         ∃ g', fget t.groups k = some g' ∧ g' = { g with splits := g'.splits, levels := g'.levels })) ∧
  (∀ (s : State) (d : Domain) (l : Landing) (n tid : Nat) (h : Home) (p : Part),
     let put := fun (st : Stage) => s.setLanding { l with parts := fset l.parts n { p with stage := st } }
     let sent := ∀ q ∈ l.parts, q.2.tid = tid → q.2.home = h → q.2.stage ≠ .core
     let all := (∀ e ∈ l.teams, l.marked h e.1 = true) ∧ (∃ q ∈ l.parts, q.2.home = h ∧ q.2.stage = .refused) ∧
       (∀ q ∈ l.parts, q.2.home = h → q.2.stage ≠ .core ∧ q.2.stage ≠ .buffered ∧ q.2.stage ≠ .passing)
     let turn := ({ l with parts := fset l.parts n { p with stage := .held } } : Landing).inTurn p
     let room := (p.cell, p.tid) ∈ l.holding p.home ∨
       ((s.landings.filter (fun m => decide (m.dom ≠ d))).map (fun m => (m.holding p.home).length)).sum + (l.holding p.home).length < 16
     let keeps := fun (m : Landing) => m.dom = l.dom ∧ m.b = l.b ∧ m.contribs = l.contribs ∧ m.teams = l.teams ∧ m.engines = l.engines
     let left := fun (m : Landing) => (fget m.parts n).map (·.stage)
     s.landing? d = some l → fwf l.parts = true →
     (fget l.parts n = some p →
       (p.stage = .core → (∀ k, p.home ≠ .core k) → exec (.mergeBufferPart d n) s = .next (put
         (if (p.tid, p.cell, p.rule) ∈ l.buffer p.die p.dlc ∨ (s.landings.map (fun m => (m.buffer p.die p.dlc).length)).sum < 64
           then .buffered else .passing))) ∧
       (p.stage ≠ .core ∨ (∃ k, p.home = .core k) → exec (.mergeBufferPart d n) s = .next s) ∧
       (p.stage = .passing ∨ (p.stage = .core ∧ ∃ k, p.home = .core k) →
         ∃ (t : State) (m : Landing), exec (.crusherPart d n) s = .next t ∧ t.landing? d = some m ∧ keeps m ∧ m.marks = l.marks ∧
           (l.blocked p.cell = true → left m = some .refused) ∧
           (l.blocked p.cell = false →
             (p.ordered = false ∨ turn = true → left m = some .applied) ∧
             (p.ordered = true → turn = false → room → left m = some .held ∨ left m = some .applied) ∧
             (p.ordered = true → turn = false → ¬ room → left m = some .refused))) ∧
       (p.stage = .buffered → p.rule = .sumF → l.marked p.home (l.flatOf p.tid) = false → exec (.crusherPart d n) s = .next s) ∧
       (p.stage = .buffered → p.rule ≠ .sumF ∨ l.marked p.home (l.flatOf p.tid) = true → l.blocked p.cell = false → p.ordered = false →
         (∀ q ∈ l.parts, q.2.tid = p.tid → q.2.cell = p.cell → q.2.ordered = false) →
         ∃ (t : State) (m : Landing), exec (.crusherPart d n) s = .next t ∧ t.landing? d = some m ∧ keeps m ∧
           ∀ k q, fget l.parts k = some q → q.stage = .buffered → q.die = p.die → q.tid = p.tid → q.cell = p.cell → q.rule = p.rule →
             (fget m.parts k).map (·.stage) = some .applied) ∧
       (p.stage = .held ∨ p.stage = .applied ∨ p.stage = .refused → exec (.crusherPart d n) s = .next s)) ∧
     ((∃ e ∈ l.teams, e.2 = tid) → sent → l.marked h (l.flatOf tid) = false →
       ∃ (t : State) (m : Landing), exec (.drainEndMark d h tid) s = .next t ∧ t.landing? d = some m ∧ keeps m ∧
         m.marks = l.marks ++ [(h, l.flatOf tid)] ∧
         m.parts = (({ l with marks := l.marks ++ [(h, l.flatOf tid)] } : Landing).release h l.parts.length).parts) ∧
     (¬ sent ∨ l.marked h (l.flatOf tid) = true → exec (.drainEndMark d h tid) s = .next s) ∧
     (¬ all → exec (.orderedReplay d h) s = .next s) ∧
     (all → ∃ (t : State) (m : Landing), exec (.orderedReplay d h) s = .next t ∧ t.landing? d = some m ∧ keeps m ∧
       ∀ k q, fget l.parts k = some q → q.home = h → q.stage = .refused → (fget m.parts k).map (·.stage) = some .applied)) ∧
  (∀ (s : State) (c : Nat) (det : Bool) (l : Landing) (cell : Loc),
     let cells := together l.contribs l.contribs.length [cell]
     let mine := l.contribs.filter (fun x => x.cells.any cells.contains)
     let t := s.landCell c det l cell
     let whole := (∀ x ∈ cells, x ∉ l.done) ∧ (∀ q ∈ l.parts, q.2.cell ∈ cells → q.2.stage = .applied) ∧
       ∀ x ∈ l.contribs, x.isEngine = true → ∀ y ∈ x.cells, y ∉ cells
     (¬ whole → t = (s, l)) ∧
     (whole → ∃ base : Nat,
       let r := resolve ⟨det, (distinct (mine.flatMap Contrib.locs)).map (fun x => (x, s.readLoc c x)), base, l.late.map (·.1)⟩ mine
       t = ((s.landWrites c r.writes).sendAll c (fun _ => .boundary l.dom l.b) r.writes,
         { l with done := l.done ++ cells, verdicts := l.verdicts ++ r.verdicts }))) ∧
  (∀ (s : State) (d : Domain) (l : Landing) (n : Nat) (gr : Grid),
     let before : State := match d with
       | .team tid => s.modTeam tid (fun x => x.landUpds l.b)
       | .grid _ => s.applyPeers gr.ctx (fun w => decide (w.id < l.peers))
       | .die _ _ => s
     let rest := (sortC l.contribs).filter (fun x => !x.cells.any l.done.contains)
     let lost := l.late ++ ((s.sentOf d l.b).filter (fun w => decide (w.reply = some false))).map (fun w => (w.cell, 1))
     s.landing? d = some l → s.domGrid d = some n → fget s.grids n = some gr →
     (s.allApplied l = false → exec (.boundaryLanded d) s = .next s) ∧
     (s.allApplied l = true → ∃ (t : State) (base : Nat), exec (.boundaryLanded d) s = .next t ∧ t.landed d = l.b ∧
       t.landing? d = none ∧
       (let r := resolve ⟨gr.det, (distinct (rest.flatMap Contrib.locs)).map (fun x => (x, before.readLoc gr.ctx x)), base,
          lost.map (·.1)⟩ rest
        let w := before.landWrites gr.ctx r.writes
        t.mem = w.mem ∧ t.ktag = w.ktag ∧ t.cache = w.cache ∧ t.ctxs = w.ctxs ∧
        (∀ k, (fget t.teams k).map (·.spad) = (fget w.teams k).map (·.spad)) ∧
        let kept := l.verdicts.map (fun x => (x.1, if x.1.cells.any (lost.map (·.1)).contains then 0 else x.2))
        ∀ k g, fget t.groups k = some g → ∃ g', fget (w.landVerdicts (kept ++ r.verdicts)).groups k = some g' ∧ g.regs = g'.regs) ∧
       ∀ e ∈ s.domGroups d, fwf s.groups = true → ∃ g', fget t.groups e.1 = some g' ∧
         g'.spoil = e.2.spoil.filter (fun y => !(decide (y.scope = domScope d) && decide (y.count + 1 = l.b))) ∧
         ∀ k sp tm gr' x, fget g'.splits k = some sp → fget t.teams e.2.tid = some tm → fget t.grids tm.grid = some gr' →
           sp.st = .boundary x → gr'.passed tm sp x = false))

/-- What a landing does to its cells does not depend on the order in which its contributions arrive (R196, R204, R207), when no two
of them have one writer and one place in its program. -/
def Obligations.LandingIgnoresArrivalOrder : Prop :=
  ∀ (e : Landscape) (cs ds : List Contrib),
    cs.Perm ds → cs.Pairwise (fun a b => a.wkey ≠ b.wkey ∨ a.ord ≠ b.ord) → resolve e cs = resolve e ds

/-- The write rules (R64, R65, R196, R197): where all contributions of lanes to one cell, or one aligned span of cells, have one rule
and one width, nothing conflicts, and what is written is, by the rule: the old value plus all of theirs, modulo 2 to the width;
the rounded sum of the old value and the tree of the lanes' values, team after team, in the order of the teams or, without
determinism, in some order of them; the running total of those that stay within their caps, in key order; the greatest or least
of old and theirs; their bitwise combination with the old bytes; and for `.low`, `.any` and `.fault` the bytes of one writer: the
least key's, or without determinism that of any, or under `.fault` that of the only writer; a second writer collides, and
nothing is written. Two rules at one cell conflict, 0x31, as do two widths or spans of an arithmetic rule, 0x32: nothing of such
a cell is written and the verdicts are 0. The verdicts (R199): the value that the contributions with a lower key leave, the
running total or all ones under `.cap`, and 1 or 0 for the bytes that stand or not. The traps (R200): each live lane that wrote
a stopped cell owes one, with the cell's address. -/
def Obligations.ContributionsCombineByRule : Prop :=
  (∀ (e : Landscape) (cs : List Contrib) (u : List Loc) (r : Rule) (w : Width),
     let ks := sortC cs
     let n := u.length
     let old := e.oldAt u
     let writes := (resolve e cs).writes.map (fun x => (x.2.1, x.2.2))
     let puts := fun (v : Nat) => writes = u.zip (leBytes n v)
     let all := old :: cs.map Contrib.value
     let int := fun (x : Nat) => (BitVec.ofNat (8 * n) x).toInt
     let f := if w = .b64 then Fmt.f64 else Fmt.f32
     let float := fun (pick : FV → FV → Option Bool) => ks.foldl (fun v c => (pickF f pick [v, c.value]).1) old
     let last := fun (c : Contrib) => ∀ d ∈ cs, d.wkey = c.wkey → d.ord ≤ c.ord
     let stands := fun (c : Contrib) => c ∈ cs ∧ last c ∧ writes = u.map (fun l => (l, c.at l))
     let one := ∀ c ∈ cs, ∀ d ∈ cs, c.wkey = d.wkey
     cs ≠ [] → e.lost = [] → u ≠ [] → u.Nodup → (w = .b32 ∧ n = 4 ∨ w = .b64 ∧ n = 8) →
     (∀ c ∈ cs, c.rule = r ∧ c.width = w ∧ c.locs = u ∧ ∃ g l, c.writer = .lane g l ∧ l < 32) →
     cs.Pairwise (fun a b => a.wkey ≠ b.wkey ∨ a.ord ≠ b.ord) →
     (r ≠ .fault ∨ one → (resolve e cs).stops = []) ∧
     (r = .sumI → puts (old + (cs.map Contrib.value).sum)) ∧
     (r = .sumF → ∃ order : List Nat → List Nat, (∀ ts, (order ts).Perm ts) ∧ (e.det = true → ∀ ts, order ts = ts) ∧
       puts (canonicalSum (if w = .b64 then .f64 else .f32) order old ks)) ∧
     (r = .cap → n = 4 → puts (ks.foldl (fun run c => if run + c.value ≤ c.cap.toNat then run + c.value else run) old)) ∧
     (r = .maxN → ∃ v ∈ all, puts v ∧ ∀ x ∈ all, x ≤ v) ∧ (r = .minN → ∃ v ∈ all, puts v ∧ ∀ x ∈ all, v ≤ x) ∧
     (r = .maxI → ∃ v ∈ all, puts v ∧ ∀ x ∈ all, int x ≤ int v) ∧ (r = .minI → ∃ v ∈ all, puts v ∧ ∀ x ∈ all, int v ≤ int x) ∧
     (r = .maxF → puts (float FV.maxPick)) ∧ (r = .minF → puts (float FV.minPick)) ∧
     (r = .or → writes = u.map (fun l => (l, cs.foldl (fun b c => b ||| c.at l) (e.old l)))) ∧
     (r = .and → writes = u.map (fun l => (l, cs.foldl (fun b c => b &&& c.at l) (e.old l)))) ∧
     (r = .low ∨ (r = .any ∧ e.det = true) ∨ (r = .fault ∧ one) → ∃ c, stands c ∧ ∀ d ∈ cs, c.wkey ≤ d.wkey) ∧
     (r = .any → e.det = false → writes.map (·.1) = u ∧ ∀ x ∈ writes, ∃ c ∈ cs, last c ∧ x.2 = c.at x.1) ∧
     (r = .fault → ¬ one → writes = [] ∧ (resolve e cs).stops = (distinct (u.map Loc.cell)).map (fun x => ⟨x, 0x30⟩)) ∧
     ∀ c ∈ cs, c.v = true → ∃ x, (c, x) ∈ (resolve e cs).verdicts ∧
       (let lower := cs.filter (fun d => d.before c)
        (r = .sumI ∨ r = .or ∨ r = .and ∨ r = .maxI ∨ r = .maxN ∨ r = .maxF ∨ r = .minI ∨ r = .minN ∨ r = .minF →
          (lower = [] → x = old) ∧
          (lower ≠ [] → x = leNat ((resolve e lower).writes.map (fun y => y.2.2)))) ∧
        (r = .cap → let run := ks.foldl (fun run d => if d.before c = true ∧ run + d.value ≤ d.cap.toNat then run + d.value else run) old
          x = if run + c.value ≤ c.cap.toNat then run else 0xFFFFFFFF) ∧
        (r = .low ∨ (r = .any ∧ e.det = true) → (x = 1 ∨ x = 0) ∧ (x = 1 ↔ last c ∧ ∀ d ∈ cs, c.wkey ≤ d.wkey)) ∧
        (r = .fault → x = if one then 1 else 0))) ∧
  (∀ (ty : ElemTy) (old t : Nat) (as bs : List Contrib), ty = .f32 ∨ ty = .f64 → (∀ a ∈ as, a.flat < t) → (∀ b ∈ bs, b.flat = t) →
     ∀ sub, teamSum ty bs = some sub →
     canonicalSum ty id old (as ++ bs) =
       (ty.fmt.rounded .rne (FV.add .rne (ty.fmt.decode (canonicalSum ty id old as)) (ty.fmt.decode sub.1))).1) ∧
  (∀ (ty : ElemTy) (g : Nat) (cs : List Contrib) (val : Nat → Nat) (mask : LaneMask), ty = .f32 ∨ ty = .f64 → cs ≠ [] →
     (∀ c ∈ cs, ∃ l < 32, c.writer = .lane g l ∧ mask.getLsbD l = true ∧ c.value = val l) →
     (∀ l < 32, mask.getLsbD l = true → ∃ c ∈ cs, c.writer = .lane g l) →
     cs.Pairwise (fun a b => a.writer ≠ b.writer) → (teamSum ty cs).map (·.1) = (sumTree ty.fmt val mask.getLsbD 5 0).map (·.1)) ∧
  (∀ (e : Landscape) (cs : List Contrib) (cell : Loc) (a b : Contrib), a ∈ cs → b ∈ cs → cell ∈ a.cells → cell ∈ b.cells →
     let stopsAt := fun (code : Nat) => ⟨cell, code⟩ ∈ (resolve e cs).stops ∧ (∀ x ∈ (resolve e cs).writes, x.2.1.cell ≠ cell) ∧
       ∀ x ∈ (resolve e cs).verdicts, cell ∈ x.1.cells → x.2 = 0
     (a.rule ≠ b.rule → stopsAt 0x31) ∧
     ((∀ c ∈ cs, cell ∈ c.cells → c.rule = a.rule) → a.rule.arith = true → a.width ≠ b.width ∨ a.cells ≠ b.cells → stopsAt 0x32)) ∧
  (∀ (s : State) (cs : List Contrib) (x : Stopped) (gid : Nat) (g : Group),
     let writers := (stopWriters cs x).filter (fun c => s.writerLive c)
     fget s.groups gid = some g → ∃ g', fget (s.owStop cs x).groups gid = some g' ∧ g' = { g with owed := g'.owed } ∧
       ∀ o, o ∈ g'.owed ↔ o ∈ g.owed ∨ ∃ c, c.gid = gid ∧ writers.find? (fun d => decide (d.wkey = c.wkey)) = some c ∧
         o = ⟨(c.lane?).getD 0, x.code, 0, 0, 0, c.cellAddr x.cell, 4⟩)


/-! Contexts (05_context R95, R106-R113, R395, 13_link R290). -/

/-- BIND, MIGRATE_IN and RUN (R107, R395): only from the state that admits the command, else error 1; an unreadable partition table
is error 4, an empty or overlapping partition 3, a missing memory key 5, a misaligned save area 8. A context that is bound has
its `ku_`, `ks_` and queue registers at their Reset values, its partition, the hypervisor's stage control fields with the device's
own at zero, which their cells show (the model's choice, log 21), and its scrub list, whose length `sleft` shows; RUN starts the scheduler. -/
def Obligations.PartitionsAreBound : Prop :=
  ∀ (s : State) (c : Nat) (qs : List Nat),
    let x := s.ctx c
    let u := s.bitmapSeen c
    let fails := fun (t : State) (i : Instr) (e : Nat) => exec i s = .next (t.setCtx c ((t.ctx c).ended e))
    let noKey := fget s.mgmt.keys (x.memkey.toNat % 64) = none
    let binds := fun (i : Instr) (n : Nat) (st : CtxState) (sig : Dword) (inc : Option Incoming) => x.busy = true → x.cmd = some n →
      (x.st ≠ .free → fails s i 1) ∧
      (x.st = .free → u.bitmap c = none → fails u i 4) ∧
      (x.st = .free → u.bitmap c = some qs →
        (qs = [] ∨ s.overlaps c qs = true → fails u i 3) ∧
        (qs ≠ [] → s.overlaps c qs = false → noKey → fails u i 5) ∧
        (qs ≠ [] → s.overlaps c qs = false → ¬ noKey → x.sarea.toNat % 4096 ≠ 0 → fails u i 8) ∧
        (qs ≠ [] → s.overlaps c qs = false → ¬ noKey → x.sarea.toNat % 4096 = 0 → ∃ (t : State) (y : Ctx),
          exec i s = .next t ∧ t = { s with ctxs := t.ctxs, mem := t.mem, ktag := t.ktag, cache := t.cache } ∧ t.ctx c = y ∧
          y = { x.ended 0 with
            st := st, quads := qs, sig := sig, incoming := inc, pdet := true, pver := 1, swip := false, tvec := 0, pvec := 0
            ptbase := 0, scring := 0, scsize := 0, qtBase := 0, qtCount := 0, qtErr := 0, queues := [], kept := [], round := none
            roundDue := false, move := none, stage := y.stage, scrub := y.scrub } ∧
          y.scrub = ((u.setCtx c { y with stage := Stage2.reset, scrub := (u.ctx c).scrub }).loadStage c).scrubList c ∧
          y.stage = { Stage2.reset with
            map0 := u.stageField c 0 8, map1 := u.stageField c 8 8, mlen := u.stageField c 16 4
            track := bit (u.stageField c 20 4) 0, pool := u.stageField c 24 8, pent := u.stageField c 32 4 } ∧
          (t.scrubPending (s.stagePage c) = false →
            let cell := fun (o : Nat) => t.readN s.fwKey (s.stagePage c + o) 4
            cell 52 = (y.scrub.map (fun r => (r.2 - r.1) / 64)).sum % 2 ^ 32 ∧
            cell 20 = (if y.stage.track then 1 else 0) ∧ cell 36 = 0)))
    s.Inv → s.Scrubs u ∧
    binds (.bind c) 1 .bound (s.signature c qs) none ∧ binds (.migrateIn c) 6 .migIn x.sig (some ⟨[], [], none⟩) ∧
    (x.busy = true → x.cmd = some 2 →
      (x.st ≠ .bound → fails s (.run c) 1) ∧
      (x.st = .bound → exec (.run c) s = .next ((x.queues.filter (fun e => e.2.rung)).foldl (fun t e => t.see c e.1)
        (s.setCtx c { x.ended 0 with st := .running, sweepAt := s.time / 1000000 }))))

/-- UNBIND, SCRUB_DONE and CANCEL (R107, R277): the context goes to the scrub engine with its grids, teams and groups gone and its
peer and pre-copy entries at reset; a clean context is free, its translations gone; a migration out is called off where it
stands, and one that comes in is scrubbed. In any other state the command ends with error 1. DISABLE, VF_ENABLE_CLEAR,
FUNCTION_LEVEL_RESET, the device-fatal errors and the device reset (R106, R111, R278, R383, R388, R389): each context that the
stop reaches and that is neither free nor being scrubbed is disabled, and holds no grid, no slot and no translation; the others
stay. A fatal error leaves the management block in state 2, and the link that failed is noted; a reset from which an image comes
up, the staged one or else the running one, leaves everything at its Reset value but memory, which keeps its bytes, and what
R383 lets stand; where no image verifies the device stays booting with error 2. The
model's choices are what a reset keeps of `devnum` (log 5), DISABLE in states without a hard stop (log 19), and that UNBIND and
CANCEL are busy until SCRUB_DONE (log 20). -/
def Obligations.ContextsAreReleasedOrStopped : Prop :=
  (∀ (s : State) (c : Nat),
     let x := s.ctx c
     let fails := fun (i : Instr) (e : Nat) => exec i s = .next (s.setCtx c (x.ended e))
     let due := fun (n : Nat) => x.busy = true ∧ x.cmd = some n
     let mine := fun (tid : Nat) => ∃ tm ∈ s.teams, tm.1 = tid ∧ ∃ gr ∈ s.grids, gr.1 = tm.2.grid ∧ gr.2.ctx = c
     let dropped := fun (t : State) =>
       t = { s with grids := t.grids, teams := t.teams, groups := t.groups, compacts := t.compacts, landings := t.landings
                    sentw := t.sentw, ctxs := t.ctxs, tlb := t.tlb } ∧
       (∀ e, e ∈ t.grids ↔ e ∈ s.grids ∧ e.2.ctx ≠ c) ∧ (∀ e, e ∈ t.teams ↔ e ∈ s.teams ∧ ¬ mine e.1) ∧
       (∀ e, e ∈ t.groups ↔ e ∈ s.groups ∧ ¬ mine e.2.tid) ∧ ∀ k, k ≠ c → t.ctx k = s.ctx k
     (due 7 →
       (x.st ≠ .bound → x.st ≠ .preempted → x.st ≠ .disabled → fails (.unbind c) 1) ∧
       (x.st = .bound ∨ x.st = .preempted ∨ x.st = .disabled → ∃ t : State, exec (.unbind c) s = .next t ∧ dropped t ∧ t.tlb = s.tlb ∧
         t.ctx c = { x with st := .scrubbing, cmd := none, scrub := [], move := none, peers := [], pcBusy := false, pcStat := 0,
                            pcPorts := 0, pcSess := 0, pcSent := 0 })) ∧
     (x.st ≠ .scrubbing → exec (.scrubDone c) s = .next s) ∧
     (x.st = .scrubbing → ∃ t : State, exec (.scrubDone c) s = .next t ∧ dropped t ∧ (∀ e, e ∈ t.tlb ↔ e ∈ s.tlb ∧ e.ctx ≠ c) ∧
       t.ctx c = { (if x.busy then x.ended 0 else x) with
         st := .free, quads := [], queues := [], kept := [], incoming := none, round := none }) ∧
     (due 9 →
       (x.st = .migOut → exec (.cancel c) s = .next (s.setCtx c { x.ended 0 with
         st := if x.migRan then .running else .preempted, round := none, roundDue := false, pcBusy := false
         pcStat := if x.pcBusy then 4 else x.pcStat, stage := { x.stage with snap := 0 } })) ∧
       (x.st = .migIn → exec (.cancel c) s = .next (s.setCtx c { x with
         st := .scrubbing, cmd := none, incoming := none, scrub := [] })) ∧
       (x.st ≠ .migOut → x.st ≠ .migIn → fails (.cancel c) 1))) ∧
  (∀ (s : State) (c fn die dlc : Nat),
     let x := s.ctx c
     let stops := fun (y : Ctx) => y.st ≠ .free ∧ y.st ≠ .scrubbing
     let stopped := fun (t : State) (c : Nat) => (t.ctx c).st = .disabled ∧ (t.ctx c).busy = false ∧ (t.ctx c).stop = .none ∧
       (∀ e ∈ t.grids, e.2.ctx ≠ c) ∧ (∀ e ∈ t.slots, e.2.ctx ≠ c) ∧ ∀ e ∈ t.tlb, e.ctx ≠ c
     let reaches := fun (i : Instr) (p : Ctx → Prop) => ∃ t, exec i s = .next t ∧ t.dieMem = s.dieMem ∧
       ∀ e ∈ s.ctxs, (p e.2 ∧ stops e.2 → stopped t e.1) ∧ (¬ (p e.2 ∧ stops e.2) → (t.ctx e.1).st = e.2.st)
     let fatal := fun (i : Instr) => reaches i (fun _ => True) ∧ ∀ t, exec i s = .next t → t.mgmt.state = 2
     let m := s.mgmt
     let runs := fun (img : List Byte) => imageOk img = true ∧ m.rollback ≤ field img 4 4 ∧ field img 4 4 ≤ 255
     let boots := fun (img : List Byte) => runs img ∧ (m.staged = some img ∨ ((∀ x, m.staged = some x → ¬ runs x) ∧ img = m.running))
     let resets := fun (i : Instr) => ∃ t : State, exec i s = .next t ∧
       (∀ img, boots img → t = { State.reset with
           fwver := BitVec.ofNat 32 (field img 0 4), dieMem := s.dieMem, mem := t.mem, ktag := t.ktag, defects := s.defects
           nextMsg := s.nextMsg, out := t.out, agenda := s.agenda, fresh := t.fresh
           mgmt := { Mgmt.reset with
             devnum := m.devnum, rollback := max m.rollback (field img 4 4), running := img, secver := field img 4 4
             fwgen := m.fwgen + 1 } } ∧
         (s.landings = [] → (∀ e ∈ s.ctxs, ∀ y, e.2.move = some y → y.cut = false) → t.mem = s.mem ∧ t.ktag = s.ktag)) ∧
       ((∀ img, ¬ boots img) → t.mgmt = { m with busy := false, err := 2, cmd := none, state := 0, wrap := none } ∧
         ∀ e ∈ s.ctxs, stops e.2 → stopped t e.1)
     swf Ctx.reset s.ctxs = true →
     (x.busy = true → x.cmd = some 8 →
       (stops x → ∃ t, exec (.disable c) s = .next t ∧ stopped t c ∧ (t.ctx c).cmd = none ∧
         (t.ctx c).err = if x.cutShort then 0x0B else 0) ∧
       (x.st = .scrubbing → x.cutShort = true →
         exec (.disable c) s = .next (s.setCtx c { x with err := 1, cmd := none, cutShort := false })) ∧
       (x.st = .scrubbing → x.cutShort = false → exec (.disable c) s = .next (s.setCtx c (x.ended 1))) ∧
       (x.st = .free → exec (.disable c) s = .next (s.setCtx c (x.ended (if x.cutShort then 0x0B else 1))))) ∧
     reaches .vfEnableClear (fun y => y.vf.getLsbD 6 = false) ∧
     reaches (.functionLevelReset fn) (fun y => y.fn = fn ∧ y.vf.getLsbD 6 = false) ∧
     ((die, dlc) ∈ s.dlcDown → exec (.dieLinkFailure die dlc) s = .next s) ∧
     ((die, dlc) ∉ s.dlcDown → fatal (.dieLinkFailure die dlc) ∧
       ∀ t, exec (.dieLinkFailure die dlc) s = .next t → t.dlcDown = s.dlcDown ++ [(die, dlc)]) ∧
     fatal .thermalTrip ∧ fatal (.uncorrectableError .deviceState) ∧
     resets .deviceReset ∧ (s.mgmt.busy = true → s.mgmt.cmd.map (·.1) = some 6 → resets .reset))

/-- MIGRATE_OUT, ROUND, PRECOPY_ROUND_END and ABORT (R107, R270, R289-R291): a round begins with a snapshot, which changes the
active map and numbers itself, and sends every mapped page at first and then the pages of the delta map; while a boundary lands
the ROUND command is kept, and an ABORT then ends it. Pages go as records that the session seals, in sequence; at a round's end
those that have not gone, and those that went after the pool filled, are marked again. The end of a final round sends the save
area as one more record, which is the model's choice (log 51), and leaves the context to the scrub engine, or, where it failed, pre-empted with error 0x0C. How many
pages have gone when a round ends is the step's own choice, from those already sent up (log 30). -/
def Obligations.MigrationRoundsSendPages : Prop :=
  ∀ (s : State) (c stat sent early : Nat) (r : Round),
    let x := s.ctx c
    let g := x.stage
    let s0 := s.loadStage c
    let g0 := (s0.ctx c).stage
    let delta := if g.active then g0.map1 else g0.map0
    let begun := fun (t : State) (snap : Nat) (pages : List Nat) =>
      t = { s with ctxs := t.ctxs, mem := t.mem, ktag := t.ktag, cache := t.cache } ∧
      (t.ctx c).round = some ⟨snap, pages, false, 0, 0⟩ ∧ (t.ctx c).roundDue = false ∧
      (t.ctx c).pcBusy = true ∧ (t.ctx c).pcStat = 0 ∧ (t.ctx c).pcSent = 0 ∧ (t.ctx c).stage.snap = snap + 1 ∧
      (t.ctx c).stage.active = !g.active ∧ (t.ctx c).stage.pused = 0 ∧ (t.ctx c).stage.full = false ∧ (t.ctx c).st = .migOut
    let cut := ∀ l ∈ s.landings, s.landsIn c l = false
    let idle := x.st = .migOut ∧ x.stop = .none ∧ x.round = none
    let may := r.sent ≤ sent ∧ sent ≤ r.pages.length ∧ r.early ≤ early ∧ early ≤ sent ∧
      (g.full = true → r.early = r.sent ∨ early = r.early)
    let record := fun (page seq : Nat) (body : List Byte) => (s.session c).seal page r.snap seq body
    let ends := fun (i : Instr) (stat : Nat) => ∃ t : State, exec i s = .next t ∧ (t.ctx c).round = none ∧
      (t.ctx c).pcBusy = false ∧ (t.ctx c).pcStat = stat ∧ (t.ctx c).pcSent = sent ∧
      (t.ctx c).pcSeq = x.pcSeq + (sent - r.sent) + (if r.final = true ∧ stat = 0 then 1 else 0) ∧
      t.out = s.out ++ (List.range (sent - r.sent)).map (fun i =>
          let page := r.pages.getD (r.sent + i) 0
          let y := record page (x.pcSeq + i) (s.snapPage c page)
          OutMsg.pageRecord c page r.snap (x.pcSeq + i) y.1 y.2) ++
        (if r.final = true ∧ stat = 0 then
          let seq := x.pcSeq + (sent - r.sent)
          let y := record r.pages.length seq (s.areaBytes c)
          [OutMsg.saveArea c r.pages.length r.snap seq y.1 y.2]
         else []) ∧
      (stat = 0 → t.mem = s.mem) ∧
      (stat ≠ 0 → (∀ p < 8 * g.mlen, s.ctxs.any (fun e => s.fwHolds e.2 (g.mapByte p)) = false) → ∀ p, p ∈ r.pages.drop sent ∨ (g.full = true ∧ p ∈ (r.pages.take sent).drop early) → p < 8 * g.mlen →
        (t.readByte (s.keyOf c) (g.mapByte p)).getLsbD (p % 8) = true) ∧
      ((t.ctx c).st, (t.ctx c).err) = (if r.final = false then (x.st, x.err) else if stat = 0 then (.scrubbing, x.err)
        else (.preempted, 0x0C))
    swf Ctx.reset s.ctxs = true →
    (x.busy = true → x.cmd = some 5 →
      (x.st ≠ .running → x.st ≠ .preempted → exec (.migrateOut c) s = .next (s.setCtx c (x.ended 1))) ∧
      (x.st = .running ∨ x.st = .preempted → (¬ cut → exec (.migrateOut c) s = .next s) ∧
        (cut → ∃ t : State, exec (.migrateOut c) s = .next t ∧ begun t 0 (t.mappedPages c) ∧ (t.ctx c).busy = false ∧
          (t.ctx c).err = 0 ∧ (t.ctx c).migRan = decide (x.st = .running) ∧ (t.ctx c).pcSeq = 0))) ∧
    (¬ idle → exec (.round c) s = .next s) ∧
    (idle → cut → ∃ t, exec (.round c) s = .next t ∧ begun t g.snap (s0.mapPages c delta g0.mlen)) ∧
    ((∀ e ∈ s.ctxs, e.2.scrub = []) → g0 = { g with
      map0 := s.stageField c 0 8, map1 := s.stageField c 8 8, mlen := s.stageField c 16 4
      track := bit (s.stageField c 20 4) 0, pool := s.stageField c 24 8, pent := s.stageField c 32 4 }) ∧
    (idle → ¬ cut → exec (.round c) s = .next (if x.roundDue then s else
      s.setCtx c { x with roundDue := true, pcBusy := true, pcStat := 0, pcSent := 0 })) ∧
    (x.round = none → exec (.precopyRoundEnd c stat sent early) s = .next s ∧
      exec (.abort c sent early) s = .next (if x.roundDue then
        s.setCtx c { x with roundDue := false, pcBusy := false, pcStat := 4 } else s)) ∧
    (x.round = some r → ¬ may → exec (.precopyRoundEnd c stat sent early) s = .next s ∧ exec (.abort c sent early) s = .next s) ∧
    (x.round = some r → may → (∀ e ∈ s.ctxs, e.2.scrub = []) →
      ends (.abort c sent early) 4 ∧
      (stat ≤ 3 → (stat = 0 → sent = r.pages.length ∧ g.full = false) → (stat = 1 → g.full = true) →
        ends (.precopyRoundEnd c stat sent early) stat))

/-- PRECOPY_RECORD (R290): a record whose tag does not verify leaves nothing, nor does one for a page that is not mapped; the
record of the save area, whose form and place in the stream are the model's choice (log 51), says which sequences the last round has; a page is kept in the version of the highest snapshot number,
and the sequence of each record of a page that has landed is noted. -/
def Obligations.IncomingRecordsAreApplied : Prop :=
  ∀ (s : State) (c page snap seq n a : Nat) (body tag bytes : List Byte) (last : Bool) (inc : Incoming),
    let x := s.ctx c
    let i := Instr.precopyRecord c page snap seq body tag last
    let reads := fun (t : State) (k : Key) (a n : Nat) => ∀ i < n, t.readByte k (a + i) = bytes.getD i 0
    let opened := (s.session c).unseal page snap seq body tag
    let noted : Incoming := { inc with got := if seq ∈ inc.got then inc.got else seq :: inc.got }
    let clean := ∀ e ∈ s.ctxs, e.2.scrub = []
    let lands := fun (k : Key) (a n : Nat) (inc' : Incoming) => ∃ t : State, exec i s = .next t ∧
      t = { s with ctxs := t.ctxs, mem := t.mem, ktag := t.ktag, cache := t.cache } ∧ reads t k a n ∧
      t.ctx c = { x with incoming := some inc' }
    (x.incoming = none ∨ x.st ≠ .migIn ∨ opened = none → exec i s = .next s) ∧
    (x.incoming = some inc → x.st = .migIn → opened = some bytes →
      (clean → last = true → lands s.fwKey x.sarea.toNat bytes.length { inc with tail := some (seq - page, seq) }) ∧
      (last = false → fget inc.pages page = some n → snap < n →
        exec i s = .next (s.setCtx c { x with incoming := some noted })) ∧
      (last = false → (∀ n, fget inc.pages page = some n → n ≤ snap) →
        (s.walkH (4096 * page) 3 (s.hypRoot c) = none → exec i s = .next (s.walked c 0x2A 0 (4096 * page))) ∧
        (∀ p, s.walkH (4096 * page) 3 (s.hypRoot c) = some (p, a) → clean →
          lands (s.keyAt c a) a (min 4096 bytes.length) { noted with pages := fset inc.pages page snap })))

/-! Pre-emption (05_context R107, R112, R113, 06_queue R126, 11_traps R249-R254). -/

/-- PREEMPT (R107, R126, R249): with a misaligned partition table or a save area that memory does not hold, it ends with its
error, and the groups go on (the model's choice of code and outcome, logs 12 and 23). The request reaches the slots and the groups with a live lane, once; when everything is saved, the
save area is written, the groups and teams leave the device and the context is pre-empted. A context that migrates out without
having run goes to its last round at once. -/
def Obligations.PreemptionRequestsAndWrites : Prop :=
  ∀ (s : State) (c : Nat),
    let x := s.ctx c
    let i := Instr.preempt c
    let fails := fun (e : Nat) => exec i s = .next (s.setCtx c (x.ended e))
    let fits := x.sarea.toNat % 4096 = 0 ∧ s.installed x.sarea.toNat x.salen.toNat = true
    let mine := fun (tid : Nat) => ∃ tm ∈ s.teams, tm.1 = tid ∧ ∃ gr ∈ s.grids, gr.1 = tm.2.grid ∧ gr.2.ctx = c
    let asked := (∀ e ∈ s.slots, e.2.ctx = c → e.2.st = .unloading) ∧
      ∀ e ∈ s.groups, s.groupCtx e.2 = some c → e.2.live ≠ 0 → e.2.mark ≠ .none
    let goesOn := fun (e : Nat) => ∃ t : State, exec i s = .next t ∧
      t = { s with ctxs := t.ctxs, groups := t.groups, teams := t.teams } ∧ t.ctx c = x.ended e ∧
      ∀ k, fget t.groups k = (fget s.groups k).map (fun g => if s.groupCtx g = some c then
        { g with mark := .none, splits := fmapV (fun _ sp => if sp.place = .ninth then { sp with frozen := false } else sp) g.splits }
        else g)
    let cut := ∀ l ∈ s.landings, s.landsIn c l = false
    let s0 := s.loadStage c
    let g0 := (s0.ctx c).stage
    let lastRound : Round := ⟨x.stage.snap, s0.mapPages c (if x.stage.active then g0.map1 else g0.map0) g0.mlen, true, 0, 0⟩
    x.busy = true → x.cmd = some 3 →
    (x.stop ≠ .preempt → fails 1) ∧
    (x.stop = .preempt → (x.st = .scrubbing ∨ x.round.isSome = true → exec i s = .next s) ∧
      (x.st ≠ .scrubbing → x.round = none →
        (x.pdesc.toNat % 64 ≠ 0 → goesOn 4) ∧
        (x.pdesc.toNat % 64 = 0 → ¬ fits → goesOn 8) ∧
        (x.pdesc.toNat % 64 = 0 → fits → x.st = .migOut → x.migRan = false →
          (¬ cut → exec i s = .next s) ∧
          (cut → ∃ t : State, exec i s = .next t ∧ (t.ctx c).round = some lastRound ∧ (t.ctx c).pcBusy = true)) ∧
        (x.pdesc.toNat % 64 = 0 → fits → x.st ≠ .migOut ∨ x.migRan = true →
          (¬ asked → ∃ t : State, exec i s = .next t ∧
            t = { s with ctxs := t.ctxs, slots := t.slots, groups := t.groups } ∧
            t.ctx c = { x with reqTime := s.time, queues := fmapV (fun _ q => { q with head := none }) x.queues } ∧
            (∀ k, fget t.slots k = (fget s.slots k).map (fun y => if y.ctx = c then { y with st := .unloading } else y)) ∧
            ∀ k, fget t.groups k = (fget s.groups k).map (fun g =>
              if s.groupCtx g = some c ∧ g.live ≠ 0 ∧ g.mark = .none then { g with mark := .stopping x.swip } else g)) ∧
          (asked → s.allSaved c = false → exec i s = .next s) ∧
          (asked → s.allSaved c = true → x.salen.toNat < (s.area c).length → goesOn 8) ∧
          (asked → s.allSaved c = true → (s.area c).length ≤ x.salen.toNat → (∀ e ∈ s.ctxs, e.2.scrub = []) →
            ∃ t : State, exec i s = .next t ∧ t.grids = s.grids ∧
              (∀ e, e ∈ t.groups ↔ e ∈ s.groups ∧ ¬ mine e.2.tid) ∧ (∀ e, e ∈ t.teams ↔ e ∈ s.teams ∧ ¬ mine e.1) ∧
              (x.st = .migOut → ∃ r, (t.ctx c).round = some r ∧ r.final = true ∧ r.snap = x.stage.snap) ∧
              (x.st ≠ .migOut → t.ctx c = { x.ended 0 with st := .preempted } ∧
                ∀ n < (s.area c).length, t.readByte s.fwKey (x.sarea.toNat + n) = (s.area c).getD n 0)))))

/-- PREEMPTION_FREEZE, PREEMPTION_TIMEOUT, FULL_SAVE and TEAM_SAVE (R249-R253, R255): a group whose splits have all stopped is
rewound and gets the pre-emption handler, one split for every live lane, at `ks_pvec` in supervisor mode beside its frozen
splits, with sub-cause 1 in the designated group; one that has not stopped within 20 µs, or cannot, is saved whole; a compaction
that holds a group completes before either (R143, R256); a team whose groups are saved, with no result but verdicts to come,
has its engines quiesced. The marks of a group, when a team may save, and what the freeze and the timeout leave are the model's
choice where the spec gives none (log 24). Each does nothing when it is not due. -/
def Obligations.GroupsStopForPreemption : Prop :=
  ∀ (s : State) (gid tid c : Nat) (g : Group) (tm : Team) (gr : Grid),
    let stoppedAll := ∀ e ∈ g.splits, (s.stopPoint c e.2).isSome = true
    let handled := ∃ e ∈ g.splits, 0 < e.2.tdepth
    let moves := ∃ e ∈ s.compacts, gid ∈ e.2.gids
    let freezes := g.mark = .stopping false ∧ g.live ≠ 0 ∧ ¬ handled ∧ ¬ moves ∧ stoppedAll
    let marks := fun (i : Instr) (m : SaveMark) => exec i s = .next (s.setGroup gid { g with mark := m })
    let late := g.mark = .stopping false ∧ (s.ctx c).reqTime + 20000 ≤ s.time ∧ ¬ stoppedAll
    let cannot := handled ∨ ∃ e ∈ g.splits, s.waitsElsewhere c e.2 = true
    let settled := (∀ p ∈ g.pend, p.kind = .verdict) ∧ ¬ moves
    let saved := (s.ctx c).stop = .preempt ∧ tm.saved = false ∧
      (∀ e ∈ s.groups, e.2.tid = tid → (e.2.live = 0 ∨ e.2.mark = .idled ∨ e.2.mark = .savedWhole) ∧
        ∀ p ∈ e.2.pend, p.kind = .verdict) ∧
      ∀ l ∈ s.landings, ∀ e ∈ l.teams, e.2 ≠ tid
    (fget s.groups gid = some g → s.groupCtx g = some c →
      (¬ freezes → exec (.preemptionFreeze gid) s = .next s) ∧
      (freezes → ∃ (g' : Group) (h : Split) (lv : TrapLevel), exec (.preemptionFreeze gid) s = .next (s.setGroup gid g') ∧
        g'.mark = .handler ∧ fget g'.splits g.nextId = some h ∧ fget g'.levels (g.nextId + 1) = some lv ∧
        h.mask = g.live ∧ h.mode = .sup ∧ h.pc = (s.ctx c).pvec ∧ h.tdepth = 1 ∧ h.place = .ninth ∧ h.st = .ready ∧
        h.lv = some (g.nextId + 1) ∧ h.frozen = false ∧ lv.cause = 0x40 ∧ lv.ret = none ∧ lv.idled = false ∧
        lv.sub = (if s.designated g.tid = some g.idx then 1 else 0) ∧ g'.live = g.live ∧ g'.regs = g.regs ∧
        (∀ e ∈ g'.splits, e.1 ≠ g.nextId → e.2.frozen = true) ∧
        (∀ r l, r < 16 → l < 32 → g.live.getLsbD l = true → sget 0 g'.save1 (32 * r + l) = g.rd r l) ∧
        (∀ n sp w, n ≠ g.nextId → fget g.splits n = some sp → sp.window = some w → ∃ q, fget g'.splits n = some q ∧
          q.pc = w.pc ∧ q.loop = w.loop ∧ q.window = none ∧ q.flash = some ⟨w.pc, w.base, w.map, w.stub⟩)) ∧
      (¬ late → exec (.preemptionTimeout gid) s = .next s) ∧ (late → marks (.preemptionTimeout gid) (.stopping true)) ∧
      (g.mark = .stopping false → (cannot → marks (.fullSave gid) (.stopping true)) ∧
        (¬ cannot → exec (.fullSave gid) s = .next s)) ∧
      (g.mark = .stopping true → (settled → marks (.fullSave gid) .savedWhole) ∧
        (¬ settled → exec (.fullSave gid) s = .next s))) ∧
    (fget s.teams tid = some tm → fget s.grids tm.grid = some gr → gr.ctx = c →
      (¬ saved → exec (.teamSave tid) s = .next s) ∧
      (saved → ∃ tm', exec (.teamSave tid) s = .next (s.setTeam tid tm') ∧ tm' = { tm with cmds := tm'.cmds, saved := true } ∧
        ∀ n, fget tm'.cmds n = (fget tm.cmds n).map (fun k =>
          if k.st = .running ∨ k.st = .completed then { k with st := .cancelled, writes := [], err := false } else k)))

/-- RESUME (R107, R254, R395): from a pre-empted context or one whose stream has landed whole (log 20), with a partition that is
legal and an area that passes its checks, in their order; refused it changes nothing but its result, and that a line it has read
is pending no more (R274). Afterwards the context runs on its partition with what the area restores. What an area holds (R109,
R110): records behind one another up to the end record; error 8 where it is misaligned or not installed, 7 where header, length,
CRC, records or count do not hold, 6 where a known type has another major. What its records give: the context's registers; of a
split entry (R153) and a trap level (R257) every field, or error 7 for a value outside the layout; a group's registers and sticky
flags; a team's scratchpad, tags, counters and handles (R258, R345, R367). A team without a core is error 10. Which error stands
for a record that is missing is the model's choice (log 23), as are the place of handler registers and the index 255 of a level
that no split is in (log 10). -/
def Obligations.ResumeRestores : Prop :=
  (∀ (s : State) (c e : Nat) (qs : List Nat) (rs : List Rec) (u : State),
    let x := s.ctx c
    let r := s.resumeSeen c
    let i := Instr.resume c
    let fails := fun (e : Nat) => exec i s = .next (r.setCtx c ((r.ctx c).ended e))
    let landed := x.st = .migIn → ∃ k lo hi, x.incoming = some k ∧ k.tail = some (lo, hi) ∧ ∀ n, lo ≤ n → n < hi → n ∈ k.got
    let base := ((r.dropGrids c).setCtx c { (r.ctx c).ended 0 with
      quads := qs, sig := r.signature c qs, st := .running, incoming := none }).loadStage c
    swf Ctx.reset s.ctxs = true → x.busy = true → x.cmd = some 4 →
    ((∀ e ∈ s.ctxs, e.2.scrub = []) → r = s) ∧
    (x.st ≠ .preempted → x.st ≠ .migIn → exec i s = .next (s.setCtx c (x.ended 1))) ∧
    (x.st = .preempted ∨ x.st = .migIn →
      (¬ landed → fails 9) ∧
      (landed →
        (r.bitmap c = none → fails 4) ∧
        (r.bitmap c = some qs → (qs = [] ∨ r.overlaps c qs = true → fails 3) ∧
          (qs ≠ [] → r.overlaps c qs = false →
            (r.readArea c = .error e → fails e) ∧
            (r.readArea c = .ok rs →
              (base.restore c rs = .error e → fails e) ∧
              (base.restore c rs = .ok u → ∃ t, exec i s = .next t ∧ t.groups = u.groups ∧ t.grids = u.grids ∧ t.teams = u.teams ∧
                (t.ctx c).st = .running ∧ (t.ctx c).busy = false ∧ (t.ctx c).err = 0 ∧ (t.ctx c).cmd = none ∧
                (t.ctx c).quads = qs ∧ (t.ctx c).sig = r.signature c qs ∧ (t.ctx c).tvec = (u.ctx c).tvec ∧
                (t.ctx c).pvec = (u.ctx c).pvec ∧ (t.ctx c).ptbase = (u.ctx c).ptbase ∧ (t.ctx c).swip = (u.ctx c).swip ∧
                (t.ctx c).qtBase = (u.ctx c).qtBase ∧ (t.ctx c).qtCount = (u.ctx c).qtCount))))))) ∧
  (∀ (k : Nat) (rs : List Rec) (rest : List Byte),
    (∀ r ∈ rs, 1 ≤ r.type ∧ r.type < 2 ^ 16 ∧ r.major < 2 ^ 8 ∧ r.minor < 2 ^ 8 ∧ r.body.length < 2 ^ 32 ∧ r.body.length % 8 = 0) →
    rs.length < k →
    parseRecs k (rs.flatMap (fun r => leBytes 2 r.type ++ leBytes 1 r.major ++ leBytes 1 r.minor ++ leBytes 4 r.body.length ++ r.body) ++
      [0, 0, 0, 0, 0, 0, 0, 0] ++ rest) = some (rs ++ [⟨0, 0, 0, []⟩])) ∧
  (∀ (s : State) (c : Nat) (rs : List Rec),
    let a := (s.ctx c).sarea.toNat
    let len := (s.ctx c).salen.toNat
    let total := s.readN s.fwKey (a + 24) 8
    let bs := (List.range total).map (fun i => s.readByte s.fwKey (a + i))
    let placed := a % 4096 = 0 ∧ s.installed a len = true
    let headed := 56 ≤ len ∧ s.readN s.fwKey a 2 = 1 ∧ 56 ≤ total ∧ total ≤ len
    let intact := crc32c (bs.take 40 ++ [0, 0, 0, 0] ++ bs.drop 44) = field bs 40 4
    let whole := (rs.map (fun r => 8 + r.body.length)).sum = total ∧ rs.length = field bs 16 4 ∧ ∃ h, rs.head? = some h ∧ 40 ≤ h.body.length
    let known := fun (t : Nat) => t ∈ [0, 1, 0x10, 0x20, 0x21, 0x30, 0x31, 0x32, 0x33, 0x40, 0x50, 0x8000, 0x8001, 0x8002, 0x8003]
    let answers := fun (r : Except Nat (List Rec)) => s.readArea c = r
    (¬ placed → answers (.error 8)) ∧
    (placed → ¬ (headed ∧ intact) → answers (.error 7)) ∧
    (placed → headed → intact →
      (parseRecs (total / 8) bs = none → answers (.error 7)) ∧
      (parseRecs (total / 8) bs = some rs →
        (¬ whole → answers (.error 7)) ∧
        (whole → (∃ r ∈ rs, known r.type ∧ r.major ≠ 1) → answers (.error 6)) ∧
        (whole → (∀ r ∈ rs, known r.type → r.major = 1) → answers (.ok rs))))) ∧
  (∀ (s u : State) (c : Nat) (rs : List Rec) (rb qb : List Byte),
    let first := fun (t : Nat) (b : List Byte) => (rs.find? (fun r => decide (r.type = t))).map (·.body) = some b
    let near := fun (i : Nat) => field rb (8 * i) 8
    let far := fun (i : Nat) => BitVec.ofNat 64 (field rb (8 * (i + 6 * handlerCount rs)) 8)
    let y := u.ctx c
    swf Ctx.reset s.ctxs = true →
    ((∃ t ∈ [0x10, 0x40, 0x50], ∀ r ∈ rs, r.type ≠ t) → s.restore c rs = .error 7) ∧
    (s.restore c rs = .ok u → first 0x10 rb → first 0x40 qb →
      y.pdet = bit (near 0) 8 ∧ y.pver = bits (near 1) 11 8 ∧ y.swip = bit (near 2) 8 ∧ y.tvec = far 3 ∧ y.pvec = far 4 ∧
      y.ptbase = far 5 ∧ y.scring = far 6 ∧ y.scsize = (far 7).setWidth 32 ∧ y.qtBase.toNat = field qb 0 8 ∧ y.qtCount = field qb 8 4)) ∧
  (∀ (b p : List Byte) (sid nsp lid : Nat) (place : Place) (lids : List Nat),
    let f := fun (o n : Nat) => field b o n
    let w := fun (o : Nat) => BitVec.ofNat 32 (f o 4)
    let d := fun (o : Nat) => BitVec.ofNat 64 (f o 8)
    let sp := splitOf b p sid place lids
    let used := if place = .dormant then 0 else min 8 (f 38 1)
    let entry := fun (i : Nat) => f (76 + 16 * i) 1 ≤ 1 ∧ f (77 + 16 * i) 3 = 0 ∧ (f (76 + 16 * i) 1 = 0 → f (72 + 16 * i) 4 = 0)
    let legal := f 36 1 ≤ 4 ∧ f 37 1 < 16 ∧ f 37 1 % 4 ≠ 3 ∧ f 38 1 ≤ 64 ∧ f 39 1 < 4 ∧ (∀ i < used, entry i) ∧
      f (64 + 16 * used) (128 - 16 * used) = 0
    let cause := f 192 4
    let code := bits cause 7 0
    let among := fun (lo hi : Nat) => lo ≤ code ∧ code ≤ hi
    let caused := among 0x01 0x0A ∨ among 0x10 0x15 ∨ among 0x18 0x1B ∨ among 0x20 0x24 ∨ among 0x28 0x2B ∨ among 0x30 0x32 ∨
      among 0x38 0x3B ∨ among 0x40 0x41 ∨ among 0x50 0x52 ∨ among 0x60 0x6F
    let level := bits cause 9 8 ≠ 3 ∧ bits cause 11 10 = 0 ∧ bits cause 31 16 = 0 ∧ f 205 3 = 0 ∧ caused ∧
      (code = 0x40 → f 0 192 = 0) ∧ (f 204 1 < nsp ∨ f 204 1 = 255)
    let bare := code = 0x40 ∨ code = 0x51
    let lv := trapLevelOf b p nsp lid lids
    let ret := splitOf (b.take 192) ((p.drop 16).take 48) 0 (.resident 0) lids
    (¬ legal → sp = none) ∧
    (legal → ∃ x, sp = some x ∧ x.mask = w 0 ∧ x.jmask = w 4 ∧ x.pc = d 8 ∧ x.rejoin = d 16 ∧ x.ct = w 24 ∧ x.cd = w 28 ∧
      x.cg = w 32 ∧ x.st.code = f 36 1 ∧ x.mode.code = f 37 1 % 4 ∧ x.tdepth = f 37 1 / 4 ∧ x.depth = f 38 1 ∧
      (x.loop = none ↔ f 39 1 % 2 = 0) ∧ (∀ l, x.loop = some l → l.pc = d 40 ∧ l.remaining = w 48 ∧ l.pass = w 52) ∧
      (x.popDue = true ↔ 2 ≤ f 39 1) ∧ x.age = f 56 8 ∧ x.place = place ∧ x.sid = sid) ∧
    (¬ level → lv = none) ∧
    (level → ¬ bare → ret = none → lv = none) ∧
    (level → bare ∨ ret ≠ none → ∃ x, lv = some x ∧ x.lid = lid ∧ x.ret = (if bare then none else ret) ∧ x.cause = code ∧
      x.sub = bits cause 15 12 ∧ x.from_.code = bits cause 9 8 ∧ x.lmask = w 196 ∧ x.amask = w 200 ∧ x.epc = d 208 ∧
      ∀ l < 32, sget 0 x.tval l = d (216 + 8 * l))) ∧
  (∀ (s : State) (gr : Grid) (tm : Team) (g0 g : Group) (b sb pb : List Byte),
    let regs := 2080 + 24 * (field sb 10 1 + field sb 11 1 + field sb 12 1) + 472 * field b 11 1
    s.groupOf gr tm g0 b sb pb = some g →
    (∀ r < field b 16 2, ∀ l < 32, sget 0 g.regs (32 * r + l) = BitVec.ofNat 32 (field b (regs + 128 * r + 4 * l) 4)) ∧
    (∀ r < 16, ∀ l < 32, sget 0 g.save1 (32 * r + l) = BitVec.ofNat 32 (field b (32 + 128 * r + 4 * l) 4)) ∧
    g.sticky = BitVec.ofNat 32 (field b 12 4) ∧ g.levels.length = field b 11 1 ∧ g.owed.length = field b 20 2 ∧
    g.splits.length = field sb 10 1 + field sb 11 1 + field sb 12 1 ∧ g.tid = g0.tid ∧ g.idx = g0.idx ∧ g.tiles = g0.tiles) ∧
  ∀ (s u : State) (rs : List Rec) (n gid flat landed : Nat) (gr gr' : Grid),
    let of := fun (t : Nat) => (rs.find? (fun r =>
      decide (r.type = t) && decide (field r.body 0 4 = n) && decide (field r.body 4 4 = flat))).map (·.body)
    let gone := ∃ p, of 0x30 = some p ∧ field p 12 1 = 1
    let need := fun (gr' : Grid) => (gone → gr' = { gr with groups := 0, nhandles := 0 }) ∧ (¬ gone → gr' = gr)
    let added := s.addTeam rs n gid flat landed gr
    (need gr' → (added = .error 10 ↔
      s.res.placeTeam (s.ctx gr.ctx).quads gr' (flat / gr.teams) (fget gr.lastCore (flat / gr.teams)) = none)) ∧
    ((∃ t ∈ [0x30, 0x31, 0x32, 0x33], of t = none) → added = .error 7 ∨ added = .error 10) ∧
    (added = .ok (u, gr') → ∃ tm p h e, fget u.teams s.nextTeam = some tm ∧ of 0x30 = some p ∧ of 0x32 = some h ∧
      of 0x33 = some e ∧ tm.grid = gid ∧ tm.flat = flat ∧ tm.landed = BitVec.ofNat 32 landed ∧ (tm.ended = true ↔ field p 12 1 = 1) ∧
      (∀ i < gr.spad, sget 0 tm.spad i = BitVec.ofNat 8 (field p (16 + i) 1)) ∧
      (∀ i < gr.spad / 4096, sget 0 tm.tags i = BitVec.ofNat 64 (field p (16 + gr.spad + 8 * i) 8)) ∧
      (∀ k < 32, (sget 0 tm.ctrs k).toNat = (field e (16 + 16 * k) 4 + field e (20 + 16 * k) 4 * 2 ^ 32) % 2 ^ 34) ∧
      ∀ i < gr.nhandles,
        let x := (fget tm.handles i).getD ⟨false, []⟩
        x.valid = decide (field h (16 + 136 * i) 1 = 1) ∧
        ∀ k < 32, sget 0 x.words k = BitVec.ofNat 32 (field h (24 + 136 * i + 4 * k) 4))

/-! Queues (06_queue R114-R125). -/

/-- QT_BASE_WRITE, QT_COUNT_WRITE, DOORBELL and QUEUE_SWEEP (R114-R118, R122): a write of the queue window is refused with the
lowest code that applies; a doorbell beyond the table is ignored, and one of an unmapped queue has its descriptor read: en 0
disables it in any state, records make it waiting, none leave it empty, and a queue in error stays so while `qerr` is not
cleared; a doorbell that comes while the queue's slot loads or unloads is kept; once a millisecond every descriptor is read, in a
context that runs or migrates out, be a pre-emption asked for or not. -/
def Obligations.DoorbellsAreSeen : Prop :=
  ∀ (s : State) (c n : Nat) (v : Dword) (d : List Byte),
    let x := s.ctx c
    let q := s.queue c n
    let busy := x.st = .running ∨ x.st = .migOut ∨ x.st = .migIn
    let off := x.st = .free ∨ x.st = .scrubbing ∨ x.st = .disabled
    let baseErr := if busy then 2 else if 2 ^ 61 ≤ v.toNat then 3 else if off then 4 else if v.toNat % 64 ≠ 0 then 5 else 0
    let countErr := if 65536 < v.toNat % 2 ^ 17 then 1 else if busy then 2 else if off then 4
      else if v.toNat % 2 ^ 32 / 2 ^ 17 ≠ 0 then 5 else 0
    let widx := BitVec.ofNat 32 (field d 16 4)
    let seen : Queue := { q with widx := widx, rung := false, qerr := if field d 28 4 = 0 then 0 else q.qerr }
    let now := BitVec.ofNat 32 (field d 12 4)
    let sweeps := x.st = .running ∨ x.st = .migOut
    let u := (s.setQueue c n { q with rung := true }).descSeen c n
    let after : Queue :=
      if now.getLsbD 0 = false then { seen with st := .disabled }
      else if q.st = .error ∧ field d 28 4 ≠ 0 then { q with rung := false }
      else if q.st = .waiting then { seen with ctl := now }
      else if widx ≠ q.ridx then { seen with st := .waiting, ctl := now, since := s.time }
      else { seen with st := .empty, ctl := now }
    (s.mgmt.state ≠ 0 →
      exec (.qtBaseWrite c v) s = .next (s.setCtx c (if baseErr = 0 then { x with qtErr := 0, qtBase := v }
        else { x with qtErr := baseErr })) ∧
      exec (.qtCountWrite c v) s = .next (s.setCtx c (if countErr = 0 then { x with qtErr := 0, qtCount := v.toNat % 2 ^ 17 }
        else { x with qtErr := countErr })) ∧
      (n < x.qtCount →
        (¬ sweeps ∨ (∃ k y, s.slotFor c n = some (k, y) ∧ y.st ≠ .active) →
          exec (.doorbell c n) s = .next (s.setQueue c n { q with rung := true })) ∧
        (sweeps → s.slotFor c n = none → u.desc c n = some d → exec (.doorbell c n) s = .next (u.setQueue c n after)))) ∧
    (s.mgmt.state = 0 → exec (.qtBaseWrite c v) s = .next s ∧ exec (.qtCountWrite c v) s = .next s) ∧
    (x.qtCount ≤ n ∨ s.mgmt.state = 0 → exec (.doorbell c n) s = .next s) ∧
    (¬ sweeps ∨ s.time / 1000000 ≤ x.sweepAt → exec (.queueSweep c) s = .next s) ∧
    (sweeps → x.sweepAt < s.time / 1000000 → exec (.queueSweep c) s = .next
      ((List.range x.qtCount).foldl (fun t k => t.see c k) (s.setCtx c { x with sweepAt := s.time / 1000000 })))

/-- QUEUE_LOAD, QUEUE_POLL, SLICE_EXPIRY and QUEUE_UNLOAD (R117, R118, R120, R122): a waiting queue that none precedes takes a free
slot, or has the queue of a full device's slot displaced; a loaded descriptor that breaks its layout is error 2; an active
slot's queue goes on, is disabled, is empty or holds too many records, as its descriptor says; a slice ends after its time; a
slot that unloads writes `ridx`, `done` and `qerr` back and is free. A slot that unloads for a waiting queue is the only one that
this queue displaces. That a blocked queue holds no other back is log 61's choice (in `passedBy`). -/
def Obligations.SlotsHoldQueues : Prop :=
  ∀ (s : State) (c n slot : Nat) (k : Slot) (d : List Byte),
    let q := s.queue c n
    let may := s.maps c = true ∧ q.st = .waiting ∧ slot < 256 ∧ s.underLimit c = true ∧ s.passedBy c n = false ∧ s.slotFor c n = none
    let widx := BitVec.ofNat 32 (field d 16 4)
    let en := bit (field d 12 4) 0
    let u := s.descSeen c n
    let p := u.queue c n
    let polled : Queue := { p with widx := widx }
    let victim := s.queue k.ctx k.queue
    (¬ may → exec (.queueLoad c n slot) s = .next s) ∧
    (may → fget s.slots slot = none → exec (.queueLoad c n slot) s = .next
      ((s.setQueue c n { q with st := .mapped }).setSlot slot ⟨c, n, .loading, s.time, false, none⟩)) ∧
    (may → fget s.slots slot = some k →
      (s.slots.length < 256 ∨ s.displaces c n k = false ∨ (∃ e ∈ s.slots, e.2.taker = some (c, n)) →
        exec (.queueLoad c n slot) s = .next s) ∧
      (256 ≤ s.slots.length → s.displaces c n k = true → (∀ e ∈ s.slots, e.2.taker ≠ some (c, n)) → exec (.queueLoad c n slot) s = .next
        ((s.setQueue k.ctx k.queue { victim with st := .waiting, since := s.time, head := none }).setSlot slot
          { k with st := .unloading, taker := some (c, n) }))) ∧
    (fget s.slots slot = some k → k.ctx = c → k.queue = n →
      (k.st = .active → k.expired = false → k.start + 100000 * 2 ^ bits q.ctl.toNat 7 4 ≤ s.time →
        exec (.sliceExpiry slot) s = .next (s.setSlot slot { k with expired := true })) ∧
      (k.st ≠ .active ∨ k.expired = true ∨ s.time < k.start + 100000 * 2 ^ bits q.ctl.toNat 7 4 →
        exec (.sliceExpiry slot) s = .next s) ∧
      (k.st ≠ .unloading → exec (.queueUnload slot) s = .next s) ∧
      (k.st = .unloading → q.rung = false → ∃ u : State,
        u = ((s.putDesc c n 20 q.ridx.toNat).putDesc c n 24 q.done.toNat).putDesc c n 28 q.qerr ∧
        exec (.queueUnload slot) s = .next { u with slots := fdel s.slots slot }) ∧
      (s.maps c = false ∨ k.st = .unloading → exec (.queuePoll slot) s = .next s) ∧
      (swf Ctx.reset s.ctxs = true → s.maps c = true → k.st = .loading → p.st ≠ .error →
        u.desc c n = none ∨ (u.desc c n = some d ∧ descOk d = false) → ∃ t, exec (.queuePoll slot) s = .next t ∧
          (t.queue c n).st = .error ∧ (t.queue c n).qerr = 2) ∧
      (s.maps c = true → k.st = .loading → u.desc c n = some d → descOk d = true → en = true → widx ≠ p.ridx →
        (widx - p.ridx).toNat ≤ 2 ^ field d 8 4 → exec (.queuePoll slot) s = .next ((u.setSlot slot { k with st := .active }).setQueue
          c n { polled with rbase := field d 0 8, rsize := field d 8 4, ctl := BitVec.ofNat 32 (field d 12 4) })) ∧
      (s.maps c = true → k.st = .active → s.slotFor c n = some (slot, k) → u.desc c n = some d →
        let stops := fun (q : Queue) => exec (.queuePoll slot) s = .next ((u.setQueue c n q).setSlot slot { k with st := .unloading })
        (en = false → p.head = none → stops { polled with
          st := .disabled, ctl := BitVec.ofNat 32 (p.ctl.toNat / 2 * 2), head := none }) ∧
        (en = true → widx = p.ridx → p.head = none → stops { polled with st := .empty }) ∧
        (en = true → widx ≠ p.ridx → (widx - p.ridx).toNat ≤ 2 ^ p.rsize → exec (.queuePoll slot) s = .next (u.setQueue c n polled)) ∧
        (swf Ctx.reset s.ctxs = true → en = true → p.st ≠ .error → 2 ^ p.rsize < (widx - p.ridx).toNat → ∃ t,
          exec (.queuePoll slot) s = .next t ∧ (t.queue c n).st = .error ∧ (t.queue c n).qerr = 1)) ∧
      ((∀ e ∈ s.ctxs, e.2.scrub = []) → u = s))

/-- RECORD_FETCH, LAUNCH and GRID_END (R119, R121, R123, R135): the record at `ridx` is copied whole, and one that cannot be read is
error 3; the head waits, blocked, for its dependences, is refused with a completion record of status 3, or becomes a grid,
`ridx` advancing; a grid whose teams have all ended leaves a completion record with its step count, or its late error. Why a
launch is refused (R131, R132, R134, R135, R139), the first that holds: 1 an image that cannot be read, has a wrong header or CRC,
or has sections that leave it or meet; 2 no such kernel; 3 a declaration or a variant outside its limits; 4 no variant of the
partition's signature and none that serves any; 5 a scope that the residency does not have; 6 gangs that do not divide the teams;
7 a set that does not fit the empty partition. A grid holds what the record and the declaration say, and has not exited. -/
def Obligations.RecordsBecomeGrids : Prop :=
  (∀ (s : State) (c n : Nat) (q : Queue) (rec bs : List Byte),
     let u := fun (o k : Nat) => field rec o k
     let r := s.launchCheck c n q rec
     let image := s.readImage c (u 0 8)
     let head := fun (h : List Byte) =>
       let f := fun (o k : Nat) => field h o k
       let table := 64 + 576 * f 16 4
       let meet := fun (a b x y : Nat) => a < b ∧ x < y ∧ a < y ∧ x < b
       f 0 4 = 0x1F4E4946 ∧ f 4 2 = 1 ∧ 1 ≤ f 16 4 ∧ f 16 4 ≤ 256 ∧ f 20 4 = 0 ∧ f 60 4 = 0 ∧ f 24 8 % 64 = 0 ∧ f 32 8 % 64 = 0 ∧
       f 40 8 % 64 = 0 ∧ table ≤ f 8 8 ∧ f 24 8 + f 32 8 ≤ f 8 8 ∧ f 40 8 + f 48 8 ≤ f 8 8 ∧
       ¬ meet 0 table (f 24 8) (f 24 8 + f 32 8) ∧ ¬ meet 0 table (f 40 8) (f 40 8 + f 48 8) ∧
       ¬ meet (f 24 8) (f 24 8 + f 32 8) (f 40 8) (f 40 8 + f 48 8)
     let e := (bs.drop (64 + 576 * u 8 4)).take 576
     let k := fun (o m : Nat) => field e o m
     let count := fun (m : Nat) => m ∈ [32, 48, 64, 96, 128, 192, 256, 384]
     let slot := fun (i : Nat) => if i < k 4 4 then
         (∀ a < 48, a ∈ ((e.drop (72 + 64 * i)).take 48).map (·.toNat)) ∧ k (120 + 64 * i) 8 = 0
       else k (64 + 64 * i) 64 = 0
     let declared := k 0 4 % 64 = 0 ∧ k 0 4 < field bs 32 8 ∧ 1 ≤ k 4 4 ∧ k 4 4 ≤ 8 ∧ 1 ≤ k 8 2 ∧ k 8 2 ≤ 512 ∧ k 10 2 ≤ k 8 2 ∧
       count (k 12 2) ∧ count (k 14 2) ∧ k 16 1 ≤ 16 ∧ k 17 1 ≤ 16 ∧ k 18 2 ≤ 64 ∧ k 20 4 % 4096 = 0 ∧ k 20 4 ≤ 3670016 ∧
       1 ≤ k 24 1 ∧ k 24 1 ≤ 16 ∧ k 25 1 < 8 ∧ k 26 38 = 0 ∧ ∀ i < 8, slot i
     let sig := fun (i : Nat) => k (64 + 64 * i) 8
     let first := fun (i x : Nat) => i < k 4 4 ∧ sig i = x ∧ ∀ j < i, sig j ≠ x
     let mine := (s.ctx c).sig.toNat
     let picked := fun (i : Nat) => first i mine ∨ ((∀ j < k 4 4, sig j ≠ mine) ∧ first i 0)
     let residency := u 20 4 % 4
     let inScope := ¬ (bit (k 25 1) 1 = true ∧ residency < 2) ∧ ¬ (bit (k 25 1) 2 = true ∧ residency ≠ 3)
     let ganged := k 24 1 ≤ 1 ∨ u 16 4 % k 24 1 = 0
     let grid := fun (i : Nat) => gridOf c n q.ridx.toNat (s.ctx c) rec bs e q.ctl (variantOrder e i)
     (image = some bs ↔ u 0 8 % 64 = 0 ∧ ∃ h, s.devRead c (u 0 8) 64 = some h ∧ head h ∧
       s.devRead c (u 0 8) (field h 8 8) = some bs ∧ crc32c (bs.take 56 ++ [0, 0, 0, 0] ++ bs.drop 60) = field h 56 4) ∧
     (image = none → r = .error 1) ∧
     (image = some bs →
       (field bs 16 4 ≤ u 8 4 → r = .error 2) ∧
       (u 8 4 < field bs 16 4 → ¬ declared → r = .error 3) ∧
       (u 8 4 < field bs 16 4 → declared → (∀ i < k 4 4, sig i ≠ mine ∧ sig i ≠ 0) → r = .error 4) ∧
       ∀ i, u 8 4 < field bs 16 4 → declared → picked i →
         let g := grid i
         let fits := ∀ d ∈ (if residency = 3 then [0] else List.range (u 12 4)),
           (Res.empty.placeSet (s.ctx c).quads g (g.nextSet d)).isSome = true
         (¬ inScope → r = .error 5) ∧ (inScope → ¬ ganged → r = .error 6) ∧ (inScope → ganged → ¬ fits → r = .error 7) ∧
         (inScope → ganged → fits → r = .ok g) ∧
         g.ctx = c ∧ g.queue = n ∧ g.seqNo = q.ridx.toNat ∧ g.dies = u 12 4 ∧ g.teams = u 16 4 ∧ g.residency = residency ∧
         g.gang = k 24 1 ∧ g.groups = k 8 2 ∧ g.prod = k 10 2 ∧ g.pregs = k 12 2 ∧ g.cregs = k 14 2 ∧ g.ptiles = k 16 1 ∧
         g.ctiles = k 17 1 ∧ g.nhandles = k 18 2 ∧ g.spad = k 20 4 ∧ g.args.toNat = u 24 8 % 2 ^ 64 ∧ g.crec.toNat = u 32 8 % 2 ^ 64 ∧
         g.entry = BitVec.ofNat 64 (u 0 8 + field bs 24 8 + k 0 4) ∧ bits g.rodata.toNat 63 61 = 4 ∧
         g.rodata.toNat % 2 ^ 61 = (u 0 8 + field bs 40 8) % 2 ^ 61 ∧ g.exitG = none ∧ g.late = none ∧ g.nextTeam = [] ∧
         g.order = ((e.drop (72 + 64 * i)).take 48).map (·.toNat) ∧ g.det = (s.ctx c).pdet ∧ g.fnver = (s.ctx c).pver)) ∧
  ∀ (s : State) (slot c n code : Nat) (k : Slot) (rec : List Byte) (gr : Grid) (r : Completion),
    let q := s.queue c n
    let at_ := q.rbase + 128 * (q.ridx.toNat % 2 ^ q.rsize)
    let u := s.devSeen c at_ 128
    let w := s.imageSeen c (field rec 0 8)
    let fetches := s.maps c = true ∧ k.st = .active ∧ q.st = .mapped ∧ q.head = none ∧ q.ctl.getLsbD 0 = true ∧ q.widx ≠ q.ridx
    let bad := recBad rec (s.ctx c).qtCount n q.ridx.toNat = true
    let ended := (s.ctx gr.ctx).runs = true ∧ gr.unplaced = false ∧ (∀ e ∈ s.teams, e.2.grid = n → e.2.ended = true) ∧
      ∀ l ∈ s.landings, s.domGrid l.dom ≠ some n
    swf Ctx.reset s.ctxs = true →
    (fget s.slots slot = some k → k.ctx = c → k.queue = n →
      (¬ fetches → exec (.recordFetch slot) s = .next s) ∧
      (fetches → u.devRead c at_ 128 = none → ∃ t, exec (.recordFetch slot) s = .next t ∧
        (t.queue c n).st = .error ∧ (t.queue c n).qerr = 3 ∧ (t.queue c n).eseq = q.ridx) ∧
      (fetches → u.devRead c at_ 128 = some rec → field rec 32 8 % 32 ≠ 0 → exec (.recordFetch slot) s = .next
        (((u.passHead c n).recordDone c n q.ridx.toNat).errQueue c n 4 q.ridx)) ∧
      (fetches → u.devRead c at_ 128 = some rec → field rec 32 8 % 32 = 0 →
        (¬ bad → exec (.recordFetch slot) s = .next (u.setQueue c n { q with head := some rec })) ∧
        (bad → exec (.recordFetch slot) s = .next ((u.passHead c n).completeRec c
          (Completion.plain n q.ridx.toNat (field rec 32 8) 4 0 0 (recIrq rec q.ctl))))) ∧
      (q.head = none ∨ s.maps c = false ∨ k.st ≠ .active → exec (.launch slot) s = .next s) ∧
      (q.head = some rec → s.maps c = true → k.st = .active →
        (s.recReady c n rec = false →
          (q.st = .mapped → exec (.launch slot) s = .next (s.setQueue c n { q with st := .blocked })) ∧
          (q.st ≠ .mapped → exec (.launch slot) s = .next s)) ∧
        (s.recReady c n rec = true →
          (w.launchCheck c n q rec = .error code → exec (.launch slot) s = .next
            (((w.passHead c n).completeRec c (Completion.plain n q.ridx.toNat (field rec 32 8) 3 0 code (recIrq rec q.ctl))).boundaryOf c n)) ∧
          (w.launchCheck c n q rec = .ok gr → ∃ t : State, exec (.launch slot) s = .next t ∧
            t.grids = fset s.grids s.nextGrid gr ∧ t.nextGrid = s.nextGrid + 1 ∧ (t.queue c n).ridx = q.ridx + 1 ∧
            (t.queue c n).head = none))) ∧
      ((∀ e ∈ s.ctxs, e.2.scrub = []) → u = s ∧ w = s)) ∧
    (fget s.grids n = some gr →
      (¬ ended → exec (.gridEnd n) s = .next s) ∧
      (ended → exec (.gridEnd n) s = .next (({ s with
        grids := fdel s.grids n, teams := s.teams.filter (fun e => decide (e.2.grid ≠ n)) } : State).completeRec gr.ctx gr.completion))) ∧
    (gr.late = none → gr.completion.status = 1 ∧ gr.completion.steps = (gr.exitG.getD 0).toNat ∧ gr.completion.info = 0) ∧
    (∀ e, gr.late = some e → gr.completion.status = 2 ∧ gr.completion.steps = e.count ∧ gr.completion.info = e.info ∧
      gr.completion.team = e.team ∧ gr.completion.group = e.group ∧ gr.completion.lane = e.lane ∧ gr.completion.scope = e.scope) ∧
    (gr.completion.queue = gr.queue ∧ gr.completion.seq = gr.seqNo ∧ gr.completion.crec = gr.crec.toNat) ∧
    (r.bytes.length = 32 ∧ field r.bytes 0 4 = r.status % 2 ^ 32 ∧ field r.bytes 4 4 = r.seq % 2 ^ 32 ∧
      field r.bytes 8 4 = r.steps % 2 ^ 32 ∧ field r.bytes 12 4 = r.queue % 2 ^ 32 ∧ field r.bytes 16 8 = r.info % 2 ^ 64 ∧
      field r.bytes 24 4 = r.team % 2 ^ 32 ∧ field r.bytes 28 2 = r.group % 2 ^ 16 ∧ field r.bytes 30 1 = r.lane % 2 ^ 8 ∧
      field r.bytes 31 1 = r.scope % 2 ^ 8)

/-! Teams (07_kernel R136-R143, 10_memory R224). -/

/-- TEAM_PLACEMENT, COMPACTION, COMPACTION_COMPLETE and TEAM_END (R139-R143, R224): the next set of the first grid that waits is
born where it fits; where none fits, the first core is compacted whose packing lets one fit; a team ends when its lanes have
exited and nothing of it is to land, and with residency above team it keeps its scratchpad. A group is born with every lane live
in one split at the entry, its argument and constant addresses in v0-v3 and zeros elsewhere. -/
def Obligations.TeamsArePlacedAndEnd : Prop :=
  ∀ (s : State) (c n tid : Nat) (gr : Grid) (tm : Team) (set : List (Nat × Nat)) (r : Res) (sps : List Spot) (k : Compact) (h : Held),
    let part := (s.ctx c).quads
    let fits := fun (set : List (Nat × Nat)) => (s.res.placeSet part gr set).isSome
    let packs := fun (set : List (Nat × Nat)) =>
      ((set.map (·.1)).flatMap (fun d => sliceCores part gr d)).findSome? (fun core => s.packing c gr set core)
    let ends := tm.ended = false ∧ (∀ e ∈ s.groups, e.2.tid = tid → e.2.live = 0 ∧ e.2.spoil = []) ∧
      (∀ e ∈ tm.cmds, e.2.st = .cancelled) ∧ ∀ l ∈ s.landings, ∀ e ∈ l.teams, e.2 ≠ tid
    let others := s.groups.filter (fun e => decide (e.2.tid ≠ tid))
    let waits := ∃ m ∈ k.gids, ∃ g, fget s.groups m = some g ∧ ∃ p ∈ g.pend, p.kind ≠ .verdict
    let g := Group.born gr tid n c h
    (s.places c = false ∨ s.waitingGrid c = none → exec (.teamPlacement c) s = .next s ∧ exec (.compaction c) s = .next s) ∧
    (s.places c = true → s.waitingGrid c = some (n, gr) →
      (gr.nextSets.find? fits = some set → s.res.placeSet part gr set = some (r, sps) →
        exec (.teamPlacement c) s = .next (s.bornSet n gr (set.zip sps)) ∧ exec (.compaction c) s = .next s) ∧
      (gr.nextSets.find? fits = none → exec (.teamPlacement c) s = .next s ∧
        (gr.nextSets.findSome? packs = none → exec (.compaction c) s = .next s) ∧
        (gr.nextSets.findSome? packs = some k → exec (.compaction c) s = .next { s with compacts := fset s.compacts c k }))) ∧
    (fget s.compacts c = some k →
      (waits → exec (.compactionComplete c) s = .next s) ∧
      (¬ waits → ∃ t : State, exec (.compactionComplete c) s = .next t ∧
        t = { s with groups := t.groups, teams := t.teams, compacts := fdel s.compacts c } ∧
        ∀ m, ∃ b a, fget t.groups m = (fget s.groups m).map (fun g => { g with block := b }) ∧
          fget t.teams m = (fget s.teams m).map (fun x => { x with a0 := a }))) ∧
    (fget s.teams tid = some tm → fget s.grids tm.grid = some gr →
      (¬ ends → exec (.teamEnd tid) s = .next s) ∧
      (ends → gr.residency < 2 → exec (.teamEnd tid) s = .next { s with groups := others, teams := fdel s.teams tid }) ∧
      (ends → 2 ≤ gr.residency → exec (.teamEnd tid) s = .next (({ s with groups := others }.setTeam tid { tm with
        ended := true, cmds := [], upds := [], handles := [], ctrs := [] }).freeSlice tm.grid gr tm.slice))) ∧
    (∀ i l, i < 384 → l < 32 → g.rd i l = if i < 2 then BitVec.ofNat 32 (gr.args.toNat / 2 ^ (32 * i))
      else if i < 4 then BitVec.ofNat 32 (gr.rodata.toNat / 2 ^ (32 * (i - 2))) else 0) ∧
    g.live = 0xFFFFFFFF#32 ∧ g.sticky = 0 ∧ g.spoil = [] ∧ g.pend = [] ∧ g.levels = [] ∧
    (∃ sp, g.splits = [(0, sp)] ∧ sp.sid = 0 ∧ sp.mask = 0xFFFFFFFF#32 ∧ sp.pc = gr.entry ∧ sp.mode = .user ∧ sp.tdepth = 0 ∧
      sp.rejoin = pcNone ∧ sp.depth = 0 ∧ sp.loop = none ∧ sp.ct = 0 ∧ sp.cd = 0 ∧ sp.cg = 0 ∧ sp.st = .ready ∧ sp.place = .resident 0) ∧
    ∀ i < h.ntiles, fget g.tiles i = some ⟨true, .f32, []⟩

/-! Pages (12_page R265, R274, R276). -/

/-- MSTAT_POLL, PAGE_MOVE_CUT, PAGE_MOVE_DONE and SCRUB_LINE (R265, R274, R276): a request to move a page is taken up, or refused
with status 3, the model's choice for a leaf or frame that R276 does not admit (log 25); at a cut with no spoil entry on it the page's bytes stand in the new frame, the leaf names it and its
translations are gone; the status becomes 2; the first line of the scrub list is zero and no longer pending, and so is any
pending line that is read, or written but for what is written. -/
def Obligations.PagesMoveAndScrub : Prop :=
  ∀ (s : State) (c perm old : Nat) (m : Move) (a b : Nat) (key : Key),
    let x := s.ctx c
    let u := s.seen c (linesOf (s.stagePage c + 64) 20)
    let leaf := u.stageField c 64 8
    let new := u.stageField c 72 8
    let w := if u.inLastTable c leaf then u.seen c [leaf] else u
    let e := w.readN w.fwKey leaf 8
    let polls := x.st ≠ .free ∧ x.st ≠ .scrubbing ∧ x.st ≠ .disabled ∧ x.move = none
    let asks := polls ∧ u.stageField c 80 4 = 1
    let legal := readEnt 3 e = .leaf perm old ∧ bit e 8 = false ∧ w.inLastTable c leaf = true ∧ new % 4096 = 0 ∧
      w.installed new 4096 = true ∧ new / 2 ^ 42 ≠ old / 2 ^ 42
    let held := ∃ g ∈ s.groups, ∃ y ∈ g.2.spoil, ∃ z ∈ y.lanes, ∃ w ∈ z.bytes, m.redirect w.1 ≠ w.1
    let cuts := m.cut = false ∧ ¬ held ∧ ∀ l ∈ s.landings, s.landsIn c l = false
    let clean := ∀ e ∈ s.ctxs, e.2.scrub = []
    let plain := fun (b : Nat) => s.ctxs.any (fun e => s.fwHolds e.2 b) = false
    let mine := s.keyOf c
    let settled := (∀ y ∈ m.waits, y ∉ s.inFlight c) ∧ ∀ y ∈ s.inbox, y.ctx = c → m.upTo ≤ y.id
    (clean → u = s ∧ w = s) ∧ (¬ polls → exec (.mstatPoll c) s = .next s) ∧
    (polls → ¬ asks → exec (.mstatPoll c) s = .next u) ∧
    (asks → legal → exec (.mstatPoll c) s = .next (w.setCtx c { w.ctx c with move := some ⟨leaf, old, new, false, [], 0⟩ })) ∧
    (asks → (∀ p f, readEnt 3 e ≠ .leaf p f) ∨ (readEnt 3 e = .leaf perm old ∧ ¬ legal) →
      exec (.mstatPoll c) s = .next (w.putStage c 80 3)) ∧
    (x.move = none → exec (.pageMoveCut c) s = .next s ∧ exec (.pageMoveDone c) s = .next s) ∧
    (x.move = some m →
      (¬ cuts → exec (.pageMoveCut c) s = .next s) ∧
      (cuts → clean → m.old % 4096 = 0 → m.new % 4096 = 0 → m.old ≠ m.new → m.leaf % 8 = 0 → m.leaf / 4096 ≠ m.new / 4096 →
        s.Plain s.fwKey m.leaf → (∀ i < 4096, plain (m.old + i) ∧ plain (m.new + i)) →
        (∀ i < 64, fget s.ktag (m.old / 64 + i) = none ∨ fget s.ktag (m.old / 64 + i) = some mine) →
        ∃ t : State, exec (.pageMoveCut c) s = .next t ∧
          t.ctx c = { x with move := some { m with cut := true, waits := s.inFlight c, upTo := s.nextMsg } } ∧
          (∀ i < 4096, t.readByte mine (m.new + i) = s.readByte mine (m.old + i)) ∧
          (let e := s.readN s.fwKey m.leaf 8
           t.readN s.fwKey m.leaf 8 = (e - bits e 51 12 * 4096 + m.new) % 2 ^ 64) ∧
          (∀ y, y ∈ t.tlb ↔ y ∈ s.tlb ∧ ¬ (y.ctx = c ∧ y.dpn = m.old / 4096)) ∧ t.groups = s.groups ∧ t.landings = s.landings) ∧
      (m.cut = false ∨ ¬ settled → exec (.pageMoveDone c) s = .next s) ∧
      (m.cut = true → settled → exec (.pageMoveDone c) s = .next ((s.setCtx c { x with move := none }).putStage c 80 2))) ∧
    (x.scrub = [] → exec (.scrubLine c) s = .next s) ∧
    (∀ rest, swf Ctx.reset s.ctxs = true → x.scrub = (a, b) :: rest → a % 64 = 0 → a < b → (∀ e ∈ s.ctxs, s.sleftLine e.1 ≠ a / 64) →
      ∃ t : State,
      exec (.scrubLine c) s = .next t ∧ t.scrubPending a = false ∧ ∀ i < 64, t.readByte (s.keyOf c) (a + i) = 0) ∧
    (∀ (w : Nat) (v : Byte), swf Ctx.reset s.ctxs = true → s.scrubPending (64 * w) = true →
      (∀ e ∈ s.ctxs, s.sleftLine e.1 ≠ w) →
      let r := s.readLine key w
      s.readByte key (64 * w) = 0 ∧ r.scrubPending (64 * w) = false ∧ (∀ i < 64, r.readByte key (64 * w + i) = 0) ∧
      (s.writeByte key (64 * w) v).scrubPending (64 * w) = false ∧ (s.writeByte key (64 * w) v).readByte key (64 * w) = v)


/-! Links, peers and the host (13_link R277-R288, 05_context R99, 10_memory R232). -/

/-- PEER_STORE_ARRIVAL, PEER_WRITE_APPLY, PEER_LOAD_REQUEST and PEER_ACK (R279, R280, R282): an arriving access passes when the
peer's entry is valid, names the sender's context and grants it, it stays within one page and both stages admit it to the
supervisor (the model's choice, log 28); a store that
passes is acknowledged and kept, and applied when no grid of the context runs; a load is answered with its bytes; what does not
pass is refused. PEER_LOAD_REPLY, HOST_PATH_RESPONSE and LINK_ERROR_CLEAR (R283, R286, R288): the reply fills the registers of
its lane, and the last one lets the result complete; a refused or lost load gives zero, and its failure is counted in the link
error record, which keeps the kind and the PC of the first and is cleared by a write of 1 to its count. -/
def Obligations.PeerTrafficIsChecked : Prop :=
  (∀ (s : State) (dev remote c va len msg : Nat) (bytes : WriteBytes) (e : TlbEntry) (w : PeerWrite) (ok : Bool),
     let entry := (sget 0 (s.ctx c).peers dev).toNat
     let size := bytes.foldl (fun m b => max m (b.1 + 1)) 1
     let grants := fun (store : Bool) (n : Nat) => bit entry 63 = true ∧ bits entry 5 0 = remote ∧
       bit entry (if store then 62 else 61) = true ∧ va % 4096 + n ≤ 4096
     let page := fun (acc : Acc) => s.xlate c false false acc (BitVec.ofNat 64 va) va
     let refused := fun (i : Instr) (m : OutMsg) (store : Bool) (acc : Acc) (n : Nat) =>
       (¬ grants store n → exec i s = .next (s.send m)) ∧
       (∀ f, grants store n → page acc = .error f → exec i s = .next ((s.walked c f.code va f.tval.toNat).send m))
     let i := Instr.peerStoreArrival dev remote c va bytes msg
     let j := Instr.peerLoadRequest dev remote c va len msg
     let runs := (s.ctx c).runs = true ∧ ∃ g ∈ s.grids, g.2.ctx = c
     (∀ code ipa, s.Inv → s.Scrubs (s.walked c code va ipa)) ∧ refused i (.peerAck dev msg false) true .w size ∧
     (grants true size → page .w = .ok e → exec i s = .next { s with
       nextMsg := s.nextMsg + 1, out := s.out ++ [.peerAck dev msg true]
       inbox := s.inbox ++ [{ ctx := c, arrived := s.time, id := s.nextMsg
                              bytes := bytes.map (fun b => (e.ipn, e.dpn * 4096 + va % 4096 + b.1, b.2)) }] }) ∧
     refused j (.peerReply dev msg none) false .r len ∧
     (grants false len → page .r = .ok e →
       let at_ := (List.range len).map (fun i => e.dpn * 4096 + va % 4096 + i)
       exec j s = .next ((s.readLocs c (at_.map Loc.dram)).send (.peerReply dev msg (some (at_.map (fun a => s.readLoc c (.dram a))))))) ∧
     (runs ∨ (∀ y ∈ s.inbox, y.ctx ≠ c) → exec (.peerWriteApply c) s = .next s) ∧
     (¬ runs → s.inbox.find? (fun y => decide (y.ctx = c)) = some w → ∃ t : State, exec (.peerWriteApply c) s = .next t ∧
       t.inbox = s.inbox.filter (fun y => !(decide (y.ctx = c) && decide (y.id = w.id))) ∧ t.groups = s.groups ∧
       (s.inbox.filter (fun y => decide (y.ctx = c) && decide (y.id = w.id)) = [w] →
         t = { w.bytes.foldl (fun u b => u.writeLoc c b.1 (.dram b.2.1) b.2.2) s with inbox := t.inbox } ∧
         ∀ b, w.bytes = [b] → (∀ y ∈ s.ctxs, y.2.scrub = []) → (s.ctx c).stage.track = false → (s.ctx c).stage.snap = 0 →
           t.readByte (s.keyAt c b.2.1) b.2.1 = b.2.2)) ∧
     ((∃ y ∈ s.sentw, y.msg = msg ∧ y.reply = none ∧ s.homeOf y.cell ≠ .fe) → exec (.peerAck msg ok) s = .next { s with
       sentw := s.sentw.map (fun y => if y.msg = msg ∧ y.reply = none then { y with reply := some ok } else y) }) ∧
     ((∀ y ∈ s.sentw, y.msg = msg → y.reply = none → s.homeOf y.cell = .fe) → exec (.peerAck msg ok) s = .next s)) ∧
  (∀ (s : State) (gid pid l n c msg : Nat) (g : Group) (p : Pending) (ls : List Nat) (bs : List Byte) (tm : Team) (gr : Grid)
       (host : Bool) (v pc : Dword) (kind : Nat) (ok : Option (List Byte)),
     let i := fun (r : Option (List Byte)) => if host then Instr.hostPathResponse none gid pid l r else Instr.peerLoadReply gid pid l r
     let rest := ls.filter (fun k => decide (k ≠ l))
     let mine := p.regs.filter (fun r => decide (r.1 = l))
     let filled := fun (value : Nat) => s.setGroup gid { g with pend := g.pend.map (fun y => if y.pid = pid then { p with
       kind := if rest = [] then .unit else .remote rest
       writes := p.writes ++ (List.range mine.length).map (fun k =>
         (l, ((mine[k]?).map (·.2)).getD 384, BitVec.ofNat 32 (value / 2 ^ (32 * k))))
       handle := p.handle.map (fun h => (h.1, true, handleWords value)) } else y)
                                                                far := g.far.map (fun f => if f.pid = pid ∧ f.lane = l then
       { f with value := some value } else f) }
     let old := (s.ctx c).linkErr.toNat
     let noted := BitVec.ofNat 64 (min (old / 2 ^ 32 + 1) (2 ^ 32 - 1) * 2 ^ 32 +
       (if old / 2 ^ 32 = 0 then kind * 2 ^ 28 + bits pc.toNat 31 4 else old % 2 ^ 32))
     (fget s.groups gid = some g → s.pending? gid pid = some p → p.kind = .remote ls → l ∈ ls → s.asked gid pid l host = some n →
       (bs.length = n → exec (i (some bs)) s = .next (filled (leNat bs))) ∧
       (fget s.teams g.tid = some tm → fget s.grids tm.grid = some gr → gr.ctx = c → kind = (if host then 3 else 1) → pc = p.pc →
         exec (i none) s = .next ((filled 0).setCtx c { s.ctx c with linkErr := noted }))) ∧
     (s.pending? gid pid = none → ∀ r, exec (i r) s = .next s) ∧
     ((∃ y ∈ s.sentw, y.msg = msg ∧ y.reply = none ∧ s.homeOf y.cell = .fe) →
       exec (.hostPathResponse (some msg) gid pid l ok) s = .next { s with
         sentw := s.sentw.map (fun y => if y.msg = msg ∧ y.reply = none then { y with reply := some ok.isSome } else y) }) ∧
     (s.mgmt.state ≠ 0 → 2 ^ 32 ≤ v.toNat → exec (.linkErrorClear c v) s = .next (s.setCtx c { s.ctx c with linkErr := 0 })) ∧
     (v.toNat < 2 ^ 32 → exec (.linkErrorClear c v) s = .next s))

/-- PROLEN_FLIT_RETRY, PROLEN_LANE_LOSS and PROLEN_PORT_DOWN (R283, R284): failures in a row are counted, a good transfer clears the
count, and the sixteenth takes the port down; a lane loss leaves four lanes; a port that goes down loses the stores it carries,
and a port that is down stays so. HOST_MEM_ACCESS, HOST_WINDOW_WRITE and REGISTER_WRITE (R5, R99, R277, R287, R289, R390): the
host reads and writes device memory through a valid window that maps it, and otherwise reads poisoned data and writes nothing,
the failure noted in the link error record, of the context that the window names where it is not valid (the model's choice,
log 64); a write of a privileged register is ignored whole where an `mtk` would refuse it; a
device register ignores values with reserved bits set. What the host port maps (R99, R114, R277, R390): each register at its
offset, the windows of the management block, the privileged registers, the queues and the link block for the physical function,
and those of its own context for a virtual function; RO, RW and W1C fields read as their state, WO and RV fields and every other
offset as zero, and while the device is booting only the management block answers. -/
def Obligations.PortsAndHostAccesses : Prop :=
  (∀ (s : State) (n : Nat) (p : PlPort) (ok : Bool),
     let sets := fun (i : Instr) (q : PlPort) => exec i s = .next { s with ports := s.ports.set n q }
     let downs := fun (i : Instr) (q : PlPort) => ∃ t : State, exec i s = .next t ∧ t.ports = s.ports.set n q ∧
       t.mem = s.mem ∧ t.out = s.out ∧
       ∀ y ∈ t.sentw, (∃ d r a b k, OutMsg.peerStore n d r a b k ∈ s.out ∧ y.msg = k) → y.reply ≠ none
     (s.ports[n]? = none ∨ (s.ports[n]? = some p ∧ p.up = false) →
       exec (.prolenFlitRetry n ok) s = .next s ∧ exec (.prolenLaneLoss n) s = .next s ∧ exec (.prolenPortDown n) s = .next s) ∧
     (s.ports[n]? = some p → p.up = true →
       sets (.prolenFlitRetry n true) { p with retries := 0 } ∧
       (p.retries < 15 → sets (.prolenFlitRetry n false) { p with retries := p.retries + 1 }) ∧
       (15 ≤ p.retries → downs (.prolenFlitRetry n false) { p with up := false, retries := 16 }) ∧
       sets (.prolenLaneLoss n) { p with lanes := 4 } ∧ downs (.prolenPortDown n) { p with up := false })) ∧
  (∀ (s : State) (c off w p v : Nat) (data : List Byte) (xs : List (Nat × Nat × Nat)) (fn : HostFn) (k : PReg) (x : Dword),
     let at_ := (List.range data.length).map (fun i => off + i)
     let word := (sget 0 s.hwin (off / 2 ^ 40)).toNat
     let o := off % 2 ^ 40
     let noted := fun (wr : Bool) => if c < 64 then (s.hostWalked wr at_).linkFail c 4 0 else s.hostWalked wr at_
     let reg := fun (r : DevReg) (t : State) => exec (.registerWrite r (BitVec.ofNat 64 v)) s = .next t
     let val := if k.wide then x.toNat else x.toNat % 2 ^ 32
     let y := s.ctx c
     v < 2 ^ 64 → s.mgmt.state ≠ 0 →
     (s.hostBytes false at_ = .ok xs → exec (.hostMemAccess false off data) s =
       .next ((xs.foldl (fun t b => t.readLocs b.1 [.dram b.2.2]) s).send
         (.hostRead (some (xs.map (fun b => s.readLoc b.1 (.dram b.2.2))))))) ∧
     (s.hostBytes true at_ = .ok xs → exec (.hostMemAccess true off data) s =
       .next ((xs.zip data).foldl (fun t b => t.writeLoc b.1.1 b.1.2.1 (.dram b.1.2.2) b.2) s)) ∧
     (∀ wr, s.Inv → s.Scrubs (s.hostWalked wr at_)) ∧
     (s.hostBytes true at_ = .error c → exec (.hostMemAccess true off data) s = .next (noted true)) ∧
     (s.hostBytes false at_ = .error c → exec (.hostMemAccess false off data) s = .next ((noted false).send (.hostRead none))) ∧
     (2 ^ 44 ≤ off → ∀ wr, s.hostByte off wr = .error 64) ∧
     (bit word 63 = false → off < 2 ^ 44 → ∀ wr, s.hostByte off wr = .error (bits word 61 56)) ∧
     (bit word 63 = true → off < 2 ^ 44 →
       ((bits word 55 45 + 1) * 2 ^ 30 ≤ o → ∀ wr, s.hostByte off wr = .error (bits word 61 56)) ∧
       (bit word 62 = false → s.hostByte off true = .error (bits word 61 56)) ∧
       (o < (bits word 55 45 + 1) * 2 ^ 30 → ∀ q a, s.hyp (bits word 61 56) (bits word 35 18 * 2 ^ 30 + o) = .ok (q, a) →
         (permOk q .r = true → s.hostByte off false = .ok (bits word 61 56, (bits word 35 18 * 2 ^ 30 + o) / 4096, a)) ∧
         (bit word 62 = true → permOk q .w = true →
           s.hostByte off true = .ok (bits word 61 56, (bits word 35 18 * 2 ^ 30 + o) / 4096, a)))) ∧
     (s.windowCtx fn k = none → exec (.hostWindowWrite fn k x) s = .next s) ∧
     (s.windowCtx fn k = some c →
       (illegalValue y k val = true ∨ (isSplitReg k = true ∧ k ≠ .ksStatus) → exec (.hostWindowWrite fn k x) s = .next s) ∧
       (illegalValue y k val = false → isSplitReg k = false ∨ k = .ksStatus → k ≠ .khCtl → ∃ t : State,
         exec (.hostWindowWrite fn k x) s = .next t ∧ t = { s with ctxs := t.ctxs, csel := t.csel } ∧
         t.ctxReg c k &&& rwMask k = val &&& rwMask k ∧
         ∀ d r, r ≠ k ∨ (d ≠ c ∧ k ≠ .khCsel) → t.ctxReg d r = s.ctxReg d r)) ∧
     (c < 64 → p < 1024 → reg (.peerEntry c p) (if bits v 60 6 ≠ 0 then s
       else s.setCtx c { y with peers := sset 0 y.peers p (BitVec.ofNat 64 v) })) ∧
     (w < 16 → reg (.hostWindow w) (if bits v 44 36 ≠ 0 ∨ bits v 17 0 ≠ 0 ∨ 1023 < bits v 55 45 then s
       else { s with hwin := sset 0 s.hwin w (BitVec.ofNat 64 v) })) ∧
     (c < 64 → reg (.precopySess c) (if bits v 63 6 ≠ 0 then s else s.setCtx c { y with pcSess := bits v 5 0 })) ∧
     (c < 64 → reg (.precopyCtl c) (if bits v 63 32 ≠ 0 ∨ bits v 30 24 ≠ 0 ∨ bits v 7 4 ≠ 0 then s
       else s.setCtx c { y with pcPorts := bits v 15 8 })) ∧
     (reg .mgPwr (if bits v 31 16 < 1500 ∨ 3600 < bits v 31 16 then s else s.setMgmt { s.mgmt with cap := bits v 31 16 })) ∧
     (reg .mgStat s ∧ reg .mgTemp s ∧ reg .mgErr s ∧ reg (.precopySent c) s ∧ reg (.qtStat c) s)) ∧
  (∀ (s t : State) (fn off c p w v : Nat) (bar : Bar) (k : PReg),
     let at0 := fun (bar : Bar) (off : Nat) (r : HostReg) => s.regAt 0 bar off = some r
     let m := s.mgmt
     let y := s.ctx c
     let r := s.readDev
     (s.mgmt.state ≠ 0 → off % 8 ≠ 0 ∨ s.regAt fn bar off = none → s.hostRead fn bar off = some 0) ∧
     (s.mgmt.state ≠ 0 → ∀ q, s.regAt fn bar off = some q → s.hostRead fn bar off = some (s.readHostReg q)) ∧
     (s.regAt fn bar off = none → ∀ x, s.writeSteps fn bar off x = []) ∧
     (s.mgmt.state = 0 → bar ≠ .bar0 ∨ fn ≠ 0 ∨ 0x100000 ≤ off → s.hostRead fn bar off = none) ∧
     (at0 .bar0 0x00 (.dev .mgStat) ∧ at0 .bar0 0x08 (.dev .mgCmd) ∧ at0 .bar0 0x10 (.dev .mgPwr) ∧ at0 .bar0 0x18 (.dev .mgTemp) ∧
       at0 .bar0 0x20 (.dev .mgErr) ∧ (p < 512 → at0 .bar0 (0x1000 + 8 * p) (.dev (.mailbox (8 * p))))) ∧
     (c < 64 →
       (PReg.ofCode p = some k → p < 4096 → at0 .bar0 (0x100000 + 0x8000 * c + 8 * p) (.priv c k)) ∧
       at0 .bar2 (0x100000 * c) (.qtBase c) ∧ at0 .bar2 (0x100000 * c + 8) (.qtCount c) ∧
       at0 .bar2 (0x100000 * c + 0x10) (.dev (.qtStat c)) ∧
       (p < 65536 → at0 .bar2 (0x100000 * c + 0x80000 + 8 * p) (.doorbell c p)) ∧
       (p < 1024 → at0 .bar4 (0x2000 * c + 8 * p) (.dev (.peerEntry c p))) ∧
       at0 .bar4 (0x90000 + 0x100 * c) (.dev (.precopyCtl c)) ∧ at0 .bar4 (0x90008 + 0x100 * c) (.dev (.precopySess c)) ∧
       at0 .bar4 (0x90010 + 0x100 * c) (.dev (.precopySent c)) ∧ at0 .bar4 (0xA0000 + 8 * c) (.linkErr c)) ∧
     (w < 16 → at0 .bar4 (0x80000 + 8 * w) (.dev (.hostWindow w))) ∧
     (fn ≠ 0 → s.regAt fn .bar4 off = none ∧
       (∀ c k, s.regAt fn .bar0 off = some (.priv c k) → (s.ctx c).fn = fn ∧ PReg.guest k = true ∧ PReg.ofCode (off / 8) = some k) ∧
       ∀ c q, s.regAt fn .bar2 off = some (.doorbell c q) → (s.ctx c).fn = fn ∧ off = 0x80000 + 8 * q) ∧
     (r .mgCmd = 0 ∧ s.readHostReg (.doorbell c p) = 0 ∧ r .mgTemp = m.tj ∧ r (.peerEntry c p) = (sget 0 y.peers p).toNat ∧
       r (.hostWindow w) = (sget 0 s.hwin w).toNat ∧ r (.precopySess c) = y.pcSess ∧ r (.precopySent c) = y.pcSent ∧
       r (.qtStat c) = y.qtErr ∧ s.readHostReg (.linkErr c) = y.linkErr.toNat ∧ s.readHostReg (.qtBase c) = y.qtBase.toNat ∧
       s.readHostReg (.qtCount c) = y.qtCount) ∧
     (m.err < 256 → m.pstate < 4 → m.state < 4 → bit (r .mgStat) 31 = m.busy ∧ bits (r .mgStat) 23 16 = m.err ∧
       bits (r .mgStat) 15 14 = m.pstate ∧ bits (r .mgStat) 13 12 = m.state ∧ bits (r .mgStat) 11 0 = m.devnum % 1024) ∧
     (m.draw < 2 ^ 16 → bits (r .mgPwr) 31 16 = m.cap % 2 ^ 16 ∧ bits (r .mgPwr) 15 0 = m.draw) ∧
     (m.corr < 2 ^ 24 → bits (r .mgErr) 31 8 = m.corr ∧ bit (r .mgErr) 7 = m.ctxv ∧ bits (r .mgErr) 6 0 = m.ctx % 64) ∧
     (y.pcStat < 8 → y.pcPorts < 256 → bit (r (.precopyCtl c)) 31 = y.pcBusy ∧ bits (r (.precopyCtl c)) 23 16 = y.pcStat ∧
       bits (r (.precopyCtl c)) 15 8 = y.pcPorts ∧ bits (r (.precopyCtl c)) 7 0 = 0) ∧
     (s.mgmt.state ≠ 0 → c < 64 → p < 1024 → v < 2 ^ 64 → bits v 60 6 = 0 →
       exec (.registerWrite (.peerEntry c p) (BitVec.ofNat 64 v)) s = .next t → t.hostRead 0 .bar4 (0x2000 * c + 8 * p) = some v))

/-! The management block (23_platform R383-R392). -/

/-- ATTEST, LOADKEY, CLEARKEY, LOADSESS, STAGEFW and CLEARLOG, and the write that starts them (R385, R386, R390-R392): a command
that starts while one runs is refused as busy, and a command works on the arguments that the mailbox held at its start; the
report of ATTEST names what runs, and its wrapping key comes of the device's ephemeral key and the host's; a slot that is in use
is error 4, missing or bad material 5, a bad mailbox 6, found in the model's order (log 26); a key or a session is unwrapped into its slot; chunks of an image are
kept in order, and an image that fails its checks is error 2 or 3. The secrets that a device draws are free values (log 8), and
RV bits of a command's write are dropped, which is the model's choice (log 53). CLOCK_STATE_CHANGE, CORRECTABLE_ERROR and
UNCORRECTABLE_ERROR (R388, R389, R234, R245, R340): the clock falls one state above the limits and rises one after 10 ms below
them, at most once in a millisecond, and 110 °C is a device-fatal error; correctable errors are counted up to saturation; a lane
takes the machine check 0x52 as it is about to issue an instruction that reads the bad data, or owes it where its group is being
saved; a landing keeps the cell for a late error, with a late error of the engine operations that write it; an engine operation
that loses a source ends with its error, and a context whose own state is lost takes the hard stop. -/
def Obligations.ManagementAndErrors : Prop :=
  (∀ (s : State) (v slot k : Nat) (bs : List Byte),
     let m := s.mgmt
     let ends := fun (i : Instr) (m' : Mgmt) => exec i s = .next (s.setMgmt m')
     let due := fun (n : Nat) => m.busy = true ∧ m.cmd = some (n, slot)
     let used := ∃ x ∈ s.ctxs, x.2.st ≠ .free ∧ x.2.memkey.toNat % 64 = slot
     let sess := ∃ x ∈ s.ctxs, (x.2.st = .migOut ∨ x.2.st = .migIn) ∧ x.2.pcSess = slot
     let report := m.box 0 48 ++ leBytes 4 s.fwver.toNat ++ leBytes 4 m.secver ++ sha384 m.running ++
       sha384 (s.defectMap.flatMap Defect.bytes) ++ leBytes 4 (m.devnum % 1024) ++ zeroBytes 4
     let d := curveKey (Config.ephemeralKey s.fresh)
     let host := ecOf (m.box 48 96)
     let body := report ++ ecBytes (ecMul 384 d (some p384G))
     let sig := ecdsaSign (curveKey Config.identityKey) (curveKey (Config.signatureSecret s.fresh)) (sha384 body)
     let shared := beBytes 48 (((ecMul 384 d (some host)).map (·.1)).getD 0)
     let wrapping := leNat (hkdf384 (m.box 0 48) shared wrapInfo)
     let unwrapped := fun (n : Nat) => (m.wrap.bind (fun k => kwUnwrap (nats (leBytes 32 k)) (nats (m.box 8 (n + 8))))).map bytesOf
     let n := fun (o k : Nat) => leNat (m.box o k)
     let keyBox := decide (n 0 8 = 72) && m.boxZero 80
     let sessBox := decide (n 0 8 = 40) && decide (n 52 4 ≤ 1) && decide (n 74 6 = 0) && m.boxZero 80
     let chunkOk := 1 ≤ n 4 4 ∧ n 4 4 ≤ 4080 ∧ n 8 4 ≤ 3 ∧ n 12 4 = 0 ∧ m.boxZero (16 + n 4 4) = true
     let before := if n 8 4 % 2 = 1 then some [] else m.partialImg
     (v < 2 ^ 32 → exec (.registerWrite .mgCmd (BitVec.ofNat 64 v)) s = .next (s.setMgmt (
       if bits v 7 0 = 0 ∨ 7 < bits v 7 0 then m
       else if m.busy then { m with err := 1 }
       else { m with busy := true, err := 0, cmd := some (bits v 7 0, bits v 13 8), args := m.mailbox }))) ∧
     (m.busy = false → exec .attest s = .next s ∧ exec .loadkey s = .next s ∧ exec .clearkey s = .next s ∧
       exec .loadsess s = .next s ∧ exec .stagefw s = .next s ∧ exec .clearlog s = .next s) ∧
     (due 1 →
       (m.boxZero 144 = false → ends .attest (m.finish 6)) ∧
       (m.boxZero 144 = true → onCurve host = false → ends .attest { m.finish 6 with wrap := none }) ∧
       (m.boxZero 144 = true → onCurve host = true → exec .attest s = .next { s with
         mgmt := { (m.finish 0).putBox 0 (body ++ sig ++ leBytes 4 (min 3736 Config.certificate.length) ++ zeroBytes 4 ++
           Config.certificate.take 3736) with wrap := some wrapping }
         fresh := s.fresh + 1 })) ∧
     (due 2 →
       (used → ends .loadkey (m.finish 4)) ∧
       (¬ used → m.wrap = none → ends .loadkey (m.finish 5)) ∧
       (¬ used → m.wrap = some k → keyBox = false → ends .loadkey (m.finish 6)) ∧
       (¬ used → m.wrap = some k → keyBox = true →
         ((∀ bs, unwrapped 64 = some bs → bs.length ≠ 64) → ends .loadkey (m.finish 5)) ∧
         (unwrapped 64 = some bs → bs.length = 64 → ends .loadkey { m.finish 0 with keys := fset m.keys slot (leNat bs) }))) ∧
     (due 3 → (used → ends .clearkey (m.finish 4)) ∧ (¬ used → ends .clearkey { m.finish 0 with keys := fdel m.keys slot })) ∧
     (due 4 →
       (sess → ends .loadsess (m.finish 4)) ∧
       (¬ sess → m.wrap = none → ends .loadsess (m.finish 5)) ∧
       (¬ sess → m.wrap = some k → sessBox = false → ends .loadsess (m.finish 6)) ∧
       (¬ sess → m.wrap = some k → sessBox = true →
         ((∀ bs, unwrapped 32 = some bs → bs.length ≠ 32) → ends .loadsess (m.finish 5)) ∧
         (unwrapped 32 = some bs → bs.length = 32 → ends .loadsess { m.finish 0 with
           sessions := fset m.sessions slot ⟨leNat bs, n 48 4, decide (n 52 4 = 1), n 56 16, n 72 2⟩ }))) ∧
     (due 5 →
       (¬ chunkOk → ends .stagefw (m.finish 6)) ∧
       (chunkOk → before = none → ends .stagefw { m.finish 6 with partialImg := none }) ∧
       (chunkOk → before = some bs →
         (n 0 4 ≠ bs.length ∨ 2 ^ 26 < n 0 4 + n 4 4 → ends .stagefw { m.finish 6 with partialImg := none }) ∧
         (n 0 4 = bs.length → n 0 4 + n 4 4 ≤ 2 ^ 26 →
           let img := bs ++ m.box 16 (n 4 4)
           (n 8 4 / 2 = 0 → ends .stagefw { m.finish 0 with partialImg := some img }) ∧
           (n 8 4 / 2 = 1 → imageOk img = false → ends .stagefw { m.finish 2 with partialImg := none }) ∧
           (n 8 4 / 2 = 1 → imageOk img = true → field img 4 4 < m.rollback ∨ 255 < field img 4 4 →
             ends .stagefw { m.finish 3 with partialImg := none }) ∧
           (n 8 4 / 2 = 1 → imageOk img = true → m.rollback ≤ field img 4 4 → field img 4 4 ≤ 255 →
             ends .stagefw { m.finish 0 with partialImg := none, staged := some img })))) ∧
     (due 7 → ends .clearlog { m.finish 0 with corr := 0, ctxv := false, ctx := 0 })) ∧
  (∀ (s : State) (draw tj gid l a n tid rec c : Nat) (g : Group) (v : View) (i : Instr) (d : Domain) (ld : Landing) (cell : Loc)
       (tm : Team) (k : Cmd) (st : CmdState),
     let m := s.mgmt
     let w := draw % 2 ^ 16
     let t := tj % 2 ^ 16
     let hot := m.cap * 9 < w * 10 ∨ 1440 < t
     let above := m.cap < w ∨ 1520 < t
     let may := m.lastChange + 1000000 ≤ s.time
     let falls := may ∧ above ∧ m.pstate < 3
     let rises := may ∧ ¬ hot ∧ m.lastHot + 10000000 ≤ s.time ∧ 0 < m.pstate
     let note := { m with draw := w, tj := t, lastHot := if hot then s.time else m.lastHot }
     let clock := fun (m' : Mgmt) => t < 1760 → exec (.clockStateChange draw tj) s = .next (s.setMgmt m')
     let bad := fun (x : ErrSite) => Instr.uncorrectableError x
     let checks := fun (x : ErrSite) (y : LaneData) (tval : Dword) =>
       (s.issuerOf gid l = some v → s.nextInstr v = some i →
         (s.readsData v i l y = true → exec (bad x) s = .next
           (s.takeTrap v.gid v.sid v.sp (trapAll (maskOf (fun j => decide (j = l))) 0x52 v.sp.pc tval))) ∧
         (s.readsData v i l y = false → exec (bad x) s = .next s)) ∧
       (s.issuerOf gid l = none → fget s.groups gid = some g →
         (g.mark ≠ .none → g.live.getLsbD l = true → exec (bad x) s = .next (s.setGroup gid { g with
           owed := g.owed ++ [⟨l, 0x52, 0, 0, 0, tval, 4⟩] })) ∧
         (g.mark = .none ∨ g.live.getLsbD l = false → exec (bad x) s = .next s))
     let writes := fun (tid rec : Nat) (cs : List Contrib) =>
       cs.any (fun q => q.isEngine && decide (q.tid = tid) && decide (q.eseq = rec) && q.cells.contains cell)
     let spoils := fun (x : ErrSite) (ld : Landing) =>
       (cell ∈ ld.done → exec (bad x) s = .next s) ∧
       (cell ∉ ld.done → ∃ u : State, exec (bad x) s = .next u ∧
         u = { s.setLanding { ld with late := ld.late ++ [(cell, 0)] } with teams := u.teams } ∧
         ∀ tid tm rec, fget s.teams tid = some tm → ∃ tm', fget u.teams tid = some tm' ∧ tm' = { tm with cmds := tm'.cmds } ∧
           fget tm'.cmds rec = (fget tm.cmds rec).map (fun k => { k with err := k.err || writes tid rec ld.contribs }))
     let nth := fun (cs : List Contrib) => (distinct (cs.flatMap Contrib.cells))[n]?
     let guards := fun (h : Hdr) => v.sp.mask.getLsbD l = true ∧ ∃ u ∈ h.uses, a ∈ u.regs
     let within := fun (ea : Dword) (k : Nat) => ea.toNat ≤ a ∧ a < ea.toNat + k
     (1760 ≤ t → ∃ u : State, exec (.clockStateChange draw tj) s = .next u ∧ u.mgmt = { m with draw := w, tj := t, state := 2 } ∧
       ∀ e ∈ s.ctxs, swf Ctx.reset s.ctxs = true → e.2.st ≠ .free → e.2.st ≠ .scrubbing → (u.ctx e.1).st = .disabled) ∧
     (falls → clock { note with pstate := m.pstate + 1, lastChange := s.time }) ∧
     (¬ falls → rises → clock { note with pstate := m.pstate - 1, lastChange := s.time }) ∧
     (¬ falls → ¬ rises → clock note) ∧
     exec .correctableError s = .next (s.setMgmt { m with corr := min (2 ^ 24 - 1) (m.corr + 1) }) ∧
     (l < 32 → checks (.laneRegister gid l a) (.reg a) (BitVec.ofNat 64 (0x1E00000000000000 + a)) ∧
       checks (.laneRead gid l a) (.addr a) (BitVec.ofNat 64 a)) ∧
     (∀ h ty x y z, s.readsData v (.add h ty x y z) l (.reg a) = true ↔ v.precheck (.add h ty x y z) = none ∧ (guards h ∨
       ((v.part h).getLsbD l = true ∧ (a ∈ (tyUse ty y).regs ∨ a ∈ (tyUse ty z).regs)))) ∧
     (∀ h x, s.readsData v (.fclr h x) l (.reg a) = true ↔ v.precheck (.fclr h x) = none ∧ (guards h ∨
       (v.part h ≠ 0 ∧ l = lowestLane (v.part h) ∧ a ∈ (OpUse.reg x).regs))) ∧
     (∀ h f, s.readsData v (.ld h f) l (.addr a) = true ↔ a = v.sp.pc.toNat ∨ (v.precheck (.ld h f) = none ∧
       (v.part h).getLsbD l = true ∧ within (v.ea f f.aux l) f.width.bytes ∧
       ∃ r, s.reach (v.who l) .load (v.ea f f.aux l) f.width.bytes f.width.bytes = .ok r)) ∧
     (∀ h f, s.readsData v (.ldl h f) l (.addr a) = true ↔ a = v.sp.pc.toNat ∨ (v.precheck (.ldl h f) = none ∧
       (v.part h).getLsbD l = true ∧ within (v.ea f 384 (lowestLane (v.part h)) + BitVec.ofNat 64 (4 * l)) 4 ∧
       ∃ r, s.reach (v.who (lowestLane (v.part h))) .line (v.ea f 384 (lowestLane (v.part h))) 128 128 = .ok r)) ∧
     (s.landing? d = some ld → nth ld.contribs = some cell → spoils (.landing d n) ld) ∧
     (s.landing? (.team tid) = some ld →
       nth (ld.contribs.filter (fun q => q.isEngine && decide (q.tid = tid) && decide (q.eseq = rec))) = some cell →
       spoils (.engineDest tid rec n) ld) ∧
     (fget s.teams tid = some tm → fget tm.cmds rec = some k → k.st = st →
       (st ≠ .running → exec (bad (.engineSource tid rec)) s = .next s) ∧
       (st = .running → exec (bad (.engineSource tid rec)) s = .next (s.setTeam tid { tm with
         cmds := fset tm.cmds rec { k with st := .completed, writes := [], err := true } }))) ∧
     ((s.ctx c).st = .free ∨ (s.ctx c).st = .scrubbing → exec (bad (.contextState c)) s = .next s) ∧
     ((s.ctx c).st ≠ .free → (s.ctx c).st ≠ .scrubbing → ∃ u, exec (bad (.contextState c)) s = .next u ∧
       (u.ctx c).st = .disabled ∧ (u.ctx c).busy = false ∧ u.mgmt.ctxv = true ∧ u.mgmt.ctx = if m.ctxv then m.ctx else c))

/-! The whole machine. -/

/-- A device reset (R383, and the Reset columns of R99-R106, R129, R239, R264, R390): every context is free with its registers at
their Reset values, no group, team, grid, slot, translation, landing, key or session is left, the cache slices are empty, no link
has failed, the ports are trained and the management block is ready. The invariants hold there. -/
def Obligations.ResetState : Prop :=
  let s := State.reset
  (∀ c, (s.ctx c).st = .free ∧ (s.ctx c).busy = false ∧ (s.ctx c).err = 0 ∧ (s.ctx c).queues = [] ∧ (s.ctx c).peers = [] ∧
    (s.ctx c).linkErr = 0 ∧
    ∀ e ∈ [(PReg.kuDet, 0x101), (.kuFnver, 0x101), (.kuTime, 0), (.ksStatus, 0), (.ksTvec, 0), (.ksPvec, 0), (.ksPtbase, 0),
      (.ksScring, 0), (.ksScsize, 0), (.khCtl, 0), (.khCsel, 0), (.khQos, 0x00071010), (.khVf, 0x40), (.khPtbase2, 0),
      (.khMemkey, 0), (.khHvec, 0)], s.ctxReg c e.1 = e.2) ∧
  s.groups = [] ∧ s.teams = [] ∧ s.grids = [] ∧ s.slots = [] ∧ s.tlb = [] ∧ s.hwin = [] ∧ s.cache = [] ∧ s.landings = [] ∧
  s.dlcDown = [] ∧ s.mgmt.keys = [] ∧ s.mgmt.sessions = [] ∧
  s.mgmt.state = 1 ∧ s.mgmt.busy = false ∧ s.mgmt.err = 0 ∧ s.mgmt.cap = 3600 ∧ s.mgmt.corr = 0 ∧
  (∀ n < 16, s.ports[n]? = some { up := true, lanes := 8, retries := 0 }) ∧ s.Inv ∧ s.Named

/-- Every step keeps the canonical form (`State.Inv`) of memory, its key tags, the marks of written private bytes, the host
windows, the cached lines and the maps of contexts, slots, grids, teams and groups, and the number of ports. Of the maps inside a
context, a grid, a team or a group, of the compactions and of the management block it says nothing. -/
def Obligations.StepKeepsCanonicalForm : Prop := ∀ s t : State, s.Inv → step s = .next t → t.Inv

/-- Every step keeps the names of splits, trap levels, pending results, groups, teams and grids in order: none is used twice, and
none is used before it is given. -/
def Obligations.StepKeepsNames : Prop := ∀ s t : State, s.Inv → s.Named → step s = .next t → t.Named

/-- The encoding is exact (R70, R75-R90): a slot decodes to an instruction just when that instruction is well formed and the slot is
its encoding, which fits 96 bits; every other slot is an illegal instruction. -/
def Obligations.DecodingInvertsEncoding : Prop :=
  ∀ (w : Nat) (i : Instr),
    (decodeSlot w = some i ↔ i.isSlot = true ∧ i.wf = true ∧ encode i = w) ∧ (i.wf = true → encode i < 2 ^ 96) ∧
    (w < 2 ^ 96 → decodeTableWord 96 w = decodeSlot w)

/-- Words written out from the encodings of R75-R85 decode to the instructions they stand for. -/
def Obligations.WrittenWordsDecode : Prop :=
  let plain : Hdr := ⟨.always, 0, 15⟩
  let word := fun (a b c : Nat) => a + 2 ^ 32 * b + 2 ^ 64 * c
  decodeTableWord 96 (word 0x06001E40 0x3000200A 0) = some (.add plain .i32 6 5 8) ∧
  decodeTableWord 96 (word 0x00001E00 0 0) = some (.nop plain) ∧
  decodeTableWord 96 (word 0x0A001E1A 2 0) = some (.mfk plain 10 .kuFnver) ∧
  decodeTableWord 96 (word 0x00001E1D 0 0) = some (.idle plain) ∧
  decodeTableWord 96 (word 0x00001E11 0 0x00020000) = some (.step plain .g) ∧
  decodeTableWord 96 (word 0x0A001E83 0x20301408 1) = some (.fma plain .f32 .rne 10 4 5 6) ∧
  decodeTableWord 96 0 = none

/-- One step (R160, R163, R70-R74, R90): the agent that the agenda names moves. A split that may issue runs the instruction that the
slot at its PC decodes to; a slot that is none is trap 0x01, a line that cannot be fetched takes the fetch's trap, one of bad
parity 0x50 and a table line 0x01; at its entry a line waits for its flags. A device step runs by itself; time passes, and with
it a pre-copy round sends some of the pages that it still has (R290). -/
def Obligations.StepRunsTheDecodedInstruction : Prop :=
  ∀ (s : State) (gid sid line n : Nat) (rest : List Turn) (v : View) (e : TlbEntry) (i : Instr) (f : TrapInfo),
    let popped : State := { s with agenda := rest, cur := none }
    let u : State := { s with agenda := rest, cur := some (gid, sid) }
    let sp : Split := { v.sp with entered := false }
    let begun := (u.fill e).setSplit gid sid sp
    let slot := v.sp.slotOf line
    let waits := v.sp.entered = true ∧ flagsMeet v.g.pendingFlags (lineWait line) = true
    (s.agenda = .tick n :: rest →
      ((∀ e ∈ s.ctxs, e.2.round = none) → step s = .next { popped with time := s.time + n }) ∧
      ∃ t : State, step s = .next t ∧ t = { popped with time := s.time + n, ctxs := t.ctxs, out := t.out, fresh := t.fresh } ∧
        ∀ e ∈ s.ctxs, swf Ctx.reset s.ctxs = true → ∀ r, e.2.round = some r → r.sent ≤ r.pages.length →
          ∃ r', (t.ctx e.1).round = some r' ∧ r'.pages = r.pages ∧ r'.snap = r.snap ∧ r.sent ≤ r'.sent ∧ r'.sent ≤ r.pages.length ∧
            (t.ctx e.1).pcSent = r'.sent ∧ (t.ctx e.1).pcSeq = e.2.pcSeq + (r'.sent - r.sent)) ∧
    (s.agenda = .event i :: rest → step s = if i.isSlot then .next popped else exec i popped) ∧
    (v.sp.loop = none → slot = line / 2 ^ (96 * (v.sp.pc.toNat % 64 / 12)) % 2 ^ 96) ∧
    (s.agenda = .issue gid sid :: rest → s.viewOf gid sid = some v →
      (s.canIssue v = false → step s = .next popped) ∧
      (s.canIssue v = true → v.sp.popDue = false → (∀ p, v.sp.flash = some p → p.pc ≠ v.sp.pc) →
        (s.fetchLine v.c v.user v.sp.pc = .error f → step s = .next (u.trapSplit v f)) ∧
        (s.fetchLine v.c v.user v.sp.pc = .ok (line, e) →
          (parityOk line = false → step s = .next ((u.fill e).trapSplit v ⟨0x50, lineOf v.sp.pc⟩)) ∧
          (parityOk line = true → lineKind line ≠ 0 → step s = .next ((u.fill e).trapSplit v ⟨0x01, 0⟩)) ∧
          (parityOk line = true → lineKind line = 0 → waits →
            step s = .next ((u.fill e).setSplit gid sid { sp with st := .flags (lineWait line) })) ∧
          (parityOk line = true → lineKind line = 0 → ¬ waits → v.dues false = [] → v.dues true = [] →
            (decodeSlot slot = some i → step s = exec i begun) ∧
            (decodeSlot slot = none → step s = .next (begun.trapSplit { v with sp := sp, g := v.g.setSplit sid sp } ⟨0x01, 0⟩))))))

/-- What an instruction cannot reach (R93, R94, R98, R99): an instruction of a split in user mode changes no `ks_` and no `kh_`
register of any context, and outside a handler an instruction changes no group but its own. -/
def Obligations.InstructionsStayInTheirReach : Prop :=
  ∀ (s t : State) (v : View) (i : Instr),
    swf Ctx.reset s.ctxs = true → s.view? = some v → i.isSlot = true → exec i s = .next t →
    (v.sp.mode = .user → ∀ c k, k ≠ .kuDet → k ≠ .kuFnver → t.ctxReg c k = s.ctxReg c k) ∧
    (v.sp.tdepth = 0 → ∀ n, n ≠ v.gid → fget t.groups n = fget s.groups n)
end

