-- ==== Sys2Proof/Laws/Sparse.lean ====
section
/-! SUPPORT. Laws of keyed lists: reading after setting and removing, and the canonical form kept. -/
namespace Sys2Proof

theorem fget_fset_self {α : Type} (m : FMap α) (k : Nat) (v : α) : fget (fset m k v) k = some v := by
  induction m with
  | nil => simp [fset, fget]
  | cons e m ih =>
    obtain ⟨j, w⟩ := e
    simp only [fset]
    split
    · simp [fget]
    · split
      · simp [fget]
      · simp [fget, *]

theorem fget_fset_ne {α : Type} (m : FMap α) {k k' : Nat} (v : α) (h : k' ≠ k) : fget (fset m k v) k' = fget m k' := by
  induction m with
  | nil => simp [fset, fget, Ne.symm h]
  | cons e m ih =>
    obtain ⟨j, w⟩ := e
    simp only [fset]
    split
    · simp [fget, Ne.symm h]
    · split
      · rename_i _ e
        subst e
        simp [fget, Ne.symm h]
      · simp only [fget, ih]

theorem fget_fset {α : Type} (m : FMap α) (k k' : Nat) (v : α) :
    fget (fset m k v) k' = if k' = k then some v else fget m k' := by
  split
  · subst_vars; exact fget_fset_self _ _ _
  · exact fget_fset_ne _ _ ‹_›

theorem fget_fdel {α : Type} (m : FMap α) (k k' : Nat) : fget (fdel m k) k' = if k' = k then none else fget m k' := by
  induction m with
  | nil => simp [fdel, fget]
  | cons e m ih =>
    obtain ⟨j, w⟩ := e
    simp only [fdel]
    split
    · rw [ih]
      split
      · rfl
      · rename_i a b
        subst a
        simp [fget, Ne.symm b]
    · simp only [fget]
      split
      · simp_all
      · exact ih

theorem sget_sset {α : Type} [DecidableEq α] (d : α) (m : FMap α) (k k' : Nat) (v : α) :
    sget d (sset d m k v) k' = if k' = k then v else sget d m k' := by
  simp only [sget, sset]
  split
  · subst_vars
    rw [fget_fdel]
    split <;> simp
  · rw [fget_fset]
    split <;> simp

theorem sget_sset_self {α : Type} [DecidableEq α] (d : α) (m : FMap α) (k : Nat) (v : α) : sget d (sset d m k v) k = v := by
  simp [sget_sset]

theorem sget_sset_ne {α : Type} [DecidableEq α] (d : α) (m : FMap α) {k k' : Nat} (v : α) (h : k' ≠ k) :
    sget d (sset d m k v) k' = sget d m k' := by
  simp [sget_sset, h]

/-! The canonical form. -/

theorem fwfFrom_mono {α : Type} {m : FMap α} {a b : Nat} (hab : a ≤ b) (h : fwfFrom b m = true) : fwfFrom a m = true := by
  cases m with
  | nil => rfl
  | cons e m => obtain ⟨j, w⟩ := e; simp only [fwfFrom, Bool.and_eq_true, decide_eq_true_eq] at h ⊢; exact ⟨by omega, h.2⟩

theorem fwfFrom_fset {α : Type} (m : FMap α) (k : Nat) (v : α) :
    ∀ lo, fwfFrom lo m = true → lo ≤ k → fwfFrom lo (fset m k v) = true := by
  induction m with
  | nil => intro lo _ hk; simpa [fset, fwfFrom] using hk
  | cons e m ih =>
    obtain ⟨j, w⟩ := e
    intro lo h hk
    simp [fwfFrom] at h
    simp only [fset]
    split
    · simp [fwfFrom, hk, h.2]; omega
    · split
      · subst_vars; simp [fwfFrom, h.1, h.2]
      · simp [fwfFrom, h.1]; exact ih _ h.2 (by omega)

theorem fwf_fset {α : Type} (m : FMap α) (k : Nat) (v : α) (h : fwf m = true) : fwf (fset m k v) = true :=
  fwfFrom_fset m k v 0 h (Nat.zero_le _)

theorem fwfFrom_filter {α : Type} (m : FMap α) (p : Nat × α → Bool) :
    ∀ lo, fwfFrom lo m = true → fwfFrom lo (m.filter p) = true := by
  induction m with
  | nil => intro lo h; exact h
  | cons e m ih =>
    obtain ⟨j, w⟩ := e
    intro lo h
    simp [fwfFrom] at h
    simp only [List.filter]
    split
    · simp [fwfFrom, h.1]; exact ih _ h.2
    · exact fwfFrom_mono (by omega) (ih _ h.2)

theorem fdel_eq_filter {α : Type} (m : FMap α) (k : Nat) : fdel m k = m.filter (fun e => decide (e.1 ≠ k)) := by
  induction m with
  | nil => rfl
  | cons e m ih =>
    obtain ⟨j, w⟩ := e
    by_cases h : j = k <;> simp [fdel, h, ih]

theorem fwf_fdel {α : Type} (m : FMap α) (k : Nat) (h : fwf m = true) : fwf (fdel m k) = true := by
  rw [fdel_eq_filter]; exact fwfFrom_filter _ _ _ h

theorem all_fset {α : Type} (p : α → Bool) (m : FMap α) (k : Nat) (v : α) (hm : m.all (fun e => p e.2) = true)
    (hv : p v = true) : (fset m k v).all (fun e => p e.2) = true := by
  induction m with
  | nil => simpa [fset] using hv
  | cons e m ih =>
    obtain ⟨j, w⟩ := e
    simp only [fset]
    split
    · simpa [hv] using hm
    · split
      · simp only [List.all_cons, Bool.and_eq_true] at *; exact ⟨hv, hm.2⟩
      · simp only [List.all_cons, Bool.and_eq_true] at *; exact ⟨hm.1, ih hm.2⟩

theorem swf_filter {α : Type} [DecidableEq α] (d : α) (m : FMap α) (p : Nat × α → Bool) (h : swf d m = true) :
    swf d (m.filter p) = true := by
  simp only [swf, Bool.and_eq_true] at *
  refine ⟨fwfFrom_filter _ _ _ h.1, ?_⟩
  rw [List.all_filter]
  exact List.all_eq_true.mpr (fun e he => by simp [List.all_eq_true.mp h.2 e he])

theorem swf_sset {α : Type} [DecidableEq α] (d : α) (m : FMap α) (k : Nat) (v : α) (h : swf d m = true) :
    swf d (sset d m k v) = true := by
  simp only [sset]
  split
  · rw [fdel_eq_filter]; exact swf_filter d m _ h
  · simp only [swf, Bool.and_eq_true] at *
    exact ⟨fwf_fset _ _ _ h.1, all_fset (fun w => decide (w ≠ d)) m k v h.2 (by simpa using ‹¬v = d›)⟩

theorem swf_fdelRange {α : Type} [DecidableEq α] (d : α) (m : FMap α) (lo hi : Nat) (h : swf d m = true) :
    swf d (fdelRange m lo hi) = true := swf_filter d m _ h

/-- Setting keys one after another keeps the canonical form. -/
theorem swf_foldl_sset {α β : Type} [DecidableEq α] (d : α) (xs : List β) (key : β → Nat) (val : β → α) :
    ∀ m, swf d m = true → swf d (xs.foldl (fun m x => sset d m (key x) (val x)) m) = true := by
  induction xs with
  | nil => intro m h; exact h
  | cons x xs ih => intro m h; exact ih _ (swf_sset d m _ _ h)

/-- Two maps in canonical form with equal contents are equal data. -/
theorem fwf_ext {α : Type} : ∀ (m n : FMap α) (lo : Nat), fwfFrom lo m = true → fwfFrom lo n = true →
    (∀ k, fget m k = fget n k) → m = n := by
  have none_below : ∀ (m : FMap α) (lo k : Nat), fwfFrom lo m = true → k < lo → fget m k = none := by
    intro m
    induction m with
    | nil => intros; rfl
    | cons e m ih =>
      obtain ⟨j, w⟩ := e
      intro lo k h hk
      simp [fwfFrom] at h
      have : j ≠ k := by omega
      simp only [fget, this, if_false]
      exact ih _ _ h.2 (by omega)
  intro m
  induction m with
  | nil =>
    intro n lo _ hn he
    cases n with
    | nil => rfl
    | cons e n => obtain ⟨j, w⟩ := e; have := he j; simp [fget] at this
  | cons e m ih =>
    obtain ⟨j, w⟩ := e
    intro n lo hm hn he
    simp [fwfFrom] at hm
    cases n with
    | nil => have := he j; simp [fget] at this
    | cons f n =>
      obtain ⟨i, x⟩ := f
      simp [fwfFrom] at hn
      have hij : i = j := by
        rcases Nat.lt_trichotomy i j with h | h | h
        · have := he i
          simp [fget, show ¬j = i by omega] at this
          rw [none_below m (j + 1) i hm.2 (by omega)] at this
          simp at this
        · exact h
        · have := he j
          simp [fget, show ¬i = j by omega] at this
          rw [none_below n (i + 1) j hn.2 (by omega)] at this
          simp at this
      subst hij
      have hw : w = x := by have := he i; simpa [fget] using this
      subst hw
      congr 1
      refine ih n (i + 1) hm.2 hn.2 (fun k => ?_)
      by_cases hk : i = k
      · subst hk; rw [none_below m _ _ hm.2 (by omega), none_below n _ _ hn.2 (by omega)]
      · have := he k; simpa [fget, hk] using this

end Sys2Proof
end

