-- ==== Sys2Proof/Laws/State.lean ====
section
/-! SUPPORT. What each update of the state leaves of each field, and what it reads back. -/
namespace Sys2Proof.Machine

/-! `setCtx`. -/

@[simp] theorem State.setCtx_time (s : State) (c : Nat) (x : Ctx) : (s.setCtx c x).time = s.time := rfl
@[simp] theorem State.setCtx_csel (s : State) (c : Nat) (x : Ctx) : (s.setCtx c x).csel = s.csel := rfl
@[simp] theorem State.setCtx_fwver (s : State) (c : Nat) (x : Ctx) : (s.setCtx c x).fwver = s.fwver := rfl
@[simp] theorem State.setCtx_dieMem (s : State) (c : Nat) (x : Ctx) : (s.setCtx c x).dieMem = s.dieMem := rfl
@[simp] theorem State.setCtx_mem (s : State) (c : Nat) (x : Ctx) : (s.setCtx c x).mem = s.mem := rfl
@[simp] theorem State.setCtx_ktag (s : State) (c : Nat) (x : Ctx) : (s.setCtx c x).ktag = s.ktag := rfl
@[simp] theorem State.setCtx_cache (s : State) (c : Nat) (x : Ctx) : (s.setCtx c x).cache = s.cache := rfl
@[simp] theorem State.setCtx_dlcDown (s : State) (c : Nat) (x : Ctx) : (s.setCtx c x).dlcDown = s.dlcDown := rfl
@[simp] theorem State.setCtx_priv (s : State) (c : Nat) (x : Ctx) : (s.setCtx c x).priv = s.priv := rfl
@[simp] theorem State.setCtx_mgmt (s : State) (c : Nat) (x : Ctx) : (s.setCtx c x).mgmt = s.mgmt := rfl
@[simp] theorem State.setCtx_defects (s : State) (c : Nat) (x : Ctx) : (s.setCtx c x).defects = s.defects := rfl
@[simp] theorem State.setCtx_ports (s : State) (c : Nat) (x : Ctx) : (s.setCtx c x).ports = s.ports := rfl
@[simp] theorem State.setCtx_hwin (s : State) (c : Nat) (x : Ctx) : (s.setCtx c x).hwin = s.hwin := rfl
@[simp] theorem State.setCtx_slots (s : State) (c : Nat) (x : Ctx) : (s.setCtx c x).slots = s.slots := rfl
@[simp] theorem State.setCtx_tlb (s : State) (c : Nat) (x : Ctx) : (s.setCtx c x).tlb = s.tlb := rfl
@[simp] theorem State.setCtx_grids (s : State) (c : Nat) (x : Ctx) : (s.setCtx c x).grids = s.grids := rfl
@[simp] theorem State.setCtx_teams (s : State) (c : Nat) (x : Ctx) : (s.setCtx c x).teams = s.teams := rfl
@[simp] theorem State.setCtx_groups (s : State) (c : Nat) (x : Ctx) : (s.setCtx c x).groups = s.groups := rfl
@[simp] theorem State.setCtx_nextGrid (s : State) (c : Nat) (x : Ctx) : (s.setCtx c x).nextGrid = s.nextGrid := rfl
@[simp] theorem State.setCtx_nextTeam (s : State) (c : Nat) (x : Ctx) : (s.setCtx c x).nextTeam = s.nextTeam := rfl
@[simp] theorem State.setCtx_nextGroup (s : State) (c : Nat) (x : Ctx) : (s.setCtx c x).nextGroup = s.nextGroup := rfl
@[simp] theorem State.setCtx_landings (s : State) (c : Nat) (x : Ctx) : (s.setCtx c x).landings = s.landings := rfl
@[simp] theorem State.setCtx_compacts (s : State) (c : Nat) (x : Ctx) : (s.setCtx c x).compacts = s.compacts := rfl
@[simp] theorem State.setCtx_inbox (s : State) (c : Nat) (x : Ctx) : (s.setCtx c x).inbox = s.inbox := rfl
@[simp] theorem State.setCtx_sentw (s : State) (c : Nat) (x : Ctx) : (s.setCtx c x).sentw = s.sentw := rfl
@[simp] theorem State.setCtx_nextMsg (s : State) (c : Nat) (x : Ctx) : (s.setCtx c x).nextMsg = s.nextMsg := rfl
@[simp] theorem State.setCtx_out (s : State) (c : Nat) (x : Ctx) : (s.setCtx c x).out = s.out := rfl
@[simp] theorem State.setCtx_agenda (s : State) (c : Nat) (x : Ctx) : (s.setCtx c x).agenda = s.agenda := rfl
@[simp] theorem State.setCtx_cur (s : State) (c : Nat) (x : Ctx) : (s.setCtx c x).cur = s.cur := rfl
@[simp] theorem State.setCtx_fresh (s : State) (c : Nat) (x : Ctx) : (s.setCtx c x).fresh = s.fresh := rfl

/-! `setTeam`. -/

@[simp] theorem State.setTeam_time (s : State) (n : Nat) (x : Team) : (s.setTeam n x).time = s.time := rfl
@[simp] theorem State.setTeam_csel (s : State) (n : Nat) (x : Team) : (s.setTeam n x).csel = s.csel := rfl
@[simp] theorem State.setTeam_fwver (s : State) (n : Nat) (x : Team) : (s.setTeam n x).fwver = s.fwver := rfl
@[simp] theorem State.setTeam_dieMem (s : State) (n : Nat) (x : Team) : (s.setTeam n x).dieMem = s.dieMem := rfl
@[simp] theorem State.setTeam_mem (s : State) (n : Nat) (x : Team) : (s.setTeam n x).mem = s.mem := rfl
@[simp] theorem State.setTeam_ktag (s : State) (n : Nat) (x : Team) : (s.setTeam n x).ktag = s.ktag := rfl
@[simp] theorem State.setTeam_cache (s : State) (n : Nat) (x : Team) : (s.setTeam n x).cache = s.cache := rfl
@[simp] theorem State.setTeam_dlcDown (s : State) (n : Nat) (x : Team) : (s.setTeam n x).dlcDown = s.dlcDown := rfl
@[simp] theorem State.setTeam_priv (s : State) (n : Nat) (x : Team) : (s.setTeam n x).priv = s.priv := rfl
@[simp] theorem State.setTeam_mgmt (s : State) (n : Nat) (x : Team) : (s.setTeam n x).mgmt = s.mgmt := rfl
@[simp] theorem State.setTeam_defects (s : State) (n : Nat) (x : Team) : (s.setTeam n x).defects = s.defects := rfl
@[simp] theorem State.setTeam_ports (s : State) (n : Nat) (x : Team) : (s.setTeam n x).ports = s.ports := rfl
@[simp] theorem State.setTeam_hwin (s : State) (n : Nat) (x : Team) : (s.setTeam n x).hwin = s.hwin := rfl
@[simp] theorem State.setTeam_slots (s : State) (n : Nat) (x : Team) : (s.setTeam n x).slots = s.slots := rfl
@[simp] theorem State.setTeam_ctxs (s : State) (n : Nat) (x : Team) : (s.setTeam n x).ctxs = s.ctxs := rfl
@[simp] theorem State.setTeam_tlb (s : State) (n : Nat) (x : Team) : (s.setTeam n x).tlb = s.tlb := rfl
@[simp] theorem State.setTeam_grids (s : State) (n : Nat) (x : Team) : (s.setTeam n x).grids = s.grids := rfl
@[simp] theorem State.setTeam_groups (s : State) (n : Nat) (x : Team) : (s.setTeam n x).groups = s.groups := rfl
@[simp] theorem State.setTeam_nextGrid (s : State) (n : Nat) (x : Team) : (s.setTeam n x).nextGrid = s.nextGrid := rfl
@[simp] theorem State.setTeam_nextTeam (s : State) (n : Nat) (x : Team) : (s.setTeam n x).nextTeam = s.nextTeam := rfl
@[simp] theorem State.setTeam_nextGroup (s : State) (n : Nat) (x : Team) : (s.setTeam n x).nextGroup = s.nextGroup := rfl
@[simp] theorem State.setTeam_landings (s : State) (n : Nat) (x : Team) : (s.setTeam n x).landings = s.landings := rfl
@[simp] theorem State.setTeam_compacts (s : State) (n : Nat) (x : Team) : (s.setTeam n x).compacts = s.compacts := rfl
@[simp] theorem State.setTeam_inbox (s : State) (n : Nat) (x : Team) : (s.setTeam n x).inbox = s.inbox := rfl
@[simp] theorem State.setTeam_sentw (s : State) (n : Nat) (x : Team) : (s.setTeam n x).sentw = s.sentw := rfl
@[simp] theorem State.setTeam_nextMsg (s : State) (n : Nat) (x : Team) : (s.setTeam n x).nextMsg = s.nextMsg := rfl
@[simp] theorem State.setTeam_out (s : State) (n : Nat) (x : Team) : (s.setTeam n x).out = s.out := rfl
@[simp] theorem State.setTeam_agenda (s : State) (n : Nat) (x : Team) : (s.setTeam n x).agenda = s.agenda := rfl
@[simp] theorem State.setTeam_cur (s : State) (n : Nat) (x : Team) : (s.setTeam n x).cur = s.cur := rfl
@[simp] theorem State.setTeam_fresh (s : State) (n : Nat) (x : Team) : (s.setTeam n x).fresh = s.fresh := rfl

/-! `setGroup`. -/

@[simp] theorem State.setGroup_time (s : State) (n : Nat) (x : Group) : (s.setGroup n x).time = s.time := rfl
@[simp] theorem State.setGroup_csel (s : State) (n : Nat) (x : Group) : (s.setGroup n x).csel = s.csel := rfl
@[simp] theorem State.setGroup_fwver (s : State) (n : Nat) (x : Group) : (s.setGroup n x).fwver = s.fwver := rfl
@[simp] theorem State.setGroup_dieMem (s : State) (n : Nat) (x : Group) : (s.setGroup n x).dieMem = s.dieMem := rfl
@[simp] theorem State.setGroup_mem (s : State) (n : Nat) (x : Group) : (s.setGroup n x).mem = s.mem := rfl
@[simp] theorem State.setGroup_ktag (s : State) (n : Nat) (x : Group) : (s.setGroup n x).ktag = s.ktag := rfl
@[simp] theorem State.setGroup_cache (s : State) (n : Nat) (x : Group) : (s.setGroup n x).cache = s.cache := rfl
@[simp] theorem State.setGroup_dlcDown (s : State) (n : Nat) (x : Group) : (s.setGroup n x).dlcDown = s.dlcDown := rfl
@[simp] theorem State.setGroup_priv (s : State) (n : Nat) (x : Group) : (s.setGroup n x).priv = s.priv := rfl
@[simp] theorem State.setGroup_mgmt (s : State) (n : Nat) (x : Group) : (s.setGroup n x).mgmt = s.mgmt := rfl
@[simp] theorem State.setGroup_defects (s : State) (n : Nat) (x : Group) : (s.setGroup n x).defects = s.defects := rfl
@[simp] theorem State.setGroup_ports (s : State) (n : Nat) (x : Group) : (s.setGroup n x).ports = s.ports := rfl
@[simp] theorem State.setGroup_hwin (s : State) (n : Nat) (x : Group) : (s.setGroup n x).hwin = s.hwin := rfl
@[simp] theorem State.setGroup_slots (s : State) (n : Nat) (x : Group) : (s.setGroup n x).slots = s.slots := rfl
@[simp] theorem State.setGroup_ctxs (s : State) (n : Nat) (x : Group) : (s.setGroup n x).ctxs = s.ctxs := rfl
@[simp] theorem State.setGroup_tlb (s : State) (n : Nat) (x : Group) : (s.setGroup n x).tlb = s.tlb := rfl
@[simp] theorem State.setGroup_grids (s : State) (n : Nat) (x : Group) : (s.setGroup n x).grids = s.grids := rfl
@[simp] theorem State.setGroup_teams (s : State) (n : Nat) (x : Group) : (s.setGroup n x).teams = s.teams := rfl
@[simp] theorem State.setGroup_nextGrid (s : State) (n : Nat) (x : Group) : (s.setGroup n x).nextGrid = s.nextGrid := rfl
@[simp] theorem State.setGroup_nextTeam (s : State) (n : Nat) (x : Group) : (s.setGroup n x).nextTeam = s.nextTeam := rfl
@[simp] theorem State.setGroup_nextGroup (s : State) (n : Nat) (x : Group) : (s.setGroup n x).nextGroup = s.nextGroup := rfl
@[simp] theorem State.setGroup_landings (s : State) (n : Nat) (x : Group) : (s.setGroup n x).landings = s.landings := rfl
@[simp] theorem State.setGroup_compacts (s : State) (n : Nat) (x : Group) : (s.setGroup n x).compacts = s.compacts := rfl
@[simp] theorem State.setGroup_inbox (s : State) (n : Nat) (x : Group) : (s.setGroup n x).inbox = s.inbox := rfl
@[simp] theorem State.setGroup_sentw (s : State) (n : Nat) (x : Group) : (s.setGroup n x).sentw = s.sentw := rfl
@[simp] theorem State.setGroup_nextMsg (s : State) (n : Nat) (x : Group) : (s.setGroup n x).nextMsg = s.nextMsg := rfl
@[simp] theorem State.setGroup_out (s : State) (n : Nat) (x : Group) : (s.setGroup n x).out = s.out := rfl
@[simp] theorem State.setGroup_agenda (s : State) (n : Nat) (x : Group) : (s.setGroup n x).agenda = s.agenda := rfl
@[simp] theorem State.setGroup_cur (s : State) (n : Nat) (x : Group) : (s.setGroup n x).cur = s.cur := rfl
@[simp] theorem State.setGroup_fresh (s : State) (n : Nat) (x : Group) : (s.setGroup n x).fresh = s.fresh := rfl

/-! `setGrid`. -/

@[simp] theorem State.setGrid_time (s : State) (n : Nat) (x : Grid) : (s.setGrid n x).time = s.time := rfl
@[simp] theorem State.setGrid_csel (s : State) (n : Nat) (x : Grid) : (s.setGrid n x).csel = s.csel := rfl
@[simp] theorem State.setGrid_fwver (s : State) (n : Nat) (x : Grid) : (s.setGrid n x).fwver = s.fwver := rfl
@[simp] theorem State.setGrid_dieMem (s : State) (n : Nat) (x : Grid) : (s.setGrid n x).dieMem = s.dieMem := rfl
@[simp] theorem State.setGrid_mem (s : State) (n : Nat) (x : Grid) : (s.setGrid n x).mem = s.mem := rfl
@[simp] theorem State.setGrid_ktag (s : State) (n : Nat) (x : Grid) : (s.setGrid n x).ktag = s.ktag := rfl
@[simp] theorem State.setGrid_cache (s : State) (n : Nat) (x : Grid) : (s.setGrid n x).cache = s.cache := rfl
@[simp] theorem State.setGrid_dlcDown (s : State) (n : Nat) (x : Grid) : (s.setGrid n x).dlcDown = s.dlcDown := rfl
@[simp] theorem State.setGrid_priv (s : State) (n : Nat) (x : Grid) : (s.setGrid n x).priv = s.priv := rfl
@[simp] theorem State.setGrid_mgmt (s : State) (n : Nat) (x : Grid) : (s.setGrid n x).mgmt = s.mgmt := rfl
@[simp] theorem State.setGrid_defects (s : State) (n : Nat) (x : Grid) : (s.setGrid n x).defects = s.defects := rfl
@[simp] theorem State.setGrid_ports (s : State) (n : Nat) (x : Grid) : (s.setGrid n x).ports = s.ports := rfl
@[simp] theorem State.setGrid_hwin (s : State) (n : Nat) (x : Grid) : (s.setGrid n x).hwin = s.hwin := rfl
@[simp] theorem State.setGrid_slots (s : State) (n : Nat) (x : Grid) : (s.setGrid n x).slots = s.slots := rfl
@[simp] theorem State.setGrid_ctxs (s : State) (n : Nat) (x : Grid) : (s.setGrid n x).ctxs = s.ctxs := rfl
@[simp] theorem State.setGrid_tlb (s : State) (n : Nat) (x : Grid) : (s.setGrid n x).tlb = s.tlb := rfl
@[simp] theorem State.setGrid_teams (s : State) (n : Nat) (x : Grid) : (s.setGrid n x).teams = s.teams := rfl
@[simp] theorem State.setGrid_groups (s : State) (n : Nat) (x : Grid) : (s.setGrid n x).groups = s.groups := rfl
@[simp] theorem State.setGrid_nextGrid (s : State) (n : Nat) (x : Grid) : (s.setGrid n x).nextGrid = s.nextGrid := rfl
@[simp] theorem State.setGrid_nextTeam (s : State) (n : Nat) (x : Grid) : (s.setGrid n x).nextTeam = s.nextTeam := rfl
@[simp] theorem State.setGrid_nextGroup (s : State) (n : Nat) (x : Grid) : (s.setGrid n x).nextGroup = s.nextGroup := rfl
@[simp] theorem State.setGrid_landings (s : State) (n : Nat) (x : Grid) : (s.setGrid n x).landings = s.landings := rfl
@[simp] theorem State.setGrid_compacts (s : State) (n : Nat) (x : Grid) : (s.setGrid n x).compacts = s.compacts := rfl
@[simp] theorem State.setGrid_inbox (s : State) (n : Nat) (x : Grid) : (s.setGrid n x).inbox = s.inbox := rfl
@[simp] theorem State.setGrid_sentw (s : State) (n : Nat) (x : Grid) : (s.setGrid n x).sentw = s.sentw := rfl
@[simp] theorem State.setGrid_nextMsg (s : State) (n : Nat) (x : Grid) : (s.setGrid n x).nextMsg = s.nextMsg := rfl
@[simp] theorem State.setGrid_out (s : State) (n : Nat) (x : Grid) : (s.setGrid n x).out = s.out := rfl
@[simp] theorem State.setGrid_agenda (s : State) (n : Nat) (x : Grid) : (s.setGrid n x).agenda = s.agenda := rfl
@[simp] theorem State.setGrid_cur (s : State) (n : Nat) (x : Grid) : (s.setGrid n x).cur = s.cur := rfl
@[simp] theorem State.setGrid_fresh (s : State) (n : Nat) (x : Grid) : (s.setGrid n x).fresh = s.fresh := rfl

/-! `setMgmt`. -/

@[simp] theorem State.setMgmt_time (s : State) (m : Mgmt) : (s.setMgmt m).time = s.time := rfl
@[simp] theorem State.setMgmt_csel (s : State) (m : Mgmt) : (s.setMgmt m).csel = s.csel := rfl
@[simp] theorem State.setMgmt_fwver (s : State) (m : Mgmt) : (s.setMgmt m).fwver = s.fwver := rfl
@[simp] theorem State.setMgmt_dieMem (s : State) (m : Mgmt) : (s.setMgmt m).dieMem = s.dieMem := rfl
@[simp] theorem State.setMgmt_mem (s : State) (m : Mgmt) : (s.setMgmt m).mem = s.mem := rfl
@[simp] theorem State.setMgmt_ktag (s : State) (m : Mgmt) : (s.setMgmt m).ktag = s.ktag := rfl
@[simp] theorem State.setMgmt_cache (s : State) (m : Mgmt) : (s.setMgmt m).cache = s.cache := rfl
@[simp] theorem State.setMgmt_dlcDown (s : State) (m : Mgmt) : (s.setMgmt m).dlcDown = s.dlcDown := rfl
@[simp] theorem State.setMgmt_priv (s : State) (m : Mgmt) : (s.setMgmt m).priv = s.priv := rfl
@[simp] theorem State.setMgmt_defects (s : State) (m : Mgmt) : (s.setMgmt m).defects = s.defects := rfl
@[simp] theorem State.setMgmt_ports (s : State) (m : Mgmt) : (s.setMgmt m).ports = s.ports := rfl
@[simp] theorem State.setMgmt_hwin (s : State) (m : Mgmt) : (s.setMgmt m).hwin = s.hwin := rfl
@[simp] theorem State.setMgmt_slots (s : State) (m : Mgmt) : (s.setMgmt m).slots = s.slots := rfl
@[simp] theorem State.setMgmt_ctxs (s : State) (m : Mgmt) : (s.setMgmt m).ctxs = s.ctxs := rfl
@[simp] theorem State.setMgmt_tlb (s : State) (m : Mgmt) : (s.setMgmt m).tlb = s.tlb := rfl
@[simp] theorem State.setMgmt_grids (s : State) (m : Mgmt) : (s.setMgmt m).grids = s.grids := rfl
@[simp] theorem State.setMgmt_teams (s : State) (m : Mgmt) : (s.setMgmt m).teams = s.teams := rfl
@[simp] theorem State.setMgmt_groups (s : State) (m : Mgmt) : (s.setMgmt m).groups = s.groups := rfl
@[simp] theorem State.setMgmt_nextGrid (s : State) (m : Mgmt) : (s.setMgmt m).nextGrid = s.nextGrid := rfl
@[simp] theorem State.setMgmt_nextTeam (s : State) (m : Mgmt) : (s.setMgmt m).nextTeam = s.nextTeam := rfl
@[simp] theorem State.setMgmt_nextGroup (s : State) (m : Mgmt) : (s.setMgmt m).nextGroup = s.nextGroup := rfl
@[simp] theorem State.setMgmt_landings (s : State) (m : Mgmt) : (s.setMgmt m).landings = s.landings := rfl
@[simp] theorem State.setMgmt_compacts (s : State) (m : Mgmt) : (s.setMgmt m).compacts = s.compacts := rfl
@[simp] theorem State.setMgmt_inbox (s : State) (m : Mgmt) : (s.setMgmt m).inbox = s.inbox := rfl
@[simp] theorem State.setMgmt_sentw (s : State) (m : Mgmt) : (s.setMgmt m).sentw = s.sentw := rfl
@[simp] theorem State.setMgmt_nextMsg (s : State) (m : Mgmt) : (s.setMgmt m).nextMsg = s.nextMsg := rfl
@[simp] theorem State.setMgmt_out (s : State) (m : Mgmt) : (s.setMgmt m).out = s.out := rfl
@[simp] theorem State.setMgmt_agenda (s : State) (m : Mgmt) : (s.setMgmt m).agenda = s.agenda := rfl
@[simp] theorem State.setMgmt_cur (s : State) (m : Mgmt) : (s.setMgmt m).cur = s.cur := rfl
@[simp] theorem State.setMgmt_fresh (s : State) (m : Mgmt) : (s.setMgmt m).fresh = s.fresh := rfl

/-! `send`. -/

@[simp] theorem State.send_time (s : State) (m : OutMsg) : (s.send m).time = s.time := rfl
@[simp] theorem State.send_csel (s : State) (m : OutMsg) : (s.send m).csel = s.csel := rfl
@[simp] theorem State.send_fwver (s : State) (m : OutMsg) : (s.send m).fwver = s.fwver := rfl
@[simp] theorem State.send_dieMem (s : State) (m : OutMsg) : (s.send m).dieMem = s.dieMem := rfl
@[simp] theorem State.send_mem (s : State) (m : OutMsg) : (s.send m).mem = s.mem := rfl
@[simp] theorem State.send_ktag (s : State) (m : OutMsg) : (s.send m).ktag = s.ktag := rfl
@[simp] theorem State.send_cache (s : State) (m : OutMsg) : (s.send m).cache = s.cache := rfl
@[simp] theorem State.send_dlcDown (s : State) (m : OutMsg) : (s.send m).dlcDown = s.dlcDown := rfl
@[simp] theorem State.send_priv (s : State) (m : OutMsg) : (s.send m).priv = s.priv := rfl
@[simp] theorem State.send_mgmt (s : State) (m : OutMsg) : (s.send m).mgmt = s.mgmt := rfl
@[simp] theorem State.send_defects (s : State) (m : OutMsg) : (s.send m).defects = s.defects := rfl
@[simp] theorem State.send_ports (s : State) (m : OutMsg) : (s.send m).ports = s.ports := rfl
@[simp] theorem State.send_hwin (s : State) (m : OutMsg) : (s.send m).hwin = s.hwin := rfl
@[simp] theorem State.send_slots (s : State) (m : OutMsg) : (s.send m).slots = s.slots := rfl
@[simp] theorem State.send_ctxs (s : State) (m : OutMsg) : (s.send m).ctxs = s.ctxs := rfl
@[simp] theorem State.send_tlb (s : State) (m : OutMsg) : (s.send m).tlb = s.tlb := rfl
@[simp] theorem State.send_grids (s : State) (m : OutMsg) : (s.send m).grids = s.grids := rfl
@[simp] theorem State.send_teams (s : State) (m : OutMsg) : (s.send m).teams = s.teams := rfl
@[simp] theorem State.send_groups (s : State) (m : OutMsg) : (s.send m).groups = s.groups := rfl
@[simp] theorem State.send_nextGrid (s : State) (m : OutMsg) : (s.send m).nextGrid = s.nextGrid := rfl
@[simp] theorem State.send_nextTeam (s : State) (m : OutMsg) : (s.send m).nextTeam = s.nextTeam := rfl
@[simp] theorem State.send_nextGroup (s : State) (m : OutMsg) : (s.send m).nextGroup = s.nextGroup := rfl
@[simp] theorem State.send_landings (s : State) (m : OutMsg) : (s.send m).landings = s.landings := rfl
@[simp] theorem State.send_compacts (s : State) (m : OutMsg) : (s.send m).compacts = s.compacts := rfl
@[simp] theorem State.send_inbox (s : State) (m : OutMsg) : (s.send m).inbox = s.inbox := rfl
@[simp] theorem State.send_sentw (s : State) (m : OutMsg) : (s.send m).sentw = s.sentw := rfl
@[simp] theorem State.send_nextMsg (s : State) (m : OutMsg) : (s.send m).nextMsg = s.nextMsg := rfl
@[simp] theorem State.send_agenda (s : State) (m : OutMsg) : (s.send m).agenda = s.agenda := rfl
@[simp] theorem State.send_cur (s : State) (m : OutMsg) : (s.send m).cur = s.cur := rfl
@[simp] theorem State.send_fresh (s : State) (m : OutMsg) : (s.send m).fresh = s.fresh := rfl

/-! What an update reads back. -/

@[simp] theorem State.setTeam_teams (s : State) (n : Nat) (x : Team) : (s.setTeam n x).teams = fset s.teams n x := rfl
@[simp] theorem State.setGroup_groups (s : State) (n : Nat) (x : Group) : (s.setGroup n x).groups = fset s.groups n x := rfl
@[simp] theorem State.setGrid_grids (s : State) (n : Nat) (x : Grid) : (s.setGrid n x).grids = fset s.grids n x := rfl
@[simp] theorem State.setMgmt_mgmt (s : State) (m : Mgmt) : (s.setMgmt m).mgmt = m := rfl
@[simp] theorem State.send_out (s : State) (m : OutMsg) : (s.send m).out = s.out ++ [m] := rfl

theorem State.ctx_setCtx (s : State) (c k : Nat) (x : Ctx) : (s.setCtx c x).ctx k = if k = c then x else s.ctx k :=
  sget_sset _ _ _ _ _

@[simp] theorem State.ctx_setCtx_self (s : State) (c : Nat) (x : Ctx) : (s.setCtx c x).ctx c = x := by
  simp [State.ctx_setCtx]

@[simp] theorem State.setGroup_ctx (s : State) (n c : Nat) (x : Group) : (s.setGroup n x).ctx c = s.ctx c := rfl
@[simp] theorem State.setTeam_ctx (s : State) (n c : Nat) (x : Team) : (s.setTeam n x).ctx c = s.ctx c := rfl
@[simp] theorem State.setGrid_ctx (s : State) (n c : Nat) (x : Grid) : (s.setGrid n x).ctx c = s.ctx c := rfl

theorem fset_fset {α : Type} (m : FMap α) (k : Nat) (a b : α) : fset (fset m k a) k b = fset m k b := by
  induction m with
  | nil => simp [fset]
  | cons e m ih =>
    obtain ⟨j, w⟩ := e
    by_cases h1 : k < j
    · simp [fset, h1]
    · by_cases h2 : j = k
      · simp [fset, h2]
      · simp [fset, h1, h2, ih]

@[simp] theorem State.setGroup_setGroup (s : State) (n : Nat) (x y : Group) :
    (s.setGroup n x).setGroup n y = s.setGroup n y := by
  simp [State.setGroup, fset_fset]

@[simp] theorem State.setTeam_setTeam (s : State) (n : Nat) (x y : Team) : (s.setTeam n x).setTeam n y = s.setTeam n y := by
  simp [State.setTeam, fset_fset]

@[simp] theorem State.modGroup_setGroup (s : State) (n : Nat) (x : Group) (f : Group → Group) :
    (s.setGroup n x).modGroup n f = s.setGroup n (f x) := by
  simp [State.modGroup, fget_fset_self]

@[simp] theorem State.modTeam_setTeam (s : State) (n : Nat) (x : Team) (f : Team → Team) :
    (s.setTeam n x).modTeam n f = s.setTeam n (f x) := by
  simp [State.modTeam, fget_fset_self]

end Sys2Proof.Machine
end

