-- ==== Sys2Proof/Laws/Issue.lean ====
section
/-! SUPPORT. What issuing does, said once: the view, the checks, and the shapes in which an instruction's effect enters
its group. -/
namespace Sys2Proof.Machine

/-- What a view says of its state. -/
theorem State.viewOf_some {s : State} {gid sid : Nat} {v : View} (h : s.viewOf gid sid = some v) :
    v.gid = gid ∧ v.sid = sid ∧ fget s.groups gid = some v.g ∧ fget v.g.splits sid = some v.sp ∧ v.tid = v.g.tid ∧
      fget s.teams v.g.tid = some v.tm ∧ fget s.grids v.tm.grid = some v.gr ∧ v.c = v.gr.ctx := by
  unfold State.viewOf at h
  split at h
  · cases h
  · rename_i g hg
    split at h
    · rename_i sp tm hsp htm
      split at h
      · rename_i gr hgr
        cases h
        exact ⟨rfl, rfl, hg, hsp, rfl, htm, hgr, rfl⟩
      · cases h
    · cases h

theorem State.view?_some {s : State} {v : View} (h : s.view? = some v) :
    s.cur = some (v.gid, v.sid) ∧ fget s.groups v.gid = some v.g ∧ fget v.g.splits v.sid = some v.sp ∧ v.tid = v.g.tid ∧
      fget s.teams v.g.tid = some v.tm ∧ fget s.grids v.tm.grid = some v.gr ∧ v.c = v.gr.ctx := by
  unfold State.view? at h
  split at h
  · rename_i gid sid hc
    obtain ⟨rfl, rfl, h⟩ := State.viewOf_some h
    exact ⟨hc, h⟩
  · cases h

/-- The view after the group of the issuing split has been replaced. -/
theorem State.view?_setGroup {s : State} {v : View} (h : s.view? = some v) (g : Group) (sp : Split)
    (hsp : fget g.splits v.sid = some sp) (ht : g.tid = v.g.tid) :
    (s.setGroup v.gid g).view? = some { v with g := g, sp := sp, tid := g.tid } := by
  obtain ⟨hc, hg, hs, htid, htm, hgr, hctx⟩ := State.view?_some h
  simp [State.view?, hc, State.viewOf, fget_fset_self, hsp, ht, htm, hgr, hctx]

@[simp] theorem View.begun_gid (v : View) (i : Instr) : (v.begun i).gid = v.gid := rfl
@[simp] theorem View.begun_sid (v : View) (i : Instr) : (v.begun i).sid = v.sid := rfl
@[simp] theorem View.begun_sp (v : View) (i : Instr) : (v.begun i).sp = v.issued i := rfl
@[simp] theorem View.begun_g (v : View) (i : Instr) : (v.begun i).g = v.with (v.issued i) := rfl
@[simp] theorem View.begun_tid (v : View) (i : Instr) : (v.begun i).tid = v.tid := rfl
@[simp] theorem View.begun_tm (v : View) (i : Instr) : (v.begun i).tm = v.tm := rfl
@[simp] theorem View.begun_gr (v : View) (i : Instr) : (v.begun i).gr = v.gr := rfl
@[simp] theorem View.begun_c (v : View) (i : Instr) : (v.begun i).c = v.c := rfl
@[simp] theorem View.issued_mask (v : View) (i : Instr) : (v.issued i).mask = v.sp.mask := rfl
@[simp] theorem View.issued_mode (v : View) (i : Instr) : (v.issued i).mode = v.sp.mode := rfl
@[simp] theorem View.issued_pc (v : View) (i : Instr) : (v.issued i).pc = v.sp.pc := rfl
@[simp] theorem View.issued_tdepth (v : View) (i : Instr) : (v.issued i).tdepth = v.sp.tdepth := rfl
@[simp] theorem View.issued_loop (v : View) (i : Instr) : (v.issued i).loop = v.sp.loop := rfl
@[simp] theorem View.issued_lv (v : View) (i : Instr) : (v.issued i).lv = v.sp.lv := rfl
@[simp] theorem View.issued_place (v : View) (i : Instr) : (v.issued i).place = v.sp.place := rfl
@[simp] theorem View.issued_ct (v : View) (i : Instr) : (v.issued i).ct = v.sp.ct := rfl
@[simp] theorem View.issued_cd (v : View) (i : Instr) : (v.issued i).cd = v.sp.cd := rfl
@[simp] theorem View.issued_cg (v : View) (i : Instr) : (v.issued i).cg = v.sp.cg := rfl
@[simp] theorem View.with_rd (v : View) (sp : Split) (r l : Nat) : (v.with sp).rd r l = v.g.rd r l := rfl
@[simp] theorem View.with_rdN (v : View) (sp : Split) (r n l : Nat) : (v.with sp).rdN r n l = v.g.rdN r n l := rfl
@[simp] theorem View.with_rdT (v : View) (sp : Split) (t : ElemTy) (r l : Nat) : (v.with sp).rdT t r l = v.g.rdT t r l := rfl
@[simp] theorem View.with_rd64 (v : View) (sp : Split) (r l : Nat) : (v.with sp).rd64 r l = v.g.rd64 r l := rfl
@[simp] theorem View.begun_part (v : View) (i : Instr) (h : Hdr) : (v.begun i).part h = v.part h := rfl
@[simp] theorem View.begun_lid (v : View) (i : Instr) : (v.begun i).lid = v.lid := rfl
@[simp] theorem View.begun_user (v : View) (i : Instr) : (v.begun i).user = v.user := rfl
@[simp] theorem View.begun_ea (v : View) (i : Instr) (m : FM) (x l : Nat) : (v.begun i).ea m x l = v.ea m x l := rfl
@[simp] theorem View.begun_who (v : View) (i : Instr) (l : Nat) : (v.begun i).who l = v.who l := rfl

/-- What issuing does when every check passes: the instruction's own effect, on the group as it issues. -/
theorem issue_ready {i : Instr} {s : State} {v : View} (h : Ready i s v) (body : State → View → State) :
    issue i s body = .next (body (s.setGroup v.gid (v.with (v.issued i))) (v.begun i)) := by
  obtain ⟨hv, hwf, hm, hu, hs, hmx, hsync⟩ := h
  obtain ⟨hc, hg, hsp, htid, htm, hgr, hctx⟩ := State.view?_some hv
  have hpre : v.precheck i = none := by
    have h1 : (v.uses i).any (fun u => !u.ok v.g.nregs v.g.ntiles v.gr.nhandles) = false := by
      rw [List.any_eq_false]; intro u hu'; simp [hu u hu']
    have h3 : (v.uses i).findSome? (v.unsync i) = none := List.findSome?_eq_none_iff.mpr hsync
    simpa [View.precheck, hwf, hm, h1, hs, h3] using hmx
  have hb : s.begin v i = s.setGroup v.gid (v.with (v.issued i)) := by
    simp [State.begin, State.modGroup, hg, View.with, Group.setSplit, View.issued]
  have hview : (s.setGroup v.gid (v.with (v.issued i))).view? = some (v.begun i) := by
    rw [State.view?_setGroup hv (v.with (v.issued i)) (v.issued i) (fget_fset_self _ _ _) rfl]
    simp [View.begun, View.with, htid]
  simp [issue, issueE, hv, hpre, hb, hview]

/-- An early check that passes leaves the same. -/
theorem issueE_ready {i : Instr} {s : State} {v : View} (h : Ready i s v) (early : State → View → Option TrapInfo)
    (he : early s v = none) (body : State → View → State) :
    issueE i s early body = .next (body (s.setGroup v.gid (v.with (v.issued i))) (v.begun i)) := by
  have := issue_ready h body
  simpa [issue, issueE, h.1, he] using this

/-- A change of the issuing split, of a group that holds it. -/
@[simp] theorem State.modSplit_setGroup (s : State) (n sid : Nat) (g : Group) (f : Split → Split) (sp : Split)
    (h : fget g.splits sid = some sp) : (s.setGroup n g).modSplit n sid f = s.setGroup n (g.setSplit sid (f sp)) := by
  simp [State.modSplit, h]

@[simp] theorem View.with_splits (v : View) (sp : Split) : fget (v.with sp).splits v.sid = some sp := fget_fset_self _ _ _

@[simp] theorem View.with_setSplit (v : View) (sp sp' : Split) : (v.with sp).setSplit v.sid sp' = v.with sp' := by
  simp [View.with, Group.setSplit, fset_fset]

/-- Retiring. -/
theorem State.retire_begun (s : State) (v : View) (i : Instr) :
    (s.setGroup v.gid (v.with (v.issued i))).retire (v.begun i) = s.setGroup v.gid (v.retired i) := by
  simp [State.retire, View.retired]

/-! Register writes. -/

theorem Group.apply_cons (g : Group) (w : Nat × Nat × Word) (ws : RegWrites) :
    g.apply (w :: ws) = (g.wr w.2.1 w.1 w.2.2).apply ws := rfl

theorem Group.rd_wr (g : Group) (r l r' l' : Nat) (w : Word) (hl : l < 32) (hl' : l' < 32) :
    (g.wr r l w).rd r' l' = if r' = r ∧ l' = l ∧ r < 384 then w else g.rd r' l' := by
  unfold Group.wr Group.rd
  by_cases hr : r ≥ 384
  · simp [hr] <;> (intro a b; omega)
  · simp only [hr, if_false]
    by_cases hr' : r' ≥ 384
    · simp [hr'] <;> (intro a b; omega)
    · simp only [hr', if_false, sget_sset]
      by_cases he : 32 * r' + l' = 32 * r + l
      · have h1 : r' = r := by omega
        have h2 : l' = l := by omega
        simp [h1, h2]; omega
      · have : ¬ (r' = r ∧ l' = l ∧ r < 384) := by rintro ⟨rfl, rfl, _⟩; exact he rfl
        simp [he, this]

/-- A group differs from another in its registers at most. -/
theorem Group.apply_frame (ws : RegWrites) : ∀ g : Group, g.apply ws = { g with regs := (g.apply ws).regs } := by
  induction ws with
  | nil => intro g; rfl
  | cons w ws ih =>
    intro g
    rw [Group.apply_cons, ih]
    unfold Group.wr
    split <;> rfl

theorem mem_lanes {l : Nat} : l ∈ Sys2Proof.lanes ↔ l < 32 := by simp [Sys2Proof.lanes]

theorem mem_maskLanes {m : LaneMask} {l : Nat} : l ∈ maskLanes m ↔ l < 32 ∧ m.getLsbD l = true := by
  simp [maskLanes, mem_lanes]

/-- What a register holds after writes that target each register of a lane at most once, by what they are. -/
theorem Group.rd_apply (ws : RegWrites) (r l : Nat) (hl : l < 32) (val : Word)
    (hlane : ∀ w ∈ ws, w.1 < 32) (hval : ∀ w ∈ ws, w.1 = l → w.2.1 = r → w.2.2 = val) (hr : r < 384) :
    ∀ g : Group, (g.apply ws).rd r l = if ∃ w ∈ ws, w.1 = l ∧ w.2.1 = r then val else g.rd r l := by
  induction ws with
  | nil => intro g; simp [Group.apply]
  | cons w ws ih =>
    intro g
    rw [Group.apply_cons, ih (fun x hx => hlane x (List.mem_cons_of_mem _ hx)) (fun x hx => hval x (List.mem_cons_of_mem _ hx))]
    by_cases hex : ∃ x ∈ ws, x.1 = l ∧ x.2.1 = r
    · have : ∃ x ∈ w :: ws, x.1 = l ∧ x.2.1 = r := by obtain ⟨x, hx, h⟩ := hex; exact ⟨x, List.mem_cons_of_mem _ hx, h⟩
      simp only [hex, this, if_true]
    · simp only [hex, if_false]
      rw [Group.rd_wr _ _ _ _ _ _ (hlane w List.mem_cons_self) hl]
      by_cases hw : w.1 = l ∧ w.2.1 = r
      · have h1 : ∃ x ∈ w :: ws, x.1 = l ∧ x.2.1 = r := ⟨w, List.mem_cons_self, hw⟩
        have h2 : r = w.2.1 ∧ l = w.1 ∧ w.2.1 < 384 := ⟨hw.2.symm, hw.1.symm, by omega⟩
        rw [if_pos h1, if_pos h2]
        exact hval w List.mem_cons_self hw.1 hw.2
      · have h1 : ¬ ∃ x ∈ w :: ws, x.1 = l ∧ x.2.1 = r := by
          rintro ⟨x, hx, h⟩
          rcases List.mem_cons.mp hx with rfl | hx
          · exact hw h
          · exact hex ⟨x, hx, h⟩
        have h2 : ¬ (r = w.2.1 ∧ l = w.1 ∧ w.2.1 < 384) := by rintro ⟨a, b, _⟩; exact hw ⟨b.symm, a.symm⟩
        simp only [h1, h2, if_false]

theorem mem_writesN {l r n v : Nat} {w : Nat × Nat × Word} :
    w ∈ writesN l r n v ↔ r < 384 ∧ ∃ i < n, w = (l, r + i, BitVec.ofNat 32 (v / 2 ^ (32 * i))) := by
  unfold writesN
  split
  · simp; omega
  · simp only [List.mem_map, List.mem_range]
    constructor
    · rintro ⟨i, hi, rfl⟩; exact ⟨by omega, i, hi, rfl⟩
    · rintro ⟨_, i, hi, rfl⟩; exact ⟨i, hi, rfl⟩

theorem mem_laneWrites {p : LaneMask} {d n : Nat} {val : Nat → Nat} {w : Nat × Nat × Word} :
    w ∈ laneWrites p d n val ↔ w.1 < 32 ∧ p.getLsbD w.1 = true ∧ d < 384 ∧ d ≤ w.2.1 ∧ w.2.1 < d + n ∧
      w.2.2 = BitVec.ofNat 32 (val w.1 / 2 ^ (32 * (w.2.1 - d))) := by
  unfold laneWrites
  simp only [List.mem_flatMap, mem_maskLanes, mem_writesN]
  constructor
  · rintro ⟨l, ⟨hl, hp⟩, hd, i, hi, rfl⟩
    exact ⟨hl, hp, hd, by simp, by simpa using hi, by simp⟩
  · obtain ⟨l, r, x⟩ := w
    rintro ⟨hl, hp, hd, h1, h2, h3⟩
    refine ⟨l, ⟨hl, hp⟩, hd, r - d, by simp at h1 h2; omega, ?_⟩
    simp at h1 h3
    simp [h3]; omega

/-- The registers after a lane-wise result. -/
theorem View.rd_laneWrites (v : View) (g : Group) (hg : ∀ r l, g.rd r l = v.g.rd r l) (p : LaneMask) (d n : Nat)
    (val : Nat → Nat) (r l : Nat) (hl : l < 32) : (g.apply (laneWrites p d n val)).rd r l = v.after p d n val r l := by
  unfold View.after
  by_cases hr : r < 384
  · rw [Group.rd_apply _ r l hl (BitVec.ofNat 32 (val l / 2 ^ (32 * (r - d))))
      (fun w hw => (mem_laneWrites.mp hw).1) (fun w hw h1 h2 => by rw [(mem_laneWrites.mp hw).2.2.2.2.2, h1, h2]) hr, hg]
    congr 1
    apply propext
    constructor
    · rintro ⟨w, hw, rfl, rfl⟩
      obtain ⟨_, hp, _, h1, h2, _⟩ := mem_laneWrites.mp hw
      exact ⟨hp, h1, h2, hr⟩
    · rintro ⟨hp, h1, h2, _⟩
      exact ⟨(l, r, BitVec.ofNat 32 (val l / 2 ^ (32 * (r - d)))), mem_laneWrites.mpr ⟨hl, hp, by omega, h1, h2, rfl⟩, rfl, rfl⟩
  · have h1 : ∀ g' : Group, g'.rd r l = 0 := by intro g'; unfold Group.rd; simp [show r ≥ 384 by omega]
    rw [h1]
    split
    · omega
    · exact (h1 _).symm

/-- A result that lane by lane is n registers from d up and flags. -/
theorem gather_lanes (p : LaneMask) (d n : Nat) (val : Nat → Nat) (fl : Nat → FFlags) (f : Nat → RegWrites × FFlags)
    (hf : ∀ l, f l = (writesN l d n (val l), fl l)) : gather p f = (laneWrites p d n val, flagsOf p fl) := by
  unfold gather laneWrites flagsOf
  induction maskLanes p with
  | nil => rfl
  | cons l ls ih => rw [List.foldr_cons, ih]; simp [hf]

/-! Sticky flags. -/

theorem Group.stickyEvent_set (g : Group) (lid : Option Nat) (sid seq : Nat) (m : Word) :
    (g.stickyEvent lid ⟨sid, seq, true, m⟩).sticky = (if lid = none then g.sticky ||| m else g.sticky) ∧
      (∀ k, fget (g.stickyEvent lid ⟨sid, seq, true, m⟩).levels k =
        (fget g.levels k).map (fun lv => if lid = some k then { lv with hflags := lv.hflags ||| m } else lv)) ∧
      g.stickyEvent lid ⟨sid, seq, true, m⟩ =
        { g with sticky := (g.stickyEvent lid ⟨sid, seq, true, m⟩).sticky
                 stickyBase := (g.stickyEvent lid ⟨sid, seq, true, m⟩).stickyBase
                 stickyLog := (g.stickyEvent lid ⟨sid, seq, true, m⟩).stickyLog
                 levels := (g.stickyEvent lid ⟨sid, seq, true, m⟩).levels } := by
  cases lid with
  | none =>
    unfold Group.stickyEvent
    by_cases h : g.anyWindow = true
    · simp [h, replaySticky]
    · simp [h, replaySticky]
  | some n =>
    cases h : fget g.levels n with
    | none =>
      have e : g.stickyEvent (some n) ⟨sid, seq, true, m⟩ = g := by simp [Group.stickyEvent, h]
      rw [e]
      refine ⟨by simp, fun k => ?_, rfl⟩
      by_cases hk : n = k
      · subst hk; simp [h]
      · cases fget g.levels k <;> simp [hk]
    | some lv =>
      have e : g.stickyEvent (some n) ⟨sid, seq, true, m⟩ =
          { g with levels := fset g.levels n { lv with hflags := lv.hflags ||| m } } := by
        simp [Group.stickyEvent, h, replaySticky]
      rw [e]
      refine ⟨by simp, fun k => ?_, rfl⟩
      simp only [fget_fset]
      by_cases hk : k = n
      · subst hk; simp [h]
      · cases fget g.levels k <;> simp [hk, Ne.symm hk]

/-- Flags taken up. -/
theorem Group.setFlags_spec (v : View) (g : Group) (hs : g.sticky = v.g.sticky) (hl : g.levels = v.g.levels) (sid : Nat)
    (f : FFlags) : v.Flagged f (g.setFlags v.lid sid f) ∧
      g.setFlags v.lid sid f = { g with
        sticky := (g.setFlags v.lid sid f).sticky, stickyBase := (g.setFlags v.lid sid f).stickyBase
        stickyLog := (g.setFlags v.lid sid f).stickyLog, levels := (g.setFlags v.lid sid f).levels } := by
  unfold Group.setFlags View.Flagged
  split
  · subst_vars
    refine ⟨⟨by simp [hs], fun k => ?_⟩, rfl⟩
    rw [hl]
    cases fget v.g.levels k <;> simp
  · obtain ⟨h1, h2, h3⟩ := Group.stickyEvent_set g v.lid sid g.seq (BitVec.setWidth 32 f)
    exact ⟨⟨by rw [h1, hs], fun k => by rw [h2, hl]⟩, h3⟩

/-! The shapes. -/

/-- An instruction that writes registers and flags at once. -/
theorem finish_computes {i : Instr} {s : State} {v : View} (p : LaneMask) (d n : Nat) (val : Nat → Nat) (f : FFlags)
    (he : exec i s = .next ((s.setGroup v.gid (v.with (v.issued i))).finish (v.begun i) (laneWrites p d n val) f)) :
    Computes i s v p d n val f := by
  obtain ⟨h1, h2⟩ := Group.setFlags_spec v ((v.with (v.issued i)).apply (laneWrites p d n val))
    (by rw [Group.apply_frame]; rfl) (by rw [Group.apply_frame]; rfl) v.sid f
  have hf := Group.apply_frame (laneWrites p d n val) (v.with (v.issued i))
  have hrd := View.rd_laneWrites v (v.with (v.issued i)) (fun _ _ => rfl) p d n val
  generalize hA : (v.with (v.issued i)).apply (laneWrites p d n val) = A at h1 h2 hf hrd
  generalize hB : A.setFlags v.lid v.sid f = B at h1 h2
  have hspl : fget B.splits v.sid = some (v.issued i) := by rw [h2, hf]; exact View.with_splits _ _
  refine ⟨B.setSplit v.sid (v.issued i).advance, ?_, fun r l hl => ?_, ?_, ?_⟩
  · rw [Leaves, he]
    simp only [State.finish, View.begun_gid, State.modGroup_setGroup, State.retire, View.begun_lid, View.begun_sid, hA, hB]
    rw [State.modSplit_setGroup _ _ _ _ _ _ hspl]
  · have : (B.setSplit v.sid (v.issued i).advance).rd r l = A.rd r l := by rw [h2]; rfl
    rw [this]; exact hrd r l hl
  · exact h1
  · simp only [Group.setSplit, View.retired, View.with]
    rw [h2, hf]
    simp [View.with, fset_fset]

/-- A result that each participating lane gathers for itself, whatever it reads. -/
theorem gather_computes {i : Instr} {s : State} {v : View} {h : Hdr} (hr : Ready i s v)
    (f : View → Nat → RegWrites × FFlags)
    (he : exec i s = issue i s (fun t w => t.finish w (gather (w.part h) (f w)).1 (gather (w.part h) (f w)).2))
    (d n : Nat) (val : Nat → Nat) (fl : Nat → FFlags) (hf : ∀ l, f (v.begun i) l = (writesN l d n (val l), fl l)) :
    Computes i s v (v.part h) d n val (flagsOf (v.part h) fl) := by
  apply finish_computes
  rw [he, issue_ready hr]
  simp only [View.begun_part]
  rw [gather_lanes _ d n val fl _ hf]

/-- A register-only instruction by its lane-wise result. -/
theorem alu_computes {i : Instr} {s : State} {v : View} {h : Hdr} (hr : Ready i s v) (f : Group → Nat → RegWrites × FFlags)
    (he : exec i s = alu i h s f) (d n : Nat) (val : Nat → Nat) (fl : Nat → FFlags)
    (hf : ∀ l, f (v.with (v.issued i)) l = (writesN l d n (val l), fl l)) :
    Computes i s v (v.part h) d n val (flagsOf (v.part h) fl) :=
  gather_computes hr (fun w => f w.g) he d n val fl hf

/-- Flags that no lane raises. -/
@[simp] theorem flagsOf_zero (p : LaneMask) : flagsOf p (fun _ => 0#7) = 0#7 := by
  unfold flagsOf
  induction maskLanes p with
  | nil => rfl
  | cons l ls ih => rw [List.foldr_cons, ih]; simp

/-- One flag that some lanes raise. -/
theorem flagsOf_flagIf (p : LaneMask) (c : Nat → Bool) (f : FFlags) :
    flagsOf p (fun l => flagIf (c l) f) = flagWhere p c f := by
  unfold flagsOf flagWhere flagIf
  induction maskLanes p with
  | nil => rfl
  | cons l ls ih =>
    rw [List.foldr_cons, ih]
    cases hc : c l <;> cases ha : ls.any c <;> simp [hc, ha]

/-- A result that comes later. -/
theorem State.defer_begun (s : State) (v : View) (i : Instr) (p : Pending) :
    (s.setGroup v.gid (v.with (v.issued i))).defer (v.begun i) p = s.setGroup v.gid (v.pends i p) := by
  unfold State.defer View.pends
  by_cases hflag : p.flag = 15 <;>
    simp [State.retire, State.modSplit, View.with, Group.setSplit, fset_fset, fget_fset_self, hflag]

/-- A long-latency instruction by its writes. -/
theorem State.deferRegs_begun (s : State) (v : View) (i : Instr) (flag : Nat) (ws : RegWrites) (f : FFlags) :
    (s.setGroup v.gid (v.with (v.issued i))).deferRegs (v.begun i) flag ws f = s.setGroup v.gid (v.owing i flag ws f) := by
  unfold State.deferRegs View.owing
  split
  · exact State.retire_begun s v i
  · exact State.defer_begun s v i _

theorem aluLong_owes {i : Instr} {s : State} {v : View} {h : Hdr} (hr : Ready i s v) (f : View → Nat → RegWrites × FFlags)
    (he : exec i s = aluLong i h s f) (d n : Nat) (val : Nat → Nat) (fl : Nat → FFlags)
    (hf : ∀ l, f (v.begun i) l = (writesN l d n (val l), fl l)) :
    Leaves i s v (v.owing i h.sflag (laneWrites (v.part h) d n val) (flagsOf (v.part h) fl)) := by
  rw [Leaves, he, aluLong, issue_ready hr]
  simp only [View.begun_part]
  rw [gather_lanes _ d n val fl _ hf, State.deferRegs_begun]

end Sys2Proof.Machine
end

