-- ==== Sys2Proof/Laws/Memory.lean ====
section
/-! SUPPORT. Laws of memory: what each operation may change, that each keeps the canonical forms, and reading after
writing. -/
namespace Sys2Proof.Machine

/-! Replacing one component keeps the invariant. -/

theorem State.Inv.setCtx {s : State} (h : s.Inv) (c : Nat) (x : Ctx) : (s.setCtx c x).Inv := by
  obtain ⟨hm, ⟨hc, hr⟩, hp⟩ := h
  exact ⟨hm, ⟨swf_sset _ _ _ _ hc, hr⟩, hp⟩

theorem State.Inv.setTeam {s : State} (h : s.Inv) (n : Nat) (x : Team) : (s.setTeam n x).Inv := by
  obtain ⟨hm, ⟨hc, hs, hg, ht, hgr⟩, hp⟩ := h
  exact ⟨hm, ⟨hc, hs, hg, fwf_fset _ _ _ ht, hgr⟩, hp⟩

theorem State.Inv.setGroup {s : State} (h : s.Inv) (n : Nat) (x : Group) : (s.setGroup n x).Inv := by
  obtain ⟨hm, ⟨hc, hs, hg, ht, hgr⟩, hp⟩ := h
  exact ⟨hm, ⟨hc, hs, hg, ht, fwf_fset _ _ _ hgr⟩, hp⟩

theorem State.Inv.setGrid {s : State} (h : s.Inv) (n : Nat) (x : Grid) : (s.setGrid n x).Inv := by
  obtain ⟨hm, ⟨hc, hs, hg, ht, hgr⟩, hp⟩ := h
  exact ⟨hm, ⟨hc, hs, fwf_fset _ _ _ hg, ht, hgr⟩, hp⟩

theorem State.Inv.modGroup {s : State} (h : s.Inv) (n : Nat) (f : Group → Group) : (s.modGroup n f).Inv := by
  unfold State.modGroup
  split
  · exact h.setGroup _ _
  · exact h

theorem State.Inv.modTeam {s : State} (h : s.Inv) (n : Nat) (f : Team → Team) : (s.modTeam n f).Inv := by
  unfold State.modTeam
  split
  · exact h.setTeam _ _
  · exact h

theorem State.Inv.send {s : State} (h : s.Inv) (m : OutMsg) : (s.send m).Inv := h

theorem State.Inv.fill {s : State} (h : s.Inv) (e : TlbEntry) : (s.fill e).Inv := by
  unfold State.fill
  split <;> exact h

/-- A fold of steps that each keep the invariant keeps it. -/
theorem State.Inv.foldl {β : Type} {f : State → β → State} (hf : ∀ s x, s.Inv → (f s x).Inv) :
    ∀ (xs : List β) {s : State}, s.Inv → (xs.foldl f s).Inv
  | [], _, h => h
  | x :: xs, _, h => State.Inv.foldl hf xs (hf _ x h)

theorem State.Inv.fills {s : State} (h : s.Inv) (es : List TlbEntry) : (s.fills es).Inv :=
  State.Inv.foldl (fun _ e h => h.fill e) es h

/-! Writes of device memory. -/

theorem fwf_foldl_fset {α β : Type} (xs : List β) (key : β → Nat) (val : β → α) :
    ∀ m, fwf m = true → fwf (xs.foldl (fun m x => fset m (key x) (val x)) m) = true := by
  induction xs with
  | nil => intro m h; exact h
  | cons x xs ih => intro m h; exact ih _ (fwf_fset m _ _ h)

/-- Memory and key tags replaced by canonical ones. -/
theorem State.Inv.withMem {s : State} (h : s.Inv) {m : List Host.Cell} {k : FMap Key} (hm : Memory.wf m = true)
    (hk : fwf k = true) : ({ s with mem := m, ktag := k } : State).Inv :=
  ⟨⟨hm, hk, h.1.2.2⟩, h.2⟩

theorem State.Inv.putRaw {s : State} (h : s.Inv) (k : Key) (a : Nat) (bs : List Byte) : (s.putRaw k a bs).Inv :=
  h.withMem (swf_foldl_sset _ _ _ _ _ h.1.1) (fwf_foldl_fset _ _ _ _ h.1.2.1)

theorem State.cachedWith_wf {s : State} (h : swf false s.cache = true) (line : Nat) : swf false (s.cachedWith line) = true := by
  have hset : ∀ m : FMap Bool, swf false m = true → swf false (fset m line true) = true :=
    fun m hm => swf_sset false m line true hm
  unfold State.cachedWith
  split
  · exact h
  · refine hset _ ?_
    split
    · exact h
    · rw [fdel_eq_filter]
      exact swf_filter _ _ _ h

theorem State.Inv.cacheLine {s : State} (h : s.Inv) (line : Nat) : (s.cacheLine line).Inv := by
  obtain ⟨⟨hm, hk, hp, hw, hc⟩, hr⟩ := h
  exact ⟨⟨hm, hk, hp, hw, State.cachedWith_wf hc line⟩, hr⟩

theorem State.Inv.rekey {s : State} (h : s.Inv) (k : Key) (line : Nat) : (s.rekey k line).Inv := by
  unfold State.rekey
  refine State.Inv.cacheLine ?_ _
  split
  · exact h
  · exact h.putRaw _ _ _

theorem State.Inv.putBytes {s : State} (h : s.Inv) (k : Key) (a : Nat) (bs : List Byte) : (s.putBytes k a bs).Inv := by
  have hp := h.rekey k (a / 64)
  exact hp.withMem (swf_foldl_sset _ _ _ _ _ hp.1.1) hp.1.2.1

theorem State.Inv.zeroLine {s : State} (h : s.Inv) (k : Key) (line : Nat) : (s.zeroLine k line).Inv := by
  unfold State.zeroLine
  refine State.Inv.cacheLine ?_ _
  have hu := State.Inv.foldl (f := fun (t : State) (e : Nat × Ctx) => if e.2.pendingAt line
      then t.setCtx e.1 { e.2 with scrub := e.2.scrub.flatMap (lessRange (64 * line, 64 * line + 64)) } else t)
    (fun t e ht => by
      dsimp only
      split
      · exact ht.setCtx _ _
      · exact ht) s.ctxs h
  exact hu.withMem (swf_fdelRange _ _ _ _ hu.1.1) (fwf_fset _ _ _ hu.1.2.1)

theorem State.Inv.unscrub {s : State} (h : s.Inv) (k : Key) (line : Nat) : (s.unscrub k line).Inv := by
  unfold State.unscrub
  refine State.Inv.foldl (fun t e ht => ht.putBytes _ _ _) _ (State.Inv.foldl (fun t l ht => ?_) _ h)
  split
  · exact ht.zeroLine _ _
  · exact ht

theorem State.Inv.prepLine {s : State} (h : s.Inv) (k : Key) (line : Nat) : (s.prepLine k line).Inv := by
  unfold State.prepLine
  split
  · exact h.unscrub _ _
  · exact h.rekey _ _

theorem State.Inv.readLine {s : State} (h : s.Inv) (k : Key) (line : Nat) : (s.readLine k line).Inv := by
  unfold State.readLine
  split
  · exact h.prepLine _ _
  · exact h

theorem State.Inv.seen {s : State} (h : s.Inv) (c : Nat) (as : List Nat) : (s.seen c as).Inv :=
  State.Inv.foldl (fun _ _ ht => ht.readLine _ _) as h

theorem State.Inv.readLocs {s : State} (h : s.Inv) (c : Nat) (ls : List Loc) : (s.readLocs c ls).Inv := h.seen _ _

theorem State.Inv.walked {s : State} (h : s.Inv) (c code va ipa : Nat) : (s.walked c code va ipa).Inv := by
  unfold State.walked
  split
  · exact h.seen _ _
  · split
    · exact h.seen _ _
    · exact h

theorem State.Inv.writeByte {s : State} (h : s.Inv) (k : Key) (a : Nat) (b : Byte) : (s.writeByte k a b).Inv :=
  have hp := h.prepLine k (a / 64)
  hp.withMem (swf_sset _ _ _ _ hp.1.1) hp.1.2.1

theorem State.Inv.writeBytes (k : Key) : ∀ (bs : List Byte) {s : State} (a : Nat), s.Inv → (s.writeBytes k a bs).Inv
  | [], _, _, h => h
  | _ :: bs, _, a, h => State.Inv.writeBytes k bs (a + 1) (h.writeByte k a _)

theorem State.Inv.syncStage {s : State} (h : s.Inv) (c : Nat) : (s.syncStage c).Inv :=
  State.Inv.writeBytes _ _ _ (State.Inv.writeBytes _ _ _ h)

theorem State.Inv.savePage {s : State} (h : s.Inv) (c ipn dpa : Nat) : (s.savePage c ipn dpa).Inv := by
  unfold State.savePage
  dsimp only
  split
  · exact (h.setCtx _ _).syncStage c
  · exact ((State.Inv.writeBytes _ _ _ (State.Inv.writeBytes _ _ _ (h.seen _ _))).setCtx _ _).syncStage c

theorem State.Inv.markDirty {s : State} (h : s.Inv) (c ipn dpa : Nat) : (s.markDirty c ipn dpa).Inv := by
  unfold State.markDirty
  dsimp only
  split
  · split
    · exact h
    · exact (h.setCtx _ _).syncStage c
  · have h0 := h.seen c [(s.ctx c).stage.mapByte ipn]
    split
    · exact h0
    · have h1 := h0.savePage c ipn dpa
      split <;> split
      · exact h1.writeByte _ _ _
      · exact h0.writeByte _ _ _
      · exact h1
      · exact h0

theorem State.Inv.writeLoc {s : State} (h : s.Inv) (c ipn : Nat) (l : Loc) (b : Byte) : (s.writeLoc c ipn l b).Inv := by
  cases l with
  | dram a => exact (h.markDirty c ipn a).writeByte _ _ _
  | spad t a =>
    simp only [State.writeLoc]
    split
    · exact h.setTeam _ _
    · exact h
  | peer a => exact h
  | host a => exact h

theorem State.Inv.writeLocs (c ipn : Nat) : ∀ (bs : List (Loc × Byte)) {s : State}, s.Inv → (s.writeLocs c ipn bs).Inv
  | [], _, h => h
  | (l, b) :: bs, _, h => State.Inv.writeLocs c ipn bs (h.writeLoc c ipn l b)

theorem State.Inv.landWrites {s : State} (h : s.Inv) (c : Nat) (ws : List (Nat × Loc × Byte)) : (s.landWrites c ws).Inv :=
  State.Inv.foldl (fun _ _ ht => ht.writeLoc _ _ _ _) ws h

theorem State.Inv.copyLine {s : State} (h : s.Inv) (c src dst : Nat) : (s.copyLine c src dst).Inv := by
  unfold State.copyLine
  refine State.Inv.cacheLine ?_ _
  have h0 := h.readLine (s.keyAt c (64 * src)) src
  have h1 : (if (s.readLine (s.keyAt c (64 * src)) src).scrubPending (64 * dst) then
      (s.readLine (s.keyAt c (64 * src)) src).unscrub (s.keyAt c (64 * dst)) dst
      else s.readLine (s.keyAt c (64 * src)) src).Inv := by
    split
    · exact h0.unscrub _ _
    · exact h0
  have hk : ∀ (m : FMap Key) (b : Bool) (k : Key), fwf m = true → fwf (if b = true then fset m dst k else fdel m dst) = true := by
    intro m b k hm
    split
    · exact fwf_fset _ _ _ hm
    · exact fwf_fdel _ _ hm
  exact h1.withMem (swf_foldl_sset _ _ _ _ _ h1.1.1) (hk _ _ _ h1.1.2.1)

/-- Marks of private bytes that have been written. -/
theorem State.Inv.markPriv {s : State} (h : s.Inv) (k n : Nat) : (s.markPriv k n).Inv :=
  ⟨⟨h.1.1, h.1.2.1, swf_foldl_sset false (List.range n) (fun i => k + i) (fun _ => true) s.priv h.1.2.2.1, h.1.2.2.2⟩, h.2⟩

/-! What a write may change. -/

/-- A state that differs in memory, key tags, contexts and cached lines at most. -/
abbrev State.MemFrame (s u : State) : Prop := ∃ m t c q, u = { s with mem := m, ktag := t, ctxs := c, cache := q }

theorem State.MemFrame.refl (s : State) : s.MemFrame s := ⟨_, _, _, _, rfl⟩

theorem State.MemFrame.trans {s u w : State} : s.MemFrame u → u.MemFrame w → s.MemFrame w := by
  rintro ⟨m, t, c, q, rfl⟩ ⟨m', t', c', q', rfl⟩
  exact ⟨_, _, _, _, rfl⟩

theorem State.putRaw_frame (s : State) (k : Key) (a : Nat) (bs : List Byte) : s.MemFrame (s.putRaw k a bs) := ⟨_, _, _, _, rfl⟩

/-- Steps of a fold that each change memory, key tags, contexts and cached lines at most. -/
theorem foldl_memFrame {β : Type} {f : State → β → State} (hf : ∀ (s : State) (x : β), s.MemFrame (f s x)) :
    ∀ (xs : List β) (s : State), s.MemFrame (xs.foldl f s)
  | [], s => .refl s
  | x :: xs, s => (hf s x).trans (foldl_memFrame hf xs (f s x))

theorem State.rekey_frame (s : State) (k : Key) (line : Nat) : s.MemFrame (s.rekey k line) := by
  unfold State.rekey
  split <;> exact ⟨_, _, _, _, rfl⟩

theorem State.putBytes_frame (s : State) (k : Key) (a : Nat) (bs : List Byte) : s.MemFrame (s.putBytes k a bs) :=
  (s.rekey_frame k (a / 64)).trans ⟨_, _, _, _, rfl⟩

theorem State.zeroLine_frame (s : State) (k : Key) (line : Nat) : s.MemFrame (s.zeroLine k line) :=
  (foldl_memFrame (f := fun (t : State) (e : Nat × Ctx) => if e.2.pendingAt line
      then t.setCtx e.1 { e.2 with scrub := e.2.scrub.flatMap (lessRange (64 * line, 64 * line + 64)) } else t)
    (fun t e => by
      dsimp only
      split <;> exact ⟨_, _, _, _, rfl⟩) s.ctxs s).trans ⟨_, _, _, _, rfl⟩

theorem State.unscrub_frame (s : State) (k : Key) (line : Nat) : s.MemFrame (s.unscrub k line) := by
  unfold State.unscrub
  refine State.MemFrame.trans (foldl_memFrame (fun t l => ?_) _ s) (foldl_memFrame (fun t e => t.putBytes_frame _ _ _) _ _)
  split
  · exact t.zeroLine_frame _ _
  · exact .refl t

theorem State.prepLine_frame (s : State) (k : Key) (line : Nat) : s.MemFrame (s.prepLine k line) := by
  unfold State.prepLine
  split
  · exact s.unscrub_frame k line
  · exact s.rekey_frame k line

theorem State.readLine_frame (s : State) (k : Key) (line : Nat) : s.MemFrame (s.readLine k line) := by
  unfold State.readLine
  split
  · exact s.prepLine_frame k line
  · exact .refl s

/-- Reading changes memory, key tags, scrub lists and the cache at most. -/
theorem State.seen_frame (s : State) (c : Nat) (as : List Nat) : s.MemFrame (s.seen c as) :=
  foldl_memFrame (fun t _ => t.readLine_frame _ _) as s

theorem State.readLocs_frame (s : State) (c : Nat) (ls : List Loc) : s.MemFrame (s.readLocs c ls) := s.seen_frame c _

theorem State.walked_frame (s : State) (c code va ipa : Nat) : s.MemFrame (s.walked c code va ipa) := by
  unfold State.walked
  split
  · exact s.seen_frame c _
  · split
    · exact s.seen_frame c _
    · exact .refl s

theorem State.writeByte_frame (s : State) (k : Key) (a : Nat) (b : Byte) : s.MemFrame (s.writeByte k a b) :=
  (s.prepLine_frame k (a / 64)).trans ⟨_, _, _, _, rfl⟩

theorem State.writeBytes_frame (k : Key) : ∀ (bs : List Byte) (s : State) (a : Nat), s.MemFrame (s.writeBytes k a bs)
  | [], s, _ => .refl s
  | b :: bs, s, a => (s.writeByte_frame k a b).trans (State.writeBytes_frame k bs (s.writeByte k a b) (a + 1))

theorem State.syncStage_frame (s : State) (c : Nat) : s.MemFrame (s.syncStage c) :=
  (State.writeBytes_frame _ _ _ _).trans (State.writeBytes_frame _ _ _ _)

theorem State.savePage_frame (s : State) (c ipn dpa : Nat) : s.MemFrame (s.savePage c ipn dpa) := by
  unfold State.savePage
  dsimp only
  split
  · exact State.MemFrame.trans ⟨_, _, _, _, rfl⟩ (State.syncStage_frame _ c)
  · exact (s.seen_frame c _).trans ((State.writeBytes_frame _ _ _ _).trans ((State.writeBytes_frame _ _ _ _).trans
      (State.MemFrame.trans ⟨_, _, _, _, rfl⟩ (State.syncStage_frame _ c))))

theorem State.markDirty_frame (s : State) (c ipn dpa : Nat) : s.MemFrame (s.markDirty c ipn dpa) := by
  unfold State.markDirty
  dsimp only
  split
  · split
    · exact .refl s
    · exact State.MemFrame.trans ⟨_, _, _, _, rfl⟩ (State.syncStage_frame _ c)
  · have h0 := s.seen_frame c [(s.ctx c).stage.mapByte ipn]
    split
    · exact h0
    · have h1 := h0.trans (State.savePage_frame _ c ipn dpa)
      split <;> split
      · exact h1.trans (State.writeByte_frame _ _ _ _)
      · exact h0.trans (State.writeByte_frame _ _ _ _)
      · exact h1
      · exact h0

/-- A landing of a byte changes memory, key tags, contexts and scratchpads at most. -/
theorem State.writeLoc_frame (s : State) (c ipn : Nat) (l : Loc) (b : Byte) :
    ∃ m t x q y, s.writeLoc c ipn l b = { s with mem := m, ktag := t, ctxs := x, cache := q, teams := y } := by
  cases l with
  | dram a =>
    obtain ⟨m, t, x, q, h⟩ := s.markDirty_frame c ipn a
    obtain ⟨m', t', x', q', h'⟩ := (s.markDirty c ipn a).writeByte_frame ((s.markDirty c ipn a).keyAt c a) a b
    simp only [State.writeLoc]
    rw [h', h]
    exact ⟨_, _, _, _, _, rfl⟩
  | spad t a => simp only [State.writeLoc]; split <;> exact ⟨_, _, _, _, _, rfl⟩
  | peer a => exact ⟨_, _, _, _, _, rfl⟩
  | host a => exact ⟨_, _, _, _, _, rfl⟩

theorem State.writeLocs_frame (c ipn : Nat) : ∀ (bs : List (Loc × Byte)) (s : State),
    ∃ m t x q y, s.writeLocs c ipn bs = { s with mem := m, ktag := t, ctxs := x, cache := q, teams := y }
  | [], _ => ⟨_, _, _, _, _, rfl⟩
  | (l, b) :: bs, s => by
    obtain ⟨m, t, x, q, y, h⟩ := s.writeLoc_frame c ipn l b
    obtain ⟨m', t', x', q', y', h'⟩ := State.writeLocs_frame c ipn bs (s.writeLoc c ipn l b)
    rw [State.writeLocs, h', h]
    exact ⟨_, _, _, _, _, rfl⟩

/-- A key whose line is ready and not to be scrubbed: the line is cached and otherwise left as it is. -/
theorem State.prepLine_ready (s : State) (k : Key) (line : Nat) (hs : s.scrubPending (64 * line) = false)
    (hk : fget s.ktag line = some k) : s.prepLine k line = s.cacheLine line := by
  simp [State.prepLine, State.rekey, hs, hk]

/-- One byte written to a ready line changes that byte of memory, caches the line, and changes nothing else. -/
theorem State.writeByte_ready (s : State) (k : Key) (a : Nat) (b : Byte) (hs : s.scrubPending (64 * (a / 64)) = false)
    (hk : fget s.ktag (a / 64) = some k) :
    s.writeByte k a b = { s with mem := sset 0 s.mem a b, cache := s.cachedWith (a / 64) } := by
  simp [State.writeByte, State.prepLine_ready s k _ hs hk, State.cacheLine]

/-- Lines that are not to be scrubbed: their reading leaves the state as it is. -/
theorem State.seen_clear (s : State) (c : Nat) : ∀ as : List Nat,
    (∀ a ∈ as, s.scrubPending (64 * (a / 64)) = false) → s.seen c as = s
  | [], _ => rfl
  | a :: as, hs => by
    have hl : s.readLine (s.keyAt c a) (a / 64) = s := by simp [State.readLine, hs a List.mem_cons_self]
    have ih := State.seen_clear s c as (fun b hb => hs b (List.mem_cons_of_mem _ hb))
    unfold State.seen at ih ⊢
    rw [List.foldl_cons, hl, ih]

theorem State.readLocs_clear (s : State) (c : Nat) (ls : List Loc)
    (hs : ∀ a, Loc.dram a ∈ ls → s.scrubPending (64 * (a / 64)) = false) : s.readLocs c ls = s := by
  refine s.seen_clear c _ (fun a ha => hs a ?_)
  obtain ⟨l, hl, hx⟩ := List.mem_filterMap.1 ha
  cases l <;> simp_all

/-- Where no context has lines to scrub, nothing is pending and reading leaves the state as it is. -/
theorem State.seen_none (s : State) (c : Nat) (as : List Nat) (h : ∀ e ∈ s.ctxs, e.2.scrub = []) : s.seen c as = s := by
  refine s.seen_clear c as (fun a _ => ?_)
  simp only [State.scrubPending, List.any_eq_false]
  intro e he
  simp [h e he]

theorem State.walked_none (s : State) (c code va ipa : Nat) (h : ∀ e ∈ s.ctxs, e.2.scrub = []) : s.walked c code va ipa = s := by
  unfold State.walked
  split
  · exact s.seen_none c _ h
  · split
    · exact s.seen_none c _ h
    · rfl

/-- A ready line reads as it is stored. -/
theorem State.readByte_ready (s : State) (k : Key) (a : Nat) (hs : s.scrubPending a = false)
    (hk : fget s.ktag (a / 64) = some k) : s.readByte k a = sget 0 s.mem a := by
  simp [State.readByte, hs, hk]

end Sys2Proof.Machine
end

