-- ==== Sys2Proof/Laws/Keep.lean ====
section
/-! SUPPORT. The shared operations of an issue keep the canonical forms: pushes and pops, placing and merging of splits,
taking a trap, retiring, pending results, loads, step stores and landings; and so does an instruction whose own effect
does. -/
namespace Sys2Proof.Machine

theorem State.Inv.setSplit {s : State} (h : s.Inv) (n k : Nat) (sp : Split) : (s.setSplit n k sp).Inv := by
  unfold State.setSplit
  split
  · exact h.setGroup _ _
  · exact h

theorem State.Inv.modSplit {s : State} (h : s.Inv) (n k : Nat) (f : Split → Split) : (s.modSplit n k f).Inv := h.modGroup _ _

theorem State.Inv.touchPc {s : State} (h : s.Inv) (c : Nat) (u : Bool) (pc : Dword) : (s.touchPc c u pc).Inv := by
  unfold State.touchPc
  split
  · exact h.fill _
  · exact h

/-! The split stack. -/

theorem State.Inv.privWrite (mk : Nat → Who) (o : Nat) (bs : Nat → List Byte) : ∀ (ls : List Nat) {s t : State},
    s.Inv → s.privWrite mk o bs ls = .ok t → t.Inv
  | [], _, _, h, e => by cases e; exact h
  | l :: ls, s, t, h, e => by
    simp only [State.privWrite] at e
    split at e
    · cases e
    · exact State.Inv.privWrite mk o bs ls
        (((State.Inv.writeBytes _ _ _ (h.markDirty _ _ _)).fill _).markPriv _ _) e

theorem State.Inv.push {s t : State} (h : s.Inv) {v : View} {sp sp' : Split} {e : StackEntry}
    (he : push s v sp e = .ok (t, sp')) : t.Inv := by
  unfold Machine.push at he
  split at he
  · cases he
  · split at he
    · cases he; exact h
    · split at he
      · cases he; exact h
      · split at he
        · cases he
        · rename_i hw
          cases he
          exact h.privWrite _ _ _ _ hw

theorem State.Inv.refilled {s : State} (h : s.Inv) (c n : Nat) (e : TlbEntry) : (s.refilled c n e).Inv := (h.fill e).readLocs _ _

theorem State.Inv.topEntry {s t : State} (h : s.Inv) {v : View} {sp : Split} {e : StackEntry}
    (he : topEntry s v sp = .ok (e, t)) : t.Inv := by
  unfold Machine.topEntry at he
  split at he
  · cases he; exact h
  · split at he
    · cases he; exact h.refilled _ _ _
    · cases he

theorem State.Inv.popHeld {s t : State} (h : s.Inv) {v : View} {sp sp' : Split}
    (he : popHeld s v sp = .ok (t, sp')) : t.Inv := by
  unfold Machine.popHeld at he
  dsimp only at he
  split at he
  · split at he
    · cases he; exact h.refilled _ _ _
    · cases he
  · cases he; exact h

theorem State.Inv.pop {s t : State} (h : s.Inv) {v : View} {sp sp' : Split} {k : Nat} {e : StackEntry}
    (he : pop s v sp k = .ok (e, t, sp')) : t.Inv := by
  unfold Machine.pop at he
  split at he
  · cases he
  · split at he
    · cases he
    · rename_i ht
      split at he
      · cases he
      · split at he
        · cases he
        · rename_i hp
          cases he
          exact (h.topEntry ht).popHeld hp

theorem State.Inv.spillAll (v : View) (sp : Split) : ∀ (es : List StackEntry) (n : Nat) {s t : State},
    s.Inv → spillAll s v sp n es = .ok t → t.Inv
  | [], _, _, _, h, e => by cases e; exact h
  | x :: xs, n, s, t, h, e => by
    simp only [Machine.spillAll] at e
    split at e
    · cases e
    · rename_i hw
      exact State.Inv.spillAll v sp xs (n + 1) (h.privWrite _ _ _ _ hw) e

theorem State.Inv.spill {s t : State} (h : s.Inv) {v : View} {sp : Split} (he : s.spill v sp = .ok t) : t.Inv :=
  h.spillAll _ _ _ _ he

/-! The split table and merges. -/

theorem State.Inv.reload (v : View) (sp : Split) : ∀ (n : Nat) (got : List StackEntry) {s : State},
    s.Inv → (reload s v sp n got).1.Inv
  | 0, _, _, h => h
  | n + 1, got, s, h => by
    unfold Machine.reload
    split
    · exact h
    · split
      · exact State.Inv.reload v sp n _ (h.refilled _ _ _)
      · exact h

theorem State.Inv.makeResident {s : State} (h : s.Inv) (n : Nat) (sp : Split) (k : Nat) : (s.makeResident n sp k).Inv := by
  unfold State.makeResident
  split
  · exact (State.Inv.reload _ _ _ _ h).setSplit _ _ _
  · exact h

theorem State.Inv.promoteOne {s : State} (h : s.Inv) (n : Nat) : (s.promoteOne n).Inv := by
  unfold State.promoteOne
  split
  · exact h
  · split
    · exact h.makeResident _ _ _
    · exact h

theorem State.Inv.promote {s : State} (h : s.Inv) (n : Nat) : (s.promote n).Inv :=
  State.Inv.foldl (fun _ _ ht => ht.promoteOne n) _ h

theorem State.Inv.mergePop {s : State} (h : s.Inv) (v : View) (sp : Split) : (mergePop s v sp).1.Inv := by
  unfold Machine.mergePop
  split
  · split
    · rename_i hp; exact h.popHeld hp
    · exact h
  · exact h

theorem State.Inv.mergeAt {s : State} (h : s.Inv) (n : Nat) (pc : Dword) (m : LaneMask) (mode : Mode) :
    (s.mergeAt n pc m mode).Inv := by
  unfold State.mergeAt
  split
  · exact h
  · dsimp only
    split
    · exact h
    · split
      · exact h
      · split
        · exact h.setGroup _ _
        · exact (((h.setGroup _ _).mergePop _ _).setSplit _ _ _).promote _

theorem State.Inv.retest {s : State} (h : s.Inv) (n : Nat) : (s.retest n).Inv := by
  unfold State.retest
  split
  · exact h
  · exact State.Inv.foldl (fun _ _ ht => ht.mergeAt _ _ _ _) _ h

/-! Taking a trap. -/

theorem State.Inv.saveLow {s t : State} (h : s.Inv) {v : View} {d : Nat} {ls : List Nat}
    (he : s.saveLow v d ls = .ok t) : t.Inv := by
  unfold State.saveLow at he
  split at he
  · cases he; exact h.modGroup _ _
  · exact h.privWrite _ _ _ _ he

theorem State.Inv.placeHandler {s : State} (h : s.Inv) (n : Nat) (p : Option Place) : (s.placeHandler n p).1.Inv := by
  unfold State.placeHandler
  split
  · exact h
  · split
    · exact h
    · split
      · exact h
      · split
        · exact h
        · split
          · exact h
          · split
            · exact h
            · rename_i hs; exact (h.spill hs).setSplit _ _ _

theorem State.Inv.readPc {s : State} (h : s.Inv) (c : Nat) (u : Bool) (pc : Dword) : (s.readPc c u pc).Inv := by
  unfold State.readPc
  split
  · exact h.readLocs _ _
  · exact h

theorem State.Inv.trapReads {s : State} (h : s.Inv) (v : View) (r : TrapReq) : (s.trapReads v r).Inv := by
  unfold State.trapReads
  split
  · exact h
  · refine State.Inv.foldl (fun t x ht => ?_) _ h
    split
    · exact ht.readPc _ _ _
    · exact ht.walked _ _ _ _

theorem State.Inv.enterTrap {s : State} (h : s.Inv) (n k : Nat) (sp : Split) (r : TrapReq) : (s.enterTrap n k sp r).Inv := by
  unfold State.enterTrap
  split
  · exact h
  · rename_i v _
    dsimp only
    generalize hsv : (if sp.tdepth + 1 ≥ 4 then (Except.error ⟨0x51, 0⟩ : Except TrapInfo State)
      else s.saveLow v (sp.tdepth + 1) (maskLanes r.lanes)) = sv
    have hs : (match sv with
        | .ok t => t
        | .error t => (maskLanes r.lanes).foldl (fun u l => u.walked v.c t.code (v.vaOf l t.tval) t.tval.toNat) s).Inv := by
      split
      · rename_i t
        split at hsv
        · cases hsv
        · exact h.saveLow hsv
      · exact State.Inv.foldl (fun _ _ hu => hu.walked _ _ _ _) _ h
    split
    · exact hs
    · exact State.Inv.modGroup (State.Inv.placeHandler (hs.setGroup _ _) _ _) _ _

theorem State.Inv.takeTrap {s : State} (h : s.Inv) (n k : Nat) (sp : Split) (r : TrapReq) : (s.takeTrap n k sp r).Inv := by
  unfold State.takeTrap
  split
  · exact h
  · exact (h.trapReads _ _).enterTrap _ _ _ _

theorem State.Inv.trapNow {s : State} (h : s.Inv) (v : View) (r : TrapReq) : (s.trapNow v r).Inv := h.takeTrap _ _ _ _
theorem State.Inv.trapSplit {s : State} (h : s.Inv) (v : View) (t : TrapInfo) : (s.trapSplit v t).Inv := h.trapNow _ _
theorem State.Inv.trapLanes {s : State} (h : s.Inv) (v : View) (ts : List (Nat × TrapInfo)) : (s.trapLanes v ts).Inv :=
  State.Inv.foldl (fun _ _ ht => ht.takeTrap _ _ _ _) _ h

/-- Lanes that fail trap; what the others do keeps the forms if it keeps them from any state that has them. -/
theorem State.Inv.others {s : State} (h : s.Inv) (v : View) (bad : List (Nat × TrapInfo)) (k : State → View → State)
    (hk : ∀ t w, t.Inv → (k t w).Inv) : (s.others v bad k).Inv := by
  unfold State.others
  dsimp only
  split
  · exact hk _ _ (h.trapLanes v bad)
  · exact h.trapLanes v bad

/-! Results. -/

theorem State.Inv.retire {s : State} (h : s.Inv) (v : View) : (s.retire v).Inv := h.modSplit _ _ _
theorem State.Inv.finish {s : State} (h : s.Inv) (v : View) (ws : RegWrites) (f : FFlags) : (s.finish v ws f).Inv :=
  (h.modGroup _ _).retire v

theorem State.Inv.defer {s : State} (h : s.Inv) (v : View) (p : Pending) : (s.defer v p).Inv := by
  unfold State.defer
  dsimp only
  split
  · exact ((h.modGroup _ _).retire v).modSplit _ _ _
  · exact (h.modGroup _ _).retire v

theorem State.Inv.deferRegs {s : State} (h : s.Inv) (v : View) (n : Nat) (ws : RegWrites) (f : FFlags) :
    (s.deferRegs v n ws f).Inv := by
  unfold State.deferRegs
  split
  · exact h.retire v
  · exact h.defer _ _

theorem State.Inv.begin {s : State} (h : s.Inv) (v : View) (i : Instr) : (s.begin v i).Inv := h.modGroup _ _

/-- An instruction keeps the forms if its own effect does: a check that fails takes a trap, and no instruction of a split
is refused. -/
theorem issueE_inv {i : Instr} {s t : State} {early : State → View → Option TrapInfo} {body : State → View → State}
    (h : s.Inv) (hb : ∀ u w, u.Inv → (body u w).Inv) (he : issueE i s early body = .next t) : t.Inv := by
  unfold issueE at he
  split at he
  · cases he
  · split at he
    · cases he; exact h.trapSplit _ _
    · dsimp only at he
      split at he
      · cases he; exact hb _ _ (h.begin _ _)
      · cases he; exact h.begin _ _

theorem issue_inv {i : Instr} {s t : State} {body : State → View → State} (h : s.Inv)
    (hb : ∀ u w, u.Inv → (body u w).Inv) (he : issue i s body = .next t) : t.Inv := issueE_inv h hb he

/-- The one way in which an instruction of a split stops: none issues. -/
theorem issueE_stop {i : Instr} {s : State} {early : State → View → Option TrapInfo} {body : State → View → State} :
    (s.view? = none → issueE i s early body = .fault .noIssuer) ∧
    (∀ v, s.view? = some v → ∃ t, issueE i s early body = .next t) := by
  constructor
  · intro h; simp [issueE, h]
  · intro v h
    simp only [issueE, h]
    split
    · exact ⟨_, rfl⟩
    · split <;> exact ⟨_, rfl⟩

theorem alu_inv {i : Instr} {h : Hdr} {s t : State} {f : Group → Nat → RegWrites × FFlags} (hs : s.Inv)
    (he : alu i h s f = .next t) : t.Inv := issue_inv hs (fun _ _ hu => hu.finish _ _ _) he

theorem aluLong_inv {i : Instr} {h : Hdr} {s t : State} {f : View → Nat → RegWrites × FFlags} (hs : s.Inv)
    (he : aluLong i h s f = .next t) : t.Inv := issue_inv hs (fun _ _ hu => hu.deferRegs _ _ _ _) he

/-- A device step keeps the forms if what it does when it is due does. -/
theorem event_inv {s t : State} {body : State → Option State} (h : s.Inv) (hb : ∀ u, body s = some u → u.Inv)
    (he : event s body = .next t) : t.Inv := by
  cases he
  cases hx : body s with
  | none => exact h
  | some u => exact hb u hx

/-! Division of a split. -/

theorem State.Inv.seat {s t : State} (h : s.Inv) {v : View} {g : Group} {n : Nat} {sp : Split} {p : Option Place}
    (he : s.seat v g n sp p = .ok t) : t.Inv := by
  unfold State.seat at he
  dsimp only at he
  split at he
  · split at he
    · rename_i hs; cases he; exact (h.spill hs).setGroup _ _
    · cases he
  · cases he; exact h.setGroup _ _

theorem State.Inv.seatRest (v : View) : ∀ (ks : List Split) {s t : State}, s.Inv → s.seatRest v ks = .ok t → t.Inv
  | [], _, _, h, e => by cases e; exact h
  | k :: ks, s, t, h, e => by
    simp only [State.seatRest] at e
    split at e
    · cases e; exact h
    · split at e
      · rename_i hs; exact State.Inv.seatRest v ks (h.seat hs) e
      · cases e

theorem State.Inv.divide {s t : State} (h : s.Inv) {v : View} {ks : List Split} (he : s.divide v ks = .ok t) : t.Inv := by
  unfold State.divide at he
  split at he
  · split at he
    · rename_i hs
      split at he
      · rename_i hr
        cases he
        exact ((State.Inv.seatRest _ _ (h.seat hs) hr).retest _).promote _
      · cases he
    · cases he
  · cases he; exact h

theorem State.Inv.diverge {s t : State} (h : s.Inv) {v : View} {ks : List (LaneMask × Option Dword)} {pc : Dword} {m : LaneMask}
    (he : s.diverge v ks pc m = .ok t) : t.Inv := by
  unfold State.diverge at he
  split at he
  · cases he
  · split at he
    · cases he
    · rename_i hp; exact (h.push hp).divide he

theorem State.Inv.pushAt {s t : State} (h : s.Inv) {v : View} {e : StackEntry} (he : s.pushAt v e = .ok t) : t.Inv := by
  unfold State.pushAt at he
  split at he
  · cases he
  · rename_i hp
    split at he
    · exact (h.push hp).seat he
    · cases he; exact h.push hp

theorem State.Inv.orTrap {s : State} (h : s.Inv) (v : View) (r : Except TrapInfo State) (hr : ∀ t, r = .ok t → t.Inv) :
    (s.orTrap v r).Inv := by
  unfold State.orTrap
  split
  · exact hr _ rfl
  · exact h.trapSplit _ _

theorem State.Inv.targets {s : State} (h : s.Inv) (v : View) (pcs : List Dword) (dest : Nat → Option Dword)
    (k : State → Except TrapInfo State) (hk : ∀ u t, u.Inv → k u = .ok t → t.Inv) : (s.targets v pcs dest k).Inv := by
  unfold State.targets
  split
  · split
    · exact h.trapSplit _ _
    · exact h.orTrap _ _ (fun t ht => hk _ t (State.Inv.foldl (fun _ _ hu => hu.touchPc _ _ _) _ h) ht)
  · exact h.trapLanes _ _

theorem issueC_inv {i : Instr} {s t : State} {body : State → View → State} (h : s.Inv)
    (hb : ∀ u w, u.Inv → (body u w).Inv) (he : issueC i s body = .next t) : t.Inv := issueE_inv h hb he

/-! Loads, landings and step stores. -/

theorem State.Inv.fillHits {s : State} (h : s.Inv) (rs : List (Nat × Reach)) : (s.fillHits rs).Inv := h.fills _

theorem State.Inv.fillReads {s : State} (h : s.Inv) (c : Nat) (rs : List (Nat × Reach)) : (s.fillReads c rs).Inv :=
  (h.fillHits rs).readLocs c _

theorem State.Inv.linkFail {s : State} (h : s.Inv) (c k : Nat) (pc : Dword) : (s.linkFail c k pc).Inv := h.setCtx _ _

theorem State.Inv.load {s : State} (h : s.Inv) (v : View) (f d : Nat) (w : Width) (hits : List (Nat × Reach))
    (known : List (Nat × Nat)) : (s.load v f d w hits known).Inv := by
  unfold State.load
  dsimp only
  have hr := h.fillReads v.c hits
  generalize s.fillReads v.c hits = u at hr ⊢
  split
  · exact hr.retire v
  · exact State.Inv.foldl (fun _ _ ht => ht.send _) _
      (State.Inv.foldl (fun _ _ ht => ht.linkFail _ _ _) _ (hr.defer _ _))

theorem State.Inv.landVerdicts {s : State} (h : s.Inv) (vs : List (Contrib × Nat)) : (s.landVerdicts vs).Inv :=
  State.Inv.foldl (fun _ _ ht => ht.modGroup _ _) _ h

theorem State.Inv.owStop {s : State} (h : s.Inv) (cs : List Contrib) (x : Stopped) : (s.owStop cs x).Inv :=
  State.Inv.foldl (fun _ _ ht => ht.modGroup _ _) _ h

theorem fwfFrom_fmapV {α : Type} (f : Nat → α → α) : ∀ (m : FMap α) (lo : Nat), fwfFrom lo m = true → fwfFrom lo (fmapV f m) = true
  | [], _, _ => rfl
  | (k, v) :: m, lo, h => by
    simp only [fmapV, List.map_cons, fwfFrom, Bool.and_eq_true] at h ⊢
    exact ⟨h.1, fwfFrom_fmapV f m (k + 1) h.2⟩

theorem State.Inv.mapGroups {s : State} (h : s.Inv) (f : Nat → Group → Group) :
    ({ s with groups := fmapV f s.groups } : State).Inv := by
  obtain ⟨hm, ⟨hc, hs, hg, ht, hgr⟩, hp⟩ := h
  exact ⟨hm, ⟨hc, hs, hg, ht, fwfFrom_fmapV f _ 0 hgr⟩, hp⟩

theorem State.Inv.landStops {s : State} (h : s.Inv) (cs : List Contrib) (st : List Stopped) : (s.landStops cs st).Inv := by
  unfold State.landStops
  dsimp only
  exact State.Inv.mapGroups (State.Inv.foldl (fun _ _ ht => ht.owStop _ _) _ (h.mapGroups _)) _

theorem State.Inv.landCol {s : State} (h : s.Inv) (cs : List Contrib) (st : List Stopped) : (s.landCol cs st).Inv :=
  State.Inv.foldl (fun _ _ ht => ht.modTeam _ _) _ h

theorem State.Inv.deliver {s : State} (h : s.Inv) (n : Nat) (g : Group) (w : LaneMask) (o : Nat → Owed) (late : Nat → LateError) :
    (s.deliver n g w o late).Inv := by
  unfold State.deliver
  split
  · exact h.setGroup _ _
  · split
    · exact h.setGroup _ _
    · split
      · exact h.modGroup _ _
      · split
        · split
          · split
            · exact h
            · exact h.setGrid _ _
          · exact h
        · exact h

theorem State.Inv.deliverLate {s : State} (h : s.Inv) (x : Contrib × Nat) : (s.deliverLate x).Inv := by
  unfold State.deliverLate
  dsimp only
  split
  · exact h
  · exact h.deliver _ _ _ _ _

theorem State.Inv.landRest {s : State} (h : s.Inv) (c : Nat) (d : Bool) (n : Nat) (lost : List (Loc × Nat)) (done : List Loc)
    (vs : List (Contrib × Nat)) (cs : List Contrib) : (s.landRest c d n lost done vs cs).Inv :=
  State.Inv.foldl (fun _ _ ht => ht.deliverLate _) _ ((((h.landWrites _ _).landVerdicts _).landStops _ _).landCol _ _)

theorem State.Inv.land {s : State} (h : s.Inv) (c : Nat) (d : Bool) (n : Nat) (lost : List (Loc × Nat)) (cs : List Contrib) :
    (s.land c d n lost cs).Inv := h.landRest _ _ _ _ _ _ _

theorem State.Inv.withFresh {s : State} (h : s.Inv) (n : Nat) : ({ s with fresh := n } : State).Inv := h

/-- What leaves the device changes what was sent, and no more. -/
theorem State.sendCell_frame (s : State) (c : Nat) (src : SentBy) (cell : Loc) (bs : WriteBytes) :
    ∃ w n o, s.sendCell c src cell bs = { s with sentw := w, nextMsg := n, out := o } := by
  unfold State.sendCell
  dsimp only
  split
  · split <;> exact ⟨_, _, _, rfl⟩
  · split <;> exact ⟨_, _, _, rfl⟩
  · exact ⟨_, _, _, rfl⟩

theorem State.Inv.sendCell {s : State} (h : s.Inv) (c : Nat) (src : SentBy) (cell : Loc) (bs : WriteBytes) :
    (s.sendCell c src cell bs).Inv := by
  obtain ⟨w, n, o, e⟩ := s.sendCell_frame c src cell bs
  rw [e]
  exact h

theorem State.Inv.sendAll {s : State} (h : s.Inv) (c : Nat) (src : Loc → SentBy) (ws : List (Nat × Loc × Byte)) :
    (s.sendAll c src ws).Inv := State.Inv.foldl (fun _ _ ht => ht.sendCell _ _ _ _) _ h

theorem State.Inv.landNow {s : State} (h : s.Inv) (v : View) (e : Spoil) : (s.landNow v e).Inv := by
  unfold State.landNow
  dsimp only
  have hl := h.land v.c v.gr.det s.fresh [] (entryContribs v.gid v.g v.tm e)
  generalize s.land v.c v.gr.det s.fresh [] (entryContribs v.gid v.g v.tm e) = u at hl ⊢
  have hf := hl.withFresh (u.fresh + choices (entryContribs v.gid v.g v.tm e))
  generalize ({ u with fresh := u.fresh + choices (entryContribs v.gid v.g v.tm e) } : State) = w at hf ⊢
  split
  · exact (hf.modGroup _ _).retire v
  · exact (hf.defer _ _).sendAll _ _ _

theorem State.Inv.openEntry {s : State} (h : s.Inv) (v : View) (e : Spoil) : (s.openEntry v e).Inv := by
  unfold State.openEntry
  split
  · exact h.landNow v e
  · dsimp only
    split
    · exact (h.modGroup _ _).defer _ _
    · exact (h.modGroup _ _).retire v

theorem State.Inv.store {s : State} (h : s.Inv) (v : View) (hd : Hdr) (m : FM) (bad : List (Nat × TrapInfo))
    (hits : List (Nat × Dword × Reach)) (data cap : Nat → Nat) : (s.store v hd m bad hits data cap).Inv := by
  unfold State.store
  dsimp only
  refine h.others _ _ _ (fun t w ht => ?_)
  split
  · exact ht.retire w
  · exact (ht.fills _).openEntry _ _

end Sys2Proof.Machine
end

