-- ==== Sys2Proof/Laws/PerInstr.lean ====
section
/-! SUPPORT. A law stated for every instruction, one lemma for each: its encoding fits a slot of 96 bits (R70). -/
namespace Sys2Proof.Laws

/-- Packed fields fit the sum of their widths. -/
theorem packF_lt : ∀ fs : List (Nat × Nat), packF fs < 2 ^ (fs.map (·.1)).sum
  | [] => by simp [packF]
  | (w, v) :: fs => by
    have h := packF_lt fs
    have hv := Nat.mod_lt v (Nat.two_pow_pos w)
    simp only [packF, List.map_cons, List.sum_cons, Nat.pow_add]
    calc v % 2 ^ w + 2 ^ w * packF fs < 2 ^ w + 2 ^ w * packF fs := Nat.add_lt_add_right hv _
      _ = 2 ^ w * (packF fs + 1) := by rw [Nat.mul_add, Nat.mul_one, Nat.add_comm]
      _ ≤ 2 ^ w * 2 ^ (fs.map (·.1)).sum := Nat.mul_le_mul_left _ h

theorem packF_fits (fs : List (Nat × Nat)) (h : (fs.map (·.1)).sum ≤ 96) : packF fs < 2 ^ 96 :=
  Nat.lt_of_lt_of_le (packF_lt fs) (Nat.pow_le_pow_right (by decide) h)

theorem encFA_fits (op : Nat) (h : Hdr) (d a b c ty m : Nat) : encFA op h d a b c ty m < 2 ^ 96 :=
  packF_fits _ (by simp [hdrF])
theorem encFI_fits (op : Nat) (h : Hdr) (d a imm ty sc : Nat) : encFI op h d a imm ty sc < 2 ^ 96 :=
  packF_fits _ (by simp [hdrF])
theorem encFM_fits (op : Nat) (h : Hdr) (m : FM) : encFM op h m < 2 ^ 96 := packF_fits _ (by simp [hdrF])
theorem encFB_fits (op : Nat) (h : Hdr) (r : Nat) (t j : Target) (k : Nat) : encFB op h r t j k < 2 ^ 96 :=
  packF_fits _ (by simp [hdrF])
theorem encFS_fits (op : Nat) (h : Hdr) (r : Nat) (ks : List Int) : encFS op h r ks < 2 ^ 96 := packF_fits _ (by simp [hdrF])
theorem encFL_fits (op : Nat) (h : Hdr) (count ci len : Nat) (a b c : Option Inc) : encFL op h count ci len a b c < 2 ^ 96 :=
  packF_fits _ (by simp [hdrF])
theorem encFX_fits (op : Nat) (h : Hdr) (r k imm : Nat) : encFX op h r k imm < 2 ^ 96 := packF_fits _ (by simp [hdrF])
theorem encFT_fits (op : Nat) (h : Hdr) (acc a b c k : Nat) (dirA dirB : Bool) (mode ty : Nat) :
    encFT op h acc a b c k dirA dirB mode ty < 2 ^ 96 := packF_fits _ (by simp [hdrF])
theorem encConv_fits (op : Nat) (h : Hdr) (dt st : ConvTy) (rm : Rnd) (sat : Bool) (d a : Nat) :
    encConv op h dt st rm sat d a < 2 ^ 96 := encFA_fits _ _ _ _ _ _ _ _

/-- The encoding of an instruction fits a slot. -/
def Fits.Statement (i : Instr) : Prop := encode i < 2 ^ 96

theorem Fits.nop (h : Hdr) : Statement (.nop h) := encFA_fits _ _ _ _ _ _ _ _
theorem Fits.bra (h : Hdr) (l : Target) : Statement (.bra h l) := encFB_fits _ _ _ _ _ _
theorem Fits.bany (h : Hdr) (k : Cond) (r : Nat) (l : Target) : Statement (.bany h k r l) := encFB_fits _ _ _ _ _ _
theorem Fits.ball (h : Hdr) (k : Cond) (r : Nat) (l : Target) : Statement (.ball h k r l) := encFB_fits _ _ _ _ _ _
theorem Fits.bnone (h : Hdr) (k : Cond) (r : Nat) (l : Target) : Statement (.bnone h k r l) := encFB_fits _ _ _ _ _ _
theorem Fits.bdiv (h : Hdr) (k : Cond) (r : Nat) (l j : Target) : Statement (.bdiv h k r l j) := encFB_fits _ _ _ _ _ _
theorem Fits.switch (h : Hdr) (r : Nat) (ks : List Int) : Statement (.switch h r ks) := encFS_fits _ _ _ _
theorem Fits.join (h : Hdr) (j : Target) : Statement (.join h j) := encFB_fits _ _ _ _ _ _
theorem Fits.call (h : Hdr) (l : Target) : Statement (.call h l) := encFB_fits _ _ _ _ _ _
theorem Fits.callr (h : Hdr) (d a : Nat) : Statement (.callr h d a) := encFA_fits _ _ _ _ _ _ _ _
theorem Fits.ret (h : Hdr) : Statement (.ret h) := encFA_fits _ _ _ _ _ _ _ _
theorem Fits.retl (h : Hdr) (a : Nat) : Statement (.retl h a) := encFA_fits _ _ _ _ _ _ _ _
theorem Fits.loop (h : Hdr) (n len : Nat) (inc0 inc1 inc2 : Option Inc) : Statement (.loop h n len inc0 inc1 inc2) :=
  encFL_fits _ _ _ _ _ _ _ _
theorem Fits.loopr (h : Hdr) (r len : Nat) (inc0 inc1 inc2 : Option Inc) : Statement (.loopr h r len inc0 inc1 inc2) :=
  encFL_fits _ _ _ _ _ _ _ _
theorem Fits.exit (h : Hdr) : Statement (.exit h) := encFA_fits _ _ _ _ _ _ _ _
theorem Fits.brk (h : Hdr) (imm : Nat) : Statement (.brk h imm) := encFI_fits _ _ _ _ _ _ _
theorem Fits.ids (h : Hdr) (d sel : Nat) : Statement (.ids h d sel) := encFI_fits _ _ _ _ _ _ _
theorem Fits.wflag (h : Hdr) (mask : Nat) : Statement (.wflag h mask) := encFI_fits _ _ _ _ _ _ _
theorem Fits.step (h : Hdr) (x : Scope) : Statement (.step h x) := encFI_fits _ _ _ _ _ _ _
theorem Fits.yieldc (h : Hdr) (x : Scope) (a ctr mask : Nat) : Statement (.yieldc h x a ctr mask) := encFI_fits _ _ _ _ _ _ _
theorem Fits.stepn (h : Hdr) (x : Scope) (n : Nat) : Statement (.stepn h x n) := encFI_fits _ _ _ _ _ _ _
theorem Fits.stepto (h : Hdr) (x : Scope) (a : Nat) : Statement (.stepto h x a) := encFI_fits _ _ _ _ _ _ _
theorem Fits.fbp (h : Hdr) (base : Nat) (stub : Target) (map : Nat) : Statement (.fbp h base stub map) := encFX_fits _ _ _ _ _
theorem Fits.sysc (h : Hdr) (imm : Nat) : Statement (.sysc h imm) := encFI_fits _ _ _ _ _ _ _
theorem Fits.trap (h : Hdr) (imm : Nat) : Statement (.trap h imm) := encFI_fits _ _ _ _ _ _ _
theorem Fits.hcall (h : Hdr) (imm : Nat) : Statement (.hcall h imm) := encFI_fits _ _ _ _ _ _ _
theorem Fits.tret (h : Hdr) (a : Nat) : Statement (.tret h a) := encFA_fits _ _ _ _ _ _ _ _
theorem Fits.mfk (h : Hdr) (d : Nat) (k : PReg) : Statement (.mfk h d k) := encFX_fits _ _ _ _ _
theorem Fits.mtk (h : Hdr) (s : Nat) (k : PReg) : Statement (.mtk h s k) := encFX_fits _ _ _ _ _
theorem Fits.tlbinv (h : Hdr) (k : TlbKind) (a : Nat) : Statement (.tlbinv h k a) := encFA_fits _ _ _ _ _ _ _ _
theorem Fits.idle (h : Hdr) : Statement (.idle h) := encFA_fits _ _ _ _ _ _ _ _
theorem Fits.add (h : Hdr) (ty : ElemTy) (d a b : Nat) : Statement (.add h ty d a b) := encFA_fits _ _ _ _ _ _ _ _
theorem Fits.sub (h : Hdr) (ty : ElemTy) (d a b : Nat) : Statement (.sub h ty d a b) := encFA_fits _ _ _ _ _ _ _ _
theorem Fits.mul (h : Hdr) (ty : ElemTy) (d a b : Nat) : Statement (.mul h ty d a b) := encFA_fits _ _ _ _ _ _ _ _
theorem Fits.mulh (h : Hdr) (ty : ElemTy) (d a b : Nat) : Statement (.mulh h ty d a b) := encFA_fits _ _ _ _ _ _ _ _
theorem Fits.mad (h : Hdr) (ty : ElemTy) (d a b c : Nat) : Statement (.mad h ty d a b c) := encFA_fits _ _ _ _ _ _ _ _
theorem Fits.div (h : Hdr) (ty : ElemTy) (d a b : Nat) : Statement (.div h ty d a b) := encFA_fits _ _ _ _ _ _ _ _
theorem Fits.rem (h : Hdr) (ty : ElemTy) (d a b : Nat) : Statement (.rem h ty d a b) := encFA_fits _ _ _ _ _ _ _ _
theorem Fits.abs (h : Hdr) (ty : ElemTy) (d a : Nat) : Statement (.abs h ty d a) := encFA_fits _ _ _ _ _ _ _ _
theorem Fits.neg (h : Hdr) (ty : ElemTy) (d a : Nat) : Statement (.neg h ty d a) := encFA_fits _ _ _ _ _ _ _ _
theorem Fits.min (h : Hdr) (ty : ElemTy) (d a b : Nat) : Statement (.min h ty d a b) := encFA_fits _ _ _ _ _ _ _ _
theorem Fits.max (h : Hdr) (ty : ElemTy) (d a b : Nat) : Statement (.max h ty d a b) := encFA_fits _ _ _ _ _ _ _ _
theorem Fits.clamp (h : Hdr) (ty : ElemTy) (d a b c : Nat) : Statement (.clamp h ty d a b c) := encFA_fits _ _ _ _ _ _ _ _
theorem Fits.addsat (h : Hdr) (ty : ElemTy) (d a b : Nat) : Statement (.addsat h ty d a b) := encFA_fits _ _ _ _ _ _ _ _
theorem Fits.subsat (h : Hdr) (ty : ElemTy) (d a b : Nat) : Statement (.subsat h ty d a b) := encFA_fits _ _ _ _ _ _ _ _
theorem Fits.and (h : Hdr) (ty : ElemTy) (d a b : Nat) : Statement (.and h ty d a b) := encFA_fits _ _ _ _ _ _ _ _
theorem Fits.or (h : Hdr) (ty : ElemTy) (d a b : Nat) : Statement (.or h ty d a b) := encFA_fits _ _ _ _ _ _ _ _
theorem Fits.xor (h : Hdr) (ty : ElemTy) (d a b : Nat) : Statement (.xor h ty d a b) := encFA_fits _ _ _ _ _ _ _ _
theorem Fits.not (h : Hdr) (ty : ElemTy) (d a : Nat) : Statement (.not h ty d a) := encFA_fits _ _ _ _ _ _ _ _
theorem Fits.andn (h : Hdr) (ty : ElemTy) (d a b : Nat) : Statement (.andn h ty d a b) := encFA_fits _ _ _ _ _ _ _ _
theorem Fits.shl (h : Hdr) (ty : ElemTy) (d a b : Nat) : Statement (.shl h ty d a b) := encFA_fits _ _ _ _ _ _ _ _
theorem Fits.shr (h : Hdr) (ty : ElemTy) (d a b : Nat) : Statement (.shr h ty d a b) := encFA_fits _ _ _ _ _ _ _ _
theorem Fits.sar (h : Hdr) (ty : ElemTy) (d a b : Nat) : Statement (.sar h ty d a b) := encFA_fits _ _ _ _ _ _ _ _
theorem Fits.rol (h : Hdr) (ty : ElemTy) (d a b : Nat) : Statement (.rol h ty d a b) := encFA_fits _ _ _ _ _ _ _ _
theorem Fits.bfx (h : Hdr) (ty : ElemTy) (d a b : Nat) : Statement (.bfx h ty d a b) := encFA_fits _ _ _ _ _ _ _ _
theorem Fits.bfi (h : Hdr) (ty : ElemTy) (d a b c : Nat) : Statement (.bfi h ty d a b c) := encFA_fits _ _ _ _ _ _ _ _
theorem Fits.pop (h : Hdr) (ty : ElemTy) (d a : Nat) : Statement (.pop h ty d a) := encFA_fits _ _ _ _ _ _ _ _
theorem Fits.clz (h : Hdr) (ty : ElemTy) (d a : Nat) : Statement (.clz h ty d a) := encFA_fits _ _ _ _ _ _ _ _
theorem Fits.ctz (h : Hdr) (ty : ElemTy) (d a : Nat) : Statement (.ctz h ty d a) := encFA_fits _ _ _ _ _ _ _ _
theorem Fits.brev (h : Hdr) (ty : ElemTy) (d a : Nat) : Statement (.brev h ty d a) := encFA_fits _ _ _ _ _ _ _ _
theorem Fits.sel (h : Hdr) (ty : ElemTy) (d a b c : Nat) : Statement (.sel h ty d a b c) := encFA_fits _ _ _ _ _ _ _ _
theorem Fits.cmp (h : Hdr) (ty : ElemTy) (op : CmpOp) (d a b : Nat) : Statement (.cmp h ty op d a b) :=
  encFA_fits _ _ _ _ _ _ _ _
theorem Fits.lea (h : Hdr) (ty : ElemTy) (d a b : Nat) : Statement (.lea h ty d a b) := encFA_fits _ _ _ _ _ _ _ _
theorem Fits.mov (h : Hdr) (ty : ElemTy) (d a : Nat) : Statement (.mov h ty d a) := encFA_fits _ _ _ _ _ _ _ _
theorem Fits.movi (h : Hdr) (ty : ElemTy) (d imm : Nat) : Statement (.movi h ty d imm) := encFI_fits _ _ _ _ _ _ _
theorem Fits.fadd (h : Hdr) (ty : ElemTy) (rm : Rnd) (d a b : Nat) : Statement (.fadd h ty rm d a b) :=
  encFA_fits _ _ _ _ _ _ _ _
theorem Fits.fsub (h : Hdr) (ty : ElemTy) (rm : Rnd) (d a b : Nat) : Statement (.fsub h ty rm d a b) :=
  encFA_fits _ _ _ _ _ _ _ _
theorem Fits.fmul (h : Hdr) (ty : ElemTy) (rm : Rnd) (d a b : Nat) : Statement (.fmul h ty rm d a b) :=
  encFA_fits _ _ _ _ _ _ _ _
theorem Fits.fma (h : Hdr) (ty : ElemTy) (rm : Rnd) (d a b c : Nat) : Statement (.fma h ty rm d a b c) :=
  encFA_fits _ _ _ _ _ _ _ _
theorem Fits.fdiv (h : Hdr) (ty : ElemTy) (rm : Rnd) (d a b : Nat) : Statement (.fdiv h ty rm d a b) :=
  encFA_fits _ _ _ _ _ _ _ _
theorem Fits.fsqrt (h : Hdr) (ty : ElemTy) (rm : Rnd) (d a : Nat) : Statement (.fsqrt h ty rm d a) := encFA_fits _ _ _ _ _ _ _ _
theorem Fits.fmin (h : Hdr) (ty : ElemTy) (d a b : Nat) : Statement (.fmin h ty d a b) := encFA_fits _ _ _ _ _ _ _ _
theorem Fits.fmax (h : Hdr) (ty : ElemTy) (d a b : Nat) : Statement (.fmax h ty d a b) := encFA_fits _ _ _ _ _ _ _ _
theorem Fits.fabs (h : Hdr) (ty : ElemTy) (d a : Nat) : Statement (.fabs h ty d a) := encFA_fits _ _ _ _ _ _ _ _
theorem Fits.fneg (h : Hdr) (ty : ElemTy) (d a : Nat) : Statement (.fneg h ty d a) := encFA_fits _ _ _ _ _ _ _ _
theorem Fits.fcopysign (h : Hdr) (ty : ElemTy) (d a b : Nat) : Statement (.fcopysign h ty d a b) := encFA_fits _ _ _ _ _ _ _ _
theorem Fits.fcmp (h : Hdr) (ty : ElemTy) (sig : Bool) (op : FCond) (d a b : Nat) : Statement (.fcmp h ty sig op d a b) :=
  encFA_fits _ _ _ _ _ _ _ _
theorem Fits.fclamp (h : Hdr) (ty : ElemTy) (d a b c : Nat) : Statement (.fclamp h ty d a b c) := encFA_fits _ _ _ _ _ _ _ _
theorem Fits.frnd (h : Hdr) (ty : ElemTy) (rm : Rnd) (d a : Nat) : Statement (.frnd h ty rm d a) := encFA_fits _ _ _ _ _ _ _ _
theorem Fits.fscale (h : Hdr) (ty : ElemTy) (rm : Rnd) (d a b : Nat) : Statement (.fscale h ty rm d a b) :=
  encFA_fits _ _ _ _ _ _ _ _
theorem Fits.fexp (h : Hdr) (ty : ElemTy) (d a : Nat) : Statement (.fexp h ty d a) := encFA_fits _ _ _ _ _ _ _ _
theorem Fits.fmant (h : Hdr) (ty : ElemTy) (d a : Nat) : Statement (.fmant h ty d a) := encFA_fits _ _ _ _ _ _ _ _
theorem Fits.fclass (h : Hdr) (ty : ElemTy) (d a : Nat) : Statement (.fclass h ty d a) := encFA_fits _ _ _ _ _ _ _ _
theorem Fits.cvt (h : Hdr) (dt st : ConvTy) (rm : Rnd) (sat : Bool) (d a : Nat) : Statement (.cvt h dt st rm sat d a) :=
  encConv_fits _ _ _ _ _ _ _ _
theorem Fits.pack (h : Hdr) (dt st : ConvTy) (rm : Rnd) (sat : Bool) (d a : Nat) : Statement (.pack h dt st rm sat d a) :=
  encConv_fits _ _ _ _ _ _ _ _
theorem Fits.unpack (h : Hdr) (dt st : ConvTy) (rm : Rnd) (sat : Bool) (d a : Nat) : Statement (.unpack h dt st rm sat d a) :=
  encConv_fits _ _ _ _ _ _ _ _
theorem Fits.shuf (h : Hdr) (ty : ElemTy) (d a b : Nat) : Statement (.shuf h ty d a b) := encFA_fits _ _ _ _ _ _ _ _
theorem Fits.shufup (h : Hdr) (ty : ElemTy) (d a b : Nat) : Statement (.shufup h ty d a b) := encFA_fits _ _ _ _ _ _ _ _
theorem Fits.shufdn (h : Hdr) (ty : ElemTy) (d a b : Nat) : Statement (.shufdn h ty d a b) := encFA_fits _ _ _ _ _ _ _ _
theorem Fits.shufx (h : Hdr) (ty : ElemTy) (d a b : Nat) : Statement (.shufx h ty d a b) := encFA_fits _ _ _ _ _ _ _ _
theorem Fits.gsel (h : Hdr) (ty : ElemTy) (n d a b : Nat) : Statement (.gsel h ty n d a b) := encFA_fits _ _ _ _ _ _ _ _
theorem Fits.bcast (h : Hdr) (ty : ElemTy) (d a b : Nat) : Statement (.bcast h ty d a b) := encFA_fits _ _ _ _ _ _ _ _
theorem Fits.vote (h : Hdr) (op : VoteOp) (d a : Nat) : Statement (.vote h op d a) := encFA_fits _ _ _ _ _ _ _ _
theorem Fits.redu (h : Hdr) (ty : ElemTy) (op : ReduOp) (d a : Nat) : Statement (.redu h ty op d a) :=
  encFA_fits _ _ _ _ _ _ _ _
theorem Fits.scan (h : Hdr) (ty : ElemTy) (op : ReduOp) (d a : Nat) : Statement (.scan h ty op d a) :=
  encFA_fits _ _ _ _ _ _ _ _
theorem Fits.frcp (h : Hdr) (d a : Nat) : Statement (.frcp h d a) := encFA_fits _ _ _ _ _ _ _ _
theorem Fits.frsq (h : Hdr) (d a : Nat) : Statement (.frsq h d a) := encFA_fits _ _ _ _ _ _ _ _
theorem Fits.fexp2 (h : Hdr) (d a : Nat) : Statement (.fexp2 h d a) := encFA_fits _ _ _ _ _ _ _ _
theorem Fits.flog2 (h : Hdr) (d a : Nat) : Statement (.flog2 h d a) := encFA_fits _ _ _ _ _ _ _ _
theorem Fits.fsinpi (h : Hdr) (d a : Nat) : Statement (.fsinpi h d a) := encFA_fits _ _ _ _ _ _ _ _
theorem Fits.fcospi (h : Hdr) (d a : Nat) : Statement (.fcospi h d a) := encFA_fits _ _ _ _ _ _ _ _
theorem Fits.ftanh (h : Hdr) (d a : Nat) : Statement (.ftanh h d a) := encFA_fits _ _ _ _ _ _ _ _
theorem Fits.fflg (h : Hdr) (d : Nat) : Statement (.fflg h d) := encFA_fits _ _ _ _ _ _ _ _
theorem Fits.fclr (h : Hdr) (a : Nat) : Statement (.fclr h a) := encFA_fits _ _ _ _ _ _ _ _
theorem Fits.ld (h : Hdr) (m : FM) : Statement (.ld h m) := encFM_fits _ _ _
theorem Fits.ldl (h : Hdr) (m : FM) : Statement (.ldl h m) := encFM_fits _ _ _
theorem Fits.ldt (h : Hdr) (m : FM) : Statement (.ldt h m) := encFM_fits _ _ _
theorem Fits.sst (h : Hdr) (m : FM) : Statement (.sst h m) := encFM_fits _ _ _
theorem Fits.sstl (h : Hdr) (m : FM) : Statement (.sstl h m) := encFM_fits _ _ _
theorem Fits.sstt (h : Hdr) (m : FM) : Statement (.sstt h m) := encFM_fits _ _ _
theorem Fits.pst (h : Hdr) (m : FM) : Statement (.pst h m) := encFM_fits _ _ _
theorem Fits.prf (h : Hdr) (m : FM) : Statement (.prf h m) := encFM_fits _ _ _
theorem Fits.cpy (h : Hdr) (m : FM) : Statement (.cpy h m) := encFM_fits _ _ _
theorem Fits.cpy2d (h : Hdr) (m : FM) : Statement (.cpy2d h m) := encFM_fits _ _ _
theorem Fits.cpyq (h : Hdr) (d : Nat) : Statement (.cpyq h d) := encFA_fits _ _ _ _ _ _ _ _
theorem Fits.cpyre (h : Hdr) (a b : Nat) : Statement (.cpyre h a b) := encFA_fits _ _ _ _ _ _ _ _
theorem Fits.gth (h : Hdr) (m : FM) : Statement (.gth h m) := encFM_fits _ _ _
theorem Fits.sct (h : Hdr) (m : FM) : Statement (.sct h m) := encFM_fits _ _ _
theorem Fits.ctr (h : Hdr) (d k : Nat) : Statement (.ctr h d k) := encFI_fits _ _ _ _ _ _ _
theorem Fits.ctrset (h : Hdr) (k a : Nat) : Statement (.ctrset h k a) := encFI_fits _ _ _ _ _ _ _
theorem Fits.zfill (h : Hdr) (m : FM) : Statement (.zfill h m) := encFM_fits _ _ _
theorem Fits.tagq (h : Hdr) (d a : Nat) : Statement (.tagq h d a) := encFA_fits _ _ _ _ _ _ _ _
theorem Fits.tagset (h : Hdr) (a b : Nat) : Statement (.tagset h a b) := encFA_fits _ _ _ _ _ _ _ _
theorem Fits.tagclr (h : Hdr) (a : Nat) : Statement (.tagclr h a) := encFA_fits _ _ _ _ _ _ _ _
theorem Fits.thld (h : Hdr) (m : FM) : Statement (.thld h m) := encFM_fits _ _ _
theorem Fits.thst (h : Hdr) (m : FM) : Statement (.thst h m) := encFM_fits _ _ _
theorem Fits.thset (h : Hdr) (th w s : Nat) : Statement (.thset h th w s) := encFX_fits _ _ _ _ _
theorem Fits.thget (h : Hdr) (d th w : Nat) : Statement (.thget h d th w) := encFX_fits _ _ _ _ _
theorem Fits.thinv (h : Hdr) (th : Nat) : Statement (.thinv h th) := encFT_fits _ _ _ _ _ _ _ _ _ _ _
theorem Fits.plnz (h : Hdr) (thA thB : Nat) : Statement (.plnz h thA thB) := encFT_fits _ _ _ _ _ _ _ _ _ _ _
theorem Fits.unpln (h : Hdr) (thA thB : Nat) : Statement (.unpln h thA thB) := encFT_fits _ _ _ _ _ _ _ _ _ _ _
theorem Fits.mma (h : Hdr) (ty : AccTy) (zero scaled dirA dirB : Bool) (acc thA thB k : Nat) : Statement (.mma h ty zero scaled dirA dirB acc thA thB k) :=
  encFT_fits _ _ _ _ _ _ _ _ _ _ _
theorem Fits.mmz (h : Hdr) (ty : AccTy) (acc : Nat) : Statement (.mmz h ty acc) := encFT_fits _ _ _ _ _ _ _ _ _ _ _
theorem Fits.mmld (h : Hdr) (ty : AccTy) (acc thC : Nat) : Statement (.mmld h ty acc thC) := encFT_fits _ _ _ _ _ _ _ _ _ _ _
theorem Fits.mmst (h : Hdr) (acc thC : Nat) : Statement (.mmst h acc thC) := encFT_fits _ _ _ _ _ _ _ _ _ _ _
theorem Fits.mmrd (h : Hdr) (d a acc : Nat) : Statement (.mmrd h d a acc) := encFA_fits _ _ _ _ _ _ _ _
theorem Fits.mmwr (h : Hdr) (acc a b : Nat) : Statement (.mmwr h acc a b) := encFA_fits _ _ _ _ _ _ _ _
theorem Fits.mmfl (h : Hdr) (acc : Nat) : Statement (.mmfl h acc) := encFT_fits _ _ _ _ _ _ _ _ _ _ _
theorem Fits.deferredTrap : Statement (.deferredTrap) := Nat.two_pow_pos 96
theorem Fits.asynchronousTeamFault : Statement (.asynchronousTeamFault) := Nat.two_pow_pos 96
theorem Fits.longLatencyComplete (gid pid : Nat) : Statement (.longLatencyComplete gid pid) := Nat.two_pow_pos 96
theorem Fits.splitSwap (gid : Nat) : Statement (.splitSwap gid) := Nat.two_pow_pos 96
theorem Fits.boundaryForm (dom : Domain) : Statement (.boundaryForm dom) := Nat.two_pow_pos 96
theorem Fits.boundaryLanded (dom : Domain) : Statement (.boundaryLanded dom) := Nat.two_pow_pos 96
theorem Fits.mergeBufferPart (dom : Domain) (part : Nat) : Statement (.mergeBufferPart dom part) := Nat.two_pow_pos 96
theorem Fits.drainEndMark (dom : Domain) (home : Home) (tid : Nat) : Statement (.drainEndMark dom home tid) :=
  Nat.two_pow_pos 96
theorem Fits.crusherPart (dom : Domain) (part : Nat) : Statement (.crusherPart dom part) := Nat.two_pow_pos 96
theorem Fits.orderedReplay (dom : Domain) (home : Home) : Statement (.orderedReplay dom home) := Nat.two_pow_pos 96
theorem Fits.engineComplete (tid rec : Nat) (reply : Option (List Byte)) : Statement (.engineComplete tid rec reply) :=
  Nat.two_pow_pos 96
theorem Fits.bind (ctx : Nat) : Statement (.bind ctx) := Nat.two_pow_pos 96
theorem Fits.run (ctx : Nat) : Statement (.run ctx) := Nat.two_pow_pos 96
theorem Fits.preempt (ctx : Nat) : Statement (.preempt ctx) := Nat.two_pow_pos 96
theorem Fits.preemptionFreeze (gid : Nat) : Statement (.preemptionFreeze gid) := Nat.two_pow_pos 96
theorem Fits.preemptionTimeout (gid : Nat) : Statement (.preemptionTimeout gid) := Nat.two_pow_pos 96
theorem Fits.fullSave (gid : Nat) : Statement (.fullSave gid) := Nat.two_pow_pos 96
theorem Fits.teamSave (tid : Nat) : Statement (.teamSave tid) := Nat.two_pow_pos 96
theorem Fits.resume (ctx : Nat) : Statement (.resume ctx) := Nat.two_pow_pos 96
theorem Fits.migrateOut (ctx : Nat) : Statement (.migrateOut ctx) := Nat.two_pow_pos 96
theorem Fits.migrateIn (ctx : Nat) : Statement (.migrateIn ctx) := Nat.two_pow_pos 96
theorem Fits.unbind (ctx : Nat) : Statement (.unbind ctx) := Nat.two_pow_pos 96
theorem Fits.disable (ctx : Nat) : Statement (.disable ctx) := Nat.two_pow_pos 96
theorem Fits.cancel (ctx : Nat) : Statement (.cancel ctx) := Nat.two_pow_pos 96
theorem Fits.scrubDone (ctx : Nat) : Statement (.scrubDone ctx) := Nat.two_pow_pos 96
theorem Fits.vfEnableClear : Statement (.vfEnableClear) := Nat.two_pow_pos 96
theorem Fits.functionLevelReset (fn : Nat) : Statement (.functionLevelReset fn) := Nat.two_pow_pos 96
theorem Fits.qtBaseWrite (ctx : Nat) (v : Dword) : Statement (.qtBaseWrite ctx v) := Nat.two_pow_pos 96
theorem Fits.qtCountWrite (ctx : Nat) (v : Dword) : Statement (.qtCountWrite ctx v) := Nat.two_pow_pos 96
theorem Fits.doorbell (ctx queue : Nat) : Statement (.doorbell ctx queue) := Nat.two_pow_pos 96
theorem Fits.queuePoll (slot : Nat) : Statement (.queuePoll slot) := Nat.two_pow_pos 96
theorem Fits.queueSweep (ctx : Nat) : Statement (.queueSweep ctx) := Nat.two_pow_pos 96
theorem Fits.queueLoad (ctx queue slot : Nat) : Statement (.queueLoad ctx queue slot) := Nat.two_pow_pos 96
theorem Fits.sliceExpiry (slot : Nat) : Statement (.sliceExpiry slot) := Nat.two_pow_pos 96
theorem Fits.queueUnload (slot : Nat) : Statement (.queueUnload slot) := Nat.two_pow_pos 96
theorem Fits.recordFetch (slot : Nat) : Statement (.recordFetch slot) := Nat.two_pow_pos 96
theorem Fits.launch (slot : Nat) : Statement (.launch slot) := Nat.two_pow_pos 96
theorem Fits.teamPlacement (ctx : Nat) : Statement (.teamPlacement ctx) := Nat.two_pow_pos 96
theorem Fits.compaction (ctx : Nat) : Statement (.compaction ctx) := Nat.two_pow_pos 96
theorem Fits.teamEnd (tid : Nat) : Statement (.teamEnd tid) := Nat.two_pow_pos 96
theorem Fits.gridEnd (grid : Nat) : Statement (.gridEnd grid) := Nat.two_pow_pos 96
theorem Fits.mstatPoll (ctx : Nat) : Statement (.mstatPoll ctx) := Nat.two_pow_pos 96
theorem Fits.pageMoveCut (ctx : Nat) : Statement (.pageMoveCut ctx) := Nat.two_pow_pos 96
theorem Fits.pageMoveDone (ctx : Nat) : Statement (.pageMoveDone ctx) := Nat.two_pow_pos 96
theorem Fits.scrubLine (ctx : Nat) : Statement (.scrubLine ctx) := Nat.two_pow_pos 96
theorem Fits.round (ctx : Nat) : Statement (.round ctx) := Nat.two_pow_pos 96
theorem Fits.abort (ctx sent early : Nat) : Statement (.abort ctx sent early) := Nat.two_pow_pos 96
theorem Fits.precopyRoundEnd (ctx stat sent early : Nat) : Statement (.precopyRoundEnd ctx stat sent early) :=
  Nat.two_pow_pos 96
theorem Fits.precopyRecord (ctx page snap seq : Nat) (body tag : List Byte) (last : Bool) : Statement (.precopyRecord ctx page snap seq body tag last) :=
  Nat.two_pow_pos 96
theorem Fits.peerStoreArrival (dev remoteCtx ctx va : Nat) (bytes : WriteBytes) (msg : Nat) : Statement (.peerStoreArrival dev remoteCtx ctx va bytes msg) :=
  Nat.two_pow_pos 96
theorem Fits.peerWriteApply (ctx : Nat) : Statement (.peerWriteApply ctx) := Nat.two_pow_pos 96
theorem Fits.peerAck (msg : Nat) (accepted : Bool) : Statement (.peerAck msg accepted) := Nat.two_pow_pos 96
theorem Fits.peerLoadRequest (dev remoteCtx ctx va len msg : Nat) : Statement (.peerLoadRequest dev remoteCtx ctx va len msg) :=
  Nat.two_pow_pos 96
theorem Fits.peerLoadReply (gid pid lane : Nat) (reply : Option (List Byte)) : Statement (.peerLoadReply gid pid lane reply) :=
  Nat.two_pow_pos 96
theorem Fits.prolenFlitRetry (port : Nat) (ok : Bool) : Statement (.prolenFlitRetry port ok) := Nat.two_pow_pos 96
theorem Fits.prolenLaneLoss (port : Nat) : Statement (.prolenLaneLoss port) := Nat.two_pow_pos 96
theorem Fits.prolenPortDown (port : Nat) : Statement (.prolenPortDown port) := Nat.two_pow_pos 96
theorem Fits.dieLinkFailure (die dlc : Nat) : Statement (.dieLinkFailure die dlc) := Nat.two_pow_pos 96
theorem Fits.hostMemAccess (write : Bool) (off : Nat) (data : List Byte) : Statement (.hostMemAccess write off data) :=
  Nat.two_pow_pos 96
theorem Fits.hostWindowWrite (fn : HostFn) (reg : PReg) (v : Dword) : Statement (.hostWindowWrite fn reg v) :=
  Nat.two_pow_pos 96
theorem Fits.linkErrorClear (ctx : Nat) (v : Dword) : Statement (.linkErrorClear ctx v) := Nat.two_pow_pos 96
theorem Fits.registerWrite (reg : DevReg) (v : Dword) : Statement (.registerWrite reg v) := Nat.two_pow_pos 96
theorem Fits.attest : Statement (.attest) := Nat.two_pow_pos 96
theorem Fits.loadkey : Statement (.loadkey) := Nat.two_pow_pos 96
theorem Fits.clearkey : Statement (.clearkey) := Nat.two_pow_pos 96
theorem Fits.loadsess : Statement (.loadsess) := Nat.two_pow_pos 96
theorem Fits.stagefw : Statement (.stagefw) := Nat.two_pow_pos 96
theorem Fits.reset : Statement (.reset) := Nat.two_pow_pos 96
theorem Fits.clearlog : Statement (.clearlog) := Nat.two_pow_pos 96
theorem Fits.deviceReset : Statement (.deviceReset) := Nat.two_pow_pos 96
theorem Fits.clockStateChange (draw tj : Nat) : Statement (.clockStateChange draw tj) := Nat.two_pow_pos 96
theorem Fits.thermalTrip : Statement (.thermalTrip) := Nat.two_pow_pos 96
theorem Fits.correctableError : Statement (.correctableError) := Nat.two_pow_pos 96
theorem Fits.uncorrectableError (site : ErrSite) : Statement (.uncorrectableError site) := Nat.two_pow_pos 96
theorem Fits.compactionComplete (ctx : Nat) : Statement (.compactionComplete ctx) := Nat.two_pow_pos 96
theorem Fits.hostPathResponse (write : Option Nat) (gid pid lane : Nat) (reply : Option (List Byte)) : Statement (.hostPathResponse write gid pid lane reply) :=
  Nat.two_pow_pos 96

end Sys2Proof.Laws
end

