-- ==== Sys2Proof/Tests/Slice0.lean ====
section
/-! SUPPORT. The model's own tests: ill-formed terms, words decoded from the spec's encodings, one small step for the
instructions whose corners are most easily mistaken, and a witness for the hypotheses of every statement. -/
namespace Sys2Proof.Tests
open Sys2Proof.Machine
set_option Elab.async false

/-! Ill-formed terms, one for each check of `WellFormed` (R75-R90). -/

/-- No guard, no flag. -/
def plain : Hdr := ⟨.always, 0, 15⟩
/-- The same with a completion flag. -/
def flagged : Hdr := ⟨.always, 0, 2⟩
/-- Only lanes with a non-zero v9. -/
def guarded : Hdr := ⟨.nz, 9, 15⟩
/-- A memory form: base v0, no index, 32 bits, data v6. -/
def fm : FM := ⟨.near, 0, false, .t, .fault, .b32, 0, 384, 0, 6⟩

theorem test_wf_header : (Instr.nop ⟨.always, 5, 15⟩).wf = false ∧ (Instr.nop ⟨.nz, 385, 15⟩).wf = false ∧
    (Instr.nop ⟨.z, 384, 15⟩).wf = true ∧ (Instr.div ⟨.always, 0, 12⟩ .i32 1 2 3).wf = false ∧
    (Instr.div ⟨.always, 0, 11⟩ .i32 1 2 3).wf = true ∧ (Instr.add flagged .i32 1 2 3).wf = false := by decide
theorem test_wf_no_guard : (Instr.ret guarded).wf = false ∧ (Instr.bra guarded ⟨0, 0⟩).wf = false ∧
    (Instr.step guarded .t).wf = false ∧ (Instr.idle guarded).wf = false ∧ (Instr.tlbinv guarded .all 384).wf = false ∧ (Instr.tlbinv plain .all 5).wf = false ∧
    (Instr.mmz guarded .f32 0).wf = false ∧ (Instr.thinv guarded 0).wf = false ∧ (Instr.exit guarded).wf = true := by decide
theorem test_wf_register : (Instr.add plain .i32 385 2 3).wf = false ∧ (Instr.add plain .i32 1 385 3).wf = false ∧
    (Instr.add plain .i32 1 2 385).wf = false ∧ (Instr.mad plain .i32 1 2 3 385).wf = false ∧
    (Instr.add plain .i32 384 384 384).wf = true := by decide
theorem test_wf_types : (Instr.add plain .f32 1 2 3).wf = false ∧ (Instr.mulh plain .i8 1 2 3).wf = false ∧
    (Instr.abs plain .n32 1 2).wf = false ∧ (Instr.and plain .i8 1 2 3).wf = false ∧ (Instr.fadd plain .i32 .rne 1 2 3).wf = false ∧
    (Instr.fdiv plain .f16x2 .rne 1 2 3).wf = false ∧ (Instr.movi plain .f64 1 0).wf = false ∧
    (Instr.shuf plain .i8 1 2 3).wf = false ∧ (Instr.redu plain .f32 .and 1 2).wf = false ∧
    (Instr.redu plain .i8 .sum 1 2).wf = false ∧ (Instr.gsel plain .i64 1 1 2 3).wf = false := by decide
theorem test_wf_target : (Instr.bra plain ⟨2 ^ 23, 0⟩).wf = false ∧ (Instr.bra plain ⟨-(2 ^ 23), 4⟩).wf = true ∧
    (Instr.bra plain ⟨0, 5⟩).wf = false ∧ (Instr.fbp plain 384 ⟨256, 0⟩ 0).wf = false ∧
    (Instr.fbp plain 384 ⟨-256, 0⟩ 0).wf = true ∧ (Instr.fbp plain 384 ⟨0, 0⟩ 1).wf = false := by decide
theorem test_wf_switch : (Instr.switch plain 1 []).wf = false ∧ (Instr.switch plain 1 (List.replicate 9 0)).wf = false ∧
    (Instr.switch plain 1 [64]).wf = false ∧ (Instr.switch plain 1 [-64, 63]).wf = true := by decide
theorem test_wf_loop : (Instr.loop plain (2 ^ 16) 1 none none none).wf = false ∧ (Instr.loop plain 1 0 none none none).wf = false ∧
    (Instr.loop plain 1 11 none none none).wf = false ∧ (Instr.loop plain 1 2 (some ⟨2, .f24, 1⟩) none none).wf = false ∧
    (Instr.loop plain 1 2 (some ⟨1, .f24, 64⟩) none none).wf = false ∧
    (Instr.loop plain 0xFFFF 10 (some ⟨9, .acc, -64⟩) none none).wf = true := by decide
theorem test_wf_immediates : (Instr.sysc plain (2 ^ 32)).wf = false ∧ (Instr.ids plain 1 12).wf = false ∧
    (Instr.wflag plain (2 ^ 12)).wf = false ∧ (Instr.yieldc plain .t 1 32 0).wf = false ∧ (Instr.ctr plain 1 32).wf = false ∧
    (Instr.stepn plain .t (2 ^ 32)).wf = false ∧ (Instr.gsel plain .b32 0 1 2 3).wf = false ∧
    (Instr.gsel plain .b32 9 1 2 3).wf = false ∧ (Instr.gsel plain .b32 8 1 2 3).wf = true := by decide
theorem test_wf_memory_form : (Instr.ld plain { fm with scale := 4 }).wf = false ∧ (Instr.ld plain { fm with disp := 2 ^ 23 }).wf = false ∧
    (Instr.ld plain { fm with v := true }).wf = false ∧ (Instr.ld plain { fm with scope := .g }).wf = false ∧
    (Instr.ldl plain { fm with aux := 5 }).wf = false ∧ (Instr.ldl plain { fm with width := .b64 }).wf = false ∧
    (Instr.ldt plain { fm with base := 64 }).wf = false ∧ (Instr.pst flagged fm).wf = false ∧
    (Instr.prf plain fm).wf = false ∧ (Instr.prf plain { fm with data := 0 }).wf = true := by decide
theorem test_wf_store_form : (Instr.sst plain { fm with rule := .sumI, width := .b16 }).wf = false ∧
    (Instr.sst plain { fm with rule := .cap, width := .b64 }).wf = false ∧ (Instr.sst plain { fm with v := true }).wf = false ∧
    (Instr.sst flagged { fm with v := true }).wf = true ∧ (Instr.sst flagged fm).wf = false ∧
    (Instr.sst flagged { fm with v := true, scale := 1 }).wf = false ∧ (Instr.sstl plain { fm with rule := .cap }).wf = false ∧
    (Instr.thst plain fm).wf = false ∧ (Instr.thst plain { fm with rule := .low }).wf = true := by decide
theorem test_wf_engine_form : (Instr.cpy plain { fm with disp := 32 }).wf = false ∧ (Instr.cpy plain { fm with disp := -1 }).wf = false ∧
    (Instr.cpy plain { fm with rule := .cap }).wf = false ∧ (Instr.cpy plain { fm with scale := 1 }).wf = false ∧
    (Instr.zfill plain fm).wf = false ∧ (Instr.zfill plain { fm with aux := 0, disp := 31 }).wf = true := by decide
theorem test_wf_conversion : (Instr.cvt plain (.qImm (2 ^ 16)) (.el .f32) .rne false 1 2).wf = false ∧
    (Instr.cvt plain (.qReg 385) (.el .f32) .rne false 1 2).wf = false ∧
    (Instr.cvt plain (.qImm 0) (.qImm 0) .rne false 1 2).wf = false ∧
    (Instr.cvt plain (.el .f16x2) (.el .f32) .rne false 1 2).wf = false ∧
    (Instr.pack plain (.el .f32) (.el .f16x2) .rne false 1 2).wf = false ∧
    (Instr.unpack plain (.el .f32) (.el .f16x2) .rne false 1 2).wf = true := by decide
theorem test_wf_tensor : (Instr.mma plain .i32 false true false false 0 0 0 0).wf = false ∧
    (Instr.mma plain .f32 false true false false 16 0 0 0).wf = false ∧ (Instr.mma plain .f32 false true false false 0 64 0 0).wf = false ∧
    (Instr.thset plain 0 32 1).wf = false ∧ (Instr.mmrd plain 1 2 16).wf = false ∧
    (Instr.mma plain .f32 false true true true 15 63 63 384).wf = true := by decide
theorem test_wf_device : (Instr.bind 64).wf = false ∧ (Instr.bind 63).wf = true ∧ (Instr.queueLoad 0 0 256).wf = false ∧
    (Instr.functionLevelReset 0).wf = false ∧ (Instr.functionLevelReset 64).wf = true ∧ (Instr.prolenPortDown 16).wf = false ∧
    (Instr.dieLinkFailure 8 0).wf = false ∧ (Instr.dieLinkFailure 7 5).wf = false ∧ (Instr.doorbell 0 65536).wf = false := by decide

/-! Words written out from the spec's own encodings (04_encoding, 08_group, 09_step, 11_traps, 14_isa_vector to
16_isa_matrix). -/

/-- A slot of three 32-bit words. -/
def word (a b c : Nat) : Nat := a + 2 ^ 32 * b + 2 ^ 64 * c

theorem test_word_add : decodeTableWord 96 (word 0x06001E40 0x3000200A 0) = some (.add plain .i32 6 5 8) := by decide
theorem test_word_fma : decodeTableWord 96 (word 0x0A001E83 0x20301408 1) = some (.fma plain .f32 .rne 10 4 5 6) := by decide
theorem test_word_cvt : decodeTableWord 96 (word 0x04001EC0 0x0890000A 0x20F8E) =
    some (.cvt plain (.qImm 33763) (.el .f32) .rne true 4 5) := by decide
theorem test_word_gsel : decodeTableWord 96 (word 0x14001EC7 0x30007810 0x60) = some (.gsel plain .i32 4 20 8 30) := by decide
theorem test_word_nop : decodeTableWord 96 0x1E00 = some (.nop plain) := by decide
theorem test_word_bdiv : decodeTableWord 96 (word 0x03001E05 0xA0000020 0x00800001) = some (.bdiv plain .z 3 ⟨2, 0⟩ ⟨3, 2⟩) := by decide
theorem test_word_loop : decodeTableWord 96 (word 0x1E0C 0x204A0008 0x5010) =
    some (.loop plain 4 2 (some ⟨0, .f24, 1⟩) (some ⟨1, .f33, 1⟩) none) := by decide
theorem test_word_step : decodeTableWord 96 (word 0x1E11 0 0x20000) = some (.step plain .g) := by decide
theorem test_word_yieldc : decodeTableWord 96 (word 0x1E12 0x00020C12 0) = some (.yieldc plain .t 9 3 4) := by decide
theorem test_word_fbp : decodeTableWord 96 (word 0x14001E15 0xE060 0) = some (.fbp plain 20 ⟨6, 0⟩ 7) := by decide
theorem test_word_sysc : decodeTableWord 96 (word 0x1E16 0x1400 0) = some (.sysc plain 5) := by decide
theorem test_word_tret : decodeTableWord 96 (word 0x1E18 0x300 0) = some (.tret plain 384) := by decide
theorem test_word_mfk : decodeTableWord 96 (word 0x0A001E1A 2 0) = some (.mfk plain 10 .kuFnver) := by decide
theorem test_word_tlbinv : decodeTableWord 96 (word 0x1E1C 8 0x20) = some (.tlbinv plain .va 4) := by decide
theorem test_word_ld : decodeTableWord 96 (word 0x04000100 0x00801804 0x00401000) =
    some (.ld ⟨.always, 0, 0⟩ { fm with scale := 2, disp := 16, aux := 6, base := 2, data := 4 }) := by decide
theorem test_word_sst : decodeTableWord 96 (word 0x06001F03 0x00060004 0x1000) =
    some (.sst plain ⟨.near, 0, false, .t, .fault, .b32, 0, 384, 2, 6⟩) := by decide
theorem test_word_sst_sum : decodeTableWord 96 (word 0x06000303 0x3004 0x00195000) =
    some (.sst ⟨.always, 0, 1⟩ ⟨.near, 0, true, .g, .sumI, .b32, 0, 12, 2, 6⟩) := by decide
theorem test_word_cpy : decodeTableWord 96 (word 0x0E001F40 0x00183014 0x1000) =
    some (.cpy plain ⟨.near, 0, false, .t, .fault, .b32, 3, 12, 10, 14⟩) := by decide
theorem test_word_ctr : decodeTableWord 96 (word 0x14000546 0xC00 0) = some (.ctr ⟨.always, 0, 2⟩ 20 3) := by decide
theorem test_word_tagq : decodeTableWord 96 (word 0x08000349 0xC 0) = some (.tagq ⟨.always, 0, 1⟩ 8 6) := by decide
theorem test_word_thset : decodeTableWord 96 (word 0x0A001F82 0x286 0) = some (.thset plain 3 5 10) := by decide
theorem test_word_mma : decodeTableWord 96 (word 0x02000787 0x00030008 0x48) =
    some (.mma ⟨.always, 0, 3⟩ .f32 false false false false 2 0 1 6) := by decide
theorem test_word_mmrd : decodeTableWord 96 (word 0x0800058B 0x90000008 0xA0) = some (.mmrd ⟨.always, 0, 2⟩ 8 4 5) := by decide
theorem test_word_illegal : decodeTableWord 96 0 = none ∧ decodeTableWord 96 (word 0x06001E40 0x3000200A 0x80000000) = none := by
  decide

/-! A small state: one team of one group, whose single split holds lanes 0 and 1. -/

/-- The split of lanes 0 and 1. -/
def sp0 : Split := { Split.born bootGrid.entry with mask := 3 }
/-- A group with some registers written: register, lane, value. -/
def grp (ws : List (Nat × Nat × Nat)) : Group :=
  { ({ Group.born bootGrid 0 0 0 ⟨0, 0, 0, 0, 384, 16⟩ with regs := [] } : Group).apply
      (ws.map (fun w => (w.2.1, w.1, BitVec.ofNat 32 w.2.2))) with
    live := 3, splits := [(0, sp0)] }
/-- The same value in both lanes. -/
def both (ws : List (Nat × Nat)) : List (Nat × Nat × Nat) := ws.flatMap (fun w => [(w.1, 0, w.2), (w.1, 1, w.2)])
/-- Its team. -/
def tm0 : Team := Team.born 0 bootGrid 0 0 ⟨0, 0, []⟩
/-- Pages that every access below finds cached: code and data at 0x9000_0000 and the private pages of lanes 0 and 1. -/
def tlb0 : List TlbEntry :=
  [⟨0, 0x90000, 15, 0x90000, 15, 0x90000⟩, ⟨0, 0x90001, 15, 0x90001, 15, 0x90001⟩, ⟨0, 2 ^ 44, 15, 0x90002, 15, 0x90002⟩,
   ⟨0, 2 ^ 44 + 4096, 15, 0x90003, 15, 0x90003⟩]
/-- A state in which the group's split issues. -/
def st (g : Group) : State :=
  { State.reset with
    ctxs := [(0, { bootCtx Ctx.reset with tvec := 0x1000, hvec := 0x2000, pvec := 0x3000 })]
    mgmt := { Mgmt.reset with keys := [(0, 1)] }
    tlb := tlb0, grids := [(0, bootGrid)], teams := [(0, tm0)], groups := [(0, g)]
    nextGrid := 1, nextTeam := 1, nextGroup := 1, cur := some (0, 0) }
/-- The same with one line of code in memory at 0x9000_0000. -/
def stLine (g : Group) (line : Nat) : State := (st g).putRaw (.mem 0 1) 0x90000000 (leBytes 64 line)
/-- The view of the issuing split. -/
def vw (g : Group) : View := ⟨0, 0, g, (fget g.splits 0).getD sp0, 0, tm0, bootGrid, 0⟩
/-- The group with every pending result written. -/
def Group.settled (g : Group) : Group :=
  { g.pend.foldl (fun g p => g.apply p.writes) g with sticky := g.pend.foldl (fun x p => x ||| p.flags.setWidth 32) g.sticky }
/-- The group after an instruction. -/
def ran (i : Instr) (s : State) : Option Group := match exec i s with
  | .next t => fget t.groups 0
  | _ => none
/-- Registers of lane 0 after an instruction whose results have come, then the sticky flags. -/
def gives (i : Instr) (ws : List (Nat × Nat)) (rs : List Nat) : Option (List Nat × Nat) :=
  (ran i (st (grp (both ws)))).map (fun g => let g := Group.settled g; (rs.map (fun r => (g.rd r 0).toNat), g.sticky.toNat))

theorem test_add : gives (.add plain .i32 6 4 5) [(4, 0x7FFFFFFF), (5, 1)] [6] = some ([0x80000000], 0) ∧
    gives (.add plain .i8 6 4 5) [(4, 0x7F), (5, 1)] [6] = some ([0xFFFFFF80], 0) := by decide +kernel
theorem test_sub : gives (.sub plain .n16 6 4 5) [(4, 0), (5, 1)] [6] = some ([0xFFFF], 0) := by decide +kernel

/-! Integer and logic instructions (R298-R303). The expected values are worked out by hand from the rules. -/

theorem test_mul : gives (.mul plain .i16 6 4 5) [(4, 300), (5, 300)] [6] = some ([0x5F90], 0) := by decide +kernel
theorem test_mulh : gives (.mulh plain .n32 6 4 5) [(4, 0xFFFFFFFF), (5, 0xFFFFFFFF)] [6] = some ([0xFFFFFFFE], 0) ∧
    gives (.mulh plain .i32 6 4 5) [(4, 0xFFFFFFFF), (5, 0xFFFFFFFF)] [6] = some ([0], 0) := by decide +kernel
theorem test_mad : gives (.mad plain .i64 6 4 4 4) [(4, 0xFFFFFFFF), (5, 0)] [6, 7] = some ([0, 0xFFFFFFFF], 0) := by decide +kernel
theorem test_neg_abs : gives (.neg plain .i32 6 4) [(4, 1)] [6] = some ([0xFFFFFFFF], 0) ∧
    gives (.abs plain .i32 6 4) [(4, 0x80000000)] [6] = some ([0x80000000], 0) := by decide +kernel
theorem test_min_max : gives (.min plain .n32 6 4 5) [(4, 0xFFFFFFFF), (5, 1)] [6] = some ([1], 0) ∧
    gives (.max plain .i32 6 4 5) [(4, 0xFFFFFFFF), (5, 1)] [6] = some ([1], 0) := by decide +kernel
theorem test_clamp : gives (.clamp plain .i32 6 4 5 8) [(4, 5), (5, 10), (8, 3)] [6] = some ([3], 0x20) := by decide +kernel
theorem test_saturation : gives (.addsat plain .i8 6 4 5) [(4, 0x7F), (5, 1)] [6] = some ([0x7F], 0x20) ∧
    gives (.subsat plain .n8 6 4 5) [(4, 0), (5, 1)] [6] = some ([0], 0x20) := by decide +kernel
theorem test_logic : gives (.andn plain .b32 6 4 5) [(4, 0xFF), (5, 0x0F)] [6] = some ([0xF0], 0) ∧
    gives (.not plain .b32 6 4) [(4, 0xFF)] [6] = some ([0xFFFFFF00], 0) ∧
    gives (.and plain .b32 6 4 5) [(4, 12), (5, 10)] [6] = some ([8], 0) ∧
    gives (.or plain .b32 6 4 5) [(4, 12), (5, 10)] [6] = some ([14], 0) ∧
    gives (.xor plain .b32 6 4 5) [(4, 12), (5, 10)] [6] = some ([6], 0) := by decide +kernel
theorem test_shifts : gives (.shl plain .b32 6 4 5) [(4, 1), (5, 32)] [6] = some ([0], 0) ∧
    gives (.shr plain .b32 6 4 5) [(4, 0x80000000), (5, 31)] [6] = some ([1], 0) ∧
    gives (.sar plain .i32 6 4 5) [(4, 0x80000000), (5, 40)] [6] = some ([0xFFFFFFFF], 0) ∧
    gives (.rol plain .b32 6 4 5) [(4, 0x80000001), (5, 33)] [6] = some ([3], 0) := by decide +kernel
theorem test_fields : gives (.bfx plain .i32 6 4 5) [(4, 0xF0), (5, 0x0404)] [6] = some ([0xFFFFFFFF], 0) ∧
    gives (.bfi plain .b32 6 4 5 8) [(4, 5), (5, 0x0404), (8, 0xFFFFFFFF)] [6] = some ([0xFFFFFF5F], 0) := by decide +kernel
theorem test_counts : gives (.clz plain .n32 6 4) [(4, 0)] [6] = some ([32], 0) ∧
    gives (.ctz plain .n32 6 4) [(4, 8)] [6] = some ([3], 0) ∧ gives (.pop plain .b32 6 4) [(4, 0xF00F)] [6] = some ([8], 0) ∧
    gives (.brev plain .b32 6 4) [(4, 1)] [6] = some ([0x80000000], 0) := by decide +kernel
theorem test_cmp_sel : gives (.cmp plain .i32 .lt 6 4 5) [(4, 0xFFFFFFFF), (5, 1)] [6] = some ([1], 0) ∧
    gives (.cmp plain .n32 .lt 6 4 5) [(4, 0xFFFFFFFF), (5, 1)] [6] = some ([0], 0) ∧
    gives (.sel plain .b32 6 4 5 8) [(4, 3), (5, 4), (8, 0)] [6] = some ([4], 0) := by decide +kernel
theorem test_lea_mov : gives (.lea plain .i32 6 4 8) [(4, 0x10), (5, 1), (8, 0xFFFFFFFF)] [6, 7] = some ([0x0C, 1], 0) ∧
    gives (.mov plain .b64 6 4) [(4, 3), (5, 4)] [6, 7] = some ([3, 4], 0) ∧
    gives (.movi plain .i64 6 0xFFFFFFFF) [] [6, 7] = some ([0xFFFFFFFF, 0xFFFFFFFF], 0) := by decide +kernel
theorem test_div_rem : gives (.div plain .i32 6 4 5) [(4, 0x80000000), (5, 0xFFFFFFFF)] [6] = some ([0x80000000], 0) ∧
    gives (.div plain .n32 6 4 5) [(4, 7), (5, 0)] [6] = some ([0xFFFFFFFF], 0) ∧
    gives (.rem plain .i32 6 4 5) [(4, 0xFFFFFFF9), (5, 2)] [6] = some ([0xFFFFFFFF], 0) ∧
    gives (.rem plain .n32 6 4 5) [(4, 7), (5, 0)] [6] = some ([7], 0) := by decide +kernel

/-! Float instructions (R304-R309, R316-R325). Flags: invalid 1, divide by zero 2, overflow 4, underflow 8, inexact 16. -/

theorem test_fadd_fsub : gives (.fadd plain .f32 .rne 6 4 5) [(4, 0x3F800000), (5, 0x33800000)] [6] = some ([0x3F800000], 16) ∧
    gives (.fsub plain .f32 .rne 6 4 5) [(4, 0x7F800000), (5, 0x7F800000)] [6] = some ([0x7FC00000], 1) := by decide +kernel
theorem test_fmul_fma : gives (.fmul plain .f32 .rtz 6 4 5) [(4, 0x7F7FFFFF), (5, 0x40000000)] [6] = some ([0x7F7FFFFF], 20) ∧
    gives (.fma plain .f16x2 .rne 6 4 4 5) [(4, 0x40003C00), (5, 0xC4003C00)] [6] = some ([0x00004000], 0) := by decide +kernel
theorem test_fdiv_fsqrt : gives (.fdiv plain .f32 .rne 6 4 5) [(4, 0x3F800000), (5, 0x80000000)] [6] = some ([0xFF800000], 2) ∧
    gives (.fsqrt plain .f32 .rne 6 4) [(4, 0xBF800000)] [6] = some ([0x7FC00000], 1) := by decide +kernel
theorem test_fmin_fmax : gives (.fmin plain .f32 6 4 5) [(4, 0), (5, 0x80000000)] [6] = some ([0x80000000], 0) ∧
    gives (.fmax plain .f32 6 4 5) [(4, 0x7FC00000), (5, 0x3F800000)] [6] = some ([0x3F800000], 0) ∧
    gives (.fclamp plain .f32 6 4 5 8) [(4, 0x40400000), (5, 0), (8, 0x3F800000)] [6] = some ([0x3F800000], 0) := by decide +kernel
theorem test_sign_bits : gives (.fabs plain .f32 6 4) [(4, 0xBF800000)] [6] = some ([0x3F800000], 0) ∧
    gives (.fneg plain .f32 6 4) [(4, 0x7F800001)] [6] = some ([0x7FC00000], 1) ∧
    gives (.fcopysign plain .f32 6 4 5) [(4, 0x3F800000), (5, 0x80000000)] [6] = some ([0xBF800000], 0) := by decide +kernel
theorem test_fcmp_fclass : gives (.fcmp plain .f32 false .ne 6 4 5) [(4, 0x7FC00000), (5, 0)] [6] = some ([1], 0) ∧
    gives (.fcmp plain .f32 true .lt 6 4 5) [(4, 0x7FC00000), (5, 0)] [6] = some ([0], 1) ∧
    gives (.fclass plain .f32 6 4) [(4, 0x80000000)] [6] = some ([0x20], 0) := by decide +kernel
theorem test_frnd_fscale : gives (.frnd plain .f32 .rne 6 4) [(4, 0x40200000)] [6] = some ([0x40000000], 0) ∧
    gives (.fscale plain .f32 .rne 6 4 5) [(4, 0x3F800000), (5, 0xFFFFFF6A)] [6] = some ([0], 24) := by decide +kernel
theorem test_fexp_fmant : gives (.fexp plain .f32 6 4) [(4, 0x41400000)] [6] = some ([3], 0) ∧
    gives (.fexp plain .f32 6 4) [(4, 0x7F800000)] [6] = some ([0x7FFFFFFF], 1) ∧
    gives (.fmant plain .f32 6 4) [(4, 0x41400000)] [6] = some ([0x3FC00000], 0) := by decide +kernel
theorem test_transcendentals : gives (.frcp plain 6 4) [(4, 0x80000000)] [6] = some ([0xFF800000], 2) ∧
    gives (.frsq plain 6 4) [(4, 0xBF800000)] [6] = some ([0x7FC00000], 1) ∧
    gives (.fexp2 plain 6 4) [(4, 0x40400000)] [6] = some ([0x41000000], 0) ∧
    gives (.flog2 plain 6 4) [(4, 0x41000000)] [6] = some ([0x40400000], 0) ∧
    gives (.fsinpi plain 6 4) [(4, 0x3F000000)] [6] = some ([0x3F800000], 0) ∧
    gives (.fcospi plain 6 4) [(4, 0x3F800000)] [6] = some ([0xBF800000], 0) ∧
    gives (.ftanh plain 6 4) [(4, 0xC1200000)] [6] = some ([0xBF800000], 16) := by decide +kernel
theorem test_cvt : gives (.cvt plain (.el .i32) (.el .f32) .rtz false 6 4) [(4, 0xC06CCCCD)] [6] = some ([0xFFFFFFFD], 16) ∧
    gives (.cvt plain (.el .n8) (.el .f32) .rne true 6 4) [(4, 0x43800000)] [6] = some ([0xFF], 0x20) := by decide +kernel
theorem test_pack_unpack : gives (.unpack plain (.el .f32) (.el .f16x2) .rne false 6 4) [(4, 0x40003C00)] [6, 7] =
      some ([0x3F800000, 0x40000000], 0) ∧
    gives (.pack plain (.el .f16x2) (.el .f32) .rne false 6 4) [(4, 0x3F800000), (5, 0x40000000)] [6] =
      some ([0x40003C00], 0) := by decide +kernel

/-! Across lanes (R310-R315). Lane 0 holds 10 in v4, lane 1 holds 20. -/

/-- Registers of both lanes after an instruction. -/
def lanes2 (i : Instr) (ws : List (Nat × Nat × Nat)) (r : Nat) : Option (Nat × Nat) :=
  (ran i (st (grp ws))).map (fun g => let g := Group.settled g; ((g.rd r 0).toNat, (g.rd r 1).toNat))
/-- The values of v4, and one value of v5. -/
def pair (n : Nat) : List (Nat × Nat × Nat) := [(4, 0, 10), (4, 1, 20), (5, 0, n), (5, 1, n)]

theorem test_shuffles : lanes2 (.shuf plain .b32 6 4 5) (pair 1) 6 = some (20, 20) ∧
    lanes2 (.shufup plain .b32 6 4 5) (pair 1) 6 = some (10, 10) ∧ lanes2 (.shufdn plain .b32 6 4 5) (pair 1) 6 = some (20, 20) ∧
    lanes2 (.shufx plain .b32 6 4 5) (pair 1) 6 = some (20, 10) ∧ lanes2 (.bcast plain .b32 6 4 5) (pair 0) 6 = some (10, 10) ∧
    lanes2 (.gsel plain .b32 2 6 4 5) (pair 33) 6 = some (33, 33) ∧ lanes2 (.gsel plain .b32 2 6 4 5) (pair 64) 6 = some (0, 0) := by
  decide +kernel
theorem test_vote_redu_scan : lanes2 (.vote plain .ballot 6 4) (pair 0) 6 = some (3, 3) ∧
    lanes2 (.vote plain .uni 6 4) (pair 0) 6 = some (0, 0) ∧ lanes2 (.redu plain .i32 .sum 6 4) (pair 0) 6 = some (30, 30) ∧
    lanes2 (.scan plain .i32 .sum 6 4) (pair 0) 6 = some (10, 30) ∧
    lanes2 (.redu plain .f32 .sum 6 4) [(4, 0, 0x3F800000), (4, 1, 0x40000000)] 6 = some (0x40400000, 0x40400000) := by
  decide +kernel
theorem test_ids_mfk : lanes2 (.ids plain 6 0) [] 6 = some (0, 1) ∧ lanes2 (.ids plain 6 11) [] 6 = some (0, 1) ∧
    lanes2 (.mfk plain 6 .kuDet) [] 6 = some (0x101, 0x101) := by decide +kernel
theorem test_guard : lanes2 (.add ⟨.nz, 5, 15⟩ .i32 6 4 4) [(4, 0, 10), (4, 1, 20), (5, 1, 1), (6, 0, 7)] 6 = some (7, 40) ∧
    lanes2 (.add ⟨.z, 5, 15⟩ .i32 6 4 4) [(4, 0, 10), (4, 1, 20), (5, 1, 1), (6, 1, 7)] 6 = some (20, 7) := by decide +kernel
theorem test_vz : lanes2 (.add plain .i32 384 4 4) (pair 0) 384 = some (0, 0) := by decide +kernel

/-! Witnesses: for each statement, states and operands that meet its hypotheses, clause by clause. -/

/-- The instructions pass their checks in a state with no register written. -/
abbrev Meets (is : List Instr) : Prop := ∀ i ∈ is, Ready i (st (grp [])) (vw (grp []))

theorem met_IntegerArithmeticIsExact : Meets [.add plain .i8 6 4 5, .sub plain .n64 6 4 8, .mul plain .i16 6 4 5,
    .mulh plain .i32 6 4 5, .mad guarded .n32 6 4 5 8, .neg plain .i64 6 4, .abs plain .i8 6 4, .min plain .n8 6 4 5,
    .max plain .i64 6 4 8, .clamp plain .i32 6 4 5 8, .addsat plain .n16 6 4 5, .subsat plain .i32 384 384 383] := by
  decide +kernel
theorem met_LogicShiftsAndMoves : Meets [.and plain .b64 6 4 8, .or plain .b32 6 4 5, .xor plain .b32 6 4 5, .not plain .b64 6 4,
    .andn plain .b32 6 4 5, .shl plain .b64 6 4 8, .shr plain .b32 6 4 5, .sar plain .i64 6 4 8, .rol guarded .b32 6 4 5,
    .bfx plain .i32 6 4 5, .bfi plain .b32 6 4 5 8, .pop plain .b64 6 4, .clz plain .n32 6 4, .ctz plain .n64 6 4,
    .brev plain .b32 6 4, .sel plain .b64 6 4 8 10, .cmp plain .i16 .le 6 4 5, .lea plain .n32 6 4 8, .mov plain .b64 382 384,
    .movi plain .i64 6 (2 ^ 32 - 1)] := by decide +kernel
theorem met_DivisionTruncates : Meets [.div flagged .i64 6 4 8, .rem plain .n32 6 4 5] := by decide +kernel
theorem met_FloatOperationsRoundOnce : Meets [.fadd plain .f16 .rne 6 4 5, .fsub plain .f64 .rtz 6 4 8, .fmul plain .bf16x2 .rup 6 4 5,
    .fma plain .f16x2 .rdn 6 4 5 8, .fdiv flagged .f32 .rne 6 4 5, .fsqrt plain .f64 .rne 6 4] := by decide +kernel
theorem met_FloatBitsAndComparisons : Meets [.fmin plain .f16x2 6 4 5, .fmax plain .f64 6 4 8, .fclamp plain .bf16 6 4 5 8,
    .fabs plain .f32 6 4, .fneg plain .f16 6 4, .fcopysign plain .f64 6 4 8, .fcmp plain .f32 true .uno 6 4 5,
    .fclass plain .f64 6 4] := by decide +kernel
theorem met_FloatIntegralScaleAndParts : Meets [.frnd plain .f32 .rup 6 4, .fscale plain .f64 .rne 6 4 8, .fexp plain .f64 6 4,
    .fmant plain .f16 6 4] := by decide +kernel
theorem met_TranscendentalsAreLongLatency : Meets [.frcp plain 6 4, .frsq flagged 6 4, .fexp2 plain 6 4, .flog2 plain 6 4,
      .fsinpi plain 6 4, .fcospi plain 6 4, .ftanh guarded 6 4] ∧
    (let f := Fmt.f32
     f.nan 0x7F800001 = true ∧ f.nan 0xFFFFFFFF = true ∧ (f.decode 0x7F800000).isInf = true ∧ (f.decode 0xFF800000).isInf = true ∧
     (f.decode 0).isZero = true ∧ (f.decode 0x80000000).isZero = true ∧
     (∀ x ∈ [0x80000001, 0xFF7FFFFF, 0xFF800000], f.sgn x = true ∧ f.nan x = false ∧ (f.decode x).isZero = false) ∧
     (∀ x ∈ [0x41100000, 0x7F7FFFFF, 0xC1100000, 0xFF7FFFFF], f.expo x < 255 ∧ 0x41100000 ≤ x % 2 ^ 31)) := by decide +kernel
theorem met_ConversionsAndTheirRecords : Meets [.cvt plain (.el .f64) (.qReg 4) .rne false 6 8,
      .pack plain (.qImm 33763) (.el .f32) .rne true 6 4, .unpack plain (.el .f32) (.el .f16x2) .rtz false 6 4] ∧
    (let agree := fun (g : Group) (dt st : ConvTy) =>
       ∀ e ∈ recsOf g [0, 1] dt st, e.2 = ((recsOf g [0, 1] dt st).headD (0, 0)).2 ∧ e.2 < 2 ^ 16 ∧ (QRec.of e.2).valid = true
     agree (grp []) (.qImm 33763) (.el .f32) ∧ agree (grp []) (.el .f64) (.el .f32) ∧ agree (grp (both [(4, 33763)])) (.qReg 4) (.el .f32) ∧
     ¬ agree (grp []) (.qImm 0xFFFF) (.el .f32) ∧ ¬ agree (grp [(4, 0, 33763)]) (.qReg 4) (.el .f32)) := by decide +kernel
theorem met_ShufflesMoveLanes : Meets [.shuf plain .b32 6 4 5, .shufup plain .b64 6 4 8, .shufdn plain .f16x2 6 4 5,
    .shufx guarded .i64 6 4 8, .bcast plain .f32 6 4 5, .gsel plain .b32 8 6 376 5] := by decide +kernel
theorem met_VotesAndReductions : Meets [.vote plain .any 6 4, .vote plain .all 6 4, .vote plain .ballot 6 4, .vote guarded .uni 6 4,
      .redu plain .i64 .sum 6 4, .scan plain .b32 .xor 6 4, .redu plain .f32 .sum 6 4, .scan plain .f64 .max 6 4] ∧
    ElemTy.i64.isFloat = false ∧ ElemTy.b32.isFloat = false ∧ ElemTy.f32.isFloat = true ∧ ElemTy.f64.isFloat = true := by decide +kernel

/-- The group with its split changed. -/
def grpSp (f : Split → Split) (g : Group) : Group := { g with splits := [(0, f ((fget g.splits 0).getD sp0))] }
/-- A group whose split runs in hypervisor mode, outside a handler. -/
def hyp (ws : List (Nat × Nat)) : Group := grpSp (fun sp => { sp with mode := .hyp }) (grp (both ws))
/-- A trap level of cause c whose handler returns to the first split. -/
def level (c : Nat) : TrapLevel :=
  { lid := 2, ret := some sp0, cause := c, sub := 0, from_ := .user, epc := 0x90000000#64, resume := 0x90000000#64, tval := []
    lmask := 3, amask := 3, hflags := 0, idled := false }
/-- A group whose split runs a supervisor handler of cause c, at depth d. -/
def handler (c d : Nat) (ws : List (Nat × Nat)) : Group :=
  { grpSp (fun sp => { sp with mode := .sup, tdepth := d, lv := some 2 }) (grp (both ws)) with levels := [(2, level c)], nextId := 3 }
/-- Every privileged register. -/
def pregs : List PReg := [.kuDet, .kuFnver, .kuTime, .ksStatus, .ksCause, .ksEpc, .ksTval, .ksLmask, .ksAmask, .ksTvec, .ksPvec,
  .ksPtbase, .ksScring, .ksScsize, .ksPhys, .khCtl, .khCsel, .khPdesc, .khSarea, .khSalen, .khQos, .khVf, .khPtbase2, .khMemkey,
  .khHvec, .khFwver]
/-- One line of code in memory: five `nop`s, each marked as a target. -/
def sc (g : Group) : State := stLine g (lineWith 0x1E00)

/-- Instructions that pass their checks, each in the state of a group. -/
abbrev Fits (xs : List (Instr × Group)) : Prop := ∀ x ∈ xs, Ready x.1 (st x.2) (vw x.2)
/-- A group with a pending result under completion flag 11. -/
def owes11 : Group := { grp [] with pend := [{ Pending.blank 11 with regs := [(0, 6)] }] }

theorem met_SpecialRegisterReads : Meets [.ids plain 6 0, .ids guarded 6 11, .fflg plain 6, .fclr plain 4, .fclr guarded 4] ∧
    Fits ((.mfk plain 6 .ksCause, handler 0x39 1 []) :: pregs.map (fun k => (.mfk plain 6 k, hyp []))) := by decide +kernel
/-- Those that an instruction may write. -/
def written : List PReg := pregs.filter (fun k => modeOk .hyp (.mtk plain 4 k))

theorem met_SpecialRegisterWrites :
    written.length = 19 ∧ Fits (written.map (fun k => (.mtk guarded 4 k, hyp []))) ∧ (vw (hyp [])).part guarded = 0 ∧ (vw (hyp [])).part plain ≠ 0 ∧
    Fits [(.mtk plain 4 .khHvec, hyp [(4, 1)]), (.mtk plain 4 .khHvec, hyp [(4, 48)]), (.mtk plain 4 .ksEpc, handler 0x39 1 [(4, 12)]),
      (.mtk plain 4 .khCtl, hyp [(4, 0)]), (.mtk plain 4 .khCtl, hyp [(4, 9)]), (.tlbinv plain .all 384, hyp []),
      (.tlbinv plain .va 4, hyp []), (.tlbinv plain .ipa 4, hyp []), (.tlbinv plain .ctx 384, hyp [])] ∧
    illegalValue Ctx.reset .khHvec 1 = true ∧ illegalValue Ctx.reset .khHvec 48 = false ∧
    illegalValue Ctx.reset .khCtl 0 = false ∧ illegalValue Ctx.reset .khCtl 9 = false := by decide +kernel
theorem met_UniformTransfers :
    ((0x0200000000000000#64).toNat = 2 ^ 57 ∧ (0x01FFFFFFFFFFFFFF#64).toNat < 2 ^ 57 ∧
     ((sc (grp [])).fetchLine 0 true 0x01FFFFFFFFFFFFC0#64).toOption = none ∧
     (((sc (grp [])).fetchLine 0 true 0x90000000#64).toOption.map (fun x => parityOk x.1)) = some true ∧
     (((stLine (grp []) (lineWith 0x1E00 + 1)).fetchLine 0 true 0x90000000#64).toOption.map (fun x => parityOk x.1)) =
       some false) ∧
    ((∀ i ∈ [Instr.bra plain ⟨0, 1⟩, .bany plain .nz 4 ⟨0, 1⟩, .ball plain .z 4 ⟨0, 1⟩, .bnone plain .neg 4 ⟨0, 1⟩,
        .bnone plain .nneg 4 ⟨0, 1⟩], Ready i (sc (grp [])) (vw (grp []))) ∧
     (sc (grp [])).checkPc 0 true (Target.pcFrom ⟨0, 1⟩ 0x90000000#64) = none ∧
     (sc (grp [])).checkPc 0 true (Target.pcFrom ⟨1, 0⟩ 0x90000000#64) = some ⟨0x02, 0x90000040#64⟩) ∧
    Fits [(.nop plain, owes11), (.prf plain { fm with data := 0 }, owes11), (.wflag plain 0x7FF, owes11), (.wflag plain 0x800, owes11)] ∧
    ¬ (∃ n < 12, bit 0x7FF n = true ∧ ∃ p ∈ owes11.pend, p.flag = n) ∧
    (∃ n < 12, bit 0x800 n = true ∧ ∃ p ∈ owes11.pend, p.flag = n) := by decide +kernel

/-- A line of five slots and its line word, with its parity bits (R70, R71). -/
def lineBits (slots w : Nat) : Nat :=
  let par := (List.range 5).foldl (fun m i => m + if parity 96 (slots / 2 ^ (96 * i) % 2 ^ 96) then 2 ^ (26 + i) else 0) w
  slots + (par + if parity 31 par then 2 ^ 31 else 0) * 2 ^ 480
/-- A line of code, and behind it a table whose default is slot 1 of the code line and whose first entry is slot 2 (R74). -/
def sw (g : Group) : State := (sc g).putRaw (.mem 0 1) 0x90000040 (leBytes 64 (lineBits (1 + 2 * 2 ^ 32) (2 ^ 21)))
/-- Lane 0 has 1 in v4 and slot 1 as its PC in v8, lane 1 zero and slot 2. -/
def apart : Group := grp [(4, 0, 1), (8, 0, 0x9000000C), (8, 1, 0x90000018)]
/-- An active loop over two slots. -/
def looping (n : Nat) : LoopSt := ⟨0x90000000#64, BitVec.ofNat 32 n, 0, 2, none, none, none⟩
/-- Lane 0 alone in the issuing split, lane 1 in another; both rejoin at slot 1. -/
def twoSplits (st1 : SplitState) (e : List StackEntry) : Group :=
  { grp [] with
    splits := [(0, { sp0 with mask := 1, rejoin := 0x9000000C#64, jmask := 3, held := e, depth := e.length }),
      (1, { sp0 with sid := 1, age := 1, mask := 2, pc := 0x9000000C#64, rejoin := 0x9000000C#64, jmask := 3, held := e
                     depth := e.length, place := .resident 1, st := st1 })]
    nextId := 2, nextAge := 2 }
/-- The group whose split rejoins at slot 1 with a stack. -/
def rejoins (pc : Dword) (es : List StackEntry) (n : Nat) : Group :=
  grpSp (fun sp => { sp with rejoin := pc, jmask := 3, held := es, depth := n }) (grp (both [(4, 0x9000000C)]))
/-- A return entry and a rejoin entry. -/
def retE (pc : Nat) : StackEntry := ⟨BitVec.ofNat 64 pc, 0, 0⟩
def joinE : StackEntry := ⟨pcNone, 0, 1⟩

theorem met_DivergenceDividesTheSplit :
    (∀ g ∈ [apart, grpSp (fun sp => { sp with loop := some (looping 3) }) apart, grpSp (fun sp => { sp with sbase := 64 }) apart],
      ∀ i ∈ [Instr.bdiv plain .nz 4 ⟨0, 1⟩ ⟨0, 2⟩, .switch plain 4 [1], .callr plain 6 8], Ready i (sw g) (vw g)) ∧
    ((∀ n ∈ [1, 2], (sw apart).checkPc 0 true (Target.pcFrom ⟨0, n⟩ 0x90000000#64) = none) ∧
     (vw apart).sp.place ≠ .dormant ∧ (vw apart).sp.held.length < 8 ∧ (vw apart).sp.sbase + (vw apart).sp.depth < 64 ∧
     2 ≤ apart.free + 1 ∧ (vw apart).sp.loop = none) ∧
    (((sw apart).fetchLine 0 true 0x90000040#64).toOption.isSome = true ∧ switchCheck 1 (sw apart) (vw apart) = none ∧
     (byDest [0, 1] (apart.rd64 8)).length = 2) ∧
    ([{ (vw apart).sp with mask := 2 }].length ≤ ((List.range 8).filter (fun n => apart.splits.all (fun e =>
       decide (e.2.place ≠ .resident n)))).length ∧ (∀ e ∈ apart.splits, e.2.st ≠ .join ∧ e.2.place ≠ .dormant ∧ e.1 < apart.nextId)) ∧
    fget (st apart).groups 0 = some apart ∧ fget apart.splits 0 = some (vw apart).sp :=
  ⟨by decide +kernel, by decide +kernel, by decide +kernel, by decide +kernel, rfl, rfl⟩
theorem met_JoinsAndMerges :
    (∀ g ∈ [grp [], rejoins 0x9000000C#64 [] 0, rejoins 0x9000000C#64 [retE 0] 1, rejoins 0x9000000C#64 [joinE] 1,
       twoSplits .ready [joinE]], Ready (.join plain ⟨0, 1⟩) (sc g) (vw g)) ∧
    (sc (grp [])).checkPc 0 true 0x9000000C#64 = none ∧ Target.pcFrom ⟨0, 1⟩ 0x90000000#64 = 0x9000000C#64 ∧
    (grp []).joinParts 0x9000000C#64 0 .user = [] ∧
    (((vw (twoSplits .ready [joinE])).sp.jmask &&& (twoSplits .ready [joinE]).live) &&& ~~~1#32 ≠ 0) ∧
    (((twoSplits .join [joinE]).setSplit 0 { (vw (twoSplits .join [joinE])).sp with pc := 0x9000000C#64, st := .join }).joinParts
       0x9000000C#64 3 .user).length = 2 := by decide +kernel
theorem met_CallsAndReturns :
    (∀ g ∈ [grp [], grpSp (fun sp => { sp with sbase := 64 }) (grp [])], Ready (.call plain ⟨0, 1⟩) (sc g) (vw g)) ∧
    (∀ g ∈ [grp [], rejoins 0#64 [retE 0x9000000C] 1, rejoins 0#64 [retE 4] 1, rejoins 0#64 [joinE] 1],
       Ready (.ret plain) (sc g) (vw g)) ∧
    ((sc (grp [])).checkPc 0 true 0x9000000C#64 = none ∧ (sc (grp [])).checkPc 0 true 4#64 ≠ none) ∧
    (∀ g ∈ [grp (both [(4, 0x9000000C)]), rejoins 0x9000000C#64 [] 0, rejoins 0x9000000C#64 [retE 0] 1, rejoins 0x9000000C#64 [joinE] 1],
       Ready (.retl plain 4) (sc g) (vw g) ∧ ∀ n ∈ [0, 1], (sc g).checkPc 0 true (g.rd64 4 n) = none) ∧
    (∀ g ∈ [apart, grpSp (fun sp => { sp with loop := some (looping 3) }) apart],
       Ready (.retl plain 8) (sc g) (vw g) ∧ ∀ n ∈ [0, 1], (sc g).checkPc 0 true (g.rd64 8 n) = none ∧ g.rd64 8 n ≠ (vw g).sp.rejoin) := by
  decide +kernel
theorem met_LoopsAdvance :
    (∀ g ∈ [grp (both [(4, 3)]), grp [], grpSp (fun sp => { sp with loop := some (looping 3) }) (grp [])],
       ∀ i ∈ [Instr.loop plain 0 2 (some ⟨0, .f24, 1⟩) none none, .loop plain 3 2 (some ⟨0, .f24, 1⟩) none none,
         .loopr plain 4 2 (some ⟨0, .f24, 1⟩) none none], Ready i (sc g) (vw g)) ∧
    (sc (grp [])).incCheck (vw (grp [])) ⟨0, .f24, 1⟩ = none ∧ (sc (grp [])).incCheck (vw (grp [])) ⟨0, .disp, 1⟩ = some ⟨0x01, 0⟩ ∧
    ((0x90000000#64).toNat % 64 % 12 = 0 ∧ (0x90000024#64).toNat % 64 % 12 = 0 ∧ (0x90000024#64).toNat % 64 < 48 ∧
     (0x90000030#64).toNat % 64 = 48) ∧
    (sp0.loop = none ∧ sp0.pc ≠ seqPc 2 (looping 3).pc ∧ seqPc 2 (looping 3).pc = 0x90000018#64 ∧
     1 < (looping 2).remaining.toNat ∧ (looping 1).remaining.toNat ≤ 1) := by decide +kernel
theorem met_ExitEndsLanes : Fits [(.exit guarded, grp []), (.exit ⟨.nz, 4, 15⟩, apart), (.exit plain, twoSplits .ready [joinE])] ∧
    (vw (grp [])).part guarded = 0 ∧ (vw apart).part ⟨.nz, 4, 15⟩ = 1 ∧
    (∀ e ∈ (twoSplits .ready [joinE]).splits, e.2.st ≠ .join ∧ e.2.place ≠ .dormant) := by decide +kernel

/-- A handler whose level is changed. -/
def handlerLv (c d : Nat) (f : TrapLevel → TrapLevel) : Group :=
  { handler c d [] with levels := [(2, f (level c))] }
/-- A group with a result of its split pending. -/
def owing (g : Group) : Group := { g with pend := [{ Pending.blank 3 with regs := [(0, 6)], lid := ((fget g.splits 0).bind (·.lv)) }] }
/-- A trap request of some lanes. -/
def req (m : LaneMask) (c : Nat) : TrapReq := trapAll m c 0x9000000C#64 7#64

theorem met_TrapEntrySavesAndVectors :
    Fits ([Instr.brk guarded 5, .sysc guarded 5, .trap guarded 5, .brk plain 5, .sysc plain 5, .trap plain (2 ^ 32 - 1)].map (·, grp [])
      ++ [(.hcall guarded 5, hyp []), (.hcall plain 5, hyp [])]) ∧
    (vw (grp [])).part guarded = 0 ∧ (vw (grp [])).part plain ≠ 0 ∧
    ((st (grp [])).viewOf 0 0).isSome = true ∧ (vw (grp [])).sp.tdepth = 0 ∧ (vw (grp [])).sp.mask &&& ~~~(req 3 0x39).lanes = 0 ∧
    (vw (grp [])).sp.mask &&& ~~~(req 1 0x2A).lanes ≠ 0 ∧ (grp []).freeEntry = some 1 ∧ (∀ e ∈ (grp []).splits, e.1 < (grp []).nextId) ∧
    ((st (handler 0x39 3 [])).viewOf 0 0).isSome = true ∧ 3 ≤ (vw (handler 0x39 3 [])).sp.tdepth ∧
    (handler 0x39 3 []).freeEntry = some 1 ∧ (∀ e ∈ (handler 0x39 3 []).splits, e.1 < (handler 0x39 3 []).nextId) := by decide +kernel
theorem met_IssueChecksInOrder :
    (st (grp [])).view? = some (vw (grp [])) ∧ (Instr.add plain .i32 6 4 5).isSlot = true ∧ (Instr.add plain .f32 6 4 5).wf = false ∧
    ((Instr.mtk plain 4 .ksTvec).wf = true ∧ modeOk .user (.mtk plain 4 .ksTvec) = false) ∧
    ((Instr.add plain .i64 6 5 4).wf = true ∧ modeOk .user (.add plain .i64 6 5 4) = true ∧
     ¬ (∀ u ∈ (vw (grp [])).uses (.add plain .i64 6 5 4), u.ok 384 16 64 = true)) ∧
    ((Instr.thinv plain 0).wf = true ∧ (∀ u ∈ (vw (twoSplits .ready [])).uses (.thinv plain 0), u.ok 384 16 64 = true) ∧
     (Instr.thinv plain 0).isMX = true ∧ (vw (twoSplits .ready [])).sp.mask ≠ (twoSplits .ready []).live) ∧
    ((∀ u ∈ (vw owes11).uses (.add plain .i32 7 6 6), u.ok 384 16 64 = true) ∧
     ((vw owes11).uses (.add plain .i32 7 6 6)).findSome? ((vw owes11).unsync (.add plain .i32 7 6 6)) = some 6) := by decide +kernel
theorem met_TrapReturnRestores :
    Fits [(.tret plain 384, hyp []), (.tret plain 384, handler 0x51 1 []), (.tret plain 384, handler 0x40 1 []),
      (.tret plain 384, owing (handler 0x39 1 [])), (.tret plain 4, handlerLv 0x39 1 (fun l => { l with epc := 4#64 })),
      (.tret plain 4, handler 0x39 1 [(4, 3)]), (.tret plain 4, handlerLv 0x40 1 (fun l => { l with idled := true, ret := none }))] ∧
    ((vw (hyp [])).sp.lv = none ∧ (vw (handler 0x39 1 [])).sp.lv.bind (fget (handler 0x39 1 []).levels) = some (level 0x39)) ∧
    (∃ p ∈ (owing (handler 0x39 1 [])).pend, p.lid = (vw (handler 0x39 1 [])).sp.lv) ∧
    ((st (handler 0x39 1 [])).checkPc 0 false 4#64 ≠ none ∧ (level 0x39).epc = (level 0x39).resume ∧
     (∀ e ∈ (handler 0x39 1 []).splits, e.1 < 3 ∧ e.2.st ≠ .join ∧ e.2.place ≠ .dormant)) := by decide +kernel
theorem met_IdleAndFlashbackPoints :
    Fits [(.idle plain, hyp []), (.idle plain, handler 0x39 1 []), (.idle plain, owing (handler 0x40 1 [])),
      (.idle plain, handler 0x40 1 []), (.fbp plain 4 ⟨0, 1⟩ 7, hyp []), (.fbp plain 4 ⟨0, 1⟩ 7, grp []),
      (.fbp plain 4 ⟨0, 1⟩ 7, grpSp (fun sp => { sp with window := some ⟨0, 0, 0, 0, none, 0⟩ }) (grp []))] ∧
    (vw (hyp [])).sp.lv = none ∧ (vw (handler 0x40 1 [])).sp.lv.bind (fget (handler 0x40 1 []).levels) = some (level 0x40) ∧
    (level 0x40).idled = false ∧ (grp []).anyWindow = false ∧
    (grpSp (fun sp => { sp with window := some ⟨0, 0, 0, 0, none, 0⟩ }) (grp [])).anyWindow = true := by decide +kernel
theorem met_StepsRaiseTheCounts :
    (∀ i ∈ [Instr.step plain .g, .stepn plain .d 0, .stepn plain .t (2 ^ 31 - 1), .stepn plain .t (2 ^ 31), .stepto plain .g 4,
       .yieldc plain .d 4 31 5],
      ∀ g ∈ [grp [], grp (both [(4, 1)]), handler 0x39 1 []], Ready i (st g) (vw g)) ∧
    (∀ i ∈ [Instr.step plain .d, .stepn plain .g 3, .stepto plain .g 4, .yieldc plain .g 4 0 0],
      Ready i { st (grp []) with grids := [(0, { bootGrid with residency := 1 })] }
        { vw (grp []) with gr := { bootGrid with residency := 1 } }) ∧
    ((vw (handler 0x39 1 [])).sp.tdepth = 1 ∧ (vw (grp [])).sp.tdepth = 0 ∧ bootGrid.residency = 3) := by decide +kernel

/-- Lane l has address a + 128 l in v0 and v1. -/
def addrs (a : Nat) (ws : List (Nat × Nat)) : Group :=
  grp (both ws ++ [(0, 0, a % 2 ^ 32), (1, 0, a / 2 ^ 32), (0, 1, (a + 128) % 2 ^ 32), (1, 1, (a + 128) / 2 ^ 32)])
/-- The who of lane 0. -/
def who0 : Who := (vw (grp [])).who 0
/-- Does an access pass its checks, and the trap of one that does not. -/
def meets (s : State) (w : Who) (u : Use) (ea n : Nat) : Nat := match s.reach w u (BitVec.ofNat 64 ea) n n with
  | .ok _ => 0
  | .error t => t.code
/-- A state whose context reaches one peer device. -/
def peered (g : Group) : State :=
  let s := st g
  s.setCtx 0 { s.ctx 0 with peers := [(1, BitVec.ofNat 64 (2 ^ 63))] }
/-- A full spoil buffer, and a full table of command records. -/
def fullSpoil (g : Group) : Group :=
  { g with spoil := List.replicate 64 ⟨0, 0, 0, .t, 0, .low, .b32, false, 15, 384, []⟩ }
def cmd0 : Cmd := { blankCmd .cpy { fm with aux := 2 } 0 0 0 with st := .cancelled, n := 4, dst := 0x90000100, src := 0x90000140 }

theorem met_MemoryReadsBackWhatWasWritten :
    (let s := st (grp [])
     { s with ctxs := [(0, { s.ctx 0 with scrub := [(0x1000, 0x1040)] })] }).scrubPending 0x103F = true ∧
    (∀ e ∈ (st (grp [])).ctxs, e.2.scrub = []) := by decide +kernel
theorem met_AccessChecksInOrder :
    [(0x0200000000000000, Use.load, 4), (0x90000101, .load, 4), (0x4000000000000FFE, .load, 2), (0x4000000000000FFF, .load, 1),
     (0x4000000000001000, .load, 1), (0x6000000100000000, .load, 4), (0x90000100, .pst, 4), (0xA000000000000000, .line, 128),
     (0xA000000000000000, .step .t .low, 4), (0x6000000000000000, .load, 4), (0x90000100, .load, 4), (0x1000000, .load, 4)].map
      (fun x => meets (st (grp [])) who0 x.2.1 x.1 x.2.2) = [0x20, 0x21, 0, 0, 0x22, 0x22, 0x24, 0x23, 0x24, 0, 0, 0x2A] ∧
    meets (st (grp [])) { who0 with wide := false } .load 0x6000000000000000 4 = 0x18 ∧
    ((st (grp [])).xlate 0 true false .r 0x90000100#64 0x90000100).toOption.isSome = true ∧
    ((st (grp [])).xlate 0 true false .r 0x1000000#64 0x1000000).toOption = none := by decide +kernel
theorem met_LoadsReadTheirBytes :
    Fits [(.ld plain fm, addrs 0x90000100 []), (.ld plain { fm with width := .b128, data := 8 }, addrs 0x4000000000000000 []),
      (.ld flagged fm, addrs 0x9000000000000000 []), (.ldl plain fm, addrs 0x90000100 []), (.ldl guarded fm, addrs 0x90000100 [])] ∧
    [0x90000100, 0x90000180, 0x4000000000000000, 0x9000000000000000].map (fun a => meets (st (grp [])) who0 .load a 16) = [0, 0, 0, 0x20] ∧
    meets (st (grp [])) who0 .line 0x90000100 128 = 0 ∧ meets (st (grp [])) who0 .line 0x90000140 128 = 0x21 ∧
    (Ready (.ld flagged fm) (peered (addrs 0xC000800000000000 [])) (vw (addrs 0xC000800000000000 [])) ∧
     meets (peered (grp [])) who0 .load 0xC000800000000080 4 = 0) ∧
    0 < (addrs 0x90000100 []).nextId := by decide +kernel
theorem met_StoresOfThreads :
    Fits ([Instr.sst plain fm, .sst flagged { fm with v := true, aux := 8 }, .sst plain { fm with rule := .cap }, .sst guarded fm,
        .sstl plain fm, .sstl guarded fm].map (·, addrs 0x90000100 []) ++
      [(.sst plain fm, fullSpoil (addrs 0x90000100 [])), (.sstl plain fm, fullSpoil (addrs 0x90000100 [])),
       (.sstl plain fm, addrs 0x90000140 []), (.sst plain fm, handler 0x39 1 [(0, 0x90000100)]),
       (.pst plain fm, addrs 0xA000000000000000 [])]) ∧
    (Ready (.sst plain { fm with scope := .g }) { st (addrs 0x90000100 []) with grids := [(0, { bootGrid with residency := 1 })] }
      { vw (addrs 0x90000100 []) with gr := { bootGrid with residency := 1 } }) ∧
    [0x90000100, 0x90000180].map (fun a => meets (st (grp [])) who0 (.step .t .fault) a 4) = [0, 0] ∧
    [0x90000100, 0x90000140].map (fun a => meets (st (grp [])) who0 (.step .t .fault) a 128) = [0, 0x21] ∧
    meets (st (grp [])) who0 .pst 0xA000000000000000 4 = 0 ∧ meets (st (grp [])) ((vw (grp [])).who 1) .pst 0xA000000000000080 4 = 0 ∧
    (fullSpoil (grp [])).spoil.length = 64 ∧ ((st (grp [])).ctx 0).stage.track = false := by decide +kernel
theorem met_EngineOperationsFork :
    Fits ([Instr.cpy plain { fm with aux := 2 }, .zfill plain { fm with aux := 0 }, .gth plain { fm with aux := 2 },
        .sct plain { fm with aux := 2 }, .cpyre plain 4 5, .cpyre guarded 4 5, .cpyq flagged 4, .cpyq guarded 4].flatMap
          (fun i => [(i, addrs 0x90000100 [(2, 0x90000200), (6, 64)]), (i, addrs 0x90000100 [(2, 0x90000200), (6, 3)])]) ++
      [(.cpy2d plain { fm with aux := 2, data := 8 }, addrs 0x90000100 [(2, 0x90000200), (8, 4), (9, 2), (10, 8), (11, 8)]),
       (.cpy2d plain { fm with aux := 2, data := 8 }, grp [])]) ∧
    (∀ r ∈ [(⟨0x90000100#64, some 0x90000200#64, 64⟩ : Run), ⟨0x90000180#64, none, 64⟩],
      ((st (grp [])).reachRuns who0 4 [r]).toOption.isSome = true) ∧
    tm0.cmds.length + 2 ≤ 16 ∧ (∀ e ∈ [(3, cmd0)], e.1 < 16) ∧
    ((st (grp [])).reachRuns who0 4 cmd0.runs).toOption.isSome = true ∧ bit 8 3 = true ∧ bit 7 3 = false := by decide +kernel
theorem met_CountersAndTags :
    Fits ([Instr.ctr flagged 6 31, .ctrset plain 31 4, .ctrset guarded 0 4, .tagq plain 6 4, .tagset plain 4 8, .tagclr plain 4].flatMap
      (fun i => [(i, grp []), (i, handler 0x39 1 []), (i, grp (both [(4, 1)]))])) ∧
    ((grp []).rd 4 0).toNat < bootGrid.spad / 4096 ∧ ¬ ((grp (both [(4, 1)])).rd 4 0).toNat < bootGrid.spad / 4096 ∧
    bits ((grp []).rd64 8 0).toNat 62 57 = 0 ∧ 0 < (grp []).nextId := by decide +kernel

/-- The words of a dense descriptor of two levels (R348): element code, layout, base address, extents, pitch. -/
def flatDesc (ecode layout vbase n m pitch : Nat) : FMap Word :=
  [(0, BitVec.ofNat 32 (2 ^ 16 * ecode + 2 ^ 24 * 2 + 2 ^ 27 * layout)), (2, BitVec.ofNat 32 vbase),
   (3, BitVec.ofNat 32 (vbase / 2 ^ 32)), (8, BitVec.ofNat 32 n), (12, BitVec.ofNat 32 m), (28, BitVec.ofNat 32 pitch)]
/-- The team with handles: 1 is f32 by rows, 2 n8 in planes, 3 n8 by rows, 4 f16 by rows, 5 i64 by rows. -/
def tmH : Team :=
  { tm0 with handles := [(1, ⟨true, flatDesc 0x12 0 0x90000100 2 2 0⟩), (2, ⟨true, flatDesc 0x05 3 0x90000100 1 2 32⟩),
      (3, ⟨true, flatDesc 0x05 0 0x90000200 1 2 0⟩), (4, ⟨true, flatDesc 0x10 0 0x90000300 2 2 0⟩),
      (5, ⟨true, flatDesc 0x04 0 0x90000400 2 2 0⟩)] }
/-- The state and the view with them. -/
def stH (g : Group) : State := { st g with teams := [(0, tmH)] }
def vwH (g : Group) : View := { vw g with tm := tmH }
/-- A group whose tile 1 is invalid and whose tile 2 holds integers. -/
def tiles (g : Group) : Group := { g with tiles := [(0, ⟨true, .f32, []⟩), (1, ⟨false, .f32, []⟩), (2, ⟨true, .i32, []⟩)] }
/-- Instructions that pass their checks with those handles. -/
abbrev FitsH (is : List Instr) (g : Group) : Prop := ∀ i ∈ is, Ready i (stH g) (vwH g)
/-- The descriptor of a handle. -/
def descH (h : Nat) : Desc := (tmH.desc h).getD ⟨0, 0, .el .i32, .row, 0, 0, 0, 0, 0, [], 0⟩
/-- A form that names a handle and coordinates in v8 and v9. -/
def fh (h : Nat) : FM := { fm with base := h, aux := 8 }

/-- The trap of a check that fails. -/
def trapOf {α : Type} (x : Except TrapInfo α) : Option TrapInfo := match x with
  | .ok _ => none
  | .error t => some t

theorem met_HandlesAreSetAndRead :
    FitsH [.thset plain 63 31 4, .thset plain 1 0 4, .thget plain 6 1 31, .thget plain 6 63 0, .thinv plain 1,
      .thld plain { fm with data := 63 }, .thld guarded { fm with data := 1 }, .thst plain { fm with rule := .low, data := 1 },
      .thst guarded { fm with rule := .low, data := 1 }] (addrs 0x90000100 []) ∧
    Ready (.thst plain { fm with rule := .low, data := 1 }) (stH (fullSpoil (addrs 0x90000100 [])))
      (vwH (fullSpoil (addrs 0x90000100 []))) ∧
    Ready (.thld plain { fm with data := 1 }) (stH (addrs 0x90000140 [])) (vwH (addrs 0x90000140 [])) ∧
    (meets (stH (grp [])) who0 .line 0x90000100 128 = 0 ∧ meets (stH (grp [])) who0 .line 0x90000140 128 = 0x21 ∧
     meets (stH (grp [])) who0 (.step .t .low) 0x90000100 128 = 0 ∧ storeScopeOk (vwH (grp [])) { fm with rule := .low } = true) := by
  decide +kernel
theorem met_TensorElementsLoadAndStore :
    FitsH [.ldt plain (fh 1), .ldt guarded (fh 1), .ldt plain (fh 0), .ldt plain (fh 5), .ldt plain (fh 2), .sstt plain (fh 1),
      .sstt guarded (fh 1), .sstt plain (fh 0), .sstt plain { fh 1 with rule := .sumI }] (grp []) ∧
    (tmH.desc 0 = none ∧ tmH.desc 1 = some (descH 1) ∧ tmH.desc 2 = some (descH 2) ∧ tmH.desc 5 = some (descH 5)) ∧
    ((descH 1).w = 32 ∧ (descH 5).w = 64 ∧ (descH 1).packedElem = false ∧ ruleElemOk .fault (descH 1).elem = true ∧
     ruleElemOk .sumI (descH 1).elem = false ∧ (descH 2).packedElem = true) ∧
    (∀ l ∈ [0, 1], ((stH (grp [])).ldtLane (vwH (grp [])) (descH 1) 8 l).toOption.isSome = true ∧
      ((stH (grp [])).ldtLane (vwH (grp [])) (descH 2) 8 l).toOption.isSome = true ∧
      ((stH (grp [])).ssttLane (vwH (grp [])) (fh 1) (descH 1) l).toOption.isSome = true) := by decide +kernel
theorem met_TileWordsAndProducts :
    FitsH [.mmz plain .i32 15, .mmfl plain 0, .mmrd plain 6 4 0, .mmrd plain 6 4 1, .mmrd guarded 6 4 1, .mmwr plain 0 4 5,
      .mmwr plain 1 4 5, .mmwr guarded 1 4 5] (tiles (grp [])) ∧
    FitsH [.mma plain .f32 false false false false 0 4 4 4, .mma plain .f32 true false false true 0 4 4 4,
      .mma plain .f32 false false false false 0 0 4 4, .mma plain .i32 false false false false 0 4 4 4,
      .mma plain .f32 false false false false 1 4 4 4, .mma plain .f32 false false false false 2 4 4 4,
      .mmld plain .f32 0 1, .mmld plain .f32 0 0, .mmld plain .i32 0 4] (tiles (grp (both [(4, 0x10000)]))) ∧
    ((tiles (grp [])).tile 0 = ⟨true, .f32, []⟩ ∧ (tiles (grp [])).tile 1 = ⟨false, .f32, []⟩ ∧ (tiles (grp [])).tile 2 = ⟨true, .i32, []⟩) ∧
    ((vwH (grp [])).mmaPair .f32 false 4 4).toOption = some (descH 4, descH 4) ∧
    trapOf ((vwH (grp [])).mmaPair .f32 false 0 4) = some (handleTrap 0) ∧ trapOf ((vwH (grp [])).mmaPair .i32 false 4 4) = some ⟨0x08, 0⟩ ∧
    (operandRows (fun r n => (descH 4).operand ((stH (grp [])).reader (vwH (grp [])) 0) false ((descH 4).row0 + r)
      ((descH 4).col0 + 0 + n)) 1).toOption.isSome = true ∧
    ((descH 1).flat && (descH 1).elem.mmldOk .f32) = true ∧ ((descH 4).flat && (descH 4).elem.mmldOk .i32) = false ∧
    (mapE (fun e => (descH 1).read ((stH (grp [])).reader (vwH (grp [])) 0) [(descH 1).row0 + e / 32, (descH 1).col0 + e % 32])
      (List.range 1024)).toOption.isSome = true := by decide +kernel
theorem met_IntegerProductsAreExact :
    ([(some 3, some (-5)), (none, some 7)] : List (Option Int × Option Int)).length ≤ 32 * 1 := by decide
theorem met_WholeTensorsAreWritten :
    FitsH [.plnz plain 2 3, .plnz plain 2 1, .plnz plain 0 3, .unpln plain 3 2, .unpln plain 3 0, .mmst plain 0 1, .mmst plain 1 1,
      .mmst plain 0 0, .mmst plain 0 8] (tiles (grp [])) ∧
    FitsH [.plnz plain 2 3, .mmst plain 0 1] (fullSpoil (tiles (grp []))) ∧
    ((vwH (grp [])).planePair true 2 3).toOption.isSome = true ∧ ((vwH (grp [])).planePair false 3 2).toOption.isSome = true ∧
    ((vwH (grp [])).planePair true 2 1).toOption = none ∧
    (mapE (fun (e : Nat × Nat) => (descH 3).raw ((stH (grp [])).reader (vwH (grp [])) 0) ((descH 3).place e.1 e.2))
      (descH 2).pairs).toOption.isSome = true ∧
    ((descH 2).containers ((descH 2).pairs.map (fun e => ((descH 2).place e.1 e.2, 0)))).all (fun c =>
      decide (meets (stH (grp [])) who0 (.step .t .low) c.addr.toNat c.size = 0)) = true ∧
    (descH 1).mmstOk = true ∧ tmH.desc 0 = none ∧ (tiles (grp [])).tile 0 = ⟨true, .f32, []⟩ := by decide +kernel

/-- A state after some instructions, each of which answers a next state. -/
def after (is : List Instr) (s : State) : State := is.foldl (fun s i => match exec i s with
  | .next t => t
  | _ => s) s
/-- A group with one result pending from its unit. -/
def unitG : Group := { grp [] with pend := [{ Pending.blank 3 with regs := [(0, 6)], writes := [(0, 6, 7#32)], flags := 1 }] }
/-- A team whose record 0 copies within the device, and whose record 1 reads a peer. -/
def tmE : Team :=
  let c : Cmd := { cmd0 with st := .running }
  { tm0 with cmds := [(0, { c with units := [⟨0, [.dram 0x90000100], [.dram 0x90000140]⟩] }),
      (1, { c with units := [⟨0, [.dram 0x90000100], [.peer 5]⟩] }), (2, { c with st := .landing })] }
/-- A group whose second split is dormant and ready. -/
def dormantG : Group := { twoSplits .ready [] with splits := (twoSplits .ready []).splits.map (fun e =>
  if e.1 = 1 then (1, { e.2 with place := .dormant, held := [], depth := 0, rejoin := pcNone }) else e) }
/-- A group in which a lane owes a trap. -/
def owedG (c : Nat) : Group := { grp [] with owed := [⟨1, c, 0, 3, 3, 9, 1⟩] }
/-- Two lanes have stored one word each, and the step's boundary is due. -/
def atB : State := after [.sst plain { fm with rule := .low }, .step plain .t] (st (addrs 0x90000100 [(6, 5)]))
/-- The boundary has formed. -/
def formed : State := after [.boundaryForm (.team 0)] atB
/-- Its landing. -/
def ld0 : Landing := formed.landings.headD (⟨.team 0, 0, 0, [], [], [], [], [], [], [], [], [], 0⟩)
/-- The same with the parts at one stage. -/
def staged (st1 : Stage) (marks : List (Home × Nat)) : State :=
  formed.setLanding { ld0 with parts := ld0.parts.map (fun e => (e.1, { e.2 with stage := st1 })), marks := marks }
/-- The home of its first part. -/
def home0 : Home := ((fget ld0.parts 0).map (·.home)).getD .fe
/-- A contribution of lane l to one word. -/
def contrib (l : Nat) : Contrib :=
  { tid := 0, flat := 0, writer := .lane 0 l, ord := 0, rule := .sumI, width := .b32
    bytes := (List.range 4).map (fun i => (.dram (4 * 0x24000040 + i), 1)), cap := 0, v := false, vreg := 384, gid := 0, eseq := 0
    ea := 0, ipn := 0 }

theorem met_LatentResultsAndOwedTraps :
    (((st (grp [])).pending? 0 0 = none) ∧ ((st unitG).pending? 0 0).map (·.kind) = some .unit) ∧
    ((tmE.cmds.map (fun e => (e.2.st, e.2.farSources.length))) = [(.running, 0), (.running, 1), (.landing, 0)]) ∧
    ((grp []).dormantReady = none ∧ (dormantG.dormantReady.map (·.sid)) = some 1 ∧ dormantG.freeEntry = some 1 ∧
     ((st dormantG).viewOf 0 1).isSome = true) ∧
    ((vw (grp [])).dues false = [] ∧ (vw (owedG 0x30)).dues false = [⟨1, 0x30, 0, 3, 3, 9, 1⟩] ∧
     (vw (owedG 0x41)).dues true = [⟨1, 0x41, 0, 3, 3, 9, 1⟩]) := by decide +kernel
theorem met_BoundariesFormDrainAndLand :
    ((st (grp [])).domGrid (.team 0) = some 0 ∧ (st (grp [])).mayForm (.team 0) bootGrid 1 = false ∧
     atB.mayForm (.team 0) bootGrid 1 = true) ∧
    (ld0.parts.map (fun e => (e.2.stage, e.2.tid)) = [(.core, 0), (.core, 0)] ∧ (∃ k ∈ List.range 64, home0 = .slice k) ∧
     (formed.landing? (.team 0)).isSome = true ∧ ld0.marked home0 0 = false ∧ ld0.teams = [(0, 0)]) ∧
    ((staged .passing []).landings.length = 1 ∧ (staged .applied [(home0, 0)]).landings.length = 1 ∧
     ((staged .refused [(home0, 0)]).landing? (.team 0)).map (fun l => l.teams.all (fun e => l.marked home0 e.1)) = some true) ∧
    (formed.allApplied ld0 = false ∧
     ((staged .applied []).landing? (.team 0)).map (staged .applied []).allApplied = some true ∧ fwf formed.groups = true) := by
  decide +kernel
theorem met_LandingIgnoresArrivalOrder :
    [contrib 0, contrib 1].Perm [contrib 1, contrib 0] ∧ (contrib 0).wkey ≠ (contrib 1).wkey :=
  ⟨List.Perm.swap _ _ _, by decide⟩
theorem met_ContributionsCombineByRule :
    [contrib 0, contrib 31] ≠ [] ∧ ∀ c ∈ [contrib 0, contrib 31], c.rule = .sumI ∧ c.width = .b32 ∧
      c.locs = (List.range 4).map (fun i => Loc.dram (4 * 0x24000040 + i)) ∧ ∃ g l, c.writer = .lane g l ∧ l < 32 := by
  refine ⟨by decide, fun c h => ?_⟩
  rcases List.mem_cons.1 h with rfl | h
  · exact ⟨rfl, rfl, by decide, 0, 0, rfl, by decide⟩
  · rcases List.mem_cons.1 h with rfl | h
    · exact ⟨rfl, rfl, by decide, 0, 31, rfl, by decide⟩
    · cases h

/-! Contexts: a device whose context 0 has a partition bitmap at 0x1000, a save area at 0x10000, and the hypervisor's root table
and stage control page at 0x40000 and 0x41000. -/

/-- A context with a command running. -/
def cmdCtx (n : Nat) (st : CtxState) : Ctx :=
  { Ctx.reset with
    st := st, busy := true, cmd := some n, stop := if n = 3 then .preempt else .none, pdesc := 0x1000, sarea := 0x10000
    salen := 0x10000, ptbase2 := 0x40000 }
/-- A device with a context 0: quadrants 0 to 3 in its bitmap, no dirty map but a length of 2. -/
def dev (x : Ctx) : State :=
  ((({ State.reset with ctxs := [(0, x)], mgmt := { Mgmt.reset with keys := [(0, 1)] } } : State).putRaw (.mem 0 1) 0x1000
    (leBytes 192 15)).putRaw (.fw 0) 0x41000 (leBytes 8 0x60000 ++ leBytes 8 0x61000 ++ leBytes 4 2)).putRaw (.mem 0 1) 0x60000 [4]
/-- What the checks of BIND find: partition, overlap, key, alignment of the save area. -/
def bindSees (s : State) : Option (Option (List Nat) × Bool × Bool × Bool) :=
  if swf Ctx.reset s.ctxs = true ∧ (s.ctx 0).busy = true ∧ (s.ctx 0).st = .free then
    some (s.bitmap 0, s.overlaps 0 [0, 1, 2, 3], decide (fget s.mgmt.keys ((s.ctx 0).memkey.toNat % 64) = none),
      decide ((s.ctx 0).sarea.toNat % 4096 = 0))
  else none
/-- No key loaded, with the bitmap's line in the cache. -/
def noKey (s : State) : State := { s with mgmt := Mgmt.reset, cache := [(64, true), (65, true), (66, true)] }
/-- A context 0 beside which another holds quadrant 3. -/
def devTwo (x : Ctx) : State := { dev x with ctxs := [(0, x), (1, { Ctx.reset with st := .bound, quads := [3], ptbase2 := 0x80000 })] }
/-- A migration that has sent nothing of page 3 and page 5. -/
def rnd (final : Bool) : Round := ⟨1, [3, 5], final, 0, 0⟩
/-- Its context. -/
def outCtx (final full : Bool) : Ctx :=
  { cmdCtx 3 .migOut with
    busy := final, cmd := none, stop := .none, round := some (rnd final), pcBusy := true
    stage := { Stage2.reset with map0 := 0x60000, map1 := 0x61000, mlen := 2, full := full, snap := 2 } }
/-- A context that receives a migration. -/
def inCtx (pages : List (Nat × Nat)) : Ctx := { cmdCtx 4 .migIn with incoming := some ⟨pages, [3], some (3, 4)⟩ }
/-- Tables that map IPA page 16 to 0x90000000. -/
def withTables (s : State) : State :=
  (((s.putRaw (.fw 0) 0x40000 (leBytes 8 0x43001)).putRaw (.fw 0) 0x43000 (leBytes 8 0x44001)).putRaw (.fw 0) 0x44000
    (leBytes 8 0x45001)).putRaw (.fw 0) 0x45080 (leBytes 8 0x900000F3)

theorem met_PartitionsAreBound :
    [dev (cmdCtx 1 .free), dev { cmdCtx 1 .free with pdesc := 8 }, dev { cmdCtx 6 .free with pdesc := 0x2000 },
      devTwo (cmdCtx 6 .free), noKey (dev (cmdCtx 1 .free)), dev { cmdCtx 1 .free with sarea := 0x10008 }].map bindSees =
      [some (some [0, 1, 2, 3], false, false, true), some (none, false, false, true), some (some [], false, false, true),
       some (some [0, 1, 2, 3], true, false, true), some (some [0, 1, 2, 3], false, true, true),
       some (some [0, 1, 2, 3], false, false, false)] ∧
    ((dev (cmdCtx 2 .bound)).ctx 0).cmd = some 2 ∧ ((dev (cmdCtx 2 .bound)).ctx 0).st = .bound ∧
    ((dev (cmdCtx 2 .free)).ctx 0).st ≠ .bound ∧ (dev (cmdCtx 1 .free)).scrubList 0 = [] := by decide +kernel
theorem met_ContextsAreReleasedOrStopped :
    ([CtxState.free, .bound, .preempted, .disabled].map (fun x => ((dev (cmdCtx 7 x)).ctx 0).st) =
      [.free, .bound, .preempted, .disabled]) ∧
    ([CtxState.migOut, .migIn, .free].map (fun x => ((dev (cmdCtx 9 x)).ctx 0).cmd) = [some 9, some 9, some 9]) ∧
    ((dev (cmdCtx 7 .scrubbing)).ctx 0).st = .scrubbing ∧ swf Ctx.reset (dev (cmdCtx 8 .running)).ctxs = true ∧
    ([dev (cmdCtx 8 .running), dev { cmdCtx 8 .scrubbing with cutShort := true }, dev (cmdCtx 8 .scrubbing), dev (cmdCtx 8 .free)].map
      (fun s => ((s.ctx 0).busy, (s.ctx 0).cmd, (s.ctx 0).st, (s.ctx 0).cutShort)) =
      [(true, some 8, .running, false), (true, some 8, .scrubbing, true), (true, some 8, .scrubbing, false),
       (true, some 8, .free, false)]) ∧
    ({ dev (cmdCtx 8 .running) with mgmt := { Mgmt.reset with busy := true, cmd := some (6, 0) } } : State).mgmt.busy = true := by
  decide +kernel
theorem met_MigrationRoundsSendPages :
    ([CtxState.running, .preempted, .bound].map (fun x => ((dev (cmdCtx 5 x)).ctx 0).st) = [.running, .preempted, .bound] ∧
     swf Ctx.reset (dev (cmdCtx 5 .running)).ctxs = true ∧ (dev (cmdCtx 5 .running)).landings = []) ∧
    (let x := { outCtx false false with round := none, pcBusy := false }
     ((dev x).ctx 0).st = .migOut ∧ ((dev x).ctx 0).pcBusy = false ∧ ((dev x).ctx 0).stop = .none ∧ ((dev x).ctx 0).round = none) ∧
    [outCtx false false, outCtx true false, outCtx true true].map (fun x => (((dev x).ctx 0).round, ((dev x).ctx 0).stage.full)) =
      [(some (rnd false), false), (some (rnd true), false), (some (rnd true), true)] ∧
    (∃ p ∈ (rnd true).pages.drop 0, p < 8 * (outCtx true true).stage.mlen) ∧ ∀ e ∈ (dev (outCtx true true)).ctxs, e.2.scrub = [] := by
  decide +kernel
theorem met_IncomingRecordsAreApplied :
    (((dev (cmdCtx 4 .migIn)).ctx 0).incoming = none) ∧
    (((dev (inCtx [(16, 2)])).ctx 0).incoming = some ⟨[(16, 2)], [3], some (3, 4)⟩ ∧ ((dev (inCtx [(16, 2)])).ctx 0).st = .migIn) ∧
    (dev (inCtx [])).walkH (4096 * 16) 3 ((dev (inCtx [])).hypRoot 0) = none ∧
    (withTables (dev (inCtx []))).walkH (4096 * 16) 3 ((withTables (dev (inCtx []))).hypRoot 0) = some (15, 0x90000000) ∧
    fget [(16, 2)] 16 = some 2 ∧ (∀ e ∈ (withTables (dev (inCtx []))).ctxs, e.2.scrub = []) := by decide +kernel

/-! Pre-emption. -/

/-- A device on which one group of context 0 stands, with a command of the context running. -/
def preDev (g : Group) (tm : Team) (x : Ctx) : State :=
  { dev x with tlb := tlb0, grids := [(0, bootGrid)], teams := [(0, tm)], groups := [(0, g)], nextGrid := 1, nextTeam := 1, nextGroup := 1 }
/-- A group on which a request has come. -/
def askedG (m : SaveMark) (g : Group) : Group := { g with mark := m }
/-- A group whose split has an open window. -/
def windowG : Group := grpSp (fun sp => { sp with window := some ⟨0x900000C0, 4, 3, 0x90000080, none, 2⟩ }) (grp [])
/-- What of a request has been done: asked of slots and groups, everything saved. -/
def reqSees (s : State) : Bool × Bool :=
  (decide ((∀ e ∈ s.slots, e.2.ctx = 0 → e.2.st = .unloading) ∧
    ∀ e ∈ s.groups, s.groupCtx e.2 = some 0 → e.2.live ≠ 0 → e.2.mark ≠ .none), s.allSaved 0)
/-- How the group of a device stands: its mark, all splits at a stopping point, one in a handler, one waiting elsewhere. -/
def stopSees (s : State) : Option (SaveMark × Bool × Bool × Bool) :=
  (fget s.groups 0).map (fun g => (g.mark, decide (∀ e ∈ g.splits, (s.stopPoint 0 e.2).isSome = true),
    decide (∃ e ∈ g.splits, 0 < e.2.tdepth), decide (∃ e ∈ g.splits, s.waitsElsewhere 0 e.2 = true)))
/-- A function of a number that is worked out first. -/
def forced {α : Type} (n : Nat) (f : Nat → α) : α := match n with
  | 0 => f 0
  | k + 1 => f (k + 1)
theorem forced_eq {α : Type} (n : Nat) (f : Nat → α) : forced n f = f n := by cases n <;> rfl
/-- The CRC of bytes after c, each step of which is a number before the next begins. -/
def crcSteps : List Byte → Nat → Nat
  | [], c => c
  | b :: bs, c => forced ((List.range 8).foldl (fun x _ => crcBit x) (c ^^^ b.toNat)) (crcSteps bs)
theorem crcSteps_eq (bs : List Byte) : ∀ c,
    bs.foldl (fun c b => (List.range 8).foldl (fun x _ => crcBit x) (c ^^^ b.toNat)) c = crcSteps bs c := by
  induction bs with
  | nil => intro c; rfl
  | cons b bs ih => intro c; rw [List.foldl_cons, ih, crcSteps, forced_eq]
theorem crc32c_eq (bs : List Byte) : crc32c bs = crcSteps bs 0xFFFFFFFF ^^^ 0xFFFFFFFF := by rw [crc32c, crcSteps_eq]
/-- Memory with a save area. -/
def sd : State :=
  { dev (cmdCtx 4 .preempted) with
    mem := [
   (4096, 15), (65536, 1), (65538, 1), (65540, 40), (65547, 1), (65552, 7), (65561, 1), (65576, 3), (65577, 80), (65578, 150),
    (65579, 168), (65584, 16), (65586, 1), (65588, 128), (65592, 1), (65593, 1), (65600, 1), (65601, 1), (65657, 16), (65666, 1),
    (65674, 1), (65680, 16), (65681, 16), (65682, 7), (65688, 64), (65698, 4), (65720, 64), (65722, 1), (65724, 16), (65744, 80),
    (65746, 1), (65748, 16), (65768, 2), (65769, 128), (65770, 1), (65776, 3), (65777, 128), (65778, 1), (65786, 1), (266242, 6),
    (266249, 16), (266250, 6), (266256, 2), (393216, 4)]
    ktag := [(64, .mem 0 1), (65, .mem 0 1), (66, .mem 0 1), (1024, .fw 0), (1025, .fw 0), (1026, .fw 0), (1027, .fw 0), (4160, .fw 0), (6144, .mem 0 1)] }
/-- Its records. -/
def sdRecs : List Rec :=
  [⟨1, 1, 0, leBytes 40 0xa89650030000000000000000000000000000010000000000000000070000000001000000⟩,
   ⟨16, 1, 0, leBytes 128 0x400000000000000000040000000000007101000000000000100000000000000010000000000000000100000000000000000000000000000000000000000000000000000000000000000000000000000000000000000000000000000000000000001010000000000000101⟩,
   ⟨64, 1, 0, leBytes 16 0x0⟩,
   ⟨80, 1, 0, leBytes 16 0x0⟩,
   ⟨32770, 1, 0, leBytes 0 0x0⟩,
   ⟨32771, 1, 0, leBytes 0 0x0⟩,
   ⟨0, 1, 0, leBytes 0 0x0⟩]
/-- The device as RESUME begins. -/
def sdBase : State := ((sd.dropGrids 0).setCtx 0 { (sd.ctx 0).ended 0 with
  quads := [0, 1, 2, 3], sig := sd.signature 0 [0, 1, 2, 3], st := .running, incoming := none }).loadStage 0
/-- The error of a check. -/
def errOf {α : Type} (x : Except Nat α) : Option Nat := match x with
  | .error e => some e
  | .ok _ => none

theorem met_PreemptionRequestsAndWrites :
    ((dev { cmdCtx 3 .running with stop := .none }).ctx 0).stop ≠ .preempt ∧ ((dev (cmdCtx 3 .scrubbing)).ctx 0).st = .scrubbing ∧
    ((dev { cmdCtx 3 .running with pdesc := 8 }).ctx 0).pdesc.toNat % 64 ≠ 0 ∧
    ([preDev (grp []) tm0 (cmdCtx 3 .running), preDev (askedG .idled (grp [])) tm0 (cmdCtx 3 .running), dev (cmdCtx 3 .running)].map
      (fun s => (decide ((s.ctx 0).stop = .preempt), (s.ctx 0).pdesc.toNat % 64, (s.ctx 0).sarea.toNat % 4096, (s.ctx 0).round.isNone,
        reqSees s))) =
      [(true, 0, 0, true, false, false), (true, 0, 0, true, true, false), (true, 0, 0, true, true, true)] ∧
    ((dev (cmdCtx 3 .running)).area 0).length ≤ ((dev (cmdCtx 3 .running)).ctx 0).salen.toNat ∧
    (∀ e ∈ (dev (cmdCtx 3 .running)).ctxs, e.2.scrub = []) := by decide +kernel
theorem met_GroupsStopForPreemption :
    [preDev (askedG (.stopping false) windowG) tm0 (cmdCtx 3 .running), preDev (askedG (.stopping false) (grp [])) tm0 (cmdCtx 3 .running),
      preDev (askedG (.stopping false) (handler 0x40 1 [])) tm0 (cmdCtx 3 .running),
      preDev (askedG (.stopping false) (grpSp (fun sp => { sp with st := .boundary .t }) (grp []))) tm0 (cmdCtx 3 .running)].map stopSees =
      [some (.stopping false, true, false, false), some (.stopping false, false, false, false),
       some (.stopping false, false, true, false), some (.stopping false, false, false, true)] ∧
    (windowG.live ≠ 0 ∧ ((preDev windowG tm0 (cmdCtx 3 .running)).ctx 0).reqTime + 20000 ≤
      ({ preDev (grp []) tm0 (cmdCtx 3 .running) with time := 20000 } : State).time) ∧
    ((askedG (.stopping true) (grp [])).pend = [] ∧ (unitG.pend.map (·.kind)) = [.unit]) ∧
    (preDev (askedG .idled (grp [])) tmE (cmdCtx 3 .running)).groupCtx (askedG .idled (grp [])) = some 0 ∧ tmE.saved = false ∧
    (askedG .idled (grp [])).pend = [] ∧ (preDev (grp []) tmE (cmdCtx 3 .running)).landings = [] := by decide +kernel
theorem sd_area : (sd.readArea 0).toOption = some sdRecs := by
  simp only [State.readArea, crc32c_eq]
  decide +kernel
theorem sd_restore : (sdBase.restore 0 sdRecs).toOption.map (fun u => u.groups.length) = some 0 := by decide +kernel
theorem met_ResumeRestores :
    (sd.ctx 0).st = .preempted ∧ (sd.ctx 0).busy = true ∧ (sd.ctx 0).cmd = some 4 ∧ swf Ctx.reset sd.ctxs = true ∧
    sd.bitmap 0 = some [0, 1, 2, 3] ∧ sd.overlaps 0 [0, 1, 2, 3] = false ∧
    errOf ((dev (cmdCtx 4 .preempted)).readArea 0) = some 7 ∧ (dev { cmdCtx 4 .preempted with pdesc := 8 }).bitmap 0 = none ∧
    errOf (sdBase.restore 0 []) ≠ none ∧ (devTwo (cmdCtx 4 .preempted)).overlaps 0 [0, 1, 2, 3] = true ∧
    ((dev (cmdCtx 4 .migIn)).ctx 0).incoming = none ∧ ((dev (cmdCtx 4 .bound)).ctx 0).st ≠ .preempted := by decide +kernel

/-! Queues: context 0's queue table at 0x9000_1000 holds queue 1, its ring at 0x9000_1200 and an image at 0x9000_0400. -/

/-- A descriptor: ring, size code, ctl, widx, ridx, done. -/
def descB (rbase rsize ctl widx ridx done : Nat) : List Byte :=
  leBytes 8 rbase ++ leBytes 4 rsize ++ leBytes 4 ctl ++ leBytes 4 widx ++ leBytes 4 ridx ++ leBytes 4 done ++ zeroBytes 36
/-- A queue with record 5 to come. -/
def q5 (st : QState) (head : Option (List Byte)) : Queue :=
  { st := st, rbase := 0x90001200, rsize := 2, ctl := 1, widx := 6, ridx := 5, done := 5, qerr := 0, eseq := 0, since := 7, rung := false
    head := head, complete := [] }
/-- A device that runs context 0, whose queue 1 has a descriptor. -/
def qdev (q : Queue) (d : List Byte) (slots : FMap Slot) : State :=
  ({ State.reset with
    ctxs := [(0, { bootCtx Ctx.reset with qtBase := 0x90001000, qtCount := 3, queues := [(1, q)], sweepAt := 1 })]
    mgmt := { Mgmt.reset with keys := [(0, 1)] }, slots := slots, tlb := tlb0, time := 3200000 } : State).putRaw (.mem 0 1) 0x90001040 d
/-- A good descriptor. -/
def d5 : List Byte := descB 0x90001200 2 1 6 5 5
/-- The slot of queue 1. -/
def slot1 (st : SlotState) : Slot := ⟨0, 1, st, 0, false, none⟩
/-- What of a poll is seen: the slot, the layout, en, and how many records there are. -/
def pollSees (s : State) : Option (SlotState × Bool × Bool × Nat) :=
  match fget s.slots 0, s.desc 0 1 with
  | some k, some d => some (k.st, descOk d, bit (field d 12 4) 0, (BitVec.ofNat 32 (field d 16 4) - (s.queue 0 1).ridx).toNat)
  | _, _ => none
/-- A device whose slots are full of the queues of context 1. -/
def fullDev : State :=
  qdev { q5 .waiting none with ctl := 3 } d5 ((List.range 256).map (fun i => (i, ⟨1, 100 + i, .active, 0, false, none⟩)))
/-- A launch record: image, kernel, dies, teams, flags, one dependence. -/
def recB (image k dies teams flags dep : Nat) : List Byte :=
  leBytes 8 image ++ leBytes 4 k ++ leBytes 4 dies ++ leBytes 4 teams ++ leBytes 4 flags ++ leBytes 8 0x90001100 ++
  leBytes 8 0x90001800 ++ leBytes 8 dep ++ zeroBytes 80
/-- A device with a record at the place of record 5. -/
def ldev (q : Queue) (rec : List Byte) : State := (qdev q d5 [(0, slot1 .active)]).putRaw (.mem 0 1) 0x90001280 rec
/-- A record of kernel 0 of the image. -/
def rec5 : List Byte := recB 0x90000400 0 1 1 0 0
/-- What of the head record is seen: whether it can be fetched, its crec, its layout. -/
def recSees (s : State) : Option (Nat × Bool) := (s.devRead 0 (0x90001200 + 128 * (5 % 4)) 128).map (fun r => (field r 32 8 % 32, recBad r 3 1 5))

theorem met_DoorbellsAreSeen :
    [CtxState.running, .bound, .free].map (fun st => (({ bootCtx Ctx.reset with st := st } : Ctx).st.qtCauses)) = [[2], [], [4]] ∧
    ((qdev (q5 .empty none) d5 []).mgmt.state ≠ 0 ∧ (qdev (q5 .empty none) d5 []).maps 0 = true ∧
     (qdev (q5 .empty none) d5 []).slotFor 0 1 = none ∧ (qdev (q5 .empty none) d5 []).desc 0 1 = some d5 ∧
     (1 < ((qdev (q5 .empty none) d5 []).ctx 0).qtCount) ∧ (qdev (q5 .empty none) d5 []).maps 1 = false ∧
     ((qdev (q5 .empty none) d5 []).ctx 0).sweepAt < (qdev (q5 .empty none) d5 []).time / 1000000) ∧
    ((dev (cmdCtx 4 .bound)).ctx 0).qtCount ≤ 0 ∧ (field (descB 0 2 0 6 5 5) 12 4, field d5 28 4) = (0, 0) := by decide +kernel
theorem met_SlotsHoldQueues :
    (let s := qdev (q5 .waiting none) d5 []
     s.maps 0 = true ∧ (s.queue 0 1).st = .waiting ∧ s.underLimit 0 = true ∧ s.passedBy 0 1 = false ∧ s.slotFor 0 1 = none ∧
       fget s.slots 0 = none) ∧
    (fullDev.maps 0 = true ∧ (fullDev.queue 0 1).st = .waiting ∧ fullDev.underLimit 0 = true ∧ fullDev.passedBy 0 1 = false ∧
      fullDev.slotFor 0 1 = none ∧ fget fullDev.slots 5 = some ⟨1, 105, .active, 0, false, none⟩ ∧ 256 ≤ fullDev.slots.length ∧
      fullDev.displaces 0 1 ⟨1, 105, .active, 0, false, none⟩ = true) ∧
    [qdev (q5 .mapped none) d5 [(0, slot1 .loading)], qdev (q5 .mapped none) (descB 8 2 1 6 5 5) [(0, slot1 .loading)],
      qdev (q5 .mapped none) (descB 0x90001200 2 0 6 5 5) [(0, slot1 .active)], qdev (q5 .mapped none) (descB 0x90001200 2 1 5 5 5) [(0, slot1 .active)],
      qdev (q5 .mapped none) d5 [(0, slot1 .active)], qdev (q5 .mapped none) (descB 0x90001200 2 1 10 5 5) [(0, slot1 .active)],
      qdev (q5 .mapped none) d5 [(0, slot1 .unloading)]].map pollSees =
      [some (.loading, true, true, 1), some (.loading, false, true, 1), some (.active, true, false, 1), some (.active, true, true, 0),
       some (.active, true, true, 1), some (.active, true, true, 5), some (.unloading, true, true, 1)] ∧
    (slot1 .active).start + 100000 * 2 ^ bits (q5 .mapped none).ctl.toNat 7 4 ≤ (qdev (q5 .mapped none) d5 []).time := by
  decide +kernel
theorem met_RecordsBecomeGrids :
    ([ldev (q5 .mapped none) rec5, ldev (q5 .mapped none) (recB 0x90000400 0 0 1 0 0),
      { ldev (q5 .mapped none) rec5 with tlb := [] }].map recSees = [some (0, false), some (0, true), none]) ∧
    (ldev (q5 .mapped none) rec5).maps 0 = true ∧ swf Ctx.reset (ldev (q5 .mapped none) rec5).ctxs = true ∧
    (ldev (q5 .mapped (some rec5)) []).recReady 0 1 rec5 = true ∧
    (ldev (q5 .mapped none) []).recReady 0 1 (recB 0x90000400 0 1 1 0 (2 ^ 63 + 2 ^ 32 + 5)) = false ∧
    errOf ((ldev (q5 .mapped none) []).launchCheck 0 1 (q5 .mapped none) (recB 0x90000480 0 1 1 0 0)) = some 1 ∧
    ((st (grp [])).grids.map (fun e => e.2.unplaced) = [false] ∧ ((st (grp [])).ctx 0).runs = true ∧
     (∀ e ∈ ({ st (grp []) with teams := [(0, { tm0 with ended := true })] } : State).teams, e.2.ended = true)) ∧
    (bootGrid.late = none ∧ ({ bootGrid with late := some ⟨5, 6, 7, 8, 9, 1⟩ } : Grid).late ≠ none) := by decide +kernel

/-! A launch that passes its checks: the image is one kernel of one group, 704 bytes with its CRC. -/

theorem crcSteps_split (k : Nat) (bs : List Byte) (c : Nat) : crcSteps bs c = crcSteps (bs.drop k) (crcSteps (bs.take k) c) := by
  simp only [← crcSteps_eq, ← List.foldl_append, List.take_append_drop]
/-- The launch's device, its image written out. -/
def launchDev : State :=
  { State.reset with
    ctxs := [(0, { bootCtx Ctx.reset with qtBase := 0x90001000, qtCount := 3, queues := [(1, q5 .mapped (some rec5))], sweepAt := 1 })]
    mgmt := { Mgmt.reset with keys := [(0, 1)] }, slots := [(0, slot1 .active)], tlb := tlb0
    mem := [(2415920128, 70), (2415920129, 73), (2415920130, 78), (2415920131, 31), (2415920132, 1), (2415920136, 192),
      (2415920137, 2), (2415920144, 1), (2415920152, 128), (2415920153, 2), (2415920160, 64), (2415920168, 192),
      (2415920169, 2), (2415920184, 147), (2415920185, 69), (2415920186, 228), (2415920187, 139), (2415920196, 1),
      (2415920200, 1), (2415920204, 32), (2415920206, 32), (2415920216, 1)] ++
      (List.range 47).map (fun i => (2415920265 + i, BitVec.ofNat 8 (i + 1))) }
/-- The image that it reads. -/
def img5 : List Byte :=
  leBytes 4 0x1F4E4946 ++ (leBytes 4 1 ++ (leBytes 8 704 ++ (leBytes 8 1 ++ (leBytes 8 640 ++ (leBytes 8 64 ++ (leBytes 8 704 ++ (zeroBytes 8 ++
  (leBytes 8 2346993043 ++ (zeroBytes 4 ++ (leBytes 4 1 ++ (leBytes 4 1 ++ (leBytes 2 32 ++ (leBytes 6 32 ++ (leBytes 6 0x100000000 ++ (zeroBytes 46 ++
  ((List.range 48).map (fun i => BitVec.ofNat 8 i) ++ zeroBytes 520))))))))))))))))
theorem img5_read : launchDev.devRead 0 0x90000400 704 = some img5 := by decide +kernel
theorem img5_half : crcSteps ((zeroed img5 56).take 352) 0xFFFFFFFF = 2183375759 := by decide +kernel
theorem img5_crc : crcSteps ((zeroed img5 56).drop 352) 2183375759 ^^^ 0xFFFFFFFF = 2346993043 := by decide +kernel
theorem img5_head : (launchDev.devRead 0 0x90000400 64).map (fun h => (imageHeadOk h, field h 8 8, field h 56 4)) =
    some (true, 704, field img5 56 4) := by decide +kernel
theorem img5_field : field img5 56 4 = 2346993043 := by decide +kernel
theorem img5_image : launchDev.readImage 0 0x90000400 = some img5 := by
  have h : crc32c (zeroed img5 56) = field img5 56 4 := by
    rw [crc32c_eq, crcSteps_split 352, img5_half, img5_crc, img5_field]
  obtain ⟨x, hx, hy⟩ := Option.map_eq_some_iff.1 img5_head
  simp only [Prod.mk.injEq] at hy
  rw [State.readImage, if_neg (by decide), hx]
  simp only [hy.1, hy.2.1, hy.2.2, img5_read, h, Bool.not_true, Bool.false_eq_true, if_false, if_true]
theorem img5_decl : declOk (kernelEntry img5 0) 64 = true := by decide +kernel
theorem img5_variant : pickVariant (kernelEntry img5 0) 0 = some 0 := by decide +kernel
theorem img5_order : variantOrder (kernelEntry img5 0) 0 = List.range 48 := by decide +kernel
/-- The grid that it becomes. -/
def gr5 : Grid :=
  { ctx := 0, queue := 1, seqNo := 5, image := 0x90000400, kernel := 0, dies := 1, teams := 1, residency := 0, gang := 1, groups := 1,
    prod := 0, pregs := 32, cregs := 32, ptiles := 0, ctiles := 0, nhandles := 0, order := List.range 48, spad := 0, entry := 0x90000680
    rodata := 0x80000000900006C0, args := 0x90001100, crec := 0x90001800, det := true, fnver := 1, irq := false, vector := 0
    nextTeam := [], lastCore := [], landedD := [], landedG := 0, exitG := none, late := none }
theorem gr5_of : gridOf 0 1 5 (launchDev.ctx 0) rec5 img5 (kernelEntry img5 0) 1 (List.range 48) = gr5 := by decide +kernel
theorem gr5_fits : fitsEmpty [0] gr5 = true := by decide +kernel
theorem img5_flags : field (kernelEntry img5 0) 25 1 = 0 := by decide +kernel
theorem rec5_at : field rec5 0 8 = 0x90000400 ∧ field rec5 8 4 = 0 := by decide +kernel
theorem img5_sizes : field img5 16 4 = 1 ∧ field img5 32 8 = 64 := by decide +kernel
theorem launch_ctx : (launchDev.ctx 0).sig.toNat = 0 ∧ (launchDev.ctx 0).quads = [0] := by decide +kernel
theorem launchCheck_ok (s : State) (c n : Nat) (q : Queue) (rec img : List Byte) (gr : Grid) (i : Nat)
    (h1 : s.readImage c (field rec 0 8) = some img) (h2 : field rec 8 4 < field img 16 4)
    (h3 : declOk (kernelEntry img (field rec 8 4)) (field img 32 8) = true)
    (h4 : pickVariant (kernelEntry img (field rec 8 4)) (s.ctx c).sig.toNat = some i)
    (h5 : gridOf c n q.ridx.toNat (s.ctx c) rec img (kernelEntry img (field rec 8 4)) q.ctl
      (variantOrder (kernelEntry img (field rec 8 4)) i) = gr)
    (h6 : field (kernelEntry img (field rec 8 4)) 25 1 = 0) (h7 : gr.gang = 1) (h8 : fitsEmpty (s.ctx c).quads gr = true) :
    s.launchCheck c n q rec = .ok gr := by
  simp [State.launchCheck, h1, Nat.not_le.2 h2, h3, h4, h5, h6, h7, h8, bit]
theorem met_RecordsBecomeGrids_launch : launchDev.launchCheck 0 1 (q5 .mapped (some rec5)) rec5 = .ok gr5 := by
  apply launchCheck_ok (img := img5) (i := 0)
  · rw [rec5_at.1]; exact img5_image
  · rw [rec5_at.2, img5_sizes.1]; decide
  · rw [rec5_at.2, img5_sizes.2]; exact img5_decl
  · rw [rec5_at.2, launch_ctx.1]; exact img5_variant
  · rw [rec5_at.2, img5_order]; exact gr5_of
  · rw [rec5_at.2]; exact img5_flags
  · rfl
  · rw [launch_ctx.2]; exact gr5_fits

/-! Teams and pages. -/

/-- A device that runs context 0 in quadrants 0 and 1, with a grid that waits for placement. -/
def placeDev (gr : Grid) : State :=
  { State.reset with
    ctxs := [(0, { bootCtx Ctx.reset with quads := [0, 1] })], mgmt := { Mgmt.reset with keys := [(0, 1)] }, tlb := tlb0
    grids := [(0, gr)], nextGrid := 1 }
/-- The same, its rows broken up by the groups of another team. -/
def fragDev : State :=
  { placeDev { gr5 with queue := 0, groups := 1, pregs := 384, cregs := 384 } with
    teams := [(0, { tm0 with grid := 1 })], nextTeam := 1, nextGroup := 16
    groups := (List.range 16).map (fun i => (i, { grp [] with quad := i % 2, slot := i / 2, block := i / 2 * 256 + 128, nregs := 128, ntiles := 0 })) }
/-- Its grid. -/
def fragGrid : Grid := { gr5 with queue := 0, groups := 1, pregs := 384, cregs := 384 }
/-- The sets of a device's waiting grid that fit, and the packing that would let one fit. -/
def placeSees (s : State) : Option (Nat × Bool × Option (Nat × Nat)) :=
  (s.waitingGrid 0).map (fun w =>
    (w.1, (w.2.nextSets.find? (fun set => (s.res.placeSet (s.ctx 0).quads w.2 set).isSome)).isSome,
      (w.2.nextSets.findSome? (fun set => ((set.map (·.1)).flatMap (fun d => sliceCores (s.ctx 0).quads w.2 d)).findSome?
        (fun core => s.packing 0 w.2 set core))).map (fun k => (k.core, k.gids.length))))
/-- A device whose team has ended. -/
def endedDev (residency : Nat) : State :=
  { placeDev { bootGrid with residency := residency } with teams := [(0, tm0)], groups := [(0, { grp [] with live := 0, splits := [] })] }
/-- A device with a page move asked for: leaf entry, new frame, status. -/
def moveDev (ent new stat : Nat) (m : Option Move) : State :=
  ((withTables (dev { cmdCtx 3 .bound with busy := false, cmd := none, stop := .none, move := m })).putRaw (.fw 0) 0x41040
    (leBytes 8 0x45080 ++ leBytes 8 new ++ leBytes 4 stat)).putRaw (.fw 0) 0x45080 (leBytes 8 ent)
/-- What of a move is seen: its status, the leaf, and whether the frames lie on other dies. -/
def moveSees (s : State) : Nat × Ent × Bool :=
  let new := s.stageField 0 72 8
  (s.stageField 0 80 4, readEnt 3 (s.readN s.fwKey (s.stageField 0 64 8) 8), decide (new % 4096 = 0 ∧ s.installed new 4096 = true ∧ new / 2 ^ 42 ≠ 0))

theorem met_TeamsArePlacedAndEnd :
    ((placeDev bootGrid).waitingGrid 0 = none ∧ (placeDev gr5).places 0 = true ∧ placeSees (placeDev gr5) = some (0, true, some (0, 0)) ∧
     placeSees fragDev = some (0, false, some (0, 16)) ∧ fragDev.places 0 = true) ∧
    ((∀ e ∈ (endedDev 3).groups, e.2.live = 0 ∧ e.2.spoil = []) ∧ tm0.ended = false ∧ tm0.cmds = [] ∧ (endedDev 3).landings = [] ∧
     fget (endedDev 0).grids 0 = some { bootGrid with residency := 0 } ∧ fget (endedDev 3).grids 0 = some bootGrid) ∧
    (fget ({ fragDev with compacts := [(0, ⟨0, [1], []⟩)] } : State).compacts 0 = some ⟨0, [1], []⟩ ∧ (∀ e ∈ fragDev.groups, e.2.pend = []) ∧
     (unitG.pend.map (fun p => decide (p.kind ≠ .verdict))) = [true]) := by decide +kernel
theorem met_PagesMoveAndScrub :
    ([moveDev 0x900000F3 (3 * 2 ^ 42) 1 none, moveDev 0x900000F3 0x90002000 1 none, moveDev 0 (3 * 2 ^ 42) 1 none,
      moveDev 0x900000F3 (3 * 2 ^ 42) 0 none].map moveSees =
      [(1, .leaf 15 0x90000000, true), (1, .leaf 15 0x90000000, false), (1, .bad, true), (0, .leaf 15 0x90000000, true)]) ∧
    (let m : Move := ⟨0x45080, 0x90000000, 0x90002000, false, [], 0⟩
     let s := moveDev 0x900000F3 0 2 (some m)
     (s.ctx 0).move = some m ∧ s.landings = [] ∧ s.groups = [] ∧ m.old % 4096 = 0 ∧ m.new % 4096 = 0 ∧ m.leaf / 4096 ≠ m.new / 4096 ∧
       (∀ e ∈ s.ctxs, e.2.scrub = []) ∧ (∀ i < 64, fget s.ktag (m.old / 64 + i) = none)) ∧
    ((moveDev 0x900000F3 0 2 (some ⟨0x45080, 0x90000000, 0x90002000, true, [], 0⟩)).ctx 0).move.map (·.cut) = some true ∧
    (((dev { cmdCtx 1 .bound with scrub := [(0x9000, 0xA000)] }).ctx 0).scrub = (0x9000, 0xA000) :: [] ∧ 0x9000 % 64 = 0) := by
  decide +kernel

/-! Links, the host, the management block. -/

/-- A device whose context 0 has an entry for peer 9, a write in its inbox and stores on their way. -/
def peerDev (peer : Dword) (st : CtxState) : State :=
  { withTables (dev { cmdCtx 3 st with busy := false, cmd := none, stop := .none, peers := [(9, peer)] }) with
    tlb := tlb0, inbox := [⟨0, [(0x90000, 0x90000003, 7)], 0, 1⟩], grids := [(0, bootGrid)]
    sentw := [⟨4, .boundary (.team 0) 0, .peer 3, none⟩, ⟨5, .boundary (.team 0) 0, .host 3, none⟩] }
/-- What of an arriving access is seen: valid, the context, store, load, the page. -/
def peerSees (s : State) : Bool × Nat × Bool × Bool × Option TlbEntry :=
  let e := (sget 0 (s.ctx 0).peers 9).toNat
  (bit e 63, bits e 5 0, bit e 62, bit e 61, (s.xlate 0 false false .w 0x90000000 0x90000000).toOption)
/-- A result that awaits the reply for lane 1, and what has been asked. -/
def remoteG : Group := { unitG with pend := unitG.pend.map (fun p => { p with kind := .remote [1], regs := [(1, 6)] }) }
/-- A device with a window at 16 TiB × 1 / 16 onto context 2. -/
def hostDev (w : Nat) : State :=
  let s := withTables (dev { cmdCtx 3 .bound with busy := false, cmd := none, stop := .none, vf := 2 })
  { s.setCtx 2 { Ctx.reset with ptbase2 := 0x40000 } with hwin := if w = 0 then [] else [(1, BitVec.ofNat 64 w)] }
/-- A management block with a command running. -/
def mgDev (n : Nat) (f : Mgmt → Mgmt) (x : Ctx) : State :=
  { dev x with mgmt := f { Mgmt.reset with busy := true, cmd := some (n, 0), keys := [(0, 1)] } }
/-- A mailbox. -/
def mbox (bs : List Byte) (m : Mgmt) : Mgmt := { m with args := (List.range bs.length).foldl (fun b i => sset 0 b i (bs.getD i 0)) [] }
/-- A chunk of an image: offset, length, flags. -/
def chunk (off len flags : Nat) : List Byte := leBytes 4 off ++ leBytes 4 len ++ leBytes 4 flags ++ leBytes 4 0 ++ leBytes 16 5
/-- What of a chunk is seen: its length, its flags, whether the rest is zero. -/
def chunkSees (m : Mgmt) : Nat × Nat × Bool := (leNat (m.box 4 4), leNat (m.box 8 4), m.boxZero (16 + leNat (m.box 4 4)))

theorem met_PeerTrafficIsChecked :
    [peerDev 0xE000000000000007 .bound, peerDev 0x6000000000000007 .bound, peerDev 0xA000000000000008 .running].map peerSees =
      [(true, 7, true, true, some ⟨0, 0x90000, 15, 0x90000, 15, 0x90000⟩), (false, 7, true, true, some ⟨0, 0x90000, 15, 0x90000, 15, 0x90000⟩),
       (true, 8, false, true, some ⟨0, 0x90000, 15, 0x90000, 15, 0x90000⟩)] ∧
    (((peerDev 0 .bound).ctx 0).runs = false ∧ ((peerDev 0 .running).ctx 0).runs = true ∧ (∀ y ∈ (peerDev 0 .bound).inbox, y.ctx = 0) ∧
     ((peerDev 0 .bound).ctx 0).stage.track = false ∧ (∀ y ∈ (peerDev 0 .bound).ctxs, y.2.scrub = [])) ∧
    ((peerDev 0 .bound).sentw.map (fun y => (y.msg, y.reply, decide ((peerDev 0 .bound).homeOf y.cell = .fe))) =
      [(4, none, false), (5, none, true)]) ∧
    (let s := { st remoteG with out := [.peerLoad 3 9 7 0x100 8 0 0 1, .hostLoad 0x100 4 0 0 1] }
     (s.pending? 0 0).map (·.kind) = some (.remote [1]) ∧ s.asked 0 0 1 false = some 8 ∧ s.asked 0 0 1 true = some 4 ∧ s.mgmt.state ≠ 0) ∧
    (st (grp [])).pending? 0 0 = none := by decide +kernel
theorem met_PortsAndHostAccesses :
    (State.reset.ports[16]? = none ∧ State.reset.ports[15]? = some ⟨true, 8, 0⟩ ∧
     [⟨false, 8, 16⟩, ⟨true, 8, 14⟩, ⟨true, 8, 15⟩].map (fun (p : PlPort) => (State.reset.ports.set 3 p)[3]?) =
       [some ⟨false, 8, 16⟩, some ⟨true, 8, 14⟩, some ⟨true, 8, 15⟩]) ∧
    ((hostDev (3 * 2 ^ 62 + 2 ^ 57)).hostBytes true [2 ^ 40 + 0x10000]).toOption = some [(2, 16, 0x90000000)] ∧
    [(3 * 2 ^ 62 + 2 ^ 57, 2 ^ 40 + 0x10000, true), (2 ^ 63 + 2 ^ 57, 2 ^ 40 + 0x10000, true), (3 * 2 ^ 62 + 2 ^ 57, 2 ^ 40 + 0x20000, false),
      (3 * 2 ^ 62 + 2 ^ 57, 2 ^ 40 + 2 ^ 30, false), (0, 2 ^ 40, false), (3 * 2 ^ 62, 2 ^ 44, false)].map (fun x =>
        errOf ((hostDev x.1).hostByte x.2.1 x.2.2)) = [none, some 2, some 2, some 2, some 0, some 64] ∧
    (((hostDev 0).hyp 2 0x10000).toOption = some (15, 0x90000000) ∧ permOk 15 .r = true ∧ permOk 15 .w = true) ∧
    ([HostFn.pf 0, .pf 64, .vf 3, .vf 9].map (fun fn => (hostDev 0).windowCtx fn .ksTvec) = [some 0, none, some 0, none]) ∧
    (illegalValue ((hostDev 0).ctx 0) .ksTvec 0x40 = false ∧ illegalValue ((hostDev 0).ctx 0) .ksTvec 1 = true ∧
     isSplitReg .ksTvec = false ∧ isSplitReg .ksEpc = true) ∧
    (bits (2 ^ 63 + 7) 60 6 = 0 ∧ bits (2 ^ 63 + 64) 60 6 ≠ 0 ∧ bits (1500 * 65536) 31 16 = 1500 ∧ bits (3600 * 65536) 31 16 = 3600) := by
  decide +kernel
/-- A state whose split of four lanes issues an addition next. -/
def errSt : State := stLine (grp []) (encode (.add plain .i32 6 4 5))

theorem met_ManagementAndErrors :
    ((mgDev 2 id (cmdCtx 3 .running)).mgmt.cmd = some (2, 0) ∧ (mgDev 2 id (cmdCtx 3 .running)).mgmt.busy = true ∧
     State.reset.mgmt.busy = false ∧ (∃ x ∈ (mgDev 2 id (cmdCtx 3 .running)).ctxs, x.2.st ≠ .free ∧ x.2.memkey.toNat % 64 = 0) ∧
     (∀ x ∈ (mgDev 2 id (cmdCtx 3 .free)).ctxs, x.2.st = .free) ∧
     (∃ x ∈ (mgDev 4 id (cmdCtx 3 .migIn)).ctxs, x.2.st = .migIn ∧ x.2.pcSess = 0)) ∧
    ((mbox (leBytes 8 72) Mgmt.reset).boxZero 144 = true ∧ (mbox (zeroBytes 144 ++ [1]) Mgmt.reset).boxZero 144 = false ∧
     Mgmt.reset.wrap = none ∧ leNat ((mbox (leBytes 8 72) Mgmt.reset).box 0 8) = 72) ∧
    ([chunk 0 16 1, chunk 0 0 1, chunk 16 16 0, chunk 0 16 3].map (fun c => chunkSees (mbox c Mgmt.reset)) =
      [(16, 1, true), (0, 1, false), (16, 0, true), (16, 3, true)]) ∧
    (imageOk (leBytes 16 5) = false) ∧
    ((errSt.issuerOf 0 1).isSome = true ∧ ((errSt.issuerOf 0 1).bind errSt.nextInstr) = some (.add plain .i32 6 4 5) ∧
     ((errSt.issuerOf 0 1).map (fun v => [4, 6, 9].map (fun a => errSt.readsData v (.add plain .i32 6 4 5) 1 (.reg a)))) =
       some [true, false, false] ∧
     (errSt.issuerOf 0 9).isNone = true ∧ (fget errSt.groups 0).isSome = true ∧ errSt.issuerOf 5 1 = none) ∧
    (onCurve p384G = true ∧ onCurve (0, 0) = false) ∧
    ((formed.landing? (.team 0)).isSome = true ∧ (distinct (ld0.contribs.flatMap Contrib.cells))[0]?.isSome = true) ∧
    ((fget tmE.cmds 0).map (·.st) = some .running ∧ (fget tmE.cmds 2).map (·.st) = some .landing) ∧
    ((dev (cmdCtx 3 .free)).ctx 0).st = .free ∧ ((dev (cmdCtx 3 .running)).ctx 0).st = .running ∧
    (Mgmt.reset.cap < 3601 ∧ Mgmt.reset.lastChange + 1000000 ≤ 10000000 ∧ Mgmt.reset.lastHot + 10000000 ≤ 10000000) := by decide +kernel

/-! Whatever wrapped material holds, some clause says what follows. -/

theorem met_ManagementAndErrors_unwrapped (n : Nat) (r : Option (List Byte)) :
    (∀ bs, r = some bs → bs.length ≠ n) ∨ ∃ bs, r = some bs ∧ bs.length = n := by
  by_cases h : ∃ bs, r = some bs ∧ bs.length = n
  · exact .inr h
  · exact .inl (fun bs hr hl => h ⟨bs, hr, hl⟩)

/-! The whole machine. -/

/-- A line whose first slot holds `nop`, with other bits. -/
def lineWith (more : Nat) : Nat := encode (.nop plain) + more
/-- A state that issues from a line. -/
def issueSt (g : Group) (line : Nat) : State := { stLine g line with agenda := [.issue 0 0] }
/-- What the fetch of a state's split finds: may it issue, the line's kind, good parity, whether its wait meets pending flags,
whether the slot is an instruction; or the trap that the fetch takes. -/
def fetchSees (s : State) : List Nat :=
  match s.viewOf 0 0 with
  | none => []
  | some v => match s.fetchLine v.c v.user v.sp.pc with
    | .error f => [f.code]
    | .ok (l, _) => [(s.canIssue v).toNat, lineKind l, (parityOk l).toNat, (flagsMeet v.g.pendingFlags (lineWait l)).toNat,
        (decodeSlot (v.sp.slotOf l)).isSome.toNat]

theorem met_StepRunsTheDecodedInstruction :
    [issueSt (grp []) (lineWith 0), issueSt (grp []) (lineWith (2 ^ 32)), issueSt (grp []) (lineWith (2 ^ 501 + 2 ^ 511)),
      issueSt { unitG with pend := unitG.pend.map (fun p => { p with flag := 0 }) } (lineWith (2 ^ 480 + 2 ^ 511)),
      issueSt (grpSp (fun sp => { sp with st := .join }) (grp [])) (lineWith 0), issueSt (grp []) 0,
      issueSt (grpSp (fun sp => { sp with pc := 0x50000000 }) (grp [])) 0].map fetchSees =
      [[1, 0, 1, 0, 1], [1, 0, 0, 0, 0],
       [1, 1, 1, 0, 1], [1, 0, 1, 1, 1],
       [0, 0, 1, 0, 1], [1, 0, 1, 0, 0], [0x2A]] := by
  decide +kernel
theorem met_StepRunsTheDecodedInstruction_plain :
    (vw (grp [])).sp.entered = true ∧ (vw (grp [])).sp.popDue = false ∧ (vw (grp [])).sp.flash = none ∧ (vw (grp [])).sp.loop = none ∧
    (vw (grp [])).dues false = [] ∧ (vw (grp [])).dues true = [] := by decide +kernel
theorem met_InstructionsStayInTheirReach :
    swf Ctx.reset (st (grp [])).ctxs = true ∧ (st (grp [])).view?.map (fun v => (v.sp.mode, v.sp.tdepth)) = some (.user, 0) ∧
    (Instr.nop plain).isSlot = true ∧ (ran (.nop plain) (st (grp []))).isSome = true := by decide +kernel
theorem met_StepKeepsCanonicalForm_and_StepKeepsNames :
    ((issueSt (grp []) (lineWith 0)).Inv ∧ (issueSt (grp []) (lineWith 0)).Named) ∧ State.reset.Inv ∧ State.reset.Named := by
  unfold State.Inv State.Named Group.Named
  decide +kernel
theorem met_DecodingInvertsEncoding : (Instr.nop plain).isSlot = true ∧ (Instr.nop plain).wf = true ∧ encode (.nop plain) < 2 ^ 96 := by
  decide

/-! Memory, transfers and traps, one instruction at a time (R72, R183, R212, R236-R244). -/

/-- The split that runs lane 0 after an instruction. -/
def lane0 (i : Instr) (s : State) : Option Split := (ran i s).bind (fun g => (g.splits.map (·.2)).find? (fun sp => sp.mask.getLsbD 0 && !sp.frozen))

theorem test_ld : (ran (.ld plain fm) ((st (addrs 0x90000100 [])).putRaw (.mem 0 1) 0x90000100 [0x80, 0, 0, 0xFF])).map
      (fun g => ((Group.settled g).rd 6 0).toNat) = some 0xFF000080 ∧
    (ran (.ld plain { fm with width := .b8, disp := 3 }) ((st (addrs 0x90000100 [])).putRaw (.mem 0 1) 0x90000100 [0x80, 0, 0, 0xFF])).map
      (fun g => ((Group.settled g).rd 6 0).toNat) = some 0xFF := by decide +kernel
theorem test_ld_misaligned : (lane0 (.ld plain fm) (st (addrs 0x90000102 []))).map (fun sp => (sp.mode, sp.pc.toNat, sp.tdepth)) =
    some (.sup, 0x1000, 1) := by decide +kernel
theorem test_sst_reaches_memory_at_the_boundary :
    (after [.sst plain { fm with rule := .low }] (st (addrs 0x90000100 [(6, 5)]))).readN (.mem 0 1) 0x90000100 4 = 0 ∧
    (after [.boundaryLanded (.team 0)] (staged .applied [])).readN (.mem 0 1) 0x90000100 4 = 5 ∧
    (after [.boundaryLanded (.team 0)] (staged .applied [])).readN (.mem 0 1) 0x90000180 4 = 5 := by decide +kernel
theorem test_bra : (lane0 (.bra plain ⟨0, 3⟩) (sc (grp []))).map (·.pc.toNat) = some 0x90000024 := by decide +kernel
theorem test_call_ret : (lane0 (.call plain ⟨0, 3⟩) (sc (grp []))).map (fun sp => (sp.pc.toNat, sp.held, sp.depth)) =
      some (0x90000024, [⟨0x9000000C, 0, 0⟩], 1) ∧
    (lane0 (.ret plain) (sc (grpSp (fun sp => { sp with held := [retE 0x90000018], depth := 1 }) (grp [])))).map
      (fun sp => (sp.pc.toNat, sp.held, sp.depth)) = some (0x90000018, [], 0) := by decide +kernel
theorem test_exit : (ran (.exit ⟨.nz, 4, 15⟩) (st apart)).map (fun g => (g.live, (g.splits.map (·.2.mask)))) = some (2, [2]) := by decide +kernel
theorem test_sysc : (lane0 (.sysc plain 77) (sc (grp []))).map (fun sp => (sp.mode, sp.pc.toNat, sp.tdepth)) = some (.sup, 0x1000, 1) ∧
    (ran (.sysc plain 77) (sc (grp []))).map (fun g => g.levels.map (fun e => (e.2.cause, e.2.epc.toNat, e.2.from_))) =
      some [(0x39, 0x9000000C, .user)] := by decide +kernel
theorem test_privileged : (ran (.mtk plain 4 .ksTvec) (sc (grp []))).map (fun g => g.levels.map (fun e => e.2.cause)) = some [0x03] := by
  decide +kernel
theorem test_illegal_slot : (match step { stLine (grp []) 0 with agenda := [.issue 0 0] } with
    | .next t => (fget t.groups 0).map (fun g => g.levels.map (fun e => (e.2.cause, e.2.epc.toNat)))
    | _ => none) = some [(0x01, 0x90000000)] := by decide +kernel

/-! More witnesses: further clauses and boundary values. -/

theorem met_TranscendentalsAreLongLatency_exact : Fmt.f32.decode 0x3F000000 = .fin false (2 ^ 23) (-24) ∧
    1 * 2 ^ 23 = 2 ^ 23 ∧ Fmt.f32.decode 0xC0200000 = .fin true 0xA00000 (-22) ∧ 5 * 2 ^ 21 = 0xA00000 := by decide +kernel
theorem met_ShufflesMoveLanes_waits : Ready (.gsel plain .b32 8 20 0 30) (st owes11) (vw owes11) ∧
    Ready (.gsel guarded .b32 8 20 0 30) (st owes11) (vw owes11) ∧ (vw owes11).part guarded = 0 ∧ (vw owes11).part plain ≠ 0 ∧
    owes11.pendingReg (List.range 32) (OpUse.run 0 8).regs = some 6 := by decide +kernel
/-- A loop of two slots whose first slot has two fields stepped. -/
def stepping (pass : Nat) : Split :=
  { sp0 with pc := seqPc 1 0x90000000#64, loop := some ⟨0x90000000#64, 3, BitVec.ofNat 32 pass, 2, some ⟨0, .f24, 1⟩, some ⟨0, .disp, -4⟩, none⟩ }
theorem met_LoopsAdvance_steps : ∀ n ∈ [0, 2 ^ 32 - 1], (stepping n).pc = seqPc (0 + 1) 0x90000000#64 ∧ 0 < 2 ∧
    33 ≤ 51 ∧ (stepping n).loop.isSome = true := by decide +kernel
theorem met_ExitEndsLanes_rest : (twoSplits .ready []).Settled ∧ (grp []).Settled ∧ fwf (grp []).splits = true ∧
    (vw apart).sp.mask &&& ~~~((vw apart).part ⟨.nz, 4, 15⟩) = 2 := by
  unfold Group.Settled; decide +kernel
/-- Lanes 0 and 1 owe the trap of one cell. -/
def owedTwo : Group := { grp [] with owed := [⟨0, 0x30, 0, 3, 3, 9, 1⟩, ⟨1, 0x30, 0, 3, 3, 9, 1⟩, ⟨1, 0x31, 0, 3, 3, 13, 1⟩] }
theorem met_LatentResultsAndOwedTraps_several : (vw owedTwo).dues false = [⟨0, 0x30, 0, 3, 3, 9, 1⟩, ⟨1, 0x30, 0, 3, 3, 9, 1⟩] ∧
    (owedTwo.owed.filter (fun p => decide (p.lane = 1) && decide (p.code ≠ 0x41))).map (·.tval.toNat) = [9, 13] := by decide +kernel
/-- A reader of ones, and a level of four coordinates. -/
def ones : Reader := fun _ _ => .ok 1
def lev (ty : LevelTy) : Level := ⟨ty, 4, 64, 0x1000⟩
theorem met_TensorElementsLoadAndStore_levels : (lev .dense).ext ≤ 4 ∧ 3 < (lev .dense).ext ∧
    [LevelTy.dense, .singleton, .blocked, .compressed].map (fun t => (lev t).ty) = [.dense, .singleton, .blocked, .compressed] ∧
    (ones (BitVec.ofNat 64 0x1000) 4).toOption = some 1 ∧ (ones (BitVec.ofNat 64 0x1000) 1).toOption = some 1 ∧
    (resolveFrom ones (descH 1) (descH 1).levels [0, 0] 0).toOption = some (.at 0) ∧
    (descH 1).layout ≠ .plane ∧ (descH 1).layout ≠ .column ∧ 8 ≤ (descH 1).w ∧ (descH 2).w = 8 := by decide +kernel
theorem met_BoundariesFormDrainAndLand_stages :
    ((staged .buffered []).landing? (.team 0)).map (fun l => (fget l.parts 0).map (fun p =>
      (p.stage, p.rule, p.ordered, l.blocked p.cell))) = some (some (.buffered, .low, false, false)) ∧
    ((staged .refused [(home0, 0)]).landing? (.team 0)).map (fun l => l.parts.all (fun q =>
      decide (q.2.stage ≠ .core ∧ q.2.stage ≠ .buffered ∧ q.2.stage ≠ .passing))) = some true ∧
    ((staged .applied []).landing? (.team 0)).map (fun l => (l.done, l.contribs.all (fun c => c.cells.all (fun x => !x.remote)))) =
      some ([], true) := by decide +kernel
theorem met_ContributionsCombineByRule_more :
    [contrib 0, contrib 31].Pairwise (fun a b => a.wkey ≠ b.wkey ∨ a.ord ≠ b.ord) ∧
    (∀ r ∈ [Rule.sumI, .sumF, .cap, .maxN, .minN, .maxI, .minI, .maxF, .minF, .or, .and, .low, .any, .fault],
      ({ contrib 3 with rule := r, v := true }).v = true) ∧
    (contrib 0).cells = ({ contrib 1 with rule := .low }).cells ∧ (contrib 0).cells ≠ [] ∧
    ({ contrib 1 with width := .b64 }).width ≠ (contrib 0).width ∧ (contrib 0).rule.arith = true := by decide +kernel

/-! Witnesses of the rounding rules, of targets, walks, areas and launch refusals. -/

/-- Is a number the lower neighbour of a magnitude. -/
def below (mag : Nat → Nat) (c : Nat → Ordering) (lo : Nat) : Bool := decide (c (4 * mag lo) ≠ .gt) && decide (c (4 * mag (lo + 1)) = .gt)
theorem met_FloatOperationsRoundOnce_rounding :
    below (magOf 10) (placeOf 3 (-25) Fmt.f16.unit) 1 = true ∧ placeOf 1 16 Fmt.f16.unit (4 * magOf 10 (31 * 2 ^ 10)) ≠ .gt ∧
    below (magOf 10) (placeOf 4095 4 Fmt.f16.unit) (31 * 2 ^ 10 - 1) = true ∧
    below (magOf 10) (fun k => compare (k * 3) (4 * 2 ^ 24)) 0x3555 = true ∧
    below (magOf 10) (fun k => compare (k * k * 2 ^ 0) (16 * 2 * 2 ^ 48)) 0x3DA8 = true ∧
    ((FV.nan true).isNaN = true ∧ (FV.fin true 0 3).isZero = true ∧ (FV.inf true).isInf = true ∧ (FV.inf true).isNaN = false) := by
  decide +kernel
theorem met_FloatIntegralScaleAndParts_tie : below id (placeOf 5 (-1) 0) 2 = true ∧ below id (placeOf 7 0 0) 7 = true := by decide +kernel
/-- Records of each mode: integers with and without a sign, floats with infinities, with one NaN and with neither. -/
def recs : List QRec := [⟨0, 0, 1, 0, 7⟩, ⟨0, 3, 0, 0, 4⟩, ⟨1, 15, 1, 5, 2⟩, ⟨2, 7, 1, 4, 3⟩, ⟨0, 1, 1, 2, 1⟩, ⟨0, 127, 0, 7, 1⟩, ⟨0, 3, 1, 3, 0⟩]
theorem met_ConversionsAndTheirRecords_narrow :
    (∀ q ∈ recs, q.valid = true) ∧
    (recs.map (fun q => (decide (q.e = 0), q.mode, q.s, q.most))) =
      [(true, 0, 1, 127), (true, 0, 0, 15), (false, 1, 1, 123), (false, 2, 1, 126), (false, 0, 1, 7), (false, 0, 0, 255), (false, 0, 1, 7)] ∧
    below id (placeOf 5 (-1) 0) 2 = true ∧ below (magOf 2) (placeOf 5 (-17) (1 - 15 - 2)) 2 = true ∧
    below (magOf 0) (placeOf 1 (-4) (1 - 3)) 0 = true ∧ placeOf 1 20 (1 - 15 - 2) (4 * magOf 2 124) ≠ .gt ∧
    (ElemTy.f32.isFloat = true ∧ ElemTy.i16.isFloat = false ∧ Fmt.f32.decode 0x7F800001 = .nan true ∧
     Fmt.f32.decode 0xFF800000 = .inf true ∧ Fmt.f32.decode 0x80000000 = .fin true 0 (-149)) ∧
    ((2 ^ 5 - 1) * 2 ^ 2 = 0x7C % 2 ^ 7 ∧ (2 ^ 5 - 1) * 2 ^ 2 < 0x7E % 2 ^ 7 ∧ 0x7F % 2 ^ 7 = 2 ^ (4 + 3) - 1) := by decide +kernel
/-- A line of no good parity beside which another stands. -/
def lostAt (g : Group) : State := (sc g).putRaw (.mem 0 1) 0x90000040 (leBytes 64 (lineBits 0 0 + 1))
theorem met_UniformTransfers_parity :
    ((lostAt (grp [])).fetchLine 0 true 0x90000040#64).toOption.map (fun x => parityOk x.1) = some false ∧
    (lostAt (grp [])).parityAt (vw (grp [])) [0x90000040#64] = some ⟨0x50, 0x90000040#64⟩ ∧
    (lostAt (grp [])).checkPc 0 true 0x90000040#64 = some ⟨0x50, 0x90000040#64⟩ ∧
    Ready (.bra plain ⟨1, 0⟩) (lostAt (grp [])) (vw (grp [])) := by decide +kernel
theorem met_DivergenceDividesTheSplit_targets :
    (sw apart).checkPc 0 true (Target.pcFrom ⟨1, 0⟩ 0x90000000#64) = some ⟨0x02, 0x90000040#64⟩ ∧
    (sw apart).checkPc 0 true (Target.pcFrom ⟨0, 1⟩ 0x90000000#64) = none ∧
    (((sw apart).fetchLine 0 true 0x90000040#64).toOption.map (fun x => parityOk x.1)) = some true ∧
    maskOf (fun n => (vw apart).sp.mask.getLsbD n && Machine.Cond.holds .nz (apart.rd 4 n)) = 1 ∧
    maskOf (fun n => (vw apart).sp.mask.getLsbD n && Machine.Cond.holds .nz (apart.rd 5 n)) = 0 ∧
    Ready (.bdiv plain .nz 4 ⟨1, 0⟩ ⟨0, 1⟩) (sw apart) (vw apart) ∧ Ready (.bdiv plain .nz 4 ⟨0, 1⟩ ⟨1, 0⟩) (sw apart) (vw apart) ∧
    Ready (.bdiv plain .nz 5 ⟨1, 0⟩ ⟨0, 1⟩) (sw apart) (vw apart) := by decide +kernel
theorem met_LoopsAdvance_parity : (lostAt (grp [])).parityAt (vw (grp [])) [seqPc 5 0x90000000#64] = some ⟨0x50, 0x90000040#64⟩ := by
  decide +kernel
theorem met_EngineOperationsFork_ranges :
    formOk 0x0200000000000000#64 = false ∧ (formOk 0x90000101#64 = true ∧ (0x90000101#64).toNat % 4 ≠ 0) ∧
    ((st (grp [])).reachRange who0 .engDst 0x90000100#64 64 4).toOption.isSome = true ∧
    (match (st (grp [])).reachRange who0 .engDst 0x1000000#64 64 4 with
      | .error f => f.code
      | .ok _ => 0) = 0x2A ∧
    ((st (grp [])).reachAll who0 .engSrc 4 [(0x90000100#64, 64), (0x90000140#64, 64)]).toOption.isSome = true ∧
    (match (st (grp [])).reachAll who0 .engSrc 4 [(0x1000000#64, 64), (0x1000040#64, 64)] with
      | .error f => f.code
      | .ok _ => 0) = 0x2A := by decide +kernel

/-- A guest table at IPA page 16, which withTables maps, whose first entry is given. -/
def guestDev (on : Bool) (e : Nat) : State :=
  (withTables (dev { cmdCtx 3 .running with ptbase := if on then 0x10001 else 0 })).putRaw (.mem 0 1) 0x90000000 (leBytes 8 e)
/-- What the walks find. -/
def guestSees (s : State) : Option Nat := (s.guestEntry 0 0x10000).toOption
theorem met_AccessChecksInOrder_walk :
    [0x43001, 0x900000F3, 0x9000010F3, 0x900001F3, 0].map (readEnt 0) = [.table 0x43000, .bad, .bad, .bad, .bad] ∧
    [0x43001, 0x900000F3, 0x901000F3, 0].map (readEnt 3) = [.bad, .leaf 15 0x90000000, .leaf 15 0x90100000, .bad] ∧
    groupOk ((List.range 16).map (fun j => 0x900001F3 + 4096 * j)) = true ∧ groupOk ((List.range 16).map (fun _ => 0x900001F3)) = false ∧
    [0, 0x43001, 0x900000F3, 2 ^ 48 + 0xF3].map (fun e => guestSees (guestDev true e)) = [some 0, some 0x43001, some 0x900000F3, some (2 ^ 48 + 0xF3)] ∧
    ((dev (cmdCtx 3 .running)).guestEntry 0 0x10000).toOption = none ∧
    [true, false].map (fun on => ((guestDev on 0).ctx 0).ptbase.getLsbD 0) = [true, false] ∧
    ((guestDev false 0).guest 0 0 0x10000).toOption = some (15, 0x10000) ∧ ((guestDev false 0).hyp 0 0x10000).toOption = some (15, 0x90000000) ∧
    (∀ e ∈ (guestDev false 0).tlb, e.ctx ≠ 0) ∧ (st (grp [])).tlb.any (fun e => decide (e.ctx = 0) && decide (e.vpn = 0x90000)) = true ∧
    (st (grp [])).installed (2 ^ 44) 4096 = false := by decide +kernel
theorem met_PagesMoveAndScrub_pending :
    let s : State := dev { cmdCtx 1 .bound with scrub := [(0x90000, 0x91000)] }
    s.scrubPending (64 * 0x2400) = true ∧ swf Ctx.reset s.ctxs = true ∧ ∀ e ∈ s.ctxs, s.sleftLine e.1 ≠ 0x2400 := by decide +kernel

/-- The area with one byte changed, and its CRC. -/
def sdV (a v crc : Nat) : State :=
  { sd with mem := (List.range 4).foldl (fun m i => sset 0 m (65576 + i) (BitVec.ofNat 8 (crc / 256 ^ i))) (sset 0 sd.mem a (BitVec.ofNat 8 v)) }
/-- Its bytes. -/
def areaOf (s : State) : List Byte := (List.range 256).map (fun i => s.readByte s.fwKey (65536 + i))
/-- Header and CRC of an area hold; what its records are: none, how many of what length, the majors. -/
def areaSees (s : State) : Bool × Option (List Nat) :=
  let bs := areaOf s
  (decide (s.readN s.fwKey 65536 2 = 1 ∧ s.readN s.fwKey (65536 + 24) 8 = 256 ∧
      crcSteps (zeroed bs 40) 0xFFFFFFFF ^^^ 0xFFFFFFFF = field bs 40 4),
    (parseRecs 32 bs).map (fun rs => rs.length :: (rs.map (fun r => 8 + r.body.length)).sum :: rs.map (·.major)))
theorem met_ResumeRestores_areas :
    areaSees (sdV 65746 2 1755771441) = (true, some [7, 256, 1, 1, 1, 2, 1, 1, 1]) ∧
    areaSees (sdV 65552 8 3137394516) = (true, some [7, 256, 1, 1, 1, 1, 1, 1, 1]) ∧
    areaSees (sdV 65748 12 972585267) = (true, none) := by
  decide +kernel
/-- A split entry with a byte, and a trap level with a cause. -/
def entryB (i v : Nat) : List Byte := (zeroBytes 472).set i (BitVec.ofNat 8 v)
/-- The record of a group that has registers zero, and of its split. -/
def groupB : List Byte := (zeroBytes 4152).set 16 16
def splitsB : List Byte := (zeroBytes 208).set 10 1
/-- The records of a team that has ended. -/
def teamB : List Rec := [⟨0x30, 1, 0, (zeroBytes 16).set 12 1⟩, ⟨0x31, 1, 0, zeroBytes 16⟩, ⟨0x32, 1, 0, zeroBytes 16⟩, ⟨0x33, 1, 0, zeroBytes 5648⟩]
theorem met_ResumeRestores_records :
    ([entryB 0 0, entryB 36 5, entryB 37 3, entryB 38 65, entryB 39 4, entryB 77 1].map (fun b =>
      (splitOf b [] 0 (.resident 0) []).isSome) = [true, false, false, false, false, false]) ∧
    ((splitOf ((entryB 38 1).set 77 1) [] 0 (.resident 0) []).isNone = true) ∧
    ([(entryB 192 0x39).set 204 255, (entryB 192 0x40).set 204 255, (entryB 192 0x51), (entryB 192 0x0B), ((entryB 192 0x39).set 36 5),
      (entryB 192 0x39).set 204 7].map (fun b => (trapLevelOf b [] 1 0 []).isSome) = [true, true, true, false, false, false]) ∧
    ((st (grp [])).groupOf gr5 tm0 (grp []) groupB splitsB []).isSome = true ∧
    ((placeDev gr5).addTeam teamB 0 0 0 0 gr5).toOption.isSome = true ∧
    ((placeDev gr5).addTeam [] 0 0 0 0 gr5).toOption.isNone = true ∧
    errOf (({ placeDev gr5 with ctxs := [] } : State).addTeam [] 0 0 0 0 gr5) = some 10 := by decide +kernel

/-! Launches that are refused: an image of two kernels, the second of which declares nothing. -/

/-- The device, its context of a signature and quadrants. -/
def refuseDev (sig : Nat) (quads : List Nat) : State :=
  { launchDev with
    ctxs := [(0, { launchDev.ctx 0 with sig := BitVec.ofNat 64 sig, quads := quads })]
    mem := [(2415920128, 70), (2415920129, 73), (2415920130, 78), (2415920131, 31), (2415920132, 1), (2415920137, 5), (2415920144, 2),
      (2415920152, 192), (2415920153, 4), (2415920160, 64), (2415920169, 5), (2415920184, 6), (2415920185, 185), (2415920186, 93),
      (2415920187, 26), (2415920196, 1), (2415920200, 1), (2415920204, 32), (2415920206, 32), (2415920216, 3), (2415920217, 6),
      (2415920256, 5)] ++ (List.range 47).map (fun i => (2415920265 + i, BitVec.ofNat 8 (i + 1))) }
/-- The image. -/
def img6 : List Byte :=
  leBytes 4 0x1F4E4946 ++ (leBytes 4 1 ++ (leBytes 8 1280 ++ (leBytes 8 2 ++ (leBytes 8 1216 ++ (leBytes 8 64 ++ (leBytes 8 1280 ++ (zeroBytes 8 ++
  (leBytes 8 442349830 ++ (zeroBytes 4 ++ (leBytes 4 1 ++ (leBytes 4 1 ++ (leBytes 2 32 ++ (leBytes 6 32 ++ (leBytes 6 0x60300000000 ++ (zeroBytes 38 ++
  (leBytes 8 5 ++ ((List.range 48).map (fun i => BitVec.ofNat 8 i) ++ zeroBytes 1096)))))))))))))))))
theorem img6_read : (refuseDev 5 [0]).devRead 0 0x90000400 1280 = some img6 := by decide +kernel
theorem img6_crcs : crcSteps ((zeroed img6 56).take 320) 0xFFFFFFFF = 823023456 ∧
    crcSteps (((zeroed img6 56).drop 320).take 320) 823023456 = 4161024014 ∧
    crcSteps ((((zeroed img6 56).drop 320).drop 320).take 320) 4161024014 = 93796860 ∧
    crcSteps ((((zeroed img6 56).drop 320).drop 320).drop 320) 93796860 = 3852617465 := by decide +kernel
theorem img6_head : ((refuseDev 5 [0]).devRead 0 0x90000400 64).map (fun h => (imageHeadOk h, field h 8 8)) = some (true, 1280) ∧
    field img6 56 4 = 3852617465 ^^^ 0xFFFFFFFF := by decide +kernel
theorem img6_crc : crc32c (zeroed img6 56) = field img6 56 4 := by
  rw [crc32c_eq, crcSteps_split 320, img6_crcs.1, crcSteps_split 320, img6_crcs.2.1, crcSteps_split 320, img6_crcs.2.2.1,
    img6_crcs.2.2.2, img6_head.2]
/-- Where a launch of a kernel stands, by its kernel, teams, residency, and the context: the index, the declaration, the variant,
the scopes, the gangs, the fit. -/
def refuseSees (k teams res sig : Nat) (quads : List Nat) : Bool × Bool × Option Nat × Bool × Bool × Bool :=
  let e := kernelEntry img6 k
  let gr := gridOf 0 1 5 ((refuseDev sig quads).ctx 0) (recB 0x90000400 k 1 teams res 0) img6 e 1 (List.range 48)
  (decide (k < field img6 16 4), declOk e (field img6 32 8), pickVariant e sig,
    decide (¬ (bit (field e 25 1) 1 = true ∧ res < 2) ∧ ¬ (bit (field e 25 1) 2 = true ∧ res ≠ 3)), decide (teams % field e 24 1 = 0),
    fitsEmpty quads gr)
theorem met_RecordsBecomeGrids_refusals :
    (refuseSees 2 1 3 5 [0]).1 = false ∧ (refuseSees 1 1 3 5 [0]).2.1 = false ∧ (refuseSees 0 1 3 7 [0]).2.2.1 = none ∧
    (refuseSees 0 3 0 5 [0]).2.2 = (some 0, false, true, true) ∧ (refuseSees 0 1 3 5 [0]).2.2 = (some 0, true, false, true) ∧
    (refuseSees 0 3 3 5 []).2.2 = (some 0, true, true, false) ∧ refuseSees 0 3 3 5 [0] = (true, true, some 0, true, true, true) := by
  decide +kernel

/-! A record's tag: every number of it is a byte, so that it is the tag of a record that verifies. -/

/-- Numbers that are bytes. -/
def Small (l : List Nat) : Prop := ∀ x ∈ l, x < 256
theorem xor_small {a b : Nat} (ha : a < 256) (hb : b < 256) : a ^^^ b < 256 := Nat.xor_lt_two_pow (n := 8) ha hb
theorem xtime_small {a : Nat} (h : a < 256) : xtime a < 256 := by
  unfold xtime; split
  · omega
  · exact xor_small (Nat.mod_lt _ (by decide)) (by decide)
theorem gfMul_small : ∀ n {a : Nat} b, a < 256 → gfMul n a b < 256
  | 0, _, _, _ => Nat.zero_lt_succ 255
  | n + 1, a, b, h => xor_small (by split <;> omega) (gfMul_small n _ (xtime_small h))
theorem gfPow_small {a : Nat} (h : a < 256) : ∀ n, gfPow a n < 256
  | 0 => by simp [gfPow]
  | n + 1 => gfMul_small 8 _ h
theorem subByte_small {x : Nat} (h : x < 256) : subByte x < 256 := by
  have hb : gfPow x 254 < 256 := gfPow_small h 254
  unfold subByte
  generalize gfPow x 254 = b at hb
  refine xor_small (xor_small (xor_small (xor_small (xor_small hb ?_) ?_) ?_) ?_) (by decide) <;> simp only [] <;> omega
theorem sbox_small (x : Nat) : sbox.getD x 0 < 256 := by
  unfold sbox
  by_cases h : x < 256
  · simp [List.getD, h]; exact subByte_small h
  · simp [List.getD, h]
theorem small_xorL {a b : List Nat} (ha : Small a) (hb : Small b) : Small (xorL a b) := by
  intro x hx
  simp only [xorL, List.mem_map, Prod.exists] at hx
  obtain ⟨p, q, hpq, rfl⟩ := hx
  exact xor_small (ha _ (List.of_mem_zip hpq).1) (hb _ (List.of_mem_zip hpq).2)
theorem small_getD {w : List (List Nat)} (h : ∀ l ∈ w, Small l) (i : Nat) : Small (w.getD i []) := by
  intro x hx
  by_cases hi : i < w.length
  · rw [List.getD_eq_getElem?_getD, List.getElem?_eq_getElem hi] at hx; exact h _ (List.getElem_mem hi) x hx
  · rw [List.getD_eq_getElem?_getD, List.getElem?_eq_none (Nat.le_of_not_gt hi)] at hx; cases hx
theorem small_sub {l : List Nat} : Small (l.map (fun x => sbox.getD x 0)) := by
  intro x hx; simp only [List.mem_map] at hx; obtain ⟨y, -, rfl⟩ := hx; exact sbox_small y
theorem getD_sub (l : List Nat) (k : Nat) : (l.map (fun x => sbox.getD x 0)).getD k 0 < 256 := by
  rw [List.getD_eq_getElem?_getD, List.getElem?_map]
  cases l[k]? with
  | none => exact Nat.zero_lt_succ 255
  | some y => exact sbox_small y
theorem schedule_small : ∀ n rcon (w : List (List Nat)), rcon < 256 → (∀ l ∈ w, Small l) → ∀ l ∈ aesSchedule n rcon w, Small l
  | 0, _, _, _, h => h
  | n + 1, rcon, w, hr, h => by
    rw [aesSchedule]
    have hr' : (if w.length % 8 = 0 then xtime rcon else rcon) < 256 := by
      split
      · exact xtime_small hr
      · exact hr
    refine schedule_small n _ _ hr' ?_
    intro l hl
    rcases List.mem_append.1 hl with hl | hl
    · exact h l hl
    · rw [List.mem_singleton.1 hl]
      refine small_xorL (small_getD h _) ?_
      split
      · exact small_xorL small_sub (by intro x hx; simp at hx; omega)
      · split
        · exact small_sub
        · exact small_getD h _
theorem keys_small {key : List Nat} (h : Small key) (i : Nat) : Small ((aesKeys key).getD i []) := by
  refine small_getD (fun l hl => ?_) i
  simp only [aesKeys, List.mem_map] at hl
  obtain ⟨r, -, rfl⟩ := hl
  intro x hx
  obtain ⟨w, hw, hx⟩ := List.mem_flatten.1 hx
  refine schedule_small 52 1 _ (by decide) ?_ w (List.drop_subset _ _ (List.take_subset _ _ hw)) x hx
  intro l hl y hy
  simp only [List.mem_map] at hl
  obtain ⟨k, -, rfl⟩ := hl
  exact h y (List.drop_subset _ _ (List.take_subset _ _ hy))
theorem enc_small {key : List Nat} (h : Small key) (b : List Nat) : Small (aesEncWith (aesKeys key) b) := by
  unfold aesEncWith
  refine small_xorL ?_ (keys_small h 14)
  intro x hx
  simp only [aesShift, List.mem_map] at hx
  obtain ⟨i, -, rfl⟩ := hx
  exact getD_sub _ _
theorem small_beNats (n x : Nat) : Small (beNats n x) := by
  intro y hy
  simp only [beNats, List.mem_map] at hy
  obtain ⟨i, -, rfl⟩ := hy
  exact Nat.mod_lt _ (by decide)
theorem nats_bytesOf {l : List Nat} (h : Small l) : nats (bytesOf l) = l := by
  unfold nats bytesOf
  rw [List.map_map]
  conv => rhs; rw [← List.map_id l]
  exact List.map_congr_left (fun x hx => by simp [Nat.mod_eq_of_lt (h x hx)])
theorem met_IncomingRecordsAreApplied_tags (x : Session) (page snap seq : Nat) (body : List Byte) :
    (∃ tag bytes, x.unseal page snap seq body tag = some bytes) ∧ ∃ tag, x.unseal page snap seq body tag = none := by
  have hk : Small x.keyBytes := by
    intro y hy
    simp only [Session.keyBytes, nats, List.mem_map] at hy
    obtain ⟨b, -, rfl⟩ := hy
    exact b.isLt
  refine ⟨⟨bytesOf (gcmTag x.keyBytes (x.nonce seq) (nats (Config.recordHeader page snap seq)) (nats body)), ?_⟩,
    ⟨List.replicate 17 0, ?_⟩⟩
  · refine ⟨_, if_pos (nats_bytesOf ?_).symm⟩
    exact small_xorL (small_beNats _ _) (enc_small hk _)
  · refine if_neg (fun h => ?_)
    have := congrArg List.length h
    simp [gcmTag, xorL, beNats, nats] at this
    omega
end Sys2Proof.Tests
end

section
/-! PROOFS. Laws that the control instructions share: a line read does not depend on the groups and changes the cached
translations at most, legal targets pass their checks, the split stack and the split table (spec 04_encoding R72, 08_group
R149, R154, 11_traps R236). -/
namespace Sys2Proof.Machine

theorem mem_of_fget {α : Type} {m : FMap α} {k : Nat} {v : α} (h : fget m k = some v) : (k, v) ∈ m := by
  induction m with
  | nil => cases h
  | cons e m ih =>
    obtain ⟨j, w⟩ := e
    rw [fget] at h
    split at h
    · next hj => cases h; exact hj ▸ List.mem_cons_self
    · exact List.mem_cons_of_mem _ (ih h)

/-! A translation does not depend on the groups. -/

theorem State.readN_setGroup (s : State) (n : Nat) (x : Group) (k : Key) (a m : Nat) :
    (s.setGroup n x).readN k a m = s.readN k a m := rfl

theorem State.tablesH_setGroup (s : State) (n : Nat) (x : Group) : ∀ m table, (s.setGroup n x).tablesH m table = s.tablesH m table
  | 0, _ => rfl
  | m + 1, table => by
    simp only [State.tablesH, State.readN_setGroup, State.tablesH_setGroup s n x m]
    rfl

theorem State.keyAt_setGroup (s : State) (n : Nat) (x : Group) (c a : Nat) : (s.setGroup n x).keyAt c a = s.keyAt c a := by
  simp only [State.keyAt, State.fwHolds, State.tablesH_setGroup, State.setGroup_ctxs]
  rfl

theorem State.walkH_setGroup (s : State) (n : Nat) (x : Group) (ipa : Nat) :
    ∀ m table, (s.setGroup n x).walkH ipa m table = s.walkH ipa m table
  | 0, _ => rfl
  | m + 1, table => by
    simp only [State.walkH, State.readN_setGroup, State.walkH_setGroup s n x ipa m]
    rfl

theorem State.hyp_setGroup (s : State) (n : Nat) (x : Group) (c ipa : Nat) : (s.setGroup n x).hyp c ipa = s.hyp c ipa := by
  simp only [State.hyp, State.walkH_setGroup, State.setGroup_ctx]

theorem State.guestEntry_setGroup (s : State) (n : Nat) (x : Group) (c ipa : Nat) :
    (s.setGroup n x).guestEntry c ipa = s.guestEntry c ipa := by
  simp only [State.guestEntry, State.hyp_setGroup, State.keyAt_setGroup, State.readN_setGroup]

theorem State.guestGroup_setGroup (s : State) (n : Nat) (x : Group) (c table i : Nat) :
    ∀ js, (s.setGroup n x).guestGroup c table i js = s.guestGroup c table i js
  | [] => rfl
  | j :: js => by simp only [State.guestGroup, State.guestEntry_setGroup, State.guestGroup_setGroup s n x c table i js]

theorem State.walkG_setGroup (s : State) (n : Nat) (x : Group) (c : Nat) (ea : Dword) (va : Nat) :
    ∀ m table, (s.setGroup n x).walkG c ea va m table = s.walkG c ea va m table
  | 0, _ => by simp only [State.walkG, State.guestEntry_setGroup, State.guestGroup_setGroup]
  | m + 1, table => by simp only [State.walkG, State.guestEntry_setGroup, State.walkG_setGroup s n x c ea va m]

theorem State.xlate_setGroup (s : State) (n : Nat) (x : Group) (c : Nat) (u p : Bool) (acc : Acc) (ea : Dword) (va : Nat) :
    (s.setGroup n x).xlate c u p acc ea va = s.xlate c u p acc ea va := by
  simp only [State.xlate, State.guest, State.walkG_setGroup, State.hyp_setGroup, State.setGroup_ctx, State.setGroup_tlb]

theorem State.fetchLine_setGroup (s : State) (n : Nat) (x : Group) (c : Nat) (u : Bool) (pc : Dword) :
    (s.setGroup n x).fetchLine c u pc = s.fetchLine c u pc := by
  simp only [State.fetchLine, State.xlate_setGroup, State.keyAt_setGroup, State.readN_setGroup]

@[simp] theorem State.checkPc_setGroup (s : State) (n : Nat) (x : Group) (c : Nat) (u : Bool) (pc : Dword) :
    (s.setGroup n x).checkPc c u pc = s.checkPc c u pc := by
  simp only [State.checkPc, State.fetchLine_setGroup]

/-! Line reads and targets (R72). -/

/-- The state with other cached translations. -/
def State.withTlb (s : State) (x : List TlbEntry) : State := { s with tlb := x }

@[simp] theorem State.withTlb_groups (s : State) (x : List TlbEntry) : (s.withTlb x).groups = s.groups := rfl
@[simp] theorem State.withTlb_setGroup (s : State) (x : List TlbEntry) (n : Nat) (g : Group) :
    (s.withTlb x).setGroup n g = (s.setGroup n g).withTlb x := rfl

@[simp] theorem State.withTlb_modSplit (s : State) (x : List TlbEntry) (n k : Nat) (f : Split → Split) :
    (s.withTlb x).modSplit n k f = (s.modSplit n k f).withTlb x := by
  simp only [State.modSplit, State.modGroup, State.withTlb_groups, State.withTlb_setGroup]
  split <;> rfl

@[simp] theorem State.withTlb_setSplit (s : State) (x : List TlbEntry) (n k : Nat) (sp : Split) :
    (s.withTlb x).setSplit n k sp = (s.setSplit n k sp).withTlb x := by
  simp only [State.setSplit, State.withTlb_groups, State.withTlb_setGroup]
  split <;> rfl

theorem State.touchPc_eq_withTlb (s : State) (c : Nat) (u : Bool) (pc : Dword) : ∃ x, s.touchPc c u pc = s.withTlb x := by
  unfold State.touchPc State.fill
  split
  · split <;> exact ⟨_, rfl⟩
  · exact ⟨s.tlb, rfl⟩

/-- The line reads of a check of several PCs change the cached translations at most. -/
theorem State.foldl_touchPc_eq_withTlb {β : Type} (c : Nat) (u : Bool) (pc : β → Dword) :
    ∀ (ls : List β) (s : State), ∃ x, ls.foldl (fun t l => t.touchPc c u (pc l)) s = s.withTlb x
  | [], s => ⟨s.tlb, rfl⟩
  | l :: ls, s => by
    obtain ⟨x, hx⟩ := s.touchPc_eq_withTlb c u (pc l)
    obtain ⟨y, hy⟩ := State.foldl_touchPc_eq_withTlb c u pc ls (s.touchPc c u (pc l))
    exact ⟨y, by rw [List.foldl_cons, hy, hx]; rfl⟩

/-- A legal target has good parity. -/
theorem State.parityAt_of_legal {s : State} {v : View} {pc : Dword} (h : Legal s v pc) : s.parityAt v [pc] = none := by
  unfold Legal State.checkPc at h
  simp only [State.parityAt, List.findSome?_cons, List.findSome?_nil]
  by_cases hpc : pc.toNat ≥ 2 ^ 57
  · rw [if_pos hpc]
  · rw [if_neg hpc] at h ⊢
    cases hf : s.fetchLine v.c v.user pc with
    | error t => rfl
    | ok r =>
      obtain ⟨line, e⟩ := r
      cases hp : parityOk line with
      | true => simp [hp]
      | false => simp [hf, hp] at h

/-- A legal target to which every lane would go, checked: the rest of the instruction, with the line's translation cached. -/
theorem State.targets_of_legal {s : State} {v : View} {pc : Dword} (h : Legal s v pc) (k : State → Except TrapInfo State) :
    s.targets v [pc] (fun _ => some pc) k = s.orTrap v (k (s.touchPc v.c v.user pc)) := by
  have hbad : s.badDests v (fun _ => some pc) = [] := by
    simp [State.badDests, show s.checkPc v.c v.user pc = none from h]
  have hpcs : s.checkPcs v.c v.user [pc] = none := by
    simp [State.checkPcs, show s.checkPc v.c v.user pc = none from h]
  simp [State.targets, hbad, hpcs]

/-- No lane has a bad PC where all are legal. -/
theorem State.badPcs_of_legal {s : State} {v : View} {pc : Nat → Dword} (h : ∀ l ∈ maskLanes v.sp.mask, Legal s v (pc l)) :
    s.badPcs v pc = [] := by
  refine List.filterMap_eq_nil_iff.mpr (fun l hl => ?_)
  rw [show s.checkPc v.c v.user (pc l) = none from h l hl]
  rfl

/-! How an instruction that may trap as a whole ends. -/

@[simp] theorem State.setSplit_setGroup (s : State) (n k : Nat) (g : Group) (sp : Split) :
    (s.setGroup n g).setSplit n k sp = s.setGroup n (g.setSplit k sp) := by
  simp [State.setSplit, fget_fset_self]

/-- The issuing split put back as it stands. -/
theorem State.setSplit_issuing (s : State) (v : View) (i : Instr) :
    (s.issuing v i).setSplit v.gid v.sid (v.issued i) = s.issuing v i := by
  simp [State.issuing]

/-- An instruction that ends in a trap of every active lane, as it stands. -/
theorem trapsAll_of_orTrap {i : Instr} {s : State} {v : View} {f : TrapInfo}
    (he : exec i s = .next ((s.issuing v i).orTrap (v.begun i) (.error f))) : TrapsAll i s v f := he

/-- An instruction that ends in a changed group and other cached translations. -/
theorem leavesRead_of_orTrap {i : Instr} {s : State} {v : View} {g : Group} {x : List TlbEntry}
    (he : exec i s = .next ((s.issuing v i).orTrap (v.begun i) (.ok ((s.setGroup v.gid g).withTlb x)))) :
    LeavesRead i s v g := ⟨_, he, rfl⟩

theorem State.checkPc_issuing (s : State) (v : View) (i : Instr) (pc : Dword) :
    (s.issuing v i).checkPc (v.begun i).c (v.begun i).user pc = s.checkPc v.c v.user pc := by
  simp [State.issuing]

theorem Legal.issuing {s : State} {v : View} {pc : Dword} (h : Legal s v pc) (i : Instr) : Legal (s.issuing v i) (v.begun i) pc :=
  (s.checkPc_issuing v i pc).trans h

/-! The split stack (R154). -/

theorem push_of_roomy {s : State} {v : View} {sp : Split} (e : StackEntry) (h : sp.Roomy) : push s v sp e = .ok (s, sp.pushed e) := by
  obtain ⟨-, hheld, hdepth⟩ := h
  simp [push, hheld, Nat.not_le.mpr hdepth, Split.pushed]

theorem push_of_full {s : State} {v : View} {sp : Split} (e : StackEntry) (h : 64 ≤ sp.sbase + sp.depth) :
    push s v sp e = .error ⟨0x12, 0⟩ := by
  simp [push, h]

theorem topEntry_held {s : State} {v : View} {sp : Split} {e : StackEntry} {es : List StackEntry} (h : sp.held = e :: es) :
    topEntry s v sp = .ok (e, s) := by
  simp [topEntry, h]

/-- A pop of a stack that is held whole. -/
theorem pop_held {s : State} {v : View} {sp : Split} {e : StackEntry} {es : List StackEntry} (h : sp.held = e :: es)
    (hd : sp.depth = es.length + 1) : pop s v sp e.kind = .ok (e, s, { sp with held := es, depth := es.length }) := by
  simp [pop, popHeld, topEntry_held h, h, hd]

/-! The split table (R149). -/

/-- A split that keeps its entry of the table is put into its group. -/
theorem State.seat_resident {s : State} {v : View} {g : Group} {sid : Nat} {sp : Split} {p : Place} (hp : p ≠ .dormant) :
    s.seat v g sid sp (some p) = .ok (s.setGroup v.gid (g.setSplit sid { sp with place := p })) := by
  cases p with
  | resident n => rfl
  | ninth => rfl
  | dormant => exact absurd rfl hp

/-- A split put into the lowest free entry. -/
theorem State.seat_free {s : State} {v : View} {g : Group} {sid n : Nat} {sp : Split} (hn : g.freeEntry = some n) :
    s.seat v g sid sp none = .ok (s.setGroup v.gid (g.setSplit sid { sp with place := .resident n })) := by
  simp [State.seat, hn]

theorem State.pushAt_of_roomy {s : State} {v : View} {g : Group} (e : StackEntry) (hg : fget s.groups v.gid = some g)
    (h : v.sp.Roomy) : s.pushAt v e = .ok (s.setGroup v.gid (g.setSplit v.sid (v.sp.pushed e))) := by
  simp [State.pushAt, push_of_roomy e h, hg, State.seat_resident (show (v.sp.pushed e).place ≠ .dormant from h.1)]

theorem State.pushAt_of_full {s : State} {v : View} (e : StackEntry) (h : 64 ≤ v.sp.sbase + v.sp.depth) :
    s.pushAt v e = .error ⟨0x12, 0⟩ := by
  simp [State.pushAt, push_of_full e h]

/-! Lanes and their masks. -/

/-- The sum that `maskOf` takes: its bits are those that the test selects. -/
theorem testBit_sum_two_pow (p : Nat → Bool) (n : Nat) :
    (List.range n).foldl (fun a l => if p l then a + 2 ^ l else a) 0 < 2 ^ n ∧
    ∀ k, ((List.range n).foldl (fun a l => if p l then a + 2 ^ l else a) 0).testBit k = (decide (k < n) && p k) := by
  induction n with
  | zero => simp
  | succ n ih =>
    obtain ⟨hlt, hbit⟩ := ih
    rw [List.range_succ, List.foldl_append]
    generalize (List.range n).foldl (fun a l => if p l then a + 2 ^ l else a) 0 = a at hlt hbit
    have hn : a.testBit n = false := Nat.testBit_lt_two_pow hlt
    have hpow : 2 ^ (n + 1) = 2 ^ n + 2 ^ n := Nat.two_pow_succ n
    simp only [List.foldl_cons, List.foldl_nil]
    cases hp : p n with
    | false =>
      refine ⟨by rw [if_neg Bool.false_ne_true]; omega, fun k => ?_⟩
      by_cases hk : k = n
      · simp [hk, hp, hn]
      · simp [hbit, show k < n + 1 ↔ k < n by omega]
    | true =>
      rw [if_pos rfl, Nat.add_comm]
      have hsum : 2 ^ n + a < 2 ^ (n + 1) := by omega
      refine ⟨hsum, fun k => ?_⟩
      rcases Nat.lt_trichotomy k n with hk | rfl | hk
      · simp [Nat.testBit_two_pow_add_gt hk, hbit, hk, Nat.lt_succ_of_lt hk]
      · simp [Nat.testBit_two_pow_add_eq, hn, hp]
      · have hlow : 2 ^ n + a < 2 ^ k := Nat.lt_of_lt_of_le hsum (Nat.pow_le_pow_right Nat.two_pos hk)
        simp [Nat.testBit_lt_two_pow hlow, show ¬ k < n + 1 by omega]

@[simp] theorem getLsbD_maskOf (p : Nat → Bool) (k : Nat) : (maskOf p).getLsbD k = (decide (k < 32) && p k) := by
  obtain ⟨-, hbit⟩ := testBit_sum_two_pow p 32
  simp only [maskOf, Sys2Proof.lanes, BitVec.getLsbD_ofNat, hbit]
  cases decide (k < 32) <;> simp

/-! Traps of lanes (R236). -/

/-- Lanes that all meet one trap take it together. -/
theorem codesOf_uniform {ls : List Nat} {f : TrapInfo} (hls : ls ≠ []) (hf : f.code < 256) :
    codesOf (ls.map (fun l => (l, f))) = [f.code] := by
  obtain ⟨l, hl⟩ := List.exists_mem_of_ne_nil ls hls
  have hany : ∀ c, (ls.map (fun l => (l, f))).any (fun t => decide (t.2.code = c)) = (c == f.code) := by
    intro c
    rw [Bool.eq_iff_iff]
    simp only [List.any_map, List.any_eq_true, Function.comp, decide_eq_true_eq, beq_iff_eq]
    exact ⟨fun ⟨_, _, h⟩ => h.symm, fun h => ⟨l, hl, h.symm⟩⟩
  unfold codesOf
  rw [List.filter_congr (fun c _ => hany c), List.filter_beq, List.count_range, if_pos hf]
  rfl

/-- One trap met by every active lane is the trap of the whole split. -/
theorem State.trapLanes_uniform {s : State} {v : View} {f : TrapInfo} (hm : maskLanes v.sp.mask ≠ []) (hf : f.code < 256) :
    s.trapLanes v ((maskLanes v.sp.mask).map (fun l => (l, f))) = s.trapSplit v f := by
  have hmine : ((maskLanes v.sp.mask).map (fun l => (l, f))).filter (fun e => decide (e.2.code = f.code)) =
      (maskLanes v.sp.mask).map (fun l => (l, f)) := List.filter_eq_self.mpr (by simp)
  have hmask : maskOf (fun k => ((maskLanes v.sp.mask).map (fun l => (l, f))).any (fun e => decide (e.1 = k))) = v.sp.mask := by
    refine BitVec.eq_of_getLsbD_eq (fun k hk => ?_)
    rw [getLsbD_maskOf, Bool.eq_iff_iff]
    simp [mem_maskLanes, hk]
  unfold State.trapLanes
  rw [codesOf_uniform hm hf]
  simp only [List.foldl_cons, List.foldl_nil, hmine, hmask, List.map_map]
  rfl

/-! Lanes with PCs of their own, all of which are legal. -/

/-- Without a lane that traps, all the active lanes are left to the rest of the instruction. -/
theorem State.withLanes_nil {s : State} {v : View} (hm : maskLanes v.sp.mask ≠ []) (hs : s.setSplit v.gid v.sid v.sp = s)
    {op : State → View → Except TrapInfo State} {r : Except TrapInfo State} (hop : op s v = r)
    (hf : ∀ f, r = .error f → f.code < 256) : s.withLanes v [] op = s.orTrap v r := by
  have hgood : v.sp.mask &&& ~~~trapMask [] = v.sp.mask := by
    rw [show trapMask [] = 0#32 by decide, BitVec.not_zero, BitVec.and_allOnes]
  have hne : v.sp.mask ≠ 0 := by
    intro h0
    exact hm (by rw [h0]; decide)
  unfold State.withLanes
  simp only [hgood, if_neg hne, hs, hop]
  cases r with
  | ok t => rfl
  | error f => exact State.trapLanes_uniform hm (hf f rfl)

/-! Dividing a split among free entries of the table (R149). -/

/-- No split of the group holds entry n of the table. -/
def Group.isFree (g : Group) (n : Nat) : Bool := g.splits.all (fun e => decide (e.2.place ≠ .resident n))

theorem Group.free_eq (g : Group) : g.free = (List.range 8).countP g.isFree := rfl

theorem Group.freeEntry_of_free {g : Group} (h : 0 < g.free) : ∃ n, g.freeEntry = some n := by
  obtain ⟨n, hn, hp⟩ := List.countP_pos_iff.mp (g.free_eq ▸ h)
  exact Option.isSome_iff_exists.mp (List.find?_isSome.mpr ⟨n, hn, hp⟩)

/-- An entry that was free is free still beside a split that does not hold it. -/
theorem Group.isFree_setSplit {g : Group} {k n : Nat} {sp : Split} (h : g.isFree n = true) (hp : sp.place ≠ .resident n) :
    (g.setSplit k sp).isFree n = true :=
  all_fset (fun x : Split => decide (x.place ≠ .resident n)) g.splits k sp h (by simpa using hp)

/-- A split that takes an entry leaves at most one entry fewer free. -/
theorem Group.free_setSplit_resident (g : Group) (k m : Nat) (sp : Split) (hp : sp.place = .resident m) :
    g.free ≤ (g.setSplit k sp).free + 1 := by
  have hone : ((List.range 8).filter (· == m)).countP g.isFree ≤ 1 :=
    Nat.le_trans List.countP_le_length (by rw [← List.countP_eq_length_filter]; exact List.nodup_iff_count.mp List.nodup_range m)
  have hrest : ((List.range 8).filter (fun n => !(n == m))).countP g.isFree ≤ (g.setSplit k sp).free := by
    rw [List.countP_filter]
    refine List.countP_mono_left (fun n _ hn => ?_)
    obtain ⟨hfree, hne⟩ : g.isFree n = true ∧ n ≠ m := by simpa using hn
    exact Group.isFree_setSplit hfree (by rw [hp]; simpa using Ne.symm hne)
  calc g.free = ((List.range 8).filter (· == m)).countP g.isFree + ((List.range 8).filter (fun n => !(n == m))).countP g.isFree :=
        g.free_eq.trans (List.countP_eq_countP_filter_add _ _ _)
    _ ≤ (g.setSplit k sp).free + 1 := by omega

/-- A split that keeps the entry of one that the group holds takes no other. -/
theorem Group.free_setSplit_same {g : Group} {k j : Nat} {sp x : Split} (hx : fget g.splits j = some x) (hp : sp.place = x.place) :
    g.free ≤ (g.setSplit k sp).free := by
  refine List.countP_mono_left (fun n _ hn => Group.isFree_setSplit hn ?_)
  rw [hp]
  simpa using List.all_eq_true.mp hn _ (mem_of_fget hx)

/-- With an entry for each, the splits after the first become resident. -/
theorem State.seatRest_of_free (v : View) : ∀ (ks : List Split) {s : State} {g : Group}, fget s.groups v.gid = some g →
    ks.length ≤ g.free → ∃ u, s.seatRest v ks = .ok u
  | [], s, _, _, _ => ⟨s, rfl⟩
  | k :: ks, s, g, hg, hfree => by
    rw [List.length_cons] at hfree
    obtain ⟨n, hn⟩ := Group.freeEntry_of_free (g := g) (by omega)
    have hseat := State.seat_free (s := s) (v := v) (g := { g with nextId := g.nextId + 1, nextAge := g.nextAge + 1 })
      (sid := g.nextId) (sp := { k with sid := g.nextId, age := g.nextAge }) hn
    have hle := Group.free_setSplit_resident { g with nextId := g.nextId + 1, nextAge := g.nextAge + 1 } g.nextId n
      { k with sid := g.nextId, age := g.nextAge, place := .resident n } rfl
    have hg' : ({ g with nextId := g.nextId + 1, nextAge := g.nextAge + 1 } : Group).free = g.free := rfl
    simp only [State.seatRest, hg, hseat]
    exact State.seatRest_of_free v ks (fget_fset_self _ _ _) (by omega)

/-- A division of a split that has an entry, with a free one for each further split. -/
theorem State.divide_of_free {s : State} {v : View} {g : Group} {kids : List Split} (hg : fget s.groups v.gid = some g)
    (hsp : fget g.splits v.sid = some v.sp) (hp : v.sp.place ≠ .dormant) (hk : kids.length ≤ g.free + 1) :
    ∃ u, s.divide v kids = .ok u := by
  cases kids with
  | nil => exact ⟨s, by simp [State.divide]⟩
  | cons k ks =>
    have hle := Group.free_setSplit_same (k := v.sid) (sp := { k with place := v.sp.place }) hsp rfl
    obtain ⟨u, hu⟩ := State.seatRest_of_free v ks
      (s := s.setGroup v.gid (g.setSplit v.sid { k with place := v.sp.place })) (fget_fset_self _ _ _)
      (by rw [List.length_cons] at hk; omega)
    exact ⟨(u.retest v.gid).promote v.gid, by simp [State.divide, hg, State.seat_resident hp, hu]⟩

theorem insKid_length (k : LaneMask × Option Dword) : ∀ js, (insKid k js).length = js.length + 1
  | [] => rfl
  | j :: js => by
    rw [insKid]
    split
    · rfl
    · rw [List.length_cons, insKid_length k js, List.length_cons]

theorem sortKids_length : ∀ ks, (sortKids ks).length = ks.length
  | [] => rfl
  | k :: ks => (insKid_length k (sortKids ks)).trans (congrArg (· + 1) (sortKids_length ks))

end Sys2Proof.Machine
end

section
/-! PROOFS. `call`, `ret` and `retl` (spec 08_group R173, R174). -/
namespace Sys2Proof.Machine

/-! `call` (R173). -/

/-- The push and the transfer of a `call` whose target is legal. -/
def callOp (l : Target) (t : State) (w : View) : Except TrapInfo State :=
  match t.pushAt w ⟨nextPc w.sp.pc, 0, 0⟩ with
  | .ok u => .ok (u.goTo w (Target.pcFrom l w.sp.pc))
  | .error f => .error f

theorem exec_call_of_legal {s : State} {v : View} {h : Hdr} {l : Target} (hr : Ready (.call h l) s v)
    (hl : Legal s v (Target.pcFrom l v.sp.pc)) : ∃ x, exec (.call h l) s = .next ((s.issuing v (.call h l)).orTrap
      (v.begun (.call h l)) (callOp l ((s.issuing v (.call h l)).withTlb x) (v.begun (.call h l)))) := by
  obtain ⟨x, hx⟩ := (s.issuing v (.call h l)).touchPc_eq_withTlb v.c v.user (Target.pcFrom l v.sp.pc)
  have he : exec (.call h l) s = issueE (.call h l) s (fun t w => t.lineFaults (.call h l) w) (fun t w =>
      t.targets w [Target.pcFrom l w.sp.pc] (fun _ => some (Target.pcFrom l w.sp.pc)) (fun u => callOp l u w)) := rfl
  refine ⟨x, ?_⟩
  rw [he, issueE_ready hr _ (State.parityAt_of_legal hl)]
  refine congrArg Host.Outcome.next ((State.targets_of_legal (hl.issuing _) _).trans ?_)
  rw [← hx]
  rfl

theorem callOp_of_roomy {s : State} {v : View} {i : Instr} {l : Target} (x : List TlbEntry) (hroom : v.sp.Roomy) :
    callOp l ((s.issuing v i).withTlb x) (v.begun i) = .ok ((s.setGroup v.gid
      (v.with (((v.issued i).pushed ⟨nextPc v.sp.pc, 0, 0⟩).transfer (Target.pcFrom l v.sp.pc)))).withTlb x) := by
  have hg : fget ((s.issuing v i).withTlb x).groups (v.begun i).gid = some (v.with (v.issued i)) := fget_fset_self _ _ _
  unfold callOp
  rw [State.pushAt_of_roomy _ hg hroom]
  simp [State.issuing, State.goTo]

theorem callOp_of_full {t : State} {w : View} {l : Target} (h : 64 ≤ w.sp.sbase + w.sp.depth) :
    callOp l t w = .error ⟨0x12, 0⟩ := by
  simp [callOp, State.pushAt_of_full _ h]

theorem call_pushes {s : State} {v : View} {h : Hdr} {l : Target} (hr : Ready (.call h l) s v)
    (hl : Legal s v (Target.pcFrom l v.sp.pc)) (hroom : v.sp.Roomy) : LeavesRead (.call h l) s v
      (v.with (((v.issued (.call h l)).pushed ⟨nextPc v.sp.pc, 0, 0⟩).transfer (Target.pcFrom l v.sp.pc))) := by
  obtain ⟨x, he⟩ := exec_call_of_legal hr hl
  rw [callOp_of_roomy x hroom] at he
  exact leavesRead_of_orTrap he

theorem call_traps_of_full {s : State} {v : View} {h : Hdr} {l : Target} (hr : Ready (.call h l) s v)
    (hl : Legal s v (Target.pcFrom l v.sp.pc)) (hfull : 64 ≤ v.sp.sbase + v.sp.depth) : TrapsAll (.call h l) s v ⟨0x12, 0⟩ := by
  obtain ⟨x, he⟩ := exec_call_of_legal hr hl
  rw [callOp_of_full (w := v.begun (.call h l)) hfull] at he
  exact trapsAll_of_orTrap he

/-! `ret` (R173). -/

/-- What `ret` does once it has issued. -/
def retOp (t : State) (w : View) : Except TrapInfo State :=
  if w.sp.depth = 0 then .error ⟨0x10, 0⟩
  else match topEntry t w w.sp with
    | .error f => .error f
    | .ok (e, u) =>
      if e.kind ≠ 0 then .error ⟨0x11, 0⟩
      else match u.checkPc w.c w.user e.pc with
        | some f => .error f
        | none => match pop u w w.sp 0 with
          | .error f => .error f
          | .ok (_, z, sp) => .ok ((z.touchPc w.c w.user e.pc).setSplit w.gid w.sid (sp.transfer e.pc))

theorem exec_ret_of_ready {s : State} {v : View} {h : Hdr} (hr : Ready (.ret h) s v) : exec (.ret h) s =
    .next ((s.issuing v (.ret h)).orTrap (v.begun (.ret h)) (retOp (s.issuing v (.ret h)) (v.begun (.ret h)))) :=
  issue_ready hr (fun t w => t.orTrap w (retOp t w))

theorem retOp_of_empty {t : State} {w : View} (h : w.sp.depth = 0) : retOp t w = .error ⟨0x10, 0⟩ := by
  simp [retOp, h]

section
variable {t : State} {w : View} {e : StackEntry} {es : List StackEntry} (hheld : w.sp.held = e :: es) (hd : w.sp.depth ≠ 0)
include hheld hd

theorem retOp_of_mismatch (hk : e.kind ≠ 0) : retOp t w = .error ⟨0x11, 0⟩ := by
  simp [retOp, topEntry_held hheld, hd, hk]

theorem retOp_of_illegal {f : TrapInfo} (hk : e.kind = 0) (hf : t.checkPc w.c w.user e.pc = some f) : retOp t w = .error f := by
  simp [retOp, topEntry_held hheld, hd, hk, hf]

theorem retOp_of_legal (hk : e.kind = 0) (hl : Legal t w e.pc) (hes : w.sp.depth = es.length + 1) : retOp t w =
    .ok ((t.touchPc w.c w.user e.pc).setSplit w.gid w.sid
      (({ w.sp with held := es, depth := es.length } : Split).transfer e.pc)) := by
  have hc : t.checkPc w.c w.user e.pc = none := hl
  have hp : pop t w w.sp 0 = .ok (e, t, { w.sp with held := es, depth := es.length }) := hk ▸ pop_held hheld hes
  simp [retOp, topEntry_held hheld, hd, hk, hc, hp]

end

theorem ret_traps {s : State} {v : View} {h : Hdr} {f : TrapInfo} (hr : Ready (.ret h) s v)
    (hop : retOp (s.issuing v (.ret h)) (v.begun (.ret h)) = .error f) : TrapsAll (.ret h) s v f :=
  trapsAll_of_orTrap (hop ▸ exec_ret_of_ready hr)

theorem ret_pops {s : State} {v : View} {h : Hdr} {e : StackEntry} {es : List StackEntry} (hr : Ready (.ret h) s v)
    (hheld : v.sp.held = e :: es) (hk : e.kind = 0) (hl : Legal s v e.pc) (hes : v.sp.depth = es.length + 1) :
    LeavesRead (.ret h) s v
      (v.with (({ v.issued (.ret h) with held := es, depth := es.length } : Split).transfer e.pc)) := by
  obtain ⟨x, hx⟩ := (s.issuing v (.ret h)).touchPc_eq_withTlb (v.begun (.ret h)).c (v.begun (.ret h)).user e.pc
  refine leavesRead_of_orTrap (x := x) ?_
  rw [exec_ret_of_ready hr, retOp_of_legal (w := v.begun (.ret h)) hheld
    (fun hd => Nat.succ_ne_zero _ (hes.symm.trans hd)) hk (hl.issuing _) hes, hx]
  simp [State.issuing]

/-! `retl` (R174). -/

/-- The check that lanes which return to the rejoin PC make of the stack (R172, R174). -/
def retlTop (pc : Nat → Dword) (t : State) (w : View) : Except TrapInfo State :=
  if (maskLanes w.sp.mask).any (fun l => decide (pc l = w.sp.rejoin)) then
    if w.sp.depth = 0 then .error ⟨0x11, 0⟩
    else match topEntry t w w.sp with
      | .error f => .error f
      | .ok (e, u) => if e.kind ≠ 1 then .error ⟨0x11, 0⟩ else .ok u
  else .ok t

/-- What the lanes of a `retl` that have legal PCs do. -/
def retlOp (pc : Nat → Dword) (t : State) (w : View) : Except TrapInfo State :=
  match retlTop pc t w with
  | .error f => .error f
  | .ok u =>
    if w.sp.loop.isSome ∧ (byDest (maskLanes w.sp.mask) pc).length > 1 then .error ⟨0x14, 0⟩
    else ((maskLanes w.sp.mask).foldl (fun z l => z.touchPc w.c w.user (pc l)) u).divide w
      ((sortKids (byDest (maskLanes w.sp.mask) pc)).map (kidSplit w.sp w.sp.rejoin w.sp.jmask))

/-- Some lane returns to the rejoin PC. -/
def View.Back (v : View) (pc : Nat → Dword) : Prop := ∃ l ∈ maskLanes v.sp.mask, pc l = v.sp.rejoin

theorem retlTop_of_back {pc : Nat → Dword} {t : State} {w : View} (hb : w.Back pc)
    (h : w.sp.depth = 0 ∨ ∃ e es, w.sp.held = e :: es ∧ e.kind ≠ 1) : retlTop pc t w = .error ⟨0x11, 0⟩ := by
  have hany : (maskLanes w.sp.mask).any (fun l => decide (pc l = w.sp.rejoin)) = true := by simpa [View.Back] using hb
  unfold retlTop
  rw [if_pos hany]
  rcases h with hd | ⟨e, es, hheld, hk⟩
  · rw [if_pos hd]
  · simp [topEntry_held hheld, hk]

theorem retlTop_of_rejoin {pc : Nat → Dword} {t : State} {w : View}
    (h : w.Back pc → w.sp.depth ≠ 0 ∧ ∃ e es, w.sp.held = e :: es ∧ e.kind = 1) : retlTop pc t w = .ok t := by
  unfold retlTop
  split
  · next hany =>
    obtain ⟨hd, e, es, hheld, hk⟩ := h (by simpa [View.Back] using hany)
    simp [topEntry_held hheld, hk, hd]
  · rfl

theorem retlOp_of_back {pc : Nat → Dword} {t : State} {w : View} (hb : w.Back pc)
    (h : w.sp.depth = 0 ∨ ∃ e es, w.sp.held = e :: es ∧ e.kind ≠ 1) : retlOp pc t w = .error ⟨0x11, 0⟩ := by
  simp [retlOp, retlTop_of_back hb h]

section
variable {pc : Nat → Dword} {t : State} {w : View}
  (h : w.Back pc → w.sp.depth ≠ 0 ∧ ∃ e es, w.sp.held = e :: es ∧ e.kind = 1)
include h

theorem retlOp_of_loop (hl : w.sp.loop ≠ none) (hk : 1 < (byDest (maskLanes w.sp.mask) pc).length) :
    retlOp pc t w = .error ⟨0x14, 0⟩ := by
  simp [retlOp, retlTop_of_rejoin h, Option.isSome_iff_ne_none, hl, hk]

theorem retlOp_divides (hl : w.sp.loop = none ∨ (byDest (maskLanes w.sp.mask) pc).length ≤ 1) :
    retlOp pc t w = ((maskLanes w.sp.mask).foldl (fun z l => z.touchPc w.c w.user (pc l)) t).divide w
      ((sortKids (byDest (maskLanes w.sp.mask) pc)).map (kidSplit w.sp w.sp.rejoin w.sp.jmask)) := by
  have hno : ¬ (w.sp.loop.isSome ∧ (byDest (maskLanes w.sp.mask) pc).length > 1) := by
    rintro ⟨hs, hk⟩
    rcases hl with hn | hle
    · simp [hn] at hs
    · omega
  simp only [retlOp, retlTop_of_rejoin h, if_neg hno]

end

/-- What `retl` does when every lane has a legal PC. -/
theorem exec_retl_of_legal {s : State} {v : View} {h : Hdr} {a : Nat} (hr : Ready (.retl h a) s v)
    (hm : maskLanes v.sp.mask ≠ []) (hl : ∀ l ∈ maskLanes v.sp.mask, Legal s v (v.g.rd64 a l)) {r : Except TrapInfo State}
    (hop : retlOp (v.g.rd64 a) (s.issuing v (.retl h a)) (v.begun (.retl h a)) = r) (hf : ∀ f, r = .error f → f.code < 256) :
    exec (.retl h a) s = .next ((s.issuing v (.retl h a)).orTrap (v.begun (.retl h a)) r) := by
  have he : exec (.retl h a) s = issue (.retl h a) s (fun t w =>
    t.withLanes w (t.badPcs w (w.g.rd64 a)) (retlOp (w.g.rd64 a))) := rfl
  have hbad : (s.issuing v (.retl h a)).badPcs (v.begun (.retl h a)) (v.g.rd64 a) = [] :=
    State.badPcs_of_legal (fun l hl' => (hl l hl').issuing _)
  have hw := State.withLanes_nil (v := v.begun (.retl h a)) hm (State.setSplit_issuing s v (.retl h a)) hop hf
  rw [he, issue_ready hr, ← hw]
  exact congrArg (fun b => Host.Outcome.next ((s.issuing v (.retl h a)).withLanes (v.begun (.retl h a)) b
    (retlOp (v.g.rd64 a)))) hbad

theorem retl_traps {s : State} {v : View} {h : Hdr} {a : Nat} (hr : Ready (.retl h a) s v) (hm : maskLanes v.sp.mask ≠ [])
    (hl : ∀ l ∈ maskLanes v.sp.mask, Legal s v (v.g.rd64 a l)) {f : TrapInfo} (hf : f.code < 256)
    (hop : retlOp (v.g.rd64 a) (s.issuing v (.retl h a)) (v.begun (.retl h a)) = .error f) : TrapsAll (.retl h a) s v f :=
  trapsAll_of_orTrap (exec_retl_of_legal hr hm hl hop (fun _ he => by cases he; exact hf))

theorem retl_divides {s : State} {v : View} {h : Hdr} {a : Nat} (hr : Ready (.retl h a) s v) (hm : maskLanes v.sp.mask ≠ [])
    (hl : ∀ l ∈ maskLanes v.sp.mask, Legal s v (v.g.rd64 a l))
    (hb : v.Back (v.g.rd64 a) → v.sp.depth ≠ 0 ∧ ∃ e es, v.sp.held = e :: es ∧ e.kind = 1)
    (hloop : v.sp.loop = none ∨ (byDest (maskLanes v.sp.mask) (v.g.rd64 a)).length ≤ 1) (hp : v.sp.place ≠ .dormant)
    (hk : (byDest (maskLanes v.sp.mask) (v.g.rd64 a)).length ≤ v.g.free + 1) :
    ∃ t u : State, t = { s.issuing v (.retl h a) with tlb := t.tlb } ∧ exec (.retl h a) s = .next u ∧
      t.divide (v.begun (.retl h a)) ((sortKids (byDest (maskLanes v.sp.mask) (v.g.rd64 a))).map
        (kidSplit (v.issued (.retl h a)) v.sp.rejoin v.sp.jmask)) = .ok u := by
  obtain ⟨x, hx⟩ := State.foldl_touchPc_eq_withTlb (v.begun (.retl h a)).c (v.begun (.retl h a)).user (v.g.rd64 a)
    (maskLanes v.sp.mask) (s.issuing v (.retl h a))
  have hop := retlOp_divides (t := s.issuing v (.retl h a)) (w := v.begun (.retl h a)) hb hloop
  have hfree : v.g.free ≤ (v.with (v.issued (.retl h a))).free := by
    obtain ⟨-, -, hsp, -⟩ := State.view?_some hr.1
    exact Group.free_setSplit_same (sp := v.issued (.retl h a)) hsp rfl
  obtain ⟨u, hu⟩ := State.divide_of_free (s := (s.issuing v (.retl h a)).withTlb x) (v := v.begun (.retl h a))
    (g := v.with (v.issued (.retl h a))) (kids := (sortKids (byDest (maskLanes v.sp.mask) (v.g.rd64 a))).map
      (kidSplit (v.issued (.retl h a)) v.sp.rejoin v.sp.jmask)) (fget_fset_self _ _ _) (View.with_splits _ _) hp
    (by rw [List.length_map, sortKids_length]; omega)
  refine ⟨(s.issuing v (.retl h a)).withTlb x, u, rfl, ?_, hu⟩
  refine exec_retl_of_legal (r := .ok u) hr hm hl (hop.trans ?_) (fun _ he => by cases he)
  rw [← hu, ← hx]
  rfl

end Sys2Proof.Machine

open Sys2Proof Sys2Proof.Machine

/-- Settles O16: the shapes of `call`, `ret` and `retl` by what stands on the stack (R173, R174). -/
theorem callsAndReturns : Obligations.CallsAndReturns := by
  unfold Obligations.CallsAndReturns
  refine ⟨fun s v h l => ⟨fun hr hl => ⟨call_pushes hr hl, call_traps_of_full hr hl⟩, fun hr => ⟨fun hd => ?_, ?_⟩⟩, ?_⟩
  · exact ret_traps hr (retOp_of_empty hd)
  · intro e es hheld hd
    exact ⟨fun hk => ret_traps hr (retOp_of_mismatch hheld hd hk),
      fun hk f hf => ret_traps hr (retOp_of_illegal (w := v.begun (.ret h)) hheld hd hk ((s.checkPc_issuing v _ _).trans hf)),
      fun hk hl hes => ret_pops hr hheld hk hl hes⟩
  · intro s v h a i lanes kids back hr hm hl _
    refine ⟨fun hb hstack => retl_traps hr hm hl (by decide) (retlOp_of_back hb hstack), fun hb => ⟨fun hloop hk => ?_, ?_⟩⟩
    · exact retl_traps hr hm hl (by decide) (retlOp_of_loop hb hloop hk)
    · exact retl_divides hr hm hl hb
end

section
/-! PROOFS. The model's readings of registers as integers and bits, in terms of bit vectors: elements and their integers,
wrapping and placing (03_numbers R47, R49), shifts, bit counts and bit fields (spec 14_isa_vector R298-R302). -/
namespace Sys2Proof

/-! Integers of n bits. -/

theorem sextNat_eq_toInt (n w : Nat) : sextNat n w = (BitVec.ofNat n w).toInt := by
  cases n with
  | zero => simp [sextNat, Nat.mod_one, BitVec.eq_nil (BitVec.ofNat 0 w)]
  | succ n =>
    have hp : 2 ^ (n + 1) = 2 * 2 ^ n := Nat.pow_succ'
    simp only [sextNat, BitVec.toInt, BitVec.toNat_ofNat, Nat.add_sub_cancel]
    split <;> split <;> omega

theorem wrapNat_eq_toNat (n : Nat) (i : Int) : wrapNat n i = (BitVec.ofInt n i).toNat := (BitVec.toNat_ofInt i).symm

theorem sextNat_toNat {w : Nat} (x : BitVec w) : sextNat w x.toNat = x.toInt := by
  rw [sextNat_eq_toInt, BitVec.ofNat_toNat, BitVec.setWidth_eq]

theorem ofInt_sub (w : Nat) (x y : Int) : BitVec.ofInt w (x - y) = BitVec.ofInt w x - BitVec.ofInt w y := by
  rw [Int.sub_eq_add_neg, BitVec.ofInt_add, BitVec.ofInt_neg, ← BitVec.sub_eq_add_neg]

theorem emod_mul_self_ediv_emod (p : Int) {m : Int} (hm : 0 < m) : p % (m * m) / m % m = p / m % m := by
  have h : p % (m * m) = p + m * (m * -(p / (m * m))) := by
    rw [Int.emod_def, Int.mul_assoc, Int.sub_eq_add_neg, Int.mul_neg, Int.mul_neg]
  rw [h, Int.add_mul_ediv_left _ _ (by omega), Int.add_mul_emod_self_left]

theorem ofInt_ediv_two_pow (w : Nat) (p : Int) :
    BitVec.ofInt w (p / ((2 ^ w : Nat) : Int)) = (BitVec.ofInt (2 * w) p >>> w).setWidth w := by
  apply BitVec.eq_of_toNat_eq
  have h2 : (2 : Nat) ^ (2 * w) = 2 ^ w * 2 ^ w := by rw [Nat.two_mul, Nat.pow_add]
  have hpos : 0 < 2 ^ w := Nat.two_pow_pos w
  rw [BitVec.toNat_setWidth, BitVec.toNat_ushiftRight, BitVec.toNat_ofInt, BitVec.toNat_ofInt, Nat.shiftRight_eq_div_pow, h2]
  generalize 2 ^ w = m at hpos
  have hm : (0 : Int) < m := by omega
  rw [← emod_mul_self_ediv_emod p hm]
  have hr : 0 ≤ p % ((m * m : Nat) : Int) := Int.emod_nonneg _ (by exact_mod_cast Nat.ne_of_gt (Nat.mul_pos hpos hpos))
  push_cast at hr ⊢
  obtain ⟨k, hk⟩ := Int.eq_ofNat_of_zero_le hr
  rw [hk]
  norm_cast

/-! Elements and the integers they stand for (R47, R49). -/

theorem ElemTy.width_pos (t : ElemTy) : 0 < t.width := by cases t <;> decide

theorem ElemTy.toInt_eq_int (t : ElemTy) (n : Nat) : t.toInt n = t.int (BitVec.ofNat t.width n) := by
  unfold ElemTy.toInt ElemTy.int
  split
  · exact sextNat_eq_toInt _ _
  · rw [BitVec.toNat_ofNat]

theorem ElemTy.ofInt_eq_place (t : ElemTy) (i : Int) : t.ofInt i = t.place (BitVec.ofInt t.width i) := by
  simp only [ElemTy.ofInt, ElemTy.place, sextNat_eq_toInt, wrapNat_eq_toNat, BitVec.ofNat_toNat, BitVec.setWidth_eq]
  rfl

@[simp] theorem ElemTy.ofInt_int (t : ElemTy) (x : BitVec t.width) : BitVec.ofInt t.width (t.int x) = x := by
  unfold ElemTy.int
  split
  · exact BitVec.ofInt_toInt
  · rw [BitVec.ofInt_natCast, BitVec.ofNat_toNat, BitVec.setWidth_eq]

theorem ElemTy.ofInt_int_wide (t : ElemTy) (x : BitVec t.width) : BitVec.ofInt (2 * t.width) (t.int x) = t.wide x := by
  unfold ElemTy.int ElemTy.wide
  split
  · rfl
  · rw [BitVec.ofInt_natCast, BitVec.ofNat_toNat]

theorem ElemTy.int_of_signed {t : ElemTy} (h : t.signed = true) (x : BitVec t.width) : t.int x = x.toInt := if_pos h

theorem ElemTy.int_of_unsigned {t : ElemTy} (h : t.signed = false) (x : BitVec t.width) : t.int x = x.toNat := by
  simp [ElemTy.int, h]

theorem ElemTy.int_eq_zero (t : ElemTy) (x : BitVec t.width) : t.int x = 0 ↔ x = 0#_ := by
  cases h : t.signed with
  | true => rw [t.int_of_signed h, ← BitVec.toInt_inj, BitVec.toInt_zero]
  | false => rw [t.int_of_unsigned h, ← BitVec.toNat_inj, Int.natCast_eq_zero, BitVec.toNat_zero]

/-- The high half of the exact product is that of the product at twice the width. -/
theorem ElemTy.ofInt_mulh (t : ElemTy) (x y : BitVec t.width) :
    BitVec.ofInt t.width (t.int x * t.int y / ((2 ^ t.width : Nat) : Int)) =
      ((t.wide x * t.wide y) >>> t.width).setWidth t.width := by
  rw [ofInt_ediv_two_pow, BitVec.ofInt_mul, t.ofInt_int_wide, t.ofInt_int_wide]

theorem ElemTy.ofInt_abs {t : ElemTy} (h : t.signed = true) (x : BitVec t.width) :
    BitVec.ofInt t.width (if t.int x < 0 then -t.int x else t.int x) = x.abs := by
  have hneg : t.int x < 0 ↔ x.msb = true := by
    rw [t.int_of_signed h, BitVec.msb_eq_toInt, decide_eq_true_iff]
  rw [BitVec.abs_eq]
  simp only [hneg]
  split
  · rw [BitVec.ofInt_neg, t.ofInt_int]
  · exact t.ofInt_int x

theorem ElemTy.minInt_le_maxInt (t : ElemTy) : t.minInt ≤ t.maxInt := by
  have h1 : 0 < 2 ^ (t.width - 1) := Nat.two_pow_pos _
  have h2 : 0 < 2 ^ t.width := Nat.two_pow_pos _
  unfold ElemTy.minInt ElemTy.maxInt
  split <;> omega

theorem ElemTy.clampInt_eq (t : ElemTy) (i : Int) : t.clampInt i =
    (max t.minInt (min t.maxInt i), flagIf (decide (i < t.minInt ∨ t.maxInt < i)) fIsat) := by
  have h := t.minInt_le_maxInt
  unfold ElemTy.clampInt flagIf
  by_cases h1 : i < t.minInt
  · rw [if_pos h1, Int.min_eq_right (by omega), Int.max_eq_left (Int.le_of_lt h1)]
    simp [h1]
  by_cases h2 : i > t.maxInt
  · rw [if_neg h1, if_pos h2, Int.min_eq_left (by omega), Int.max_eq_right h]
    simp [h1, h2]
  · rw [if_neg h1, if_neg h2, Int.min_eq_right (by omega), Int.max_eq_right (by omega)]
    simp [h1, h2]

/-! Quotients and remainders (R299). -/

theorem ofInt_tdiv {w : Nat} (x y : BitVec w) : BitVec.ofInt w (x.toInt.tdiv y.toInt) = x.sdiv y :=
  BitVec.eq_of_toInt_eq (by rw [BitVec.toInt_ofInt, BitVec.toInt_sdiv])

theorem ofInt_tmod {w : Nat} (x y : BitVec w) : BitVec.ofInt w (x.toInt.tmod y.toInt) = x.srem y := by
  rw [← BitVec.toInt_srem, BitVec.ofInt_toInt]

/-- The most negative value by -1 wraps to itself. -/
theorem ElemTy.sdiv_of_overflow {t : ElemTy} (h : t.signed = true) {x y : BitVec t.width} (hx : x.toInt = t.minInt)
    (hy : y.toInt = -1) : x.sdiv y = x := by
  have hmin : x = BitVec.intMin t.width := by
    rw [ElemTy.minInt, if_pos h, Int.natCast_pow] at hx
    exact BitVec.eq_of_toInt_eq (hx.trans (BitVec.toInt_intMin_of_pos t.width_pos).symm)
  rw [← ofInt_tdiv, hy, Int.tdiv_neg, Int.tdiv_one, BitVec.ofInt_neg, BitVec.ofInt_toInt, hmin, BitVec.neg_intMin]

theorem srem_of_neg_one {w : Nat} {x y : BitVec w} (hy : y.toInt = -1) : x.srem y = 0#w := by
  rw [← ofInt_tmod, hy, Int.tmod_neg, Int.tmod_one]
  exact BitVec.ofInt_natCast w 0

theorem ElemTy.ofInt_divInt (t : ElemTy) (x y : BitVec t.width) :
    BitVec.ofInt t.width (Machine.divInt t (t.int x) (t.int y)) =
      if y = 0#_ then BitVec.allOnes t.width else if t.signed then x.sdiv y else x.udiv y := by
  simp only [Machine.divInt, t.int_eq_zero]
  by_cases hy : y = 0#_
  · rw [if_pos hy, if_pos hy, BitVec.ofInt_neg]
    exact BitVec.neg_one_eq_allOnes
  rw [if_neg hy, if_neg hy]
  cases h : t.signed with
  | true =>
    rw [t.int_of_signed h, t.int_of_signed h, if_pos rfl]
    split
    · next hover =>
      obtain ⟨hx, hneg⟩ := hover
      rw [BitVec.ofInt_toInt, t.sdiv_of_overflow h hx hneg]
    · exact ofInt_tdiv x y
  | false =>
    rw [t.int_of_unsigned h, t.int_of_unsigned h, if_neg (by omega), if_neg Bool.false_ne_true, ← Int.ofNat_tdiv,
      BitVec.ofInt_natCast]
    exact BitVec.udiv_def.symm

theorem ElemTy.ofInt_remInt (t : ElemTy) (x y : BitVec t.width) :
    BitVec.ofInt t.width (Machine.remInt t (t.int x) (t.int y)) =
      if y = 0#_ then x else if t.signed then x.srem y else x.umod y := by
  simp only [Machine.remInt, t.int_eq_zero]
  by_cases hy : y = 0#_
  · rw [if_pos hy, if_pos hy, t.ofInt_int]
  rw [if_neg hy, if_neg hy]
  cases h : t.signed with
  | true =>
    rw [t.int_of_signed h, t.int_of_signed h, if_pos rfl]
    split
    · next hover =>
      obtain ⟨-, hneg⟩ := hover
      rw [srem_of_neg_one hneg]
      exact BitVec.ofInt_natCast _ 0
    · exact ofInt_tmod x y
  | false =>
    rw [t.int_of_unsigned h, t.int_of_unsigned h, if_neg (by omega), if_neg Bool.false_ne_true, ← Int.ofNat_tmod,
      BitVec.ofInt_natCast]
    exact BitVec.umod_def.symm

/-! Types whose values fill their registers (R47, R294). -/

theorem ElemTy.full_of_inB {t : ElemTy} (h : t.inB = true) : t.width = 32 * t.regs := by
  revert h
  cases t <;> decide

theorem ElemTy.full_of_inW {t : ElemTy} (h : t.inW = true) : t.width = 32 * t.regs := by
  revert h
  cases t <;> decide

theorem ElemTy.signed_of_inS {t : ElemTy} (h : t.inS = true) : t.signed = true := by
  revert h
  cases t <;> decide

/-! Complement, shifts and rotation (R298, R301). -/

theorem bit_toNat {w : Nat} (x : BitVec w) (i : Nat) : bit x.toNat i = x.getLsbD i := Nat.testBit_eq_decide_div_mod_eq.symm

section
variable {w : Nat} (x y : BitVec w)

theorem notN_toNat : Machine.notN w x.toNat = (~~~x).toNat := by
  rw [Machine.notN, Nat.mod_eq_of_lt x.isLt, BitVec.toNat_not]

theorem shl_toNat (n : Nat) : (if n < w then x.toNat * 2 ^ n else 0) % 2 ^ w = (x <<< n).toNat := by
  split
  · rw [BitVec.toNat_shiftLeft, Nat.shiftLeft_eq]
  · rw [BitVec.shiftLeft_eq_zero (by omega), Nat.zero_mod, BitVec.toNat_zero]

theorem shr_toNat (n : Nat) : (if n < w then x.toNat / 2 ^ n else 0) = (x >>> n).toNat := by
  split
  · rw [BitVec.toNat_ushiftRight, Nat.shiftRight_eq_div_pow]
  · rw [BitVec.ushiftRight_eq_zero (by omega), BitVec.toNat_zero]

theorem sshiftRight_min (n : Nat) : x.sshiftRight (min n w) = x.sshiftRight n := by
  apply BitVec.eq_of_getElem_eq
  intro i hi
  have h : min n w + i < w ↔ n + i < w := by omega
  simp only [BitVec.getElem_sshiftRight, h]
  split
  · have : min n w = n := by omega
    simp only [this]
  · rfl

theorem sar_toNat (n : Nat) :
    wrapNat w (x.toInt / ((2 ^ min n w : Nat) : Int)) = (x.sshiftRight n).toNat := by
  rw [wrapNat_eq_toNat, ← Int.shiftRight_eq_div_pow, ← sshiftRight_min]
  rfl

theorem rol_toNat (hw : 0 < w) (n : Nat) :
    (x.toNat * 2 ^ (n % w) + x.toNat / 2 ^ (w - n % w)) % 2 ^ w = (x.rotateLeft n).toNat := by
  have hk : n % w < w := Nat.mod_lt _ hw
  have hlow : x.toNat >>> (w - n % w) < 2 ^ (n % w) := by
    rw [Nat.shiftRight_eq_div_pow, Nat.div_lt_iff_lt_mul (Nat.two_pow_pos _), ← Nat.pow_add, Nat.add_sub_cancel' (Nat.le_of_lt hk)]
    exact x.isLt
  have hlt : x.toNat >>> (w - n % w) < 2 ^ w := Nat.lt_of_le_of_lt (Nat.shiftRight_le _ _) x.isLt
  rw [BitVec.toNat_rotateLeft, ← Nat.shiftLeft_eq, ← Nat.shiftRight_eq_div_pow, Nat.shiftLeft_add_eq_or_of_lt hlow,
    Nat.or_mod_two_pow, Nat.mod_eq_of_lt hlt]

/-! Bit counts and reversal (R298). -/

theorem pop_toNat : ((List.range w).filter (bit x.toNat)).length = (List.range w).countP x.getLsbD := by
  rw [← List.countP_eq_length_filter]
  exact List.countP_congr (fun i _ => by rw [bit_toNat])

theorem clz_toNat (hw : 0 < w) : (if x.toNat = 0 then w else w - 1 - Nat.log2 x.toNat) = x.clz.toNat := by
  split
  · next h =>
    have hx : x = 0#w := BitVec.eq_of_toNat_eq (by simpa using h)
    simp [BitVec.clz_eq_iff_eq_zero.mpr hx]
  · next h =>
    have hx : x ≠ 0#w := fun e => h (by simp [e])
    have hlt : x.clz.toNat < w := by simpa [BitVec.lt_def] using BitVec.clz_lt_iff_ne_zero.mpr hx
    have hlog : x.toNat.log2 = w - 1 - x.clz.toNat := by
      rw [Nat.log2_eq_iff h, show w - 1 - x.clz.toNat + 1 = w - x.clz.toNat by omega]
      exact ⟨BitVec.two_pow_sub_clz_le_toNat_of_ne_zero hw hx, BitVec.toNat_lt_two_pow_sub_clz⟩
    omega

theorem ctz_toNat : ((List.range w).find? (bit x.toNat)).getD w = x.ctz.toNat := by
  by_cases hx : x = 0#w
  · have hz : x.ctz = w := by
      rw [BitVec.ctz_eq_reverse_clz, BitVec.clz_eq_iff_eq_zero, BitVec.reverse_eq_zero_iff, hx]
    have hnone : (List.range w).find? (bit x.toNat) = none := by
      rw [List.find?_eq_none]
      intro i _
      rw [bit_toNat, hx, BitVec.getLsbD_zero]
      exact Bool.false_ne_true
    simp [hnone, hz]
  · have hlt : x.ctz.toNat < w := by simpa [BitVec.lt_def] using BitVec.ctz_lt_iff_ne_zero.mpr hx
    have hsome : (List.range w).find? (bit x.toNat) = some x.ctz.toNat := by
      rw [List.find?_range_eq_some]
      refine ⟨?_, by simpa using hlt, fun j hj => ?_⟩
      · rw [bit_toNat]; exact BitVec.getLsbD_true_ctz_of_ne_zero hx
      · rw [bit_toNat, BitVec.getLsbD_false_of_lt_ctz hj]; rfl
    rw [hsome, Option.getD_some]

theorem testBit_foldl_bits (p : Nat → Bool) (n j : Nat) :
    ((List.range n).foldl (fun acc i => 2 * acc + (if p i then 1 else 0)) 0).testBit j =
      (decide (j < n) && p (n - 1 - j)) := by
  induction n generalizing j with
  | zero => simp
  | succ n ih =>
    rw [List.range_succ, List.foldl_append, List.foldl_cons, List.foldl_nil]
    cases j with
    | zero => cases h : p n <;> simp [h, Nat.testBit_zero]
    | succ j =>
      have hhalf : ∀ a, (2 * a + (if p n then 1 else 0)) / 2 = a := fun a => by split <;> omega
      rw [Nat.testBit_succ, hhalf, ih, show n + 1 - 1 - (j + 1) = n - 1 - j by omega]
      simp

theorem brev_toNat :
    (List.range w).foldl (fun acc i => 2 * acc + (if bit x.toNat i then 1 else 0)) 0 % 2 ^ w = x.reverse.toNat := by
  apply Nat.eq_of_testBit_eq
  intro j
  rw [Nat.testBit_mod_two_pow, testBit_foldl_bits, bit_toNat, BitVec.testBit_toNat, BitVec.getLsbD_reverse,
    BitVec.getMsbD_eq_getLsbD, ← Bool.and_assoc, Bool.and_self]

end

/-! Bit fields (R302). -/

theorem getLsbD_onesAt (w p n i : Nat) :
    (onesAt w p n).getLsbD i = (decide (i < w) && (decide (p ≤ i) && decide (i < p + n))) := by
  rw [onesAt, BitVec.getLsbD_shiftLeft, BitVec.getLsbD_setWidth, BitVec.getLsbD_allOnes]
  by_cases hw : i < w
  · by_cases hp : p ≤ i
    · have h1 : i - p < w := by omega
      have h2 : i - p < n ↔ i < p + n := by omega
      simp [hw, hp, h1, h2, Nat.not_lt.mpr hp]
    · simp [hp, Nat.lt_of_not_le hp]
  · simp [hw]

/-- A field inserted as a number, and by masks. -/
theorem insert_toNat {w : Nat} (x y : BitVec w) (p n : Nat) :
    (y.toNat - y.toNat / 2 ^ p % 2 ^ n * 2 ^ p + x.toNat % 2 ^ n * 2 ^ p) % 2 ^ w =
      ((y &&& ~~~(onesAt w p n)) ||| ((x <<< p) &&& onesAt w p n)).toNat := by
  have hsplit : y.toNat - y.toNat / 2 ^ p % 2 ^ n * 2 ^ p + x.toNat % 2 ^ n * 2 ^ p =
      2 ^ p * (2 ^ n * (y.toNat / 2 ^ p / 2 ^ n) + x.toNat % 2 ^ n) + y.toNat % 2 ^ p := by
    have hlow := Nat.div_add_mod y.toNat (2 ^ p)
    have hmid := Nat.div_add_mod (y.toNat / 2 ^ p) (2 ^ n)
    generalize y.toNat / 2 ^ p / 2 ^ n = q at *
    generalize y.toNat / 2 ^ p % 2 ^ n = r at *
    rw [← hmid, Nat.mul_add, Nat.mul_comm _ r] at hlow
    have hcut : y.toNat - r * 2 ^ p = 2 ^ p * (2 ^ n * q) + y.toNat % 2 ^ p :=
      Nat.sub_eq_of_eq_add (hlow.symm.trans (Nat.add_right_comm ..))
    rw [hcut, Nat.mul_add, Nat.mul_comm (x.toNat % 2 ^ n), Nat.add_right_comm]
  apply Nat.eq_of_testBit_eq
  intro i
  have hp : y.toNat % 2 ^ p < 2 ^ p := Nat.mod_lt _ (Nat.two_pow_pos _)
  have hn : x.toNat % 2 ^ n < 2 ^ n := Nat.mod_lt _ (Nat.two_pow_pos _)
  rw [hsplit, Nat.testBit_mod_two_pow, Nat.testBit_two_pow_mul_add _ hp, Nat.testBit_two_pow_mul_add _ hn]
  simp only [BitVec.testBit_toNat, BitVec.getLsbD_or, BitVec.getLsbD_and, BitVec.getLsbD_not, BitVec.getLsbD_shiftLeft,
    getLsbD_onesAt, Nat.testBit_mod_two_pow, Nat.testBit_div_two_pow]
  by_cases hw : i < w
  · by_cases h1 : i < p
    · simp [hw, h1, Nat.not_le.mpr h1]
    · by_cases h2 : i < p + n
      · simp [hw, h1, h2, show i - p < n by omega, show p ≤ i by omega]
      · simp [hw, h1, h2, show ¬ i - p < n by omega, show i - p - n + n + p = i by omega]
  · simp [hw]
/-- The field that a control register names: none, where its length, cut at the width, is zero. -/
theorem fieldOf_cases (w ctl : Nat) :
    (Machine.fieldOf w ctl = none ∧ min (ctl / 256 % 256) (w - ctl % 256) = 0) ∨
      Machine.fieldOf w ctl = some (ctl % 256, min (ctl / 256 % 256) (w - ctl % 256)) := by
  simp only [Machine.fieldOf]
  split
  · exact .inl ⟨rfl, by omega⟩
  · exact .inr rfl

theorem ElemTy.fit_of_empty (t : ElemTy) {n : Nat} (h : n = 0) (x : BitVec n) : t.fit x = 0#_ := by
  subst h
  rw [BitVec.eq_nil x, ElemTy.fit]
  split
  · exact BitVec.ofInt_natCast _ 0
  · rfl

theorem ElemTy.fit_extract_toNat (t : ElemTy) (x : BitVec t.width) (p n : Nat) :
    (if t.signed then wrapNat t.width (sextNat n (x.toNat / 2 ^ p % 2 ^ n)) else x.toNat / 2 ^ p % 2 ^ n) % 2 ^ t.width =
      (t.fit (x.extractLsb' p n)).toNat := by
  rw [← Nat.shiftRight_eq_div_pow, ← BitVec.extractLsb'_toNat, sextNat_toNat, wrapNat_eq_toNat, ElemTy.fit]
  split
  · exact Nat.mod_eq_of_lt (BitVec.isLt _)
  · exact (BitVec.toNat_setWidth ..).symm

end Sys2Proof
end

section
/-! PROOFS. The integer and logic instructions, lane by lane (spec 14_isa_vector R297-R303). -/
namespace Sys2Proof.Machine

/-! What the shapes of these instructions read and write. -/

theorem Group.foldr_words_lt (g : Group) (r l : Nat) (is : List Nat) :
    is.foldr (fun i acc => (g.rd (if r ≥ 384 then r else r + i) l).toNat + 2 ^ 32 * acc) 0 < 2 ^ (32 * is.length) := by
  induction is with
  | nil => simp
  | cons i is ih =>
    rw [List.foldr_cons, List.length_cons, Nat.mul_succ, Nat.pow_add]
    have := (g.rd (if r ≥ 384 then r else r + i) l).isLt
    omega

theorem Group.rdN_lt (g : Group) (r n l : Nat) : g.rdN r n l < 2 ^ (32 * n) := by
  simpa [Group.rdN] using g.foldr_words_lt r l (List.range n)

section
variable {v : View} {sp : Split} {ty : ElemTy} {d a b l : Nat}

theorem View.toInt_with_rdT : ty.toInt ((v.with sp).rdT ty a l) = ty.int (v.elem ty a l) :=
  ty.toInt_eq_int _

/-- An element of a type that fills its registers is all that they hold. -/
theorem View.with_rdT_of_full (hw : ty.width = 32 * ty.regs) : (v.with sp).rdT ty a l = (v.elem ty a l).toNat := by
  have hlt : v.g.rdT ty a l < 2 ^ ty.width := hw ▸ v.g.rdN_lt a ty.regs l
  rw [View.elem, BitVec.toNat_ofNat, Nat.mod_eq_of_lt hlt, View.with_rdT]

theorem int2_with (op : Int → Int → Int) : int2 ty d a b op (v.with sp) l =
    (writesN l d ty.regs (ty.place (BitVec.ofInt ty.width (op (ty.int (v.elem ty a l)) (ty.int (v.elem ty b l))))), 0#7) := by
  rw [int2, View.toInt_with_rdT, View.toInt_with_rdT, ty.ofInt_eq_place]
  rfl

theorem int1_with (op : Int → Int) : int1 ty d a op (v.with sp) l =
    (writesN l d ty.regs (ty.place (BitVec.ofInt ty.width (op (ty.int (v.elem ty a l))))), 0#7) := by
  rw [int1, View.toInt_with_rdT, ty.ofInt_eq_place]
  rfl

theorem sat2_with (op : Int → Int → Int) : sat2 ty d a b op (v.with sp) l =
    (writesN l d ty.regs (ty.place (BitVec.ofInt ty.width
        (max ty.minInt (min ty.maxInt (op (ty.int (v.elem ty a l)) (ty.int (v.elem ty b l))))))),
      flagIf (decide (op (ty.int (v.elem ty a l)) (ty.int (v.elem ty b l)) < ty.minInt ∨
        ty.maxInt < op (ty.int (v.elem ty a l)) (ty.int (v.elem ty b l)))) fIsat) := by
  rw [sat2, View.toInt_with_rdT, View.toInt_with_rdT, ty.clampInt_eq, ty.ofInt_eq_place]
  rfl

theorem bits2_with (hw : ty.width = 32 * ty.regs) (op : Nat → Nat → Nat) : bits2 ty d a b op (v.with sp) l =
    (writesN l d ty.regs (op (v.elem ty a l).toNat (v.elem ty b l).toNat % 2 ^ ty.width), 0#7) := by
  rw [bits2, View.with_rdT_of_full hw, View.with_rdT_of_full hw]
  rfl

theorem bits1_with (hw : ty.width = 32 * ty.regs) (op : Nat → Nat) : bits1 ty d a op (v.with sp) l =
    (writesN l d ty.regs (op (v.elem ty a l).toNat % 2 ^ ty.width), 0#7) := by
  rw [bits1, View.with_rdT_of_full hw]
  rfl

theorem bitsN_with (hw : ty.width = 32 * ty.regs) (op : Nat → Nat → Nat) : bitsN ty d a b op (v.with sp) l =
    (writesN l d ty.regs (op (v.elem ty a l).toNat (v.g.rd b l).toNat % 2 ^ ty.width), 0#7) := by
  rw [bitsN, View.with_rdT_of_full hw]
  rfl

theorem count1_with (hw : ty.width = 32 * ty.regs) (op : Nat → Nat) : count1 ty d a op (v.with sp) l =
    (writesN l d 1 (op (v.elem ty a l).toNat), 0#7) := by
  rw [count1, View.with_rdT_of_full hw]
  rfl

end

theorem Ready.wf {i : Instr} {s : State} {v : View} (hr : Ready i s v) : i.wf = true := by
  obtain ⟨-, hwf, -⟩ := hr
  exact hwf

theorem type_of_fa3 {h : Hdr} {c : Bool} {d a b : Nat} (hwf : fa3 h c d a b = true) : c = true := by
  simp only [fa3, Bool.and_eq_true] at hwf
  obtain ⟨⟨⟨⟨-, hc⟩, -⟩, -⟩, -⟩ := hwf
  exact hc

theorem type_of_fa2 {h : Hdr} {c : Bool} {d a : Nat} (hwf : fa2 h c d a = true) : c = true := by
  simp only [fa2, Bool.and_eq_true] at hwf
  obtain ⟨⟨⟨-, hc⟩, -⟩, -⟩ := hwf
  exact hc

theorem type_of_fa4 {h : Hdr} {ok : Bool} {d a b c : Nat} (hwf : fa4 h ok d a b c = true) : ok = true := by
  simp only [fa4, Bool.and_eq_true] at hwf
  exact type_of_fa3 hwf.1

theorem full_of_fa3 {h : Hdr} {ty : ElemTy} {d a b : Nat} (hwf : fa3 h ty.inB d a b = true) : ty.width = 32 * ty.regs :=
  ElemTy.full_of_inB (type_of_fa3 hwf)

theorem full_of_fa2 {h : Hdr} {ty : ElemTy} {d a : Nat} (hwf : fa2 h ty.inB d a = true) : ty.width = 32 * ty.regs :=
  ElemTy.full_of_inB (type_of_fa2 hwf)

section
variable {i : Instr} {s : State} {v : View} {h : Hdr} {d n : Nat} {val : Nat → Nat}

/-- An instruction that sets no flag, by the value that each lane writes into n registers. -/
theorem alu_computes_silent {f : Group → Nat → RegWrites × FFlags} (hr : Ready i s v) (he : exec i s = alu i h s f)
    (hf : ∀ l, f (v.with (v.issued i)) l = (writesN l d n (val l), 0#7)) : Computes i s v (v.part h) d n val 0 := by
  have hc := alu_computes hr f he d n val (fun _ => 0#7) hf
  rwa [flagsOf_zero] at hc

/-- An instruction that sets isat in some lanes. -/
theorem alu_computes_isat {f : Group → Nat → RegWrites × FFlags} {c : Nat → Bool} (hr : Ready i s v)
    (he : exec i s = alu i h s f) (hf : ∀ l, f (v.with (v.issued i)) l = (writesN l d n (val l), flagIf (c l) fIsat)) :
    Computes i s v (v.part h) d n val (flagWhere (v.part h) c fIsat) := by
  have hc := alu_computes hr f he d n val (fun l => flagIf (c l) fIsat) hf
  rwa [flagsOf_flagIf] at hc

/-- A long-latency instruction that sets no flag. -/
theorem aluLong_owes_silent {f : Group → Nat → RegWrites × FFlags} (hr : Ready i s v)
    (he : exec i s = aluLong i h s (fun w => f w.g))
    (hf : ∀ l, f (v.with (v.issued i)) l = (writesN l d n (val l), 0#7)) :
    Leaves i s v (v.owing i h.sflag (laneWrites (v.part h) d n val) 0) := by
  have hc := aluLong_owes hr _ he d n val (fun _ => 0#7) hf
  rwa [flagsOf_zero] at hc

end

/-! An index and a constant, extended (R298, R303). -/

theorem ofInt_index (u : Bool) (x : Word) :
    BitVec.ofInt 64 (if u then (x.toNat : Int) else x.toInt) = if u then x.setWidth 64 else x.signExtend 64 := by
  cases u with
  | true => rw [if_pos rfl, if_pos rfl, BitVec.ofInt_natCast, BitVec.ofNat_toNat]
  | false => rfl

theorem moviBits_eq_place {ty : ElemTy} {imm : Nat} (h : imm < 2 ^ 32) :
    moviBits ty imm = ty.place (ty.fit (BitVec.ofNat 32 imm)) := by
  unfold moviBits
  cases hs : ty.signed with
  | true =>
    rw [if_pos rfl, ty.ofInt_eq_place, sextNat_eq_toInt, ElemTy.fit, if_pos hs]
    rfl
  | false => simp [ElemTy.place, ElemTy.fit, hs, show imm % 4294967296 = imm from Nat.mod_eq_of_lt h]

/-! What each instruction runs. -/

section
variable (h : Hdr) (ty : ElemTy) (op : CmpOp) (d a b c imm : Nat) (s : State)

theorem exec_add : exec (.add h ty d a b) s = execAdd h ty d a b s := rfl
theorem exec_sub : exec (.sub h ty d a b) s = execSub h ty d a b s := rfl
theorem exec_mul : exec (.mul h ty d a b) s = execMul h ty d a b s := rfl
theorem exec_mulh : exec (.mulh h ty d a b) s = execMulh h ty d a b s := rfl
theorem exec_mad : exec (.mad h ty d a b c) s = execMad h ty d a b c s := rfl
theorem exec_div : exec (.div h ty d a b) s = execDiv h ty d a b s := rfl
theorem exec_rem : exec (.rem h ty d a b) s = execRem h ty d a b s := rfl
theorem exec_abs : exec (.abs h ty d a) s = execAbs h ty d a s := rfl
theorem exec_neg : exec (.neg h ty d a) s = execNeg h ty d a s := rfl
theorem exec_min : exec (.min h ty d a b) s = execMin h ty d a b s := rfl
theorem exec_max : exec (.max h ty d a b) s = execMax h ty d a b s := rfl
theorem exec_clamp : exec (.clamp h ty d a b c) s = execClamp h ty d a b c s := rfl
theorem exec_addsat : exec (.addsat h ty d a b) s = execAddsat h ty d a b s := rfl
theorem exec_subsat : exec (.subsat h ty d a b) s = execSubsat h ty d a b s := rfl
theorem exec_and : exec (.and h ty d a b) s = execAnd h ty d a b s := rfl
theorem exec_or : exec (.or h ty d a b) s = execOr h ty d a b s := rfl
theorem exec_xor : exec (.xor h ty d a b) s = execXor h ty d a b s := rfl
theorem exec_not : exec (.not h ty d a) s = execNot h ty d a s := rfl
theorem exec_andn : exec (.andn h ty d a b) s = execAndn h ty d a b s := rfl
theorem exec_shl : exec (.shl h ty d a b) s = execShl h ty d a b s := rfl
theorem exec_shr : exec (.shr h ty d a b) s = execShr h ty d a b s := rfl
theorem exec_sar : exec (.sar h ty d a b) s = execSar h ty d a b s := rfl
theorem exec_rol : exec (.rol h ty d a b) s = execRol h ty d a b s := rfl
theorem exec_bfx : exec (.bfx h ty d a b) s = execBfx h ty d a b s := rfl
theorem exec_bfi : exec (.bfi h ty d a b c) s = execBfi h ty d a b c s := rfl
theorem exec_pop : exec (.pop h ty d a) s = execPop h ty d a s := rfl
theorem exec_clz : exec (.clz h ty d a) s = execClz h ty d a s := rfl
theorem exec_ctz : exec (.ctz h ty d a) s = execCtz h ty d a s := rfl
theorem exec_brev : exec (.brev h ty d a) s = execBrev h ty d a s := rfl
theorem exec_sel : exec (.sel h ty d a b c) s = execSel h ty d a b c s := rfl
theorem exec_cmp : exec (.cmp h ty op d a b) s = execCmp h ty op d a b s := rfl
theorem exec_lea : exec (.lea h ty d a b) s = execLea h ty d a b s := rfl
theorem exec_mov : exec (.mov h ty d a) s = execMov h ty d a s := rfl
theorem exec_movi : exec (.movi h ty d imm) s = execMovi h ty d imm s := rfl

end

/-! Fields, selections, addresses and constants (R298, R302, R303). -/

section
variable {s : State} {v : View} {h : Hdr} {ty : ElemTy} {d a b c imm : Nat}

theorem bfx_computes (hr : Ready (.bfx h ty d a b) s v) : Computes (.bfx h ty d a b) s v (v.part h) d ty.regs
    (fun l => (ty.fit ((v.elem ty a l).extractLsb' ((v.g.rd b l).toNat % 256)
      (min ((v.g.rd b l).toNat / 256 % 256) (ty.width - (v.g.rd b l).toNat % 256)))).toNat) 0 := by
  refine alu_computes_silent hr (exec_bfx ..) fun l => ?_
  rw [bitsN_with (ElemTy.full_of_inW (type_of_fa3 hr.wf))]
  rcases fieldOf_cases ty.width (v.g.rd b l).toNat with ⟨hnone, hlen⟩ | hsome
  · simp only [hnone, ty.fit_of_empty hlen, BitVec.toNat_zero, Nat.zero_mod]
  · simp only [hsome, ty.fit_extract_toNat]

theorem bfi_computes (hr : Ready (.bfi h ty d a b c) s v) : Computes (.bfi h ty d a b c) s v (v.part h) d ty.regs
    (fun l => ((v.elem ty c l &&& ~~~(onesAt ty.width ((v.g.rd b l).toNat % 256)
        (min ((v.g.rd b l).toNat / 256 % 256) (ty.width - (v.g.rd b l).toNat % 256)))) |||
      ((v.elem ty a l <<< ((v.g.rd b l).toNat % 256)) &&& onesAt ty.width ((v.g.rd b l).toNat % 256)
        (min ((v.g.rd b l).toNat / 256 % 256) (ty.width - (v.g.rd b l).toNat % 256)))).toNat) 0 := by
  have hfull := ElemTy.full_of_inB (type_of_fa4 hr.wf)
  refine alu_computes_silent hr (exec_bfi ..) fun l => ?_
  rw [bitsN_with hfull, View.with_rdT_of_full hfull, ← insert_toNat]
  rcases fieldOf_cases ty.width (v.g.rd b l).toNat with ⟨hnone, hlen⟩ | hsome
  · simp only [hnone, hlen, Nat.pow_zero, Nat.mod_one, Nat.zero_mul, Nat.sub_zero, Nat.add_zero]
  · simp only [hsome]

theorem sel_computes (hr : Ready (.sel h ty d a b c) s v) : Computes (.sel h ty d a b c) s v (v.part h) d ty.regs
    (fun l => if v.g.rd c l ≠ 0 then v.g.rdT ty a l else v.g.rdT ty b l) 0 :=
  alu_computes_silent hr (exec_sel ..) fun l =>
    congrArg (fun x => (writesN l d ty.regs x, 0#7)) (apply_ite (v.g.rdT ty · l) _ a b)

theorem lea_computes (hr : Ready (.lea h ty d a b) s v) : Computes (.lea h ty d a b) s v (v.part h) d 2
    (fun l => (v.g.rd64 a l + (if unsignedIdx ty then (v.g.rd b l).setWidth 64 else (v.g.rd b l).signExtend 64) *
      BitVec.ofNat 64 (ty.width / 8)).toNat) 0 := by
  refine alu_computes_silent hr (exec_lea ..) fun l => ?_
  simp only [View.with_rd, View.with_rdN, wrapNat_eq_toNat, BitVec.ofInt_add, BitVec.ofInt_mul, BitVec.ofInt_natCast,
    ofInt_index]
  rfl

theorem imm_lt_of_movi_wf (hwf : (Instr.movi h ty d imm).wf = true) : imm < 2 ^ 32 := by
  change (h.ok && h.noFlag && ty.inMovi && regOk d && decide (imm < 2 ^ 32)) = true at hwf
  rw [Bool.and_eq_true, decide_eq_true_eq] at hwf
  exact hwf.2

theorem movi_computes (hr : Ready (.movi h ty d imm) s v) : Computes (.movi h ty d imm) s v (v.part h) d ty.regs
    (fun _ => ty.place (ty.fit (BitVec.ofNat 32 imm))) 0 :=
  alu_computes_silent hr (exec_movi ..) fun l =>
    congrArg (fun x => (writesN l d ty.regs x, 0#7)) (moviBits_eq_place (imm_lt_of_movi_wf hr.wf))

end

end Sys2Proof.Machine
end

section
/-! PROOFS. Integer arithmetic, logic and moves, and division (spec 14_isa_vector R298-R303). -/
open Sys2Proof Sys2Proof.Machine

/-- Settles O1: the integers that the elements stand for are computed exactly, then wrapped or clamped (R298, R300). -/
theorem integerArithmeticIsExact : Obligations.IntegerArithmeticIsExact := by
  unfold Obligations.IntegerArithmeticIsExact
  refine ⟨fun s v h ty d a b c => ⟨?_, ?_, ?_, ?_, ?_, ?_, ?_⟩, fun s v h ty d a b c => ?_⟩
  · exact fun hr => alu_computes_silent hr (exec_add ..) fun l => by
      rw [int2_with, BitVec.ofInt_add, ty.ofInt_int, ty.ofInt_int]
  · exact fun hr => alu_computes_silent hr (exec_sub ..) fun l => by
      rw [int2_with, ofInt_sub, ty.ofInt_int, ty.ofInt_int]
  · exact fun hr => alu_computes_silent hr (exec_mul ..) fun l => by
      rw [int2_with, BitVec.ofInt_mul, ty.ofInt_int, ty.ofInt_int]
  · exact fun hr => alu_computes_silent hr (exec_mulh ..) fun l => by
      rw [int2_with, ty.ofInt_mulh]
  · exact fun hr => alu_computes_silent hr (exec_mad ..) fun l => by
      rw [int2_with, BitVec.ofInt_add, BitVec.ofInt_mul, View.toInt_with_rdT, ty.ofInt_int, ty.ofInt_int, ty.ofInt_int]
  · exact fun hr => alu_computes_silent hr (exec_neg ..) fun l => by
      rw [int1_with, BitVec.ofInt_neg, ty.ofInt_int]
  · exact fun hr => alu_computes_silent hr (exec_abs ..) fun l => by
      rw [int1_with, ty.ofInt_abs (ElemTy.signed_of_inS (type_of_fa2 hr.wf))]
  · refine ⟨fun hr => ?_, fun hr => ?_, fun hr => ?_, fun hr => ?_, fun hr => ?_⟩
    · exact alu_computes_silent hr (exec_min ..) fun l => int2_with _
    · exact alu_computes_silent hr (exec_max ..) fun l => int2_with _
    · refine alu_computes_isat hr (exec_clamp ..) fun l => ?_
      simp only [View.toInt_with_rdT, ty.ofInt_eq_place]
      rfl
    · exact alu_computes_isat hr (exec_addsat ..) fun l => sat2_with _
    · exact alu_computes_isat hr (exec_subsat ..) fun l => sat2_with _

/-- Settles O2: the model's arithmetic on register contents is what the operations of bit vectors do (R298, R301-R303). -/
theorem logicShiftsAndMoves : Obligations.LogicShiftsAndMoves := by
  unfold Obligations.LogicShiftsAndMoves
  refine ⟨fun s v h ty d a b => ?_, fun s v h ty d a b c => ?_, fun s v h ty op d a b c imm => ?_⟩
  · refine ⟨fun hr => ?_, fun hr => ?_, fun hr => ?_, fun hr => ?_, fun hr => ?_, fun hr => ?_, fun hr => ?_, fun hr => ?_,
      fun hr => ?_⟩
    · exact alu_computes_silent hr (exec_and ..) fun l => by
        rw [bits2_with (full_of_fa3 hr.wf), ← BitVec.toNat_and, BitVec.toNat_mod_cancel]
    · exact alu_computes_silent hr (exec_or ..) fun l => by
        rw [bits2_with (full_of_fa3 hr.wf), ← BitVec.toNat_or, BitVec.toNat_mod_cancel]
    · exact alu_computes_silent hr (exec_xor ..) fun l => by
        rw [bits2_with (full_of_fa3 hr.wf), ← BitVec.toNat_xor, BitVec.toNat_mod_cancel]
    · exact alu_computes_silent hr (exec_not ..) fun l => by
        rw [bits1_with (full_of_fa2 hr.wf), notN_toNat, BitVec.toNat_mod_cancel]
    · exact alu_computes_silent hr (exec_andn ..) fun l => by
        rw [bits2_with (full_of_fa3 hr.wf), notN_toNat, ← BitVec.toNat_and, BitVec.toNat_mod_cancel]
    · exact alu_computes_silent hr (exec_shl ..) fun l => by
        rw [bitsN_with (full_of_fa3 hr.wf), shl_toNat]
    · exact alu_computes_silent hr (exec_shr ..) fun l => by
        rw [bitsN_with (full_of_fa3 hr.wf), shr_toNat, BitVec.toNat_mod_cancel]
    · exact alu_computes_silent hr (exec_sar ..) fun l => by
        rw [bitsN_with (full_of_fa3 hr.wf), sextNat_toNat, sar_toNat, BitVec.toNat_mod_cancel]
    · exact alu_computes_silent hr (exec_rol ..) fun l => by
        rw [bitsN_with (full_of_fa3 hr.wf), rol_toNat _ ty.width_pos]
  · refine ⟨fun hr => ?_, fun hr => ?_, fun hr => ?_, fun hr => ?_, fun hr => ?_, fun hr => ?_⟩
    · exact bfx_computes hr
    · exact bfi_computes hr
    · exact alu_computes_silent hr (exec_pop ..) fun l => by
        rw [count1_with (full_of_fa2 hr.wf), pop_toNat]
    · exact alu_computes_silent hr (exec_clz ..) fun l => by
        rw [count1_with (full_of_fa2 hr.wf), clz_toNat _ ty.width_pos]
    · exact alu_computes_silent hr (exec_ctz ..) fun l => by
        rw [count1_with (full_of_fa2 hr.wf), ctz_toNat, BitVec.ctz_eq_reverse_clz]
    · exact alu_computes_silent hr (exec_brev ..) fun l => by
        rw [bits1_with (full_of_fa2 hr.wf), brev_toNat]
  · refine ⟨fun hr => ?_, fun hr => ?_, fun hr => ?_, fun hr => ?_, fun hr => ?_⟩
    · exact sel_computes hr
    · exact alu_computes_silent hr (exec_cmp ..) fun l => by
        simp only [View.toInt_with_rdT]
        cases op <;> rfl
    · exact lea_computes hr
    · exact alu_computes_silent hr (exec_mov ..) fun l => rfl
    · exact movi_computes hr

/-- Settles O3: the quotient and the remainder of the model are those of bit vectors, special cases included (R299). -/
theorem divisionTruncates : Obligations.DivisionTruncates := by
  unfold Obligations.DivisionTruncates
  refine fun s v h ty d a b => ⟨fun hr => ?_, fun hr => ?_⟩
  · exact aluLong_owes_silent hr (exec_div ..) fun l => by rw [int2_with, ty.ofInt_divInt]; rfl
  · exact aluLong_owes_silent hr (exec_rem ..) fun l => by rw [int2_with, ty.ofInt_remInt]; rfl
end
